-- ==== Sys2Proof/Word.lean ====
section
/-! DEFINITION. The word type of the block: every host register and every bus data byte is 8 bits wide
(00_scope.md R9), bit 0 the least significant (R10). -/

namespace Sys2Proof

/-- A byte: 8 bits, unsigned, bit 0 least significant (R9, R10). -/
abbrev Byte := BitVec 8

/-- A chip register number: 6 bits (R9). -/
abbrev RegNumber := BitVec 6

end Sys2Proof
end

