-- ==== Sys2Proof/Config.lean ====
section
/-! DEFINITION. The parameters of the block with their defaults (00_scope.md R8), the chip register names
(20_memory.md R73), and the one free value of the model: the byte the environment answers to a bus read. -/

namespace Sys2Proof

/-- The chip registers by name (R73). A transaction names its register; the number is a parameter. DESIGN CHOICE: the
14 of R70's 64 registers that R73 marks reserved (0x00, 0x0F, 0x10, 0x1A, 0x1B, 0x1E, 0x20, 0x23, 0x25, 0x30 and
0x3C to 0x3F by default) have no name here. R74 bars only the block from them; so the turn of another bus master cannot
address one either (log entry 28). -/
inductive ChipReg where
  | commandReg | comIEnReg | divIEnReg | comIrqReg | divIrqReg | errorReg | status1Reg | status2Reg
  | fifoDataReg | fifoLevelReg | waterLevelReg | controlReg | bitFramingReg | collReg
  | modeReg | txModeReg | rxModeReg | txControlReg | txASKReg
  | txSelReg | rxSelReg | rxThresholdReg | demodReg | mfTxReg | mfRxReg | serialSpeedReg
  | crcResultRegH | crcResultRegL | modWidthReg
  | rfCfgReg | gsNReg | cwGsPReg | modGsPReg
  | tModeReg | tPrescalerReg | tReloadRegH | tReloadRegL | tCounterValueRegH | tCounterValueRegL
  | testSel1Reg | testSel2Reg | testPinEnReg | testPinValueReg | testBusReg | autoTestReg
  | versionReg | analogTestReg | testDAC1Reg | testDAC2Reg | testADCReg
  deriving DecidableEq, Repr

/-- Every chip register name, once. -/
def ChipReg.all : List ChipReg :=
  [ .commandReg, .comIEnReg, .divIEnReg, .comIrqReg, .divIrqReg, .errorReg, .status1Reg, .status2Reg,
    .fifoDataReg, .fifoLevelReg, .waterLevelReg, .controlReg, .bitFramingReg, .collReg,
    .modeReg, .txModeReg, .rxModeReg, .txControlReg, .txASKReg,
    .txSelReg, .rxSelReg, .rxThresholdReg, .demodReg, .mfTxReg, .mfRxReg, .serialSpeedReg,
    .crcResultRegH, .crcResultRegL, .modWidthReg, .rfCfgReg, .gsNReg, .cwGsPReg, .modGsPReg,
    .tModeReg, .tPrescalerReg, .tReloadRegH, .tReloadRegL, .tCounterValueRegH, .tCounterValueRegL,
    .testSel1Reg, .testSel2Reg, .testPinEnReg, .testPinValueReg, .testBusReg, .autoTestReg,
    .versionReg, .analogTestReg, .testDAC1Reg, .testDAC2Reg, .testADCReg ]

/-- Parameter `CHIP_REG`: a 6-bit number per register name (R8, R73). -/
abbrev ChipRegMap := List (ChipReg × RegNumber)

/-- The default of `CHIP_REG`: the table of R73. -/
def ChipRegMap.default : ChipRegMap :=
  [ (.commandReg, 0x01), (.comIEnReg, 0x02), (.divIEnReg, 0x03), (.comIrqReg, 0x04), (.divIrqReg, 0x05),
    (.errorReg, 0x06), (.status1Reg, 0x07), (.status2Reg, 0x08), (.fifoDataReg, 0x09), (.fifoLevelReg, 0x0A),
    (.waterLevelReg, 0x0B), (.controlReg, 0x0C), (.bitFramingReg, 0x0D), (.collReg, 0x0E),
    (.modeReg, 0x11), (.txModeReg, 0x12), (.rxModeReg, 0x13), (.txControlReg, 0x14), (.txASKReg, 0x15),
    (.txSelReg, 0x16), (.rxSelReg, 0x17), (.rxThresholdReg, 0x18), (.demodReg, 0x19),
    (.mfTxReg, 0x1C), (.mfRxReg, 0x1D), (.serialSpeedReg, 0x1F),
    (.crcResultRegH, 0x21), (.crcResultRegL, 0x22), (.modWidthReg, 0x24), (.rfCfgReg, 0x26), (.gsNReg, 0x27),
    (.cwGsPReg, 0x28), (.modGsPReg, 0x29), (.tModeReg, 0x2A), (.tPrescalerReg, 0x2B), (.tReloadRegH, 0x2C),
    (.tReloadRegL, 0x2D), (.tCounterValueRegH, 0x2E), (.tCounterValueRegL, 0x2F),
    (.testSel1Reg, 0x31), (.testSel2Reg, 0x32), (.testPinEnReg, 0x33), (.testPinValueReg, 0x34),
    (.testBusReg, 0x35), (.autoTestReg, 0x36), (.versionReg, 0x37), (.analogTestReg, 0x38),
    (.testDAC1Reg, 0x39), (.testDAC2Reg, 0x3A), (.testADCReg, 0x3B) ]

/-- Parameter `PCD_CMD_*`: the chip command codes (R8, R106). -/
structure PcdCodes where
  idle : Byte
  mem : Byte
  generateRandomId : Byte
  calcCrc : Byte
  transmit : Byte
  noCmdChange : Byte
  receive : Byte
  transceive : Byte
  mfAuthent : Byte
  softReset : Byte
  deriving DecidableEq, Repr

/-- The default chip command codes: the table of R106. -/
def PcdCodes.default : PcdCodes :=
  { idle := 0x00, mem := 0x01, generateRandomId := 0x02, calcCrc := 0x03, transmit := 0x04,
    noCmdChange := 0x07, receive := 0x08, transceive := 0x0C, mfAuthent := 0x0E, softReset := 0x0F }

/-- Parameter `PICC_CMD_*`: the card command bytes (R8, R107). -/
structure PiccCodes where
  reqa : Byte
  wupa : Byte
  cascadeTag : Byte
  selCl1 : Byte
  selCl2 : Byte
  selCl3 : Byte
  nvbSelect : Byte
  hlta : Byte
  mfRead : Byte
  mfAuthKeyA : Byte
  mfAuthKeyB : Byte
  deriving DecidableEq, Repr

/-- The default card command bytes: the table of R107. -/
def PiccCodes.default : PiccCodes :=
  { reqa := 0x26, wupa := 0x52, cascadeTag := 0x88, selCl1 := 0x93, selCl2 := 0x95, selCl3 := 0x97,
    nvbSelect := 0x70, hlta := 0x50, mfRead := 0x30, mfAuthKeyA := 0x60, mfAuthKeyB := 0x61 }

/-- The register bit masks and written values (R8, R75). DESIGN CHOICE: of R75's row BITFRAMING only StartSend is a
parameter here, by its own row START_SEND; the places of TxLastBits and RxAlign, of which R8 does not say whether they
may be overridden with the masks, are those of R108, in `Machine.bitFraming` (log entry 31). -/
structure ChipMasks where
  irqClearAll : Byte
  irqTimer : Byte
  waitTransceive : Byte
  waitAuth : Byte
  divCrcIrq : Byte
  errFraming : Byte
  errColl : Byte
  fifoFlush : Byte
  fifoLevel : Byte
  rxLastBits : Byte
  startSend : Byte
  collValuesAfter : Byte
  collPosNotValid : Byte
  collPos : Byte
  crypto1On : Byte
  txRfEn : Byte
  deriving DecidableEq, Repr

/-- The default masks and values: the table of R75. -/
def ChipMasks.default : ChipMasks :=
  { irqClearAll := 0x7F, irqTimer := 0x01, waitTransceive := 0x30, waitAuth := 0x10, divCrcIrq := 0x04,
    errFraming := 0x13, errColl := 0x08, fifoFlush := 0x80, fifoLevel := 0x7F, rxLastBits := 0x07,
    startSend := 0x80, collValuesAfter := 0x80, collPosNotValid := 0x20, collPos := 0x1F,
    crypto1On := 0x08, txRfEn := 0x03 }

/-- The CardType categories (R44). -/
inductive CardType where
  | unknown | iso14443_4 | iso18092 | mifareMini | mifare1K | mifare4K | mifareUL | mifarePlus | tnp3xxx
  | notComplete
  deriving DecidableEq, Repr

/-- Parameter `CARD_TYPE_TABLE`: SAK (bit 7 masked off) to category (R8, R44). DESIGN CHOICE: of an overriding table R8
says only "SAK to code". Here it may use the ten categories of R44 with their codes 0 to 9 and no other code, a value it
does not list is unknown, code 0, and of two rows for one value the first counts (log entry 29). -/
abbrev CardTypeTable := List (Byte × CardType)

/-- The default of `CARD_TYPE_TABLE`: the table of R44; a value it does not list is unknown. -/
def CardTypeTable.default : CardTypeTable :=
  [ (0x20, .iso14443_4), (0x40, .iso18092), (0x09, .mifareMini), (0x08, .mifare1K), (0x18, .mifare4K),
    (0x00, .mifareUL), (0x10, .mifarePlus), (0x11, .mifarePlus), (0x01, .tnp3xxx), (0x04, .notComplete) ]

/-- The parameters of R8. No step changes them; a statement over every state is one over every choice. -/
structure Params where
  irqPollBudget : Nat
  crcPollBudget : Nat
  txbufSize : Nat
  rxbufSize : Nat
  reqReplyCap : Nat
  modWidthValue : Byte
  chipReg : ChipRegMap
  pcd : PcdCodes
  picc : PiccCodes
  mask : ChipMasks
  cardTypeTable : CardTypeTable
  deriving DecidableEq, Repr

/-- The defaults of R8. -/
def Params.default : Params :=
  { irqPollBudget := 2000, crcPollBudget := 5000, txbufSize := 64, rxbufSize := 64, reqReplyCap := 64,
    modWidthValue := 0x26, chipReg := ChipRegMap.default, pcd := PcdCodes.default, picc := PiccCodes.default,
    mask := ChipMasks.default, cardTypeTable := CardTypeTable.default }

/-- FREE VALUE. The byte the environment returns at the `k`-th draw that no listed answer supplies: R7 and
R79 leave every byte a bus read returns unconstrained (I7). No value of it can be proved. Log entry 1. -/
opaque Config.chipByte : Nat → Byte

end Sys2Proof
end

