-- ==== Sys2Proof/Syntax.lean ====
section
/-! DEFINITION. The ten host operations (30_encoding.md R101), the status names (R103), the host register
names (10_state.md R21), and the host script statements (R104, R105). -/

namespace Sys2Proof

/-- The operations, one constructor per row of the opcode table. The row has no operand field: an operation
takes its operands from host registers (R100). -/
inductive Instr where
  | communicate
  | select
  | calcCrc
  | requestOrWakeup
  | halt
  | authenticate
  | stopCrypto
  | readBlock
  | isNewCardPresent
  | readCardSerial
  deriving DecidableEq, Repr

/-- The status names, a closed set (R14, R103). -/
inductive Status where
  | ok | genericError | collision | timeout | bufferTooSmall | internalError | invalidArgument | crcMismatch
  | mifareNack
  deriving DecidableEq, Repr

/-- The host registers by name (R21). An offset that names none of them is reserved (R20). -/
inductive HostReg where
  | op | ctrl | stat | status | pcdCmd | irqWait | framing | txLen | rxCap | rxLen | rxValidBits
  | knownBits | uidInSize | opt | blockAddr | authCmd
  | key (i : Fin 6)
  | crcLo | crcHi
  | atqa (i : Fin 2)
  | uidSize | sak | cardType
  | uid (i : Fin 10)
  | uidIn (i : Fin 10)
  | txbuf (i : Fin 64)
  | rxbuf (i : Fin 64)
  deriving DecidableEq, Repr

/-- The four base statements of the host script (R104). -/
inductive Stmt where
  | wr (r : HostReg) (v : Byte)
  | rd (r : HostReg)
  | go (i : Instr)
  | wait
  deriving DecidableEq, Repr

/-- The pseudo-instructions of the host script (R105). -/
inductive Pseudo where
  | xfer (cmd irq : Byte) (txlb align : Nat) (chk : Bool) (cap : Byte) (bytes : List Byte)
  | select (k s : Byte) (uid : List Byte)
  | select0
  | crc (bytes : List Byte)
  | reqa
  | wupa
  | halt
  | auth (cmd blk : Byte) (key : List Byte)
  | stopcrypto
  | read (blk : Byte)
  | present
  | serial
  deriving DecidableEq, Repr

end Sys2Proof
end

