-- ==== Sys2Proof/WellFormed.lean ====
section
/-! DEFINITION. What a well-formed instruction, parameter set and host script term is. -/

namespace Sys2Proof

/-- HOSTOP8 has one field, the opcode itself (R100), so every operation is well formed. -/
def Instr.wf : Instr → Bool
  | .communicate | .select | .calcCrc | .requestOrWakeup | .halt | .authenticate | .stopCrypto | .readBlock
  | .isNewCardPresent | .readCardSerial => true

/-- `CHIP_REG` gives each register name one number (R8, R9, R73). DESIGN CHOICE, log entry 18: no two names have
the same number. R8 asks only for a 6-bit number per name; the table of R73 has no number twice. -/
def ChipRegMap.wf (m : ChipRegMap) : Bool :=
  ChipReg.all.all (fun r => (m.filter (fun e => e.1 == r)).length == 1) &&
    decide ((m.map (·.2)).Pairwise (· ≠ ·))

/-- `PCD_CMD_*` are 4-bit codes (R8). -/
def PcdCodes.wf (c : PcdCodes) : Bool :=
  [c.idle, c.mem, c.generateRandomId, c.calcCrc, c.transmit, c.noCmdChange, c.receive, c.transceive,
   c.mfAuthent, c.softReset].all (fun b => decide (b.toNat < 16))

/-- The field masks stay inside the ranges R48 gives the values read through them: `S.n` 0..127, `S.vb`
0..7, and a collision position of at most 31 before R188 maps 0 to 32. Log entry 5 (DEDUCED). -/
def ChipMasks.wf (m : ChipMasks) : Bool :=
  decide (m.fifoLevel.toNat ≤ 0x7F) && decide (m.rxLastBits.toNat ≤ 7) && decide (m.collPos.toNat ≤ 31)

/-- The constraints of R8's table, one conjunct per row that has one. -/
def Params.wf (p : Params) : Bool :=
  decide (1 ≤ p.irqPollBudget) && decide (1 ≤ p.crcPollBudget) &&
    decide (12 ≤ p.txbufSize ∧ p.txbufSize ≤ 255) &&
    decide (18 ≤ p.rxbufSize ∧ p.rxbufSize ≤ 127) &&
    decide (3 ≤ p.reqReplyCap ∧ p.reqReplyCap ≤ p.rxbufSize) &&
    ChipRegMap.wf p.chipReg && p.pcd.wf && p.mask.wf

/-- The arguments a pseudo-instruction of R105 can carry: 3-bit framing fields, at most 64 TXBUF bytes, ten
identifier bytes, six key bytes. -/
def Pseudo.wf : Pseudo → Bool
  | .xfer _ _ txlb align _ _ bytes => decide (txlb < 8) && decide (align < 8) && decide (bytes.length ≤ 64)
  | .select _ _ uid => decide (uid.length = 10)
  | .crc bytes => decide (bytes.length ≤ 64)
  | .auth _ _ key => decide (key.length = 6)
  | .select0 | .reqa | .wupa | .halt | .stopcrypto | .read _ | .present | .serial => true

end Sys2Proof
end

