-- ==== Sys2Proof/Decode.lean ====
section
/-! DEFINITION. The operation code HOSTOP8 (30_encoding.md R100 to R102): the table, a total decoder that
rejects by name, and the encoder read from the same table. -/

namespace Sys2Proof

/-- One row of the opcode table: an operation matches when `word &&& mask = pattern`. -/
structure OpRow where
  pattern : Byte
  mask : Byte
  instr : Instr
  deriving DecidableEq, Repr

/-- The operation codes of R101, matched on all 8 bits. -/
def opTable : List OpRow :=
  [ ⟨0x01, 0xFF, .communicate⟩, ⟨0x02, 0xFF, .select⟩, ⟨0x03, 0xFF, .calcCrc⟩,
    ⟨0x04, 0xFF, .requestOrWakeup⟩, ⟨0x05, 0xFF, .halt⟩, ⟨0x06, 0xFF, .authenticate⟩,
    ⟨0x07, 0xFF, .stopCrypto⟩, ⟨0x08, 0xFF, .readBlock⟩, ⟨0x09, 0xFF, .isNewCardPresent⟩,
    ⟨0x0A, 0xFF, .readCardSerial⟩ ]

/-- Why a byte sequence is no operation: there is no byte, or its code is reserved (R102). -/
inductive Reject where
  | noWord
  | reservedOp (code : Byte)
  deriving DecidableEq, Repr

/-- The operation whose row matches a code, or none for a reserved code (R101, R102). -/
def decodeOp (code : Byte) : Option Instr :=
  (opTable.find? (fun r => code &&& r.mask == r.pattern)).map (·.instr)

/-- Decode one operation word from the front of a byte sequence, with the rest of it. -/
def decode : List Byte → Except Reject (Instr × List Byte)
  | [] => .error .noWord
  | code :: rest =>
    match decodeOp code with
    | some i => .ok (i, rest)
    | none => .error (.reservedOp code)

/-- The operation code of an operation (R101). -/
def opcode (i : Instr) : Byte :=
  ((opTable.find? (fun r => r.instr == i)).map (·.pattern)).getD 0

/-- The word of an operation: the one byte written to OP. -/
def encode (i : Instr) : List Byte := [opcode i]

/-- The operation the decoder reads from a table row's bits. The word is one byte; there is no longer one. -/
def decodeTableWord (nbits w : Nat) : Option Instr :=
  if nbits ≤ 8 ∧ w < 256 then
    match decode [BitVec.ofNat 8 w] with
    | .ok (i, _) => some i
    | .error _ => none
  else none

end Sys2Proof
end

