-- ==== Sys2Proof/Machine/State.lean ====
section
/-! DEFINITION. The whole state of the block (10_state.md) as plain data: the host registers, the internal
sequencer state, the environment's answers, what has been observed, and whose turn comes next; the reasons a step
can stop; the state after reset. -/

namespace Sys2Proof.Machine

/-- A byte buffer as (index, byte) cells, in the canonical form `Memory.wf`: indices strictly rising, no
cell equal to what an unlisted index reads as (`Memory.unlisted`, 0x00, the reset value of R21). -/
abbrev Memory := List Host.Cell

/-! ### Bus transactions -/

/-- One register-bus transaction: a direction, one register, and its bytes in order (R71, R77). A read
carries the raw bytes the environment returned. -/
inductive Txn where
  | write (r : ChipReg) (bytes : List Byte)
  | read (r : ChipReg) (raw : List Byte)
  deriving DecidableEq, Repr

/-! ### The sequencer position `S.seq` (R45) -/

/-- Where a Communicate puts its reply: the host RXBUF or the resolver's S.frame (R140). -/
inductive Dest where
  | rxbuf
  | frame
  deriving DecidableEq, Repr

/-- The arguments of one Communicate (R140). -/
structure CommCall where
  cmd : Byte
  waitIrq : Byte
  tx : List Byte
  txLastBits : Nat
  rxAlign : Nat
  checkCrc : Bool
  dest : Dest
  off : Nat
  cap : Nat
  deriving DecidableEq, Repr

/-- The next bus primitive of ComputeCrc (R213). -/
inductive CrcPos where
  | idle | clearDone | flush | load | start | poll | stop | readLo | readHi
  deriving DecidableEq, Repr

/-- The next bus primitive of Communicate (R142). `kickWrite v` holds the byte SetBits read; `readControl d`
holds the merged reply bytes, which are stored in the step of the ControlReg read (R147). -/
inductive CommPos where
  | idle | clearIrqs | flush | load | framing | command | kickRead
  | kickWrite (v : Byte)
  | poll | readError | readLevel | readData
  | readControl (d : List Byte)
  deriving DecidableEq, Repr

/-- What of ComputeCrc (R213) comes after a transaction that is followed by pure computation, which R11 counts to the
next step: after the flush the test of `data`'s length; after the CalcCRC write the entry of the poll loop; after a
poll read, which returned `v`, its test; after the high byte the return. -/
inductive CrcNext where
  | flushed | started
  | polled (v : Byte)
  | finished
  deriving DecidableEq, Repr

/-- What of Communicate (R142) comes after a transaction that is followed by pure computation (R11): after the flush
the test of `tx`'s length; after the command write the test for Transceive; after the kick the entry of the poll loop;
after the poll read, the ErrorReg read and the FIFOLevelReg read their tests; after the ControlReg read, in whose step
the reply is stored (R147), steps 7 to 9. -/
inductive CommNext where
  | flushed | sent | kicked
  | polled (v : Byte)
  | gotError
  | gotLevel (v : Byte)
  | stored
  deriving DecidableEq, Repr

/-- Who called ComputeCrc (R215), but for Communicate's own CRC check, which is `Seq.replyCrc`. -/
inductive CrcSite where
  | calcCrc | fullFrame | sakCheck | haltFrame | readFrame
  deriving DecidableEq, Repr

/-- Who called Communicate. -/
inductive CommSite where
  | host | selectRound | request | halt | authenticate | readBlock
  deriving DecidableEq, Repr

/-- The sequencer position (R45): idle; the next bus primitive with the calls it stands in, or the completion step
(R291); or, where pure computation stands before either, the continuation from that computation on, for R11 counts it
to the next step: `start` is an operation's, `crcNext`, `commNext`, `replyCrcNext`, `collCleared` and `gotColl` come
after a transaction. -/
inductive Seq where
  | idle
  | start
  | computeCrc (site : CrcSite) (data : List Byte) (pos : CrcPos)
  | communicate (site : CommSite) (call : CommCall) (pos : CommPos)
  | replyCrc (site : CommSite) (call : CommCall) (data : List Byte) (pos : CrcPos)
  | crcNext (site : CrcSite) (data : List Byte) (k : CrcNext)
  | commNext (site : CommSite) (call : CommCall) (k : CommNext)
  | replyCrcNext (site : CommSite) (call : CommCall) (data : List Byte) (k : CrcNext)
  | readColl
  | gotColl (v : Byte)
  | clearCollRead
  | clearCollWrite (v : Byte)
  | collCleared
  | clearCryptoRead
  | clearCryptoWrite (v : Byte)
  | writeTxMode
  | writeRxMode
  | writeModWidth
  | complete (st : Status)
  deriving DecidableEq, Repr

/-! ### The state -/

/-- The host registers (R21). STAT is its three bits; FRAMING and OPT are their fields (the reserved bits
read 0, R23); CTRL stores nothing; CARD_TYPE is combinational (R43). -/
structure HostRegs where
  op : Byte
  busy : Bool
  done : Bool
  result : Bool
  status : Byte
  pcdCmd : Byte
  irqWait : Byte
  txLastBits : BitVec 3
  rxAlign : BitVec 3
  checkCrc : Bool
  txLen : Byte
  rxCap : Byte
  rxLen : Byte
  rxValidBits : BitVec 3
  knownBits : Byte
  uidInSize : Byte
  isWakeup : Bool
  blockAddr : Byte
  authCmd : Byte
  key : Vector Byte 6
  crcLo : Byte
  crcHi : Byte
  atqa0 : Byte
  atqa1 : Byte
  uidSize : Byte
  sak : Byte
  uid : Vector Byte 10
  uidIn : Vector Byte 10
  txbuf : Memory
  rxbuf : Memory
  deriving DecidableEq, Repr

/-- The Communicate locals: `S.irqPoll` (R46), `S.err`, `S.cn`, `S.cvb` (R49). -/
structure CommLocals where
  irqPoll : Nat
  err : Byte
  cn : Nat
  cvb : Nat
  deriving DecidableEq, Repr

/-- The ComputeCrc locals: `S.crcPoll` (R46), `S.crcLo`, `S.crcHi` (R49). -/
structure CrcLocals where
  crcPoll : Nat
  lo : Byte
  hi : Byte
  deriving DecidableEq, Repr

/-- The resolver's state: `S.frame` (R47), the per-level fields (R48) and `S.uidWork` (R50). -/
structure SelectState where
  frame : Vector Byte 9
  level : Nat
  base : Nat
  useCT : Bool
  lk : Nat
  txlb : Nat
  rxAlign : Nat
  sendLen : Nat
  rOff : Nat
  rCap : Nat
  n : Nat
  vb : Nat
  uidWork : Vector Byte 10
  deriving DecidableEq, Repr

/-- MODEL'S OWN. The environment's answers to bus reads (R7, R53): the bytes it will return, first first,
and the count of draws made beyond them, each of which is the free value `Config.chipByte`. Log entry 1. -/
structure Env where
  answers : List Byte
  draws : Nat
  deriving DecidableEq, Repr

/-- MODEL'S OWN. One turn of an agent (R7, R90): a step of the sequencer, the sequencer's turns until it is
idle (the run-to-completion schedule), one host access, the `wait` of a host script (R104), the reset input
(R320), or a transaction of another bus master (R326, R331). -/
inductive Turn where
  | sequencer
  | untilIdle
  | write (off v : Byte)
  | read (off : Byte)
  | wait
  | reset
  | foreign (t : Txn)
  deriving DecidableEq, Repr

/-- The state of the block. `h` are the host registers, `op` is `S.op`, `seq` is `S.seq`; `comm`, `crc` and
`sel` are the internal sequencer state. The rest is the model's own: `params` (R8, changed by no step), `env`,
the bus transactions the block has issued (`bus`), those of another master (`foreign`), what host reads
returned (`reads`; these three newest first), and the coming turns (`agenda`). -/
structure State where
  params : Params
  h : HostRegs
  op : Byte
  seq : Seq
  comm : CommLocals
  crc : CrcLocals
  sel : SelectState
  env : Env
  bus : List Txn
  foreign : List Txn
  reads : List (Byte × Byte)
  agenda : List Turn
  deriving DecidableEq, Repr

/-! ### Why a step can stop -/

/-- The reasons for a fault. The spec gives the block none (R305). -/
inductive Fault where
  /-- Raised by the meaning of an operation when `S.seq` stands in the pseudocode of another operation. The
  spec has no such state and no run from reset reaches one. Safe: the model stops. -/
  | strayPosition
  deriving DecidableEq, Repr

/-- The reasons for a refusal. -/
inductive Refusal where
  /-- Raised by `exec` for an operation that has no meaning yet. Safe. No arm raises it. -/
  | notModelled (mnemonic : String)
  /-- Raised by `step` when another bus master takes its turn while BUSY = 1: the spec puts that outside
  itself (R331, I15 `refuse`). Safe: the model stops. -/
  | foreignBusMaster
  deriving DecidableEq, Repr

/-! ### Reset -/

/-- Every host register at the reset value of R21: 0x00. -/
def HostRegs.reset : HostRegs :=
  { op := 0, busy := false, done := false, result := false, status := 0, pcdCmd := 0, irqWait := 0,
    txLastBits := 0, rxAlign := 0, checkCrc := false, txLen := 0, rxCap := 0, rxLen := 0, rxValidBits := 0,
    knownBits := 0, uidInSize := 0, isWakeup := false, blockAddr := 0, authCmd := 0,
    key := Vector.replicate 6 0, crcLo := 0, crcHi := 0, atqa0 := 0, atqa1 := 0, uidSize := 0, sak := 0,
    uid := Vector.replicate 10 0, uidIn := Vector.replicate 10 0, txbuf := [], rxbuf := [] }

/-- The Communicate locals after reset (R54). -/
def CommLocals.reset : CommLocals := { irqPoll := 0, err := 0, cn := 0, cvb := 0 }

/-- The ComputeCrc locals after reset (R54). -/
def CrcLocals.reset : CrcLocals := { crcPoll := 0, lo := 0, hi := 0 }

/-- The resolver after reset (R54): buffers all 0x00, the per-level fields 0 or false. -/
def SelectState.reset : SelectState :=
  { frame := Vector.replicate 9 0, level := 0, base := 0, useCT := false, lk := 0, txlb := 0, rxAlign := 0,
    sendLen := 0, rOff := 0, rCap := 0, n := 0, vb := 0, uidWork := Vector.replicate 10 0 }

/-- The machine right after reset (R54, R320): the sequencer idle, every register at its reset value, the
default parameters, no answer listed, nothing observed, no turn waiting. `S.op` has no stated reset value
of its own: it is one of the locals that are 0 (log entry 2). -/
def State.reset : State :=
  { params := Params.default, h := HostRegs.reset, op := 0, seq := .idle, comm := CommLocals.reset,
    crc := CrcLocals.reset, sel := SelectState.reset, env := { answers := [], draws := 0 }, bus := [],
    foreign := [], reads := [], agenda := [] }

end Sys2Proof.Machine
end

