-- ==== Sys2Proof/Machine/Ops.lean ====
section
/-! DEFINITION. The named operations over the state: one setter per field, buffers, the bus primitives of
00_scope.md R12, the GO step (R25) and the completion step (R291), which take the place that taking an
exception and returning from it have on a processor, and the reset event (R320). -/

namespace Sys2Proof.Machine

/-! ### One setter per field -/

/-- `s` with its host registers replaced. -/
def State.withH (s : State) (x : HostRegs) : State := { s with h := x }

/-- `s` with the latched operation code `S.op` replaced. -/
def State.withOp (s : State) (x : Byte) : State := { s with op := x }

/-- `s` with the sequencer position `S.seq` replaced. -/
def State.withSeq (s : State) (x : Seq) : State := { s with seq := x }

/-- `s` with the Communicate locals replaced. -/
def State.withComm (s : State) (x : CommLocals) : State := { s with comm := x }

/-- `s` with the ComputeCrc locals replaced. -/
def State.withCrc (s : State) (x : CrcLocals) : State := { s with crc := x }

/-- `s` with the resolver's state replaced. -/
def State.withSel (s : State) (x : SelectState) : State := { s with sel := x }

/-- `s` with the environment's answers replaced. -/
def State.withEnv (s : State) (x : Env) : State := { s with env := x }

/-- `s` with the block's bus record replaced. -/
def State.withBus (s : State) (x : List Txn) : State := { s with bus := x }

/-- `s` with the other masters' bus record replaced. -/
def State.withForeign (s : State) (x : List Txn) : State := { s with foreign := x }

/-- `s` with the record of host reads replaced. -/
def State.withReads (s : State) (x : List (Byte × Byte)) : State := { s with reads := x }

/-- `s` with the coming turns replaced. -/
def State.withAgenda (s : State) (x : List Turn) : State := { s with agenda := x }

/-! ### Buffers held as cells (TXBUF, RXBUF) -/

/-- What an unlisted index reads as: the reset value 0x00 of R21. -/
def Memory.unlisted : Byte := 0x00

/-- The byte at an index. -/
def Memory.read : Memory → Nat → Byte
  | [], _ => Memory.unlisted
  | c :: m, i => if c.1 = i then c.2 else Memory.read m i

/-- Store a byte at an index, keeping the canonical form. -/
def Memory.write : Memory → Nat → Byte → Memory
  | [], i, v => if v = Memory.unlisted then [] else [(i, v)]
  | c :: m, i, v =>
    if i < c.1 then (if v = Memory.unlisted then c :: m else (i, v) :: c :: m)
    else if i = c.1 then (if v = Memory.unlisted then m else (i, v) :: m)
    else c :: Memory.write m i v

/-- Store bytes at successive indices from `i`. -/
def Memory.writeMany : Memory → Nat → List Byte → Memory
  | m, _, [] => m
  | m, i, b :: bs => Memory.writeMany (Memory.write m i b) (i + 1) bs

/-- The `n` bytes from index `i` on. -/
def Memory.slice (m : Memory) (i n : Nat) : List Byte := (List.range n).map (fun j => Memory.read m (i + j))

/-- The canonical form: indices strictly rising, and no cell equal to what an unlisted index reads as. -/
abbrev Memory.wf (m : Memory) : Prop :=
  m.Pairwise (fun x y => x.1 < y.1) ∧ ∀ c ∈ m, c.2 ≠ Memory.unlisted

/-! ### Buffers of fixed length (S.frame, S.uidWork, KEY, UID, UID_IN) -/

/-- The byte at an index; 0 outside the buffer, where no rule reads. -/
def Buf.get {n : Nat} (v : Vector Byte n) (i : Nat) : Byte := v[i]?.getD 0

/-- Store a byte at an index; nothing outside the buffer, where no rule writes. -/
def Buf.put {n : Nat} (v : Vector Byte n) (i : Nat) (x : Byte) : Vector Byte n := v.setIfInBounds i x

/-- Store bytes at successive indices from `i`. -/
def Buf.putMany {n : Nat} : Vector Byte n → Nat → List Byte → Vector Byte n
  | v, _, [] => v
  | v, i, b :: bs => Buf.putMany (Buf.put v i b) (i + 1) bs

/-- The `k` bytes from index `i` on. -/
def Buf.slice {n : Nat} (v : Vector Byte n) (i k : Nat) : List Byte :=
  (List.range k).map (fun j => Buf.get v (i + j))

/-- The XOR of all bytes of a sequence (R10). -/
def xorAll (bs : List Byte) : Byte := bs.foldl (· ^^^ ·) 0

/-- `ceil8(k) = (k + 7) div 8` (R10). -/
def ceil8 (k : Nat) : Nat := (k + 7) / 8

/-! ### Environment draws -/

/-- The next `n` bytes the environment returns: the listed answers first, then free values (R7, R79). -/
def Env.peek (e : Env) (n : Nat) : List Byte :=
  (List.range n).map (fun i => e.answers[i]?.getD (Config.chipByte (e.draws + (i - e.answers.length))))

/-- The environment after `n` bytes were drawn. -/
def Env.drop (e : Env) (n : Nat) : Env :=
  { answers := e.answers.drop n, draws := e.draws + (n - e.answers.length) }

/-! ### Bus primitives (R12). Each is one step of the sequencer and one entry of the bus record. -/

/-- `BusWrite(r, bytes)` (R78). -/
def busWrite (r : ChipReg) (bytes : List Byte) (s : State) : State := s.withBus (.write r bytes :: s.bus)

/-- The byte the next one-byte read returns. -/
def nextByte (s : State) : Byte := (s.env.peek 1).headD 0

/-- The state after a read of `n` bytes from `r` (R79): the bytes are drawn and the transaction recorded. -/
def busReadN (r : ChipReg) (n : Nat) (s : State) : State :=
  (s.withEnv (s.env.drop n)).withBus (.read r (s.env.peek n) :: s.bus)

/-- The state after `BusRead(r)`, whose value is `nextByte`. -/
def busRead (r : ChipReg) (s : State) : State := busReadN r 1 s

/-- The mask of the partial-byte merge: bits [7:align] (R80). -/
def mergeMask (align : Nat) : Byte := 0xFF#8 <<< align

/-- The partial-byte merge of the first byte of a read (R80). -/
def mergeFirst (align : Nat) (old0 : Byte) : List Byte → List Byte
  | [] => []
  | r0 :: rest =>
    if align = 0 then r0 :: rest
    else ((old0 &&& ~~~(mergeMask align)) ||| (r0 &&& mergeMask align)) :: rest

/-- The address byte of a register on the serial bus: `((r << 1) & 0x7E) | (read ? 0x80 : 0x00)` (R72). A
transaction-level step does not show it. A name the map does not give stands for register 0. -/
def addressByte (m : ChipRegMap) (r : ChipReg) (read : Bool) : Byte :=
  (((m.lookup r).getD 0).setWidth 8 <<< 1 &&& 0x7E) ||| (if read then 0x80 else 0x00)

/-- The address byte a transaction sends. -/
def Txn.addressByte (m : ChipRegMap) : Txn → Byte
  | .write r _ => Machine.addressByte m r false
  | .read r _ => Machine.addressByte m r true

/-! ### GO, completion and reset -/

/-- The numeric status codes (R103). -/
def statusCode : Status → Byte
  | .ok => 0x00
  | .genericError => 0x01
  | .collision => 0x02
  | .timeout => 0x03
  | .bufferTooSmall => 0x04
  | .internalError => 0x05
  | .invalidArgument => 0x06
  | .crcMismatch => 0x07
  | .mifareNack => 0x08

/-- GO (R25): latch OP, set BUSY, clear DONE, and stand at the operation's first step. STATUS and RESULT
keep their values. -/
def go (s : State) : State :=
  ((s.withOp s.h.op).withH { s.h with busy := true, done := false }).withSeq .start

/-- The completion step (R291): STATUS, the operation's result writes `results`, BUSY, DONE and `S.seq`, in
one step and with no bus transaction. -/
def completeWith (results : HostRegs → HostRegs) (st : Status) (s : State) : State :=
  (s.withH { results s.h with status := statusCode st, busy := false, done := true }).withSeq .idle

/-- The completion step of an operation that makes no result write in it. -/
def complete (st : Status) (s : State) : State := completeWith id st s

/-- The reset input (R320 to R322): every host register and internal value takes its reset value, with no
bus transaction. The parameters, the environment, the records and the coming turns are no part of the block. -/
def resetBlock (s : State) : State :=
  { State.reset with
    params := s.params, env := s.env, bus := s.bus, foreign := s.foreign, reads := s.reads, agenda := s.agenda }

/-- `s` with operation code `code` in OP and just started by GO, the sequencer's turn next. -/
def armed (code : Byte) (s : State) : State :=
  (go (s.withH { s.h with op := code })).withAgenda []

/-- Where an operation stands before a step of it: at its first step its opening `begin` is run (the
argument checks and the pure computation before the first transaction, R11, R119). An idle block is first
started by GO with the operation's code. -/
def enter (i : Instr) (begin : State → State) (s : State) : State :=
  match s.seq with
  | .idle => begin (go (s.withH { s.h with op := opcode i }))
  | .start => begin s
  | _ => s

end Sys2Proof.Machine
end

