-- ==== Sys2Proof/Machine/Flags.lean ====
section
/-! DEFINITION. The flags: the block's own (STAT, 10_state.md R21, R52), the chip flags an operation tests
(20_memory.md R75), the SAK bit of received data, and the derived CardType (R43, R44). -/

namespace Sys2Proof.Machine

/-- A Bool as the low bit of a byte. -/
def bit0 (b : Bool) : Byte := if b then 0x01 else 0x00

/-- STAT as the host reads it: [0] BUSY, [1] DONE, [2] RESULT, [7:3] read 0 (R21). -/
def statByte (h : HostRegs) : Byte := bit0 h.busy ||| (bit0 h.done <<< 1) ||| (bit0 h.result <<< 2)

/-- Some flag of `mask` is set in `v`. -/
def flagged (v mask : Byte) : Bool := v &&& mask != 0

/-- The awaited interrupt flags are seen in a ComIrqReg read (R146). -/
def awaited (c : CommCall) (v : Byte) : Bool := flagged v c.waitIrq

/-- The timer-expired flag of a ComIrqReg read (R146). -/
def timerExpired (p : Params) (v : Byte) : Bool := flagged v p.mask.irqTimer

/-- Buffer overflow, parity or protocol error in an ErrorReg value (R146). -/
def framingError (p : Params) (err : Byte) : Bool := flagged err p.mask.errFraming

/-- The collision flag of an ErrorReg value (R148). -/
def collisionError (p : Params) (err : Byte) : Bool := flagged err p.mask.errColl

/-- The CRC-done flag of a DivIrqReg read (R212). -/
def crcDone (p : Params) (v : Byte) : Bool := flagged v p.mask.divCrcIrq

/-- The collision position is unknown: CollPosNotValid is set in a CollReg read (R187). -/
def collPosUnknown (p : Params) (v : Byte) : Bool := flagged v p.mask.collPosNotValid

/-- The collision position of a CollReg read, a raw 0 meaning 32 (R188). -/
def collPosition (p : Params) (v : Byte) : Nat :=
  if (v &&& p.mask.collPos).toNat = 0 then 32 else (v &&& p.mask.collPos).toNat

/-- The byte count of a FIFOLevelReg read (R147). -/
def fifoLevel (p : Params) (v : Byte) : Nat := (v &&& p.mask.fifoLevel).toNat

/-- The valid bits of the last byte, of a ControlReg read (R147). -/
def lastBits (p : Params) (v : Byte) : Nat := (v &&& p.mask.rxLastBits).toNat

/-- The SAK's bit 2, "UID not complete" (R195). -/
def uidIncomplete (sak : Byte) : Bool := flagged sak 0x04

/-- The CardType codes (R44). -/
def cardTypeCode : CardType → Byte
  | .unknown => 0
  | .iso14443_4 => 1
  | .iso18092 => 2
  | .mifareMini => 3
  | .mifare1K => 4
  | .mifare4K => 5
  | .mifareUL => 6
  | .mifarePlus => 7
  | .tnp3xxx => 8
  | .notComplete => 9

/-- `CardType(sak)`: look up `sak & 0x7F` (R44). -/
def cardTypeOf (t : CardTypeTable) (sak : Byte) : CardType := (t.lookup (sak &&& 0x7F)).getD .unknown

/-- CARD_TYPE, combinational (R43): UNKNOWN while the CardId is empty. -/
def cardType (p : Params) (h : HostRegs) : CardType :=
  if h.uidSize = 0 then .unknown else cardTypeOf p.cardTypeTable h.sak

end Sys2Proof.Machine
end

