-- ==== Sys2Proof/Machine/Operands.lean ====
section
/-! DEFINITION. Operand forms: the host register map and the value each register reads and takes
(10_state.md R20 to R23), the argument checks (30_encoding.md R119), the emitted frames and framing values (R108 to
R115), the level parameters (41_select.md R174), and the reply destination of Communicate (40_communicate.md R140). -/

namespace Sys2Proof.Machine

/-! ### The host register map -/

/-- The registers that stand alone, with their offsets (R21). -/
def scalarRegs : List (Byte × HostReg) :=
  [ (0x00, .op), (0x01, .ctrl), (0x02, .stat), (0x03, .status), (0x04, .pcdCmd), (0x05, .irqWait),
    (0x06, .framing), (0x07, .txLen), (0x08, .rxCap), (0x09, .rxLen), (0x0A, .rxValidBits), (0x0B, .knownBits),
    (0x0C, .uidInSize), (0x0D, .opt), (0x0E, .blockAddr), (0x0F, .authCmd), (0x16, .crcLo), (0x17, .crcHi),
    (0x18, .atqa 0), (0x19, .atqa 1), (0x1A, .uidSize), (0x1B, .sak), (0x1C, .cardType) ]

/-- The register at an offset, or none for a reserved offset (R20, R21). TXBUF and RXBUF occupy the first
TXBUF_SIZE and RXBUF_SIZE entries of their windows. -/
def hostRegAt (p : Params) (off : Byte) : Option HostReg :=
  let a := off.toNat
  if h : 0x10 ≤ a ∧ a < 0x16 then some (.key ⟨a - 0x10, by omega⟩)
  else if h : 0x20 ≤ a ∧ a < 0x2A then some (.uid ⟨a - 0x20, by omega⟩)
  else if h : 0x30 ≤ a ∧ a < 0x3A then some (.uidIn ⟨a - 0x30, by omega⟩)
  else if h : 0x40 ≤ a ∧ a < 0x80 then
    if a - 0x40 < p.txbufSize then some (.txbuf ⟨a - 0x40, by omega⟩) else none
  else if h : 0x80 ≤ a ∧ a < 0xC0 then
    if a - 0x80 < p.rxbufSize then some (.rxbuf ⟨a - 0x80, by omega⟩) else none
  else scalarRegs.lookup off

/-- The offset of a register (R21). -/
def hostOffset : HostReg → Byte
  | .key i => BitVec.ofNat 8 (0x10 + i.val)
  | .uid i => BitVec.ofNat 8 (0x20 + i.val)
  | .uidIn i => BitVec.ofNat 8 (0x30 + i.val)
  | .txbuf i => BitVec.ofNat 8 (0x40 + i.val)
  | .rxbuf i => BitVec.ofNat 8 (0x80 + i.val)
  | .op => 0x00 | .ctrl => 0x01 | .stat => 0x02 | .status => 0x03 | .pcdCmd => 0x04 | .irqWait => 0x05
  | .framing => 0x06 | .txLen => 0x07 | .rxCap => 0x08 | .rxLen => 0x09 | .rxValidBits => 0x0A
  | .knownBits => 0x0B | .uidInSize => 0x0C | .opt => 0x0D | .blockAddr => 0x0E | .authCmd => 0x0F
  | .crcLo => 0x16 | .crcHi => 0x17 | .atqa i => BitVec.ofNat 8 (0x18 + i.val)
  | .uidSize => 0x1A | .sak => 0x1B | .cardType => 0x1C

/-- FRAMING as the host reads it: `[7] CHECK_CRC | [6:4] RX_ALIGN | [3] 0 | [2:0] TX_LAST_BITS` (R100). -/
def framingByte (h : HostRegs) : Byte :=
  (bit0 h.checkCrc <<< 7) ||| (h.rxAlign.setWidth 8 <<< 4) ||| h.txLastBits.setWidth 8

/-- The value of a host register (R21). CTRL reads 0. -/
def readReg (p : Params) (h : HostRegs) : HostReg → Byte
  | .op => h.op
  | .ctrl => 0x00
  | .stat => statByte h
  | .status => h.status
  | .pcdCmd => h.pcdCmd
  | .irqWait => h.irqWait
  | .framing => framingByte h
  | .txLen => h.txLen
  | .rxCap => h.rxCap
  | .rxLen => h.rxLen
  | .rxValidBits => h.rxValidBits.setWidth 8
  | .knownBits => h.knownBits
  | .uidInSize => h.uidInSize
  | .opt => bit0 h.isWakeup
  | .blockAddr => h.blockAddr
  | .authCmd => h.authCmd
  | .key i => Buf.get h.key i.val
  | .crcLo => h.crcLo
  | .crcHi => h.crcHi
  | .atqa i => if i = 0 then h.atqa0 else h.atqa1
  | .uidSize => h.uidSize
  | .sak => h.sak
  | .cardType => cardTypeCode (cardType p h)
  | .uid i => Buf.get h.uid i.val
  | .uidIn i => Buf.get h.uidIn i.val
  | .txbuf i => Memory.read h.txbuf i.val
  | .rxbuf i => Memory.read h.rxbuf i.val

/-- A host write to a register other than CTRL: RW registers take the value, less their reserved bits (R23);
RO registers ignore it (R21). -/
def writeReg (r : HostReg) (v : Byte) (h : HostRegs) : HostRegs :=
  match r with
  | .op => { h with op := v }
  | .pcdCmd => { h with pcdCmd := v }
  | .irqWait => { h with irqWait := v }
  | .framing =>
    { h with txLastBits := v.extractLsb' 0 3, rxAlign := v.extractLsb' 4 3, checkCrc := flagged v 0x80 }
  | .txLen => { h with txLen := v }
  | .rxCap => { h with rxCap := v }
  | .knownBits => { h with knownBits := v }
  | .uidInSize => { h with uidInSize := v }
  | .opt => { h with isWakeup := flagged v 0x01 }
  | .blockAddr => { h with blockAddr := v }
  | .authCmd => { h with authCmd := v }
  | .key i => { h with key := Buf.put h.key i.val v }
  | .uidIn i => { h with uidIn := Buf.put h.uidIn i.val v }
  | .txbuf i => { h with txbuf := Memory.write h.txbuf i.val v }
  | .rxbuf i => { h with rxbuf := Memory.write h.rxbuf i.val v }
  | .ctrl | .stat | .status | .rxLen | .rxValidBits | .crcLo | .crcHi | .atqa _ | .uidSize | .sak | .cardType
  | .uid _ => h

/-! ### Emitted values and frames -/

/-- The BitFramingReg value: `((rxAlign & 7) << 4) | (txLastBits & 7)` (R108). DESIGN CHOICE: these places hold for every
choice of the parameters, the masks of R75 among them (log entry 31). -/
def bitFraming (rxAlign txLastBits : Nat) : Byte :=
  (BitVec.ofNat 8 (rxAlign % 8) <<< 4) ||| BitVec.ofNat 8 (txLastBits % 8)

/-- The count of whole bytes of an anti-collision frame with `lk` known bits, the two header bytes
included (R109, R180). -/
def wholeBytes (lk : Nat) : Nat := 2 + lk / 8

/-- The framing byte of an anti-collision frame (R109). -/
def nvb (lk : Nat) : Byte := (BitVec.ofNat 8 (wholeBytes lk) <<< 4) ||| BitVec.ofNat 8 (lk % 8)

/-- The length of an anti-collision frame (R111). -/
def partialLen (lk : Nat) : Nat := wholeBytes lk + (if lk % 8 ≠ 0 then 1 else 0)

/-- The body of the HLTA frame, without its CRC (R113). -/
def hltaBody (p : Params) : List Byte := [p.picc.hlta, 0x00]

/-- The body of the READ frame, without its CRC (R115). -/
def readBody (p : Params) (h : HostRegs) : List Byte := [p.picc.mfRead, h.blockAddr]

/-- The REQA or WUPA frame: one byte (R112). -/
def requestFrame (p : Params) (wakeup : Bool) : List Byte := [if wakeup then p.picc.wupa else p.picc.reqa]

/-- The authentication frame, 12 bytes, ending in the last four identifier bytes (R114). -/
def authFrame (h : HostRegs) : List Byte :=
  [h.authCmd, h.blockAddr] ++ Buf.slice h.key 0 6 ++ Buf.slice h.uid (h.uidSize.toNat - 4) 4

/-- The bytes a COMMUNICATE sends and a CALC_CRC checksums: TXBUF[0..TX_LEN-1] (R150, R214). -/
def txBytes (h : HostRegs) : List Byte := Memory.slice h.txbuf 0 h.txLen.toNat

/-- The count of received bits: `8n` when vb = 0, else `8(n-1) + vb` (R117). DESIGN CHOICE, log entry 20: for n = 0
and vb nonzero, where R117's form has no unsigned value, it is vb. No step uses it. -/
def replyBits (n vb : Nat) : Nat := if vb = 0 then 8 * n else 8 * (n - 1) + vb

/-! ### Argument checks, made before any bus activity (R119) -/

/-- COMMUNICATE's check (R150). DESIGN CHOICE, log entry 19: with TXBUF_SIZE or RXBUF_SIZE set above 64 it lets FIFO
bursts exceed the 64 bytes of R85 and R140. -/
def communicateArgs (p : Params) (h : HostRegs) : Bool :=
  decide (h.txLen.toNat ≤ p.txbufSize) && decide (h.rxCap.toNat ≤ p.rxbufSize)

/-- CALC_CRC's check (R214); its burst may exceed 64 bytes as COMMUNICATE's may (log entry 19). -/
def calcCrcArgs (p : Params) (h : HostRegs) : Bool := decide (h.txLen.toNat ≤ p.txbufSize)

/-- SELECT's check: the known-bit count is at most 80 (R171). -/
def selectArgs (k : Nat) : Bool := decide (k ≤ 80)

/-- AUTHENTICATE's check: the CardId is resolved (R243, R244). -/
def authenticateArgs (h : HostRegs) : Bool := h.uidSize == 4 || h.uidSize == 7 || h.uidSize == 10

/-! ### Level parameters (R174) -/

/-- The command byte of a cascade level. -/
def selCommand (p : Params) (level : Nat) : Byte :=
  match level with
  | 1 => p.picc.selCl1
  | 2 => p.picc.selCl2
  | _ => p.picc.selCl3

/-- The slice base of a cascade level. -/
def sliceBase (level : Nat) : Nat :=
  match level with
  | 1 => 0
  | 2 => 3
  | _ => 6

/-- Whether the engine inserts a cascade tag at a level. -/
def insertsTag (level k decl : Nat) : Bool :=
  match level with
  | 1 => k != 0 && decide (4 < decl)
  | 2 => k != 0 && decide (7 < decl)
  | _ => false

/-! ### The reply destination of Communicate (R140) -/

/-- The byte of a destination at an index. -/
def destRead (d : Dest) (i : Nat) (s : State) : Byte :=
  match d with
  | .rxbuf => Memory.read s.h.rxbuf i
  | .frame => Buf.get s.sel.frame i

/-- The `n` bytes of a destination from an index on. -/
def destSlice (d : Dest) (i n : Nat) (s : State) : List Byte := (List.range n).map (fun j => destRead d (i + j) s)

/-- Store the reply of a Communicate (R30, R147): for the host RXBUF also RX_LEN and RX_VALID_BITS; for
S.frame no host register changes. -/
def storeReply (c : CommCall) (bytes : List Byte) (n vb : Nat) (s : State) : State :=
  match c.dest with
  | .rxbuf =>
    s.withH { s.h with rxbuf := Memory.writeMany s.h.rxbuf c.off bytes, rxLen := BitVec.ofNat 8 n,
                       rxValidBits := BitVec.ofNat 3 vb }
  | .frame => s.withSel { s.sel with frame := Buf.putMany s.sel.frame c.off bytes }

end Sys2Proof.Machine
end

