-- ==== Sys2Proof/Machine/Crc.lean ====
section
/-! DEFINITION. The CRC Coprocessor Interface (42_crc.md): the procedure ComputeCrc (R213), one bus primitive
a step, and the operation CALC_CRC (R214). -/

namespace Sys2Proof.Machine

open Host (Outcome)

/-- Call ComputeCrc: stand at its first primitive. -/
def callCrc (here : CrcPos → Seq) (s : State) : State := s.withSeq (here .idle)

/-- The head of the CRC poll loop (R212, R213): Timeout when the budget is used up, else the next read. -/
def crcPollHead (here : CrcPos → Seq) (ret : Status → State → State) (s : State) : State :=
  if s.crc.crcPoll = s.params.crcPollBudget then ret .timeout s else s.withSeq (here .poll)

/-- The pure computation of ComputeCrc after a transaction, up to the next primitive or the return (R11, R213). `here`
places a position of this call in `S.seq`; `ret` is the caller's code after the return, with the result bytes in
`S.crcLo` and `S.crcHi`. -/
def crcResume (here : CrcPos → Seq) (ret : Status → State → State) (data : List Byte) (k : CrcNext) (s : State) :
    State :=
  match k with
  | .flushed => s.withSeq (here (if data.isEmpty then .start else .load))
  | .started => crcPollHead here ret (s.withCrc { s.crc with crcPoll := 0 })
  | .polled v => if crcDone s.params v then s.withSeq (here .stop) else crcPollHead here ret s
  | .finished => ret .ok s

/-- One transaction of ComputeCrc over `data`, the one at `pos` (R213). `here` and `next` place in `S.seq` a position
of this call and what comes after a transaction. -/
def crcStep (here : CrcPos → Seq) (next : CrcNext → Seq) (data : List Byte) (pos : CrcPos) (s : State) : State :=
  let p := s.params
  match pos with
  | .idle => (busWrite .commandReg [p.pcd.idle] s).withSeq (here .clearDone)
  | .clearDone => (busWrite .divIrqReg [p.mask.divCrcIrq] s).withSeq (here .flush)
  | .flush => (busWrite .fifoLevelReg [p.mask.fifoFlush] s).withSeq (next .flushed)
  | .load => (busWrite .fifoDataReg data s).withSeq (here .start)
  | .start => (busWrite .commandReg [p.pcd.calcCrc] s).withSeq (next .started)
  | .poll =>
    ((busRead .divIrqReg s).withCrc { s.crc with crcPoll := s.crc.crcPoll + 1 }).withSeq (next (.polled (nextByte s)))
  | .stop => (busWrite .commandReg [p.pcd.idle] s).withSeq (here .readLo)
  | .readLo => ((busRead .crcResultRegL s).withCrc { s.crc with lo := nextByte s }).withSeq (here .readHi)
  | .readHi => ((busRead .crcResultRegH s).withCrc { s.crc with hi := nextByte s }).withSeq (next .finished)

/-! ### CALC_CRC (R214) -/

/-- CALC_CRC before its first transaction. -/
def calcCrcBegin (s : State) : State :=
  if calcCrcArgs s.params s.h then callCrc (.computeCrc .calcCrc (txBytes s.h)) s
  else s.withSeq (.complete .invalidArgument)

/-- CALC_CRC's result writes: CRC_LO and CRC_HI, on OK only (R32, R214). -/
def calcCrcResults (st : Status) (crc : CrcLocals) (h : HostRegs) : HostRegs :=
  if st = .ok then { h with crcLo := crc.lo, crcHi := crc.hi } else h

/-- CALC_CRC's return: complete with the status of the ComputeCrc. -/
def calcCrcReturn (st : Status) (s : State) : State := s.withSeq (.complete st)

/-- CALC_CRC's pure computation at the start of its step (R11). -/
def calcCrcResume (s : State) : State :=
  match s.seq with
  | .crcNext .calcCrc data k => crcResume (.computeCrc .calcCrc data) calcCrcReturn data k s
  | _ => s

/-- CALC_CRC at its position. -/
def calcCrcStep (s : State) : Outcome State Fault Refusal :=
  match s.seq with
  | .computeCrc .calcCrc data pos =>
    .next (crcStep (.computeCrc .calcCrc data) (.crcNext .calcCrc data) data pos s)
  | .complete st => .next (completeWith (calcCrcResults st s.crc) st s)
  | _ => .fault .strayPosition

/-- CALC_CRC: one step of the operation (R214). -/
def execCalcCrc (s : State) : Outcome State Fault Refusal :=
  calcCrcStep (calcCrcResume (enter .calcCrc calcCrcBegin s))

end Sys2Proof.Machine
end

