-- ==== Sys2Proof/Machine/Communicate.lean ====
section
/-! DEFINITION. The Communicate Engine (40_communicate.md): the procedure Communicate (R142), one bus primitive a
step, its nested CRC check (R149), and the operation COMMUNICATE (R150). -/

namespace Sys2Proof.Machine

open Host (Outcome)

/-- What the caller of a Communicate does with its status, `n` and `vb`. -/
abbrev CommReturn := Status → Nat → Nat → State → State

/-- Call Communicate: stand at its first primitive. -/
def callCommunicate (site : CommSite) (c : CommCall) (s : State) : State := s.withSeq (.communicate site c .idle)

/-- The head of the interrupt poll loop (R142 step 4): Timeout when the budget is used up, else the next read. -/
def irqPollHead (site : CommSite) (ret : CommReturn) (c : CommCall) (s : State) : State :=
  if s.comm.irqPoll = s.params.irqPollBudget then ret .timeout 0 0 s else s.withSeq (.communicate site c .poll)

/-- The entry of the interrupt poll loop: `S.irqPoll <- 0`, then its head. -/
def irqPollEnter (site : CommSite) (ret : CommReturn) (c : CommCall) (s : State) : State :=
  irqPollHead site ret c (s.withComm { s.comm with irqPoll := 0 })

/-- Steps 7 to 9 of R142 after the reply was taken: the collision test (R148), then the shape tests of the
CRC check and its nested ComputeCrc (R149), then OK. `n` and `vb` are `S.cn` and `S.cvb`. -/
def afterReply (site : CommSite) (ret : CommReturn) (c : CommCall) (s : State) : State :=
  if collisionError s.params s.comm.err then ret .collision s.comm.cn s.comm.cvb s
  else if c.checkCrc = true ∧ 0 < c.cap then
    if s.comm.cn = 1 ∧ s.comm.cvb = 4 then ret .mifareNack s.comm.cn s.comm.cvb s
    else if s.comm.cn < 2 ∨ s.comm.cvb ≠ 0 then ret .crcMismatch s.comm.cn s.comm.cvb s
    else callCrc (.replyCrc site c (destSlice c.dest c.off (s.comm.cn - 2) s)) s
  else ret .ok s.comm.cn s.comm.cvb s

/-- The end of step 8 of R142, after the nested ComputeCrc: its status if not OK, else the comparison with
the last two reply bytes, low byte first (R82, R149). -/
def afterReplyCrc (ret : CommReturn) (c : CommCall) (cs : Status) (s : State) : State :=
  let n := s.comm.cn
  if cs ≠ .ok then ret cs n s.comm.cvb s
  else if destRead c.dest (c.off + n - 2) s ≠ s.crc.lo ∨ destRead c.dest (c.off + n - 1) s ≠ s.crc.hi then
    ret .crcMismatch n s.comm.cvb s
  else ret .ok n s.comm.cvb s

/-- The pure computation of Communicate after a transaction, up to the next primitive or the return (R11, R142). -/
def commResume (site : CommSite) (ret : CommReturn) (c : CommCall) (k : CommNext) (s : State) : State :=
  let here (q : CommPos) : Seq := .communicate site c q
  match k with
  | .flushed => s.withSeq (here (if c.tx.isEmpty then .framing else .load))
  | .sent => if c.cmd = s.params.pcd.transceive then s.withSeq (here .kickRead) else irqPollEnter site ret c s
  | .kicked => irqPollEnter site ret c s
  | .polled v =>
    if awaited c v then s.withSeq (here .readError)
    else if timerExpired s.params v then ret .timeout 0 0 s
    else irqPollHead site ret c s
  | .gotError =>
    if framingError s.params s.comm.err then ret .genericError 0 0 s
    else
      let s' := s.withComm { s.comm with cn := 0, cvb := 0 }
      if 0 < c.cap then s'.withSeq (here .readLevel) else afterReply site ret c s'
  | .gotLevel v =>
    let lvl := fifoLevel s.params v
    if c.cap < lvl then ret .bufferTooSmall 0 0 s
    else (s.withComm { s.comm with cn := lvl }).withSeq (here (if lvl = 0 then .readControl [] else .readData))
  | .stored => afterReply site ret c s

/-- One transaction of Communicate, the one at `pos` (R142). -/
def commStep (site : CommSite) (c : CommCall) (pos : CommPos) (s : State) : State :=
  let p := s.params
  let here (q : CommPos) : Seq := .communicate site c q
  let next (k : CommNext) : Seq := .commNext site c k
  match pos with
  | .idle => (busWrite .commandReg [p.pcd.idle] s).withSeq (here .clearIrqs)
  | .clearIrqs => (busWrite .comIrqReg [p.mask.irqClearAll] s).withSeq (here .flush)
  | .flush => (busWrite .fifoLevelReg [p.mask.fifoFlush] s).withSeq (next .flushed)
  | .load => (busWrite .fifoDataReg c.tx s).withSeq (here .framing)
  | .framing => (busWrite .bitFramingReg [bitFraming c.rxAlign c.txLastBits] s).withSeq (here .command)
  | .command => (busWrite .commandReg [c.cmd] s).withSeq (next .sent)
  | .kickRead => (busRead .bitFramingReg s).withSeq (here (.kickWrite (nextByte s)))
  | .kickWrite v => (busWrite .bitFramingReg [v ||| p.mask.startSend] s).withSeq (next .kicked)
  | .poll =>
    ((busRead .comIrqReg s).withComm { s.comm with irqPoll := s.comm.irqPoll + 1 }).withSeq
      (next (.polled (nextByte s)))
  | .readError => ((busRead .errorReg s).withComm { s.comm with err := nextByte s }).withSeq (next .gotError)
  | .readLevel => (busRead .fifoLevelReg s).withSeq (next (.gotLevel (nextByte s)))
  | .readData =>
    let d := mergeFirst (c.rxAlign % 8) (destRead c.dest c.off s) (s.env.peek s.comm.cn)
    (busReadN .fifoDataReg s.comm.cn s).withSeq (here (.readControl d))
  | .readControl d =>
    let vb := lastBits p (nextByte s)
    (storeReply c d s.comm.cn vb ((busRead .controlReg s).withComm { s.comm with cvb := vb })).withSeq (next .stored)

/-- The pure computation of the CRC check's nested ComputeCrc after a transaction (R11, R149). -/
def replyCrcResume (site : CommSite) (ret : CommReturn) (c : CommCall) (data : List Byte) (k : CrcNext) (s : State) :
    State :=
  crcResume (.replyCrc site c data) (afterReplyCrc ret c) data k s

/-- One transaction of the CRC check's nested ComputeCrc (R149). -/
def replyCrcStep (site : CommSite) (c : CommCall) (data : List Byte) (pos : CrcPos) (s : State) : State :=
  crcStep (.replyCrc site c data) (.replyCrcNext site c data) data pos s

/-! ### COMMUNICATE (R150) -/

/-- The Communicate call of COMMUNICATE, from the host's operands. -/
def hostCall (h : HostRegs) : CommCall :=
  { cmd := h.pcdCmd, waitIrq := h.irqWait, tx := txBytes h, txLastBits := h.txLastBits.toNat,
    rxAlign := h.rxAlign.toNat, checkCrc := h.checkCrc, dest := .rxbuf, off := 0, cap := h.rxCap.toNat }

/-- COMMUNICATE before its first transaction. -/
def communicateBegin (s : State) : State :=
  if communicateArgs s.params s.h then callCommunicate .host (hostCall s.h) s
  else s.withSeq (.complete .invalidArgument)

/-- COMMUNICATE's return: complete with the status of the exchange. -/
def communicateReturn : CommReturn := fun st _ _ s => s.withSeq (.complete st)

/-- COMMUNICATE's pure computation at the start of its step (R11). -/
def communicateResume (s : State) : State :=
  match s.seq with
  | .commNext .host c k => commResume .host communicateReturn c k s
  | .replyCrcNext .host c data k => replyCrcResume .host communicateReturn c data k s
  | _ => s

/-- COMMUNICATE at its position. -/
def communicateStep (s : State) : Outcome State Fault Refusal :=
  match s.seq with
  | .communicate .host c pos => .next (commStep .host c pos s)
  | .replyCrc .host c data pos => .next (replyCrcStep .host c data pos s)
  | .complete st => .next (complete st s)
  | _ => .fault .strayPosition

/-- COMMUNICATE: one step of the operation (R150). -/
def execCommunicate (s : State) : Outcome State Fault Refusal :=
  communicateStep (communicateResume (enter .communicate communicateBegin s))

end Sys2Proof.Machine
end

