-- ==== Sys2Proof/Machine/Select.lean ====
section
/-! DEFINITION. The Anti-Collision / Selection Engine (41_select.md): the procedure SelectCore (R173), one bus
primitive a step, and the operations SELECT (R170) and READ_CARD_SERIAL (43_session.md R267). `k` is the known-bit
count and `decl` the declared identifier length of the running call. -/

namespace Sys2Proof.Machine

open Host (Outcome)

/-- End the operation with a status: stand at the completion step. -/
def finish (st : Status) (s : State) : State := s.withSeq (.complete st)

/-- The exchange of a round (R182): Transceive of the first sendLen frame bytes, no CRC check, the reply at rOff. -/
def selectCall (p : Params) (sel : SelectState) : CommCall :=
  { cmd := p.pcd.transceive, waitIrq := p.mask.waitTransceive, tx := Buf.slice sel.frame 0 sel.sendLen,
    txLastBits := sel.txlb, rxAlign := sel.rxAlign, checkCrc := false, dest := .frame, off := sel.rOff,
    cap := sel.rCap }

/-- `S.rxAlign <- S.txlb`, then the exchange of the round. -/
def selectExchange (s : State) : State :=
  let sel := { s.sel with rxAlign := s.sel.txlb }
  callCommunicate .selectRound (selectCall s.params sel) (s.withSel sel)

/-- The frame of path (a) before its CRC: framing byte 0x70 and the check byte (R178). -/
def fullFrame (p : Params) (f : Vector Byte 9) : Vector Byte 9 :=
  let f' := Buf.put f 1 p.picc.nvbSelect
  Buf.put f' 6 (xorAll (Buf.slice f' 2 4))

/-- The resolver with the frame and framing of path (b) (R180, R181). -/
def partialFrame (sel : SelectState) : SelectState :=
  { sel with
    txlb := sel.lk % 8, frame := Buf.put sel.frame 1 (nvb sel.lk), sendLen := partialLen sel.lk,
    rOff := wholeBytes sel.lk, rCap := 9 - wholeBytes sel.lk }

/-- The head of the per-level loop: path (a) when the level's 32 bits are known, else path (b) (R177). -/
def selectRound (s : State) : State :=
  if 32 ≤ s.sel.lk then
    let f := fullFrame s.params s.sel.frame
    callCrc (.computeCrc .fullFrame (Buf.slice f 0 7)) (s.withSel { s.sel with frame := f })
  else selectExchange (s.withSel (partialFrame s.sel))

/-- Path (a) after its frame's CRC (R178, R179). -/
def selectAfterFrameCrc (cs : Status) (s : State) : State :=
  if cs ≠ .ok then finish cs s
  else
    selectExchange (s.withSel
      { s.sel with
        frame := Buf.put (Buf.put s.sel.frame 7 s.crc.lo) 8 s.crc.hi, txlb := 0, sendLen := 9, rOff := 6, rCap := 3 })

/-- The resolver at the start of a level: the command byte, the cascade tag, the known prefix bytes and the
known-bit count (R174 to R176). -/
def levelStart (p : Params) (k decl : Nat) (sel : SelectState) : SelectState :=
  let base := sliceBase sel.level
  let tag := insertsTag sel.level k decl
  let known := k - 8 * base
  let nb := min (ceil8 known) (if tag then 3 else 4)
  let f0 := Buf.put sel.frame 0 (selCommand p sel.level)
  let f1 := if tag then Buf.put f0 2 p.picc.cascadeTag else f0
  { sel with
    base := base, useCT := tag, lk := if tag then known + 8 else known,
    frame := Buf.putMany f1 (if tag then 3 else 2) (Buf.slice sel.uidWork base nb) }

/-- Start the current level and its first round. -/
def selectLevel (k decl : Nat) (s : State) : State :=
  selectRound (s.withSel (levelStart s.params k decl s.sel))

/-- The resolver initialised (R172). -/
def selectInit (uidIn : Vector Byte 10) (sel : SelectState) : SelectState :=
  { sel with frame := Vector.replicate 9 0, uidWork := uidIn, level := 1 }

/-- SelectCore before its first transaction (R171, R172). -/
def selectBegin (k : Nat) (s : State) : State :=
  if selectArgs k then selectLevel k s.h.uidInSize.toNat (s.withSel (selectInit s.h.uidIn s.sel))
  else finish .invalidArgument s

/-- The level copy: 3 bytes after a cascade tag, else 4 (R193). -/
def levelCopy (p : Params) (sel : SelectState) : Vector Byte 10 :=
  if Buf.get sel.frame 2 = p.picc.cascadeTag then Buf.putMany sel.uidWork sel.base (Buf.slice sel.frame 3 3)
  else Buf.putMany sel.uidWork sel.base (Buf.slice sel.frame 2 4)

/-- The level is resolved: the copy, the reply-shape test (R191), then the SAK's CRC check (R192). -/
def levelResolved (s : State) : State :=
  let s' := s.withSel { s.sel with uidWork := levelCopy s.params s.sel }
  if s.sel.n ≠ 3 ∨ s.sel.vb ≠ 0 then finish .genericError s'
  else callCrc (.computeCrc .sakCheck [Buf.get s.sel.frame 6]) s'

/-- After the exchange of a round (R183 to R186). -/
def selectAfterExchange : CommReturn := fun st n vb s =>
  let s' := s.withSel { s.sel with n := n, vb := vb }
  if st = .collision then s'.withSeq .readColl
  else if st ≠ .ok then finish st s'
  else if 32 ≤ s.sel.lk then levelResolved s'
  else selectRound (s'.withSel { s'.sel with lk := 32 })

/-- The frame with the bit at collision position `p` set to 1 (R188, R190). -/
def patchBit (f : Vector Byte 9) (p : Nat) : Vector Byte 9 :=
  let i := 2 + (p - 1) / 8
  Buf.put f i (Buf.get f i ||| (1#8 <<< ((p - 1) % 8)))

/-- The CollReg read after a collision (R186). -/
def collStep (s : State) : State := (busRead .collReg s).withSeq (.gotColl (nextByte s))

/-- What follows the CollReg read, which returned `v` (R187 to R190). -/
def collResume (v : Byte) (s : State) : State :=
  if collPosUnknown s.params v then finish .collision s
  else
    let p := collPosition s.params v
    if p ≤ s.sel.lk then finish .internalError s
    else selectRound (s.withSel { s.sel with lk := p, frame := patchBit s.sel.frame p })

/-- After the SAK's CRC: compare it (R192), then test the SAK's bit 2 (R195). -/
def selectAfterSakCrc (k decl : Nat) (cs : Status) (s : State) : State :=
  if cs ≠ .ok then finish cs s
  else if s.crc.lo ≠ Buf.get s.sel.frame 7 ∨ s.crc.hi ≠ Buf.get s.sel.frame 8 then finish .crcMismatch s
  else if uidIncomplete (Buf.get s.sel.frame 6) then
    if s.sel.level = 3 then finish .internalError s
    else selectLevel k decl (s.withSel { s.sel with level := s.sel.level + 1 })
  else finish .ok s

/-- The commit of an OK selection: the CardId replaced whole (R34, R196). Nothing on any other status. -/
def selectResults (st : Status) (sel : SelectState) (h : HostRegs) : HostRegs :=
  if st = .ok then
    { h with uid := sel.uidWork, uidSize := BitVec.ofNat 8 (3 * sel.level + 1), sak := Buf.get sel.frame 6 }
  else h

/-- SelectCore's pure computation at the start of its step (R11). -/
def selectResume (k : Nat) (s : State) : State :=
  let decl := s.h.uidInSize.toNat
  match s.seq with
  | .crcNext .fullFrame data n => crcResume (.computeCrc .fullFrame data) selectAfterFrameCrc data n s
  | .crcNext .sakCheck data n => crcResume (.computeCrc .sakCheck data) (selectAfterSakCrc k decl) data n s
  | .commNext .selectRound c n => commResume .selectRound selectAfterExchange c n s
  | .replyCrcNext .selectRound c data n => replyCrcResume .selectRound selectAfterExchange c data n s
  | .gotColl v => collResume v s
  | _ => s

/-- SelectCore at its position; `results` are the operation's result writes at completion. -/
def selectStep (results : Status → SelectState → HostRegs → HostRegs) (s : State) : Outcome State Fault Refusal :=
  match s.seq with
  | .computeCrc .fullFrame data pos =>
    .next (crcStep (.computeCrc .fullFrame data) (.crcNext .fullFrame data) data pos s)
  | .computeCrc .sakCheck data pos =>
    .next (crcStep (.computeCrc .sakCheck data) (.crcNext .sakCheck data) data pos s)
  | .communicate .selectRound c pos => .next (commStep .selectRound c pos s)
  | .replyCrc .selectRound c data pos => .next (replyCrcStep .selectRound c data pos s)
  | .readColl => .next (collStep s)
  | .complete st => .next (completeWith (results st s.sel) st s)
  | _ => .fault .strayPosition

/-- SELECT: one step of the operation (R170). -/
def execSelect (s : State) : Outcome State Fault Refusal :=
  let k := s.h.knownBits.toNat
  selectStep selectResults (selectResume k (enter .select (selectBegin k) s))

/-- READ_CARD_SERIAL's result writes: the commit on OK, and RESULT on every status (R267). -/
def serialResults (st : Status) (sel : SelectState) (h : HostRegs) : HostRegs :=
  { selectResults st sel h with result := decide (st = .ok) }

/-- READ_CARD_SERIAL: one step of the operation, SelectCore with no known bits (R267). -/
def execReadCardSerial (s : State) : Outcome State Fault Refusal :=
  selectStep serialResults (selectResume 0 (enter .readCardSerial (selectBegin 0) s))

end Sys2Proof.Machine
end

