-- ==== Sys2Proof/Machine/Session.lean ====
section
/-! DEFINITION. The card session operations (43_session.md): REQUEST_OR_WAKEUP and IS_NEW_CARD_PRESENT over
RequestCore, HALT, AUTHENTICATE, STOP_CRYPTO and READ_BLOCK, one bus primitive a step. -/

namespace Sys2Proof.Machine

open Host (Outcome)

/-- A Transceive call of a session operation, the reply going to RXBUF from index 0 on. -/
def transceiveCall (p : Params) (tx : List Byte) (txLastBits : Nat) (checkCrc : Bool) (cap : Nat) : CommCall :=
  { cmd := p.pcd.transceive, waitIrq := p.mask.waitTransceive, tx := tx, txLastBits := txLastBits, rxAlign := 0,
    checkCrc := checkCrc, dest := .rxbuf, off := 0, cap := cap }

/-! ### RequestCore (R230) -/

/-- RequestCore before its first transaction, the CollReg read of R231. R230's pseudocode is followed where R337 has
every operation open with the CommandReg idle write, which R213, R155 and R295 give to Communicate and ComputeCrc
(log entry 21). -/
def requestBegin (s : State) : State := s.withSeq .clearCollRead

/-- RequestCore after the exchange: a non-OK status passes (R235), an OK reply must be 2 bytes with 0
trailing bits (R233). -/
def requestAfterExchange : CommReturn := fun st n vb s =>
  if st ≠ .ok then finish st s else if n ≠ 2 ∨ vb ≠ 0 then finish .genericError s else finish .ok s

/-- The request's result writes: ATQA from RXBUF, on OK only (R33, R233). -/
def requestResults (st : Status) (h : HostRegs) : HostRegs :=
  if st = .ok then { h with atqa0 := Memory.read h.rxbuf 0, atqa1 := Memory.read h.rxbuf 1 } else h

/-- RequestCore's pure computation at the start of its step (R11): after the CollReg write the call of the exchange (R232),
whose command `wakeup` picks, WUPA or REQA. -/
def requestResume (wakeup : Bool) (s : State) : State :=
  match s.seq with
  | .collCleared =>
    callCommunicate .request
      (transceiveCall s.params (requestFrame s.params wakeup) 7 false s.params.reqReplyCap) s
  | .commNext .request c k => commResume .request requestAfterExchange c k s
  | .replyCrcNext .request c data k => replyCrcResume .request requestAfterExchange c data k s
  | _ => s

/-- RequestCore at its position: the CollReg read-modify-write (R231), then the exchange (R232). `results` are the
operation's result writes at completion. -/
def requestStep (results : Status → HostRegs → HostRegs) (s : State) : Outcome State Fault Refusal :=
  match s.seq with
  | .clearCollRead => .next ((busRead .collReg s).withSeq (.clearCollWrite (nextByte s)))
  | .clearCollWrite v => .next ((busWrite .collReg [v &&& ~~~s.params.mask.collValuesAfter] s).withSeq .collCleared)
  | .communicate .request c pos => .next (commStep .request c pos s)
  | .replyCrc .request c data pos => .next (replyCrcStep .request c data pos s)
  | .complete st => .next (completeWith (results st) st s)
  | _ => .fault .strayPosition

/-- REQUEST_OR_WAKEUP: one step of the operation (R230). -/
def execRequestOrWakeup (s : State) : Outcome State Fault Refusal :=
  requestStep requestResults (requestResume s.h.isWakeup (enter .requestOrWakeup requestBegin s))

/-! ### IS_NEW_CARD_PRESENT (R262) -/

/-- Its result writes: ATQA as a request's, and RESULT = 1 for OK and Collision (R262, R265). -/
def presentResults (st : Status) (h : HostRegs) : HostRegs :=
  { requestResults st h with result := decide (st = .ok ∨ st = .collision) }

/-- IS_NEW_CARD_PRESENT at its position: the three defensive writes (R263), then a REQA (R264). Its first transaction
is R262's TxModeReg write (log entry 21). -/
def presentStep (s : State) : Outcome State Fault Refusal :=
  match s.seq with
  | .writeTxMode => .next ((busWrite .txModeReg [0x00] s).withSeq .writeRxMode)
  | .writeRxMode => .next ((busWrite .rxModeReg [0x00] s).withSeq .writeModWidth)
  | .writeModWidth => .next (requestBegin (busWrite .modWidthReg [s.params.modWidthValue] s))
  | _ => requestStep presentResults s

/-- IS_NEW_CARD_PRESENT: one step of the operation (R262). -/
def execIsNewCardPresent (s : State) : Outcome State Fault Refusal :=
  presentStep (requestResume false (enter .isNewCardPresent (fun s => s.withSeq .writeTxMode) s))

/-! ### HALT (R238) -/

/-- HALT before its first transaction: the CRC of the HLTA frame. -/
def haltBegin (s : State) : State := callCrc (.computeCrc .haltFrame (hltaBody s.params)) s

/-- HALT after its frame's CRC: a CRC Timeout is Timeout, else the exchange with no reply expected (R238, R239). -/
def haltAfterCrc (cs : Status) (s : State) : State :=
  if cs ≠ .ok then finish cs s
  else callCommunicate .halt (transceiveCall s.params (hltaBody s.params ++ [s.crc.lo, s.crc.hi]) 0 false 0) s

/-- HALT's status mapping (R239): Timeout is OK, OK is GenericError, any other status passes. -/
def haltStatus : Status → Status
  | .timeout => .ok
  | .ok => .genericError
  | st => st

/-- HALT after its exchange. -/
def haltAfterExchange : CommReturn := fun st _ _ s => finish (haltStatus st) s

/-- HALT's pure computation at the start of its step (R11). -/
def haltResume (s : State) : State :=
  match s.seq with
  | .crcNext .haltFrame data k => crcResume (.computeCrc .haltFrame data) haltAfterCrc data k s
  | .commNext .halt c k => commResume .halt haltAfterExchange c k s
  | .replyCrcNext .halt c data k => replyCrcResume .halt haltAfterExchange c data k s
  | _ => s

/-- HALT at its position. -/
def haltStep (s : State) : Outcome State Fault Refusal :=
  match s.seq with
  | .computeCrc .haltFrame data pos =>
    .next (crcStep (.computeCrc .haltFrame data) (.crcNext .haltFrame data) data pos s)
  | .communicate .halt c pos => .next (commStep .halt c pos s)
  | .replyCrc .halt c data pos => .next (replyCrcStep .halt c data pos s)
  | .complete st => .next (complete st s)
  | _ => .fault .strayPosition

/-- HALT: one step of the operation (R238). -/
def execHalt (s : State) : Outcome State Fault Refusal :=
  haltStep (haltResume (enter .halt haltBegin s))

/-! ### AUTHENTICATE (R243) -/

/-- The Communicate call of AUTHENTICATE: MFAuthent, so no StartSend; no reply expected (R245). -/
def authenticateCall (p : Params) (h : HostRegs) : CommCall :=
  { cmd := p.pcd.mfAuthent, waitIrq := p.mask.waitAuth, tx := authFrame h, txLastBits := 0, rxAlign := 0,
    checkCrc := false, dest := .rxbuf, off := 0, cap := 0 }

/-- AUTHENTICATE before its first transaction (R244). -/
def authenticateBegin (s : State) : State :=
  if authenticateArgs s.h then callCommunicate .authenticate (authenticateCall s.params s.h) s
  else finish .invalidArgument s

/-- AUTHENTICATE's return: complete with the status of the exchange. -/
def authenticateReturn : CommReturn := fun st _ _ s => finish st s

/-- AUTHENTICATE's pure computation at the start of its step (R11). -/
def authenticateResume (s : State) : State :=
  match s.seq with
  | .commNext .authenticate c k => commResume .authenticate authenticateReturn c k s
  | .replyCrcNext .authenticate c data k => replyCrcResume .authenticate authenticateReturn c data k s
  | _ => s

/-- AUTHENTICATE at its position. -/
def authenticateStep (s : State) : Outcome State Fault Refusal :=
  match s.seq with
  | .communicate .authenticate c pos => .next (commStep .authenticate c pos s)
  | .replyCrc .authenticate c data pos => .next (replyCrcStep .authenticate c data pos s)
  | .complete st => .next (complete st s)
  | _ => .fault .strayPosition

/-- AUTHENTICATE: one step of the operation (R243). -/
def execAuthenticate (s : State) : Outcome State Fault Refusal :=
  authenticateStep (authenticateResume (enter .authenticate authenticateBegin s))

/-! ### STOP_CRYPTO (R250) -/

/-- STOP_CRYPTO at its position: the Status2Reg read, the write with MFCrypto1On cleared, OK. It writes no
CommandReg, as R250 (log entry 21). -/
def stopCryptoStep (s : State) : Outcome State Fault Refusal :=
  match s.seq with
  | .clearCryptoRead => .next ((busRead .status2Reg s).withSeq (.clearCryptoWrite (nextByte s)))
  | .clearCryptoWrite v => .next (finish .ok (busWrite .status2Reg [v &&& ~~~s.params.mask.crypto1On] s))
  | .complete st => .next (complete st s)
  | _ => .fault .strayPosition

/-- STOP_CRYPTO: one step of the operation (R250). -/
def execStopCrypto (s : State) : Outcome State Fault Refusal :=
  stopCryptoStep (enter .stopCrypto (fun s => s.withSeq .clearCryptoRead) s)

/-! ### READ_BLOCK (R254) -/

/-- READ_BLOCK before its first transaction: the two buffer checks (R255), then the CRC of the READ frame. -/
def readBlockBegin (s : State) : State :=
  if s.h.rxCap.toNat < 18 then finish .bufferTooSmall s
  else if s.params.rxbufSize < s.h.rxCap.toNat then finish .invalidArgument s
  else callCrc (.computeCrc .readFrame (readBody s.params s.h)) s

/-- READ_BLOCK after its frame's CRC: the exchange, with the CRC check on (R254, R256). -/
def readBlockAfterCrc (cs : Status) (s : State) : State :=
  if cs ≠ .ok then finish cs s
  else
    callCommunicate .readBlock
      (transceiveCall s.params (readBody s.params s.h ++ [s.crc.lo, s.crc.hi]) 0 true s.h.rxCap.toNat) s

/-- READ_BLOCK's return: complete with the status of the exchange. -/
def readBlockReturn : CommReturn := fun st _ _ s => finish st s

/-- READ_BLOCK's pure computation at the start of its step (R11). -/
def readBlockResume (s : State) : State :=
  match s.seq with
  | .crcNext .readFrame data k => crcResume (.computeCrc .readFrame data) readBlockAfterCrc data k s
  | .commNext .readBlock c k => commResume .readBlock readBlockReturn c k s
  | .replyCrcNext .readBlock c data k => replyCrcResume .readBlock readBlockReturn c data k s
  | _ => s

/-- READ_BLOCK at its position. -/
def readBlockStep (s : State) : Outcome State Fault Refusal :=
  match s.seq with
  | .computeCrc .readFrame data pos =>
    .next (crcStep (.computeCrc .readFrame data) (.crcNext .readFrame data) data pos s)
  | .communicate .readBlock c pos => .next (commStep .readBlock c pos s)
  | .replyCrc .readBlock c data pos => .next (replyCrcStep .readBlock c data pos s)
  | .complete st => .next (complete st s)
  | _ => .fault .strayPosition

/-- READ_BLOCK: one step of the operation (R254). -/
def execReadBlock (s : State) : Outcome State Fault Refusal :=
  readBlockStep (readBlockResume (enter .readBlock readBlockBegin s))

end Sys2Proof.Machine
end

