-- ==== Sys2Proof/Machine/Dispatch.lean ====
section
/-! DEFINITION. The meaning of each operation. One call of `exec` is one step of the sequencer (10_state.md R45): the
pure computation up to the operation's next bus transaction or its completion (00_scope.md R11), and then that. -/

namespace Sys2Proof.Machine

def exec (i : Instr) (s : State) : Host.Outcome State Fault Refusal :=
  match i with
  | .communicate => Sys2Proof.Machine.execCommunicate s
  | .select => Sys2Proof.Machine.execSelect s
  | .calcCrc => Sys2Proof.Machine.execCalcCrc s
  | .requestOrWakeup => Sys2Proof.Machine.execRequestOrWakeup s
  | .halt => Sys2Proof.Machine.execHalt s
  | .authenticate => Sys2Proof.Machine.execAuthenticate s
  | .stopCrypto => Sys2Proof.Machine.execStopCrypto s
  | .readBlock => Sys2Proof.Machine.execReadBlock s
  | .isNewCardPresent => Sys2Proof.Machine.execIsNewCardPresent s
  | .readCardSerial => Sys2Proof.Machine.execReadCardSerial s

end Sys2Proof.Machine
end

