-- ==== Sys2Proof/Machine/HostPort.lean ====
section
/-! DEFINITION. The host's accesses (10_state.md R20 to R27, 60_exceptions.md R297, R298), each one atomic step, the
host script (30_encoding.md R104, R105) and another bus master's turn (70_reset_and_hazards.md R326, R331). -/

namespace Sys2Proof.Machine

open Host (Outcome)

/-- The byte a host read of an offset returns: the register's current value, 0x00 at a reserved offset (R20, R22). -/
def hostRead (off : Byte) (s : State) : Byte :=
  match hostRegAt s.params off with
  | some r => readReg s.params s.h r
  | none => 0x00

/-- A host write (R20 to R25): ignored while BUSY, and at a reserved offset; to CTRL with bit 0 = 1, GO; to
CTRL with bit 0 = 0, nothing. -/
def hostWrite (off v : Byte) (s : State) : State :=
  if s.h.busy then s
  else
    match hostRegAt s.params off with
    | none => s
    | some .ctrl => if flagged v 0x01 then go s else s
    | some r => s.withH (writeReg r v s.h)

/-- The turn of a host read: what it returned goes on record. -/
def hostReadTurn (off : Byte) (s : State) : State := s.withReads ((off, hostRead off s) :: s.reads)

/-- The turn of a script's `wait` (R104): read STAT; while DONE is 0 the read is repeated. The schedule taken
between two reads is one sequencer step (log entry 8). -/
def hostWaitTurn (s : State) : State :=
  let s' := hostReadTurn 0x02 s
  if s.h.done then s' else s'.withAgenda (.sequencer :: .wait :: s'.agenda)

/-- The turn of another bus master: its transaction goes on record; while BUSY the spec puts it outside itself. DESIGN
CHOICE: the turn's shape is not checked. One of no byte, which R77 and R81 know no transaction for, or of a burst R85 has
no form for, goes on record and takes a step like any other, and a read's bytes are those the turn names, no draw of the
environment (log entry 30). -/
def foreignTurn (t : Txn) (s : State) : Outcome State Fault Refusal :=
  if s.h.busy then .refused .foreignBusMaster else .next (s.withForeign (t :: s.foreign))

/-! ### The host script -/

/-- A host write of a register, as its pair (offset, value) (R104). -/
def wrTurn (r : HostReg) (v : Byte) : Turn := .write (hostOffset r) v

/-- The host accesses of a base statement (R104). -/
def stmtTurns : Stmt → List Turn
  | .wr r v => [wrTurn r v]
  | .rd r => [.read (hostOffset r)]
  | .go i => [wrTurn .op (opcode i), wrTurn .ctrl 0x01]
  | .wait => [.wait]

/-- Writes of bytes to TXBUF0 on. -/
def writeTxbuf (bytes : List Byte) : List Stmt :=
  (List.range (min bytes.length 64)).map (fun i => .wr (.txbuf (Fin.ofNat 64 i)) (bytes.getD i 0))

/-- Writes of an identifier to UID_IN0-UID_IN9. -/
def writeUidIn (uid : List Byte) : List Stmt :=
  (List.range 10).map (fun i => .wr (.uidIn (Fin.ofNat 10 i)) (uid.getD i 0))

/-- Writes of a key to KEY0-KEY5. -/
def writeKey (key : List Byte) : List Stmt :=
  (List.range 6).map (fun i => .wr (.key (Fin.ofNat 6 i)) (key.getD i 0))

/-- The FRAMING byte of `xfer`: `(chk<<7)|(align<<4)|txlb` (R105). -/
def xferFraming (chk : Bool) (align txlb : Nat) : Byte :=
  (bit0 chk <<< 7) ||| (BitVec.ofNat 8 align <<< 4) ||| BitVec.ofNat 8 txlb

/-- The expansion of a pseudo-instruction (R105). Each ends in `wait`. -/
def expand : Pseudo → List Stmt
  | .xfer cmd irq txlb align chk cap bytes =>
    writeTxbuf bytes ++
      [.wr .txLen (BitVec.ofNat 8 bytes.length), .wr .pcdCmd cmd, .wr .irqWait irq,
       .wr .framing (xferFraming chk align txlb), .wr .rxCap cap, .go .communicate, .wait]
  | .select k sz uid => writeUidIn uid ++ [.wr .uidInSize sz, .wr .knownBits k, .go .select, .wait]
  | .select0 => [.wr .knownBits 0, .go .select, .wait]
  | .crc bytes => writeTxbuf bytes ++ [.wr .txLen (BitVec.ofNat 8 bytes.length), .go .calcCrc, .wait]
  | .reqa => [.wr .opt 0, .go .requestOrWakeup, .wait]
  | .wupa => [.wr .opt 1, .go .requestOrWakeup, .wait]
  | .halt => [.go .halt, .wait]
  | .auth cmd blk key => [.wr .authCmd cmd, .wr .blockAddr blk] ++ writeKey key ++ [.go .authenticate, .wait]
  | .stopcrypto => [.go .stopCrypto, .wait]
  | .read blk => [.wr .blockAddr blk, .wr .rxCap 18, .go .readBlock, .wait]
  | .present => [.go .isNewCardPresent, .wait]
  | .serial => [.go .readCardSerial, .wait]

/-- The host accesses of a script of base statements. -/
def scriptTurns (script : List Stmt) : List Turn := script.flatMap stmtTurns

end Sys2Proof.Machine
end

