-- ==== Sys2Proof/Machine/Step.lean ====
section
/-! DEFINITION. One step of the block (00_scope.md R7, R16): the agent whose turn it is takes one step. -/

namespace Sys2Proof.Machine

open Host (Outcome)

/-- A step of the sequencer: nothing while idle; else one step of the operation latched in `S.op`, a
reserved code completing with InvalidArgument (R45, R102, R341). -/
def sequencerTurn (s : State) : Outcome State Fault Refusal :=
  match s.seq with
  | .idle => .next s
  | _ =>
    match decodeOp s.op with
    | some i => exec i s
    | none => .next (complete .invalidArgument s)

/-- The turn of the run-to-completion schedule: the sequencer's, and the next one too, until it is idle. -/
def untilIdleTurn (rest : List Turn) (s : State) : Outcome State Fault Refusal :=
  match s.seq with
  | .idle => .next (s.withAgenda rest)
  | _ => sequencerTurn s

/-- One step. The head of the agenda says whose turn it is; with no turn listed the sequencer takes it. -/
def step (s : State) : Outcome State Fault Refusal :=
  match s.agenda with
  | [] => sequencerTurn s
  | .sequencer :: rest => sequencerTurn (s.withAgenda rest)
  | .untilIdle :: rest => untilIdleTurn rest s
  | .write off v :: rest => .next (hostWrite off v (s.withAgenda rest))
  | .read off :: rest => .next (hostReadTurn off (s.withAgenda rest))
  | .wait :: rest => .next (hostWaitTurn (s.withAgenda rest))
  | .reset :: rest => .next (resetBlock (s.withAgenda rest))
  | .foreign t :: rest => foreignTurn t (s.withAgenda rest)

/-- `s` with the operation whose word is `w` just started, so that the next step is its first. -/
def State.withFetchWord (s : State) (_nbits w : Nat) : State := armed (BitVec.ofNat 8 w) s

end Sys2Proof.Machine
end

