-- ==== Sys2Proof/Machine/Chip.lean ====
section
/-! DEFINITION. The reader chip as far as the spec states it: the checksum its CRC unit computes (42_crc.md R217), the
side effects of its registers (20_memory.md R76) and the bring-up (70_reset_and_hazards.md R326). The chip is environment
(10_state.md R53): no step of the block uses this file. It is here for claims that take a chip as a named assumption. -/

namespace Sys2Proof.Machine

/-- One byte of CRC_A (R217). -/
def crcAStep (crc : BitVec 16) (b : Byte) : BitVec 16 :=
  let b1 := b ^^^ crc.setWidth 8
  let b2 := b1 ^^^ (b1 <<< 4)
  let w : BitVec 16 := b2.setWidth 16
  (crc >>> 8) ^^^ (w <<< 8) ^^^ (w <<< 3) ^^^ (w >>> 4)

/-- CRC_A of a byte sequence, (low byte, high byte) (R217). -/
def crcA (data : List Byte) : Byte × Byte :=
  let crc := data.foldl crcAStep 0x6363
  (crc.setWidth 8, (crc >>> 8).setWidth 8)

/-- The part of a chip that R76 speaks of: the active command, the interrupt flags, the FIFO, whether a
transmission was started, and the CRC unit's result. `sending` says only that one was started (log entry 26). -/
structure Chip where
  command : Byte
  comIrq : Byte
  divIrq : Byte
  fifo : List Byte
  sending : Bool
  crcLo : Byte
  crcHi : Byte
  deriving DecidableEq, Repr

/-- Writing 1s to flag bits with bit 7 = 0 clears those flags (R76). DESIGN CHOICE, log entry 23: a write with bit 7
(Set1, Set2) = 1, of which R76 says nothing, leaves every flag as it was. -/
def clearFlags (flags v : Byte) : Byte := if flagged v 0x80 then flags else flags &&& ~~~v

/-- The side effects of a write (R76, R217). CalcCRC puts CRC_A of the FIFO bytes in the result registers. DESIGN
CHOICE, log entry 24: result and CRCIRq are there with the CommandReg write, and the FIFO bytes are not used up.
DESIGN CHOICE, log entry 26: no other started command or transmission has an effect beyond its start; the FIFO keeps
the written bytes, no received byte is added, no flag is set, and `command` and `sending` never end by themselves.
DESIGN CHOICE, log entry 27: the FIFO has no bound, of a burst to another register the first byte counts, the command
is compared on all 8 bits, and StartSend written as 1 counts as set whatever it was.
DESIGN CHOICE, log entry 32: where FIFO_FLUSH is overridden, any bit of the parameter empties the FIFO, not R76's literal
bit 7; START_SEND and DIV_CRCIRQ likewise stand for StartSend and CRCIRq. -/
def chipWrite (p : Params) (r : ChipReg) (bytes : List Byte) (c : Chip) : Chip :=
  match r, bytes with
  | .commandReg, v :: _ =>
    if v = p.pcd.calcCrc then
      { c with command := v, crcLo := (crcA c.fifo).1, crcHi := (crcA c.fifo).2, divIrq := c.divIrq ||| p.mask.divCrcIrq }
    else { c with command := v }
  | .comIrqReg, v :: _ => { c with comIrq := clearFlags c.comIrq v }
  | .divIrqReg, v :: _ => { c with divIrq := clearFlags c.divIrq v }
  | .fifoLevelReg, v :: _ => if flagged v p.mask.fifoFlush then { c with fifo := [] } else c
  | .fifoDataReg, bs => { c with fifo := c.fifo ++ bs }
  | .bitFramingReg, v :: _ =>
    if flagged v p.mask.startSend ∧ c.command = p.pcd.transceive then { c with sending := true } else c
  | _, _ => c

/-- The side effects of a transaction: a read of FIFODataReg removes the bytes read, other reads have none (R76). -/
def chipAfter (p : Params) (c : Chip) : Txn → Chip
  | .write r bytes => chipWrite p r bytes c
  | .read .fifoDataReg raw => { c with fifo := c.fifo.drop raw.length }
  | .read _ _ => c

/-- A read of a CRC result register answers the CRC unit's result; every other answer stays free (R217). -/
def chipAnswers (c : Chip) : Txn → Bool
  | .read .crcResultRegL raw => raw == [c.crcLo]
  | .read .crcResultRegH raw => raw == [c.crcHi]
  | _ => true

/-- A record of transactions, oldest first, fits a chip that starts as `c`. -/
def fitsChip (p : Params) : Chip → List Txn → Bool
  | _, [] => true
  | c, t :: ts => chipAnswers c t && fitsChip p (chipAfter p c t) ts

/-- The bring-up transactions, oldest first, `v` being what TxControlReg answers (R326). DESIGN CHOICE, log entry 22:
the ModWidthReg value is R326's literal 0x26, also where MODWIDTH_VALUE, which `presentStep` writes, is overridden. -/
def bringUp (p : Params) (v : Byte) : List Txn :=
  [ .write .txModeReg [0x00], .write .rxModeReg [0x00], .write .modWidthReg [0x26], .write .tModeReg [0x80],
    .write .tPrescalerReg [0xA9], .write .tReloadRegH [0x03], .write .tReloadRegL [0xE8],
    .write .txASKReg [0x40], .write .modeReg [0x3D], .read .txControlReg [v] ] ++
    (if v &&& p.mask.txRfEn ≠ p.mask.txRfEn then [.write .txControlReg [v ||| p.mask.txRfEn]] else [])

end Sys2Proof.Machine
end

