-- ==== Sys2Proof/Safety.lean ====
section
/-! DEFINITION. The terms claims are stated in: runs of an operation, which sequencer positions an operation has,
the statuses it can return, the invariant of the block, and the named assumption BRINGUP_DONE. -/

namespace Sys2Proof.Machine

open Host (Outcome)

/-! ### Runs -/

/-- At most `k` steps of the operation `i`, ended by its completion. -/
def runOp (i : Instr) : Nat → State → Outcome State Fault Refusal
  | 0, s => .next s
  | k + 1, s =>
    match exec i s with
    | .next t => if t.seq = .idle then .next t else runOp i k t
    | o => o

/-- `k` turns of the sequencer. -/
def runSequencer : Nat → State → Outcome State Fault Refusal
  | 0, s => .next s
  | k + 1, s =>
    match sequencerTurn s with
    | .next t => runSequencer k t
    | o => o

/-! ### Positions and statuses of an operation -/

/-- The callers of ComputeCrc inside an operation (R215). -/
def ownsCrcSite (i : Instr) : CrcSite → Bool
  | .calcCrc => i == .calcCrc
  | .fullFrame | .sakCheck => i == .select || i == .readCardSerial
  | .haltFrame => i == .halt
  | .readFrame => i == .readBlock

/-- The callers of Communicate inside an operation. -/
def ownsCommSite (i : Instr) : CommSite → Bool
  | .host => i == .communicate
  | .selectRound => i == .select || i == .readCardSerial
  | .request => i == .requestOrWakeup || i == .isNewCardPresent
  | .halt => i == .halt
  | .authenticate => i == .authenticate
  | .readBlock => i == .readBlock

/-- The positions in the pseudocode of an operation; idle and the first step count for each. -/
def owns (i : Instr) : Seq → Bool
  | .idle | .start | .complete _ => true
  | .computeCrc site _ _ | .crcNext site _ _ => ownsCrcSite i site
  | .communicate site _ _ | .commNext site _ _ => ownsCommSite i site
  | .replyCrc site _ _ _ | .replyCrcNext site _ _ _ => ownsCommSite i site
  | .readColl | .gotColl _ => i == .select || i == .readCardSerial
  | .clearCollRead | .clearCollWrite _ | .collCleared => i == .requestOrWakeup || i == .isNewCardPresent
  | .clearCryptoRead | .clearCryptoWrite _ => i == .stopCrypto
  | .writeTxMode | .writeRxMode | .writeModWidth => i == .isNewCardPresent

/-- The statuses an operation can return (R290). -/
def canReturn : Instr → List Status
  | .communicate | .readBlock =>
    [.ok, .genericError, .collision, .timeout, .bufferTooSmall, .invalidArgument, .crcMismatch, .mifareNack]
  | .select =>
    [.ok, .genericError, .collision, .timeout, .bufferTooSmall, .internalError, .crcMismatch, .invalidArgument]
  | .readCardSerial =>
    [.ok, .genericError, .collision, .timeout, .bufferTooSmall, .internalError, .crcMismatch]
  | .calcCrc => [.ok, .timeout, .invalidArgument]
  | .requestOrWakeup | .isNewCardPresent => [.ok, .genericError, .collision, .timeout, .bufferTooSmall]
  | .halt => [.ok, .genericError, .collision, .timeout]
  | .authenticate => [.ok, .genericError, .collision, .timeout, .invalidArgument]
  | .stopCrypto => [.ok]

/-- The chip registers the block uses (R73's "block use" column, R74). -/
def blockUses : ChipReg → Bool
  | .commandReg | .comIrqReg | .divIrqReg | .errorReg | .status2Reg | .fifoDataReg | .fifoLevelReg
  | .controlReg | .bitFramingReg | .collReg | .txModeReg | .rxModeReg | .modWidthReg | .crcResultRegL
  | .crcResultRegH => true
  | _ => false

/-- The register of a transaction. -/
def Txn.reg : Txn → ChipReg
  | .write r _ => r
  | .read r _ => r

/-- The bytes of a transaction. -/
def Txn.bytes : Txn → List Byte
  | .write _ bs => bs
  | .read _ bs => bs

/-! ### The invariant -/

/-- The cascade level is one of 1, 2, 3 (R48). -/
def levelOk (s : State) : Prop := 1 ≤ s.sel.level ∧ s.sel.level ≤ 3

/-- The reply of a call fits its destination, `off + cap <= len(dest)` (R140); the resolver's exchanges reply
into S.frame (R182), every other one into RXBUF from index 0 on. -/
def callFits (p : Params) (site : CommSite) (c : CommCall) : Prop :=
  match site with
  | .selectRound => c.dest = .frame ∧ c.off + c.cap ≤ 9
  | .host | .request | .halt | .authenticate | .readBlock => c.dest = .rxbuf ∧ c.off = 0 ∧ c.cap ≤ p.rxbufSize

/-- At a poll read of ComputeCrc the budget is not used up (R46); a load has bytes to send (R81). -/
def crcPosOk (s : State) (data : List Byte) : CrcPos → Prop
  | .load => data ≠ []
  | .poll => s.crc.crcPoll < s.params.crcPollBudget
  | .idle | .clearDone | .flush | .start | .stop | .readLo | .readHi => True

/-- At a poll read of Communicate the budget is not used up (R46); a load and a FIFO read move at least one
byte (R81); from the FIFO level on, the reply is within the capacity (R147), and the bytes to store are the reply's. -/
def commPosOk (s : State) (c : CommCall) : CommPos → Prop
  | .load => c.tx ≠ []
  | .poll => s.comm.irqPoll < s.params.irqPollBudget
  | .readLevel => 0 < c.cap
  | .readData => 0 < s.comm.cn ∧ s.comm.cn ≤ c.cap
  | .readControl d => d.length = s.comm.cn ∧ s.comm.cn ≤ c.cap
  | .idle | .clearIrqs | .flush | .framing | .command | .kickRead | .kickWrite _ | .readError => True

/-- A FIFO level was read for a reply that is expected (R141). -/
def commNextOk (c : CommCall) : CommNext → Prop
  | .gotLevel _ => 0 < c.cap
  | .flushed | .sent | .kicked | .polled _ | .gotError | .stored => True

/-- What holds of the state at a position of the running operation. -/
def seqOk (s : State) : Prop :=
  match s.seq with
  | .computeCrc site data pos =>
    crcPosOk s data pos ∧ (site = .readFrame → s.h.rxCap.toNat ≤ s.params.rxbufSize) ∧
      (site = .fullFrame ∨ site = .sakCheck → levelOk s)
  | .crcNext site _ _ =>
    (site = .readFrame → s.h.rxCap.toNat ≤ s.params.rxbufSize) ∧ (site = .fullFrame ∨ site = .sakCheck → levelOk s)
  | .communicate site c pos => callFits s.params site c ∧ commPosOk s c pos ∧ (site = .selectRound → levelOk s)
  | .commNext site c k => callFits s.params site c ∧ commNextOk c k ∧ (site = .selectRound → levelOk s)
  | .replyCrc site c data pos => callFits s.params site c ∧ crcPosOk s data pos ∧ (site = .selectRound → levelOk s)
  | .replyCrcNext site c _ _ => callFits s.params site c ∧ (site = .selectRound → levelOk s)
  | .readColl | .gotColl _ => levelOk s
  | .complete .ok =>
    (decodeOp s.op = some .select ∨ decodeOp s.op = some .readCardSerial →
      levelOk s ∧ uidIncomplete (Buf.get s.sel.frame 6) = false)
  | _ => True

/-- The invariant of the block: what every step keeps. -/
structure State.Inv (s : State) : Prop where
  /-- the parameters meet R8's constraints -/
  params_wf : s.params.wf = true
  /-- TXBUF and RXBUF are canonical and hold nothing beyond their sizes (R21) -/
  txbuf_wf : Memory.wf s.h.txbuf
  rxbuf_wf : Memory.wf s.h.rxbuf
  txbuf_size : ∀ c ∈ s.h.txbuf, c.1 < s.params.txbufSize
  rxbuf_size : ∀ c ∈ s.h.rxbuf, c.1 < s.params.rxbufSize
  /-- BUSY is 1 from GO to completion and 0 otherwise (R26, R45) -/
  busy_iff : s.h.busy = true ↔ s.seq ≠ .idle
  /-- DONE is 0 from GO to completion (R26) -/
  done_not_busy : s.h.done = true → s.h.busy = false
  /-- STATUS holds a listed code (R103) -/
  status_code : s.h.status.toNat ≤ 8
  /-- RX_LEN is within RXBUF (R30) -/
  rx_len : s.h.rxLen.toNat ≤ s.params.rxbufSize
  /-- UID_SIZE is 0, 4, 7 or 10 (R35) -/
  uid_size : s.h.uidSize = 0 ∨ s.h.uidSize = 4 ∨ s.h.uidSize = 7 ∨ s.h.uidSize = 10
  /-- a committed SAK never has bit 2 set (R195) -/
  sak_complete : s.h.uidSize ≠ 0 → uidIncomplete s.h.sak = false
  /-- the poll counters stay within their budgets (R46) -/
  irq_poll : s.comm.irqPoll ≤ s.params.irqPollBudget
  crc_poll : s.crc.crcPoll ≤ s.params.crcPollBudget
  /-- `S.seq` stands in the pseudocode of `S.op` (R45) -/
  position : s.seq = .idle ∨ s.seq = .start ∨ ∃ i, decodeOp s.op = some i ∧ owns i s.seq = true
  /-- and what that position needs holds -/
  position_ok : seqOk s

/-! ### The invariant behind R290 -/

/-- The Communicate calls of an operation other than COMMUNICATE and READ_BLOCK ask for no CRC check, and
HALT's and AUTHENTICATE's expect no reply. -/
def callShape (i : Instr) (c : CommCall) : Prop :=
  (i ≠ .communicate → i ≠ .readBlock → c.checkCrc = false) ∧ (i = .halt ∨ i = .authenticate → c.cap = 0)

/-- The operation `i` can still end only with a status R290 lists for it. -/
def statusOk (i : Instr) (s : State) : Prop :=
  match s.seq with
  | .communicate _ c pos =>
    callShape i c ∧ (pos = .readLevel ∨ pos = .readData ∨ (∃ d, pos = .readControl d) → 0 < c.cap)
  | .commNext _ c k => callShape i c ∧ ((∃ v, k = .gotLevel v) ∨ k = .stored → 0 < c.cap)
  | .replyCrc _ c _ _ | .replyCrcNext _ c _ _ => callShape i c ∧ c.checkCrc = true
  | .complete st => st ∈ canReturn i
  | _ => True

/-! ### Terms of the statements -/

/-- The host may write this register (R21's RW rows). CTRL, which stores nothing, is not one. -/
def writable : HostReg → Bool
  | .op | .pcdCmd | .irqWait | .framing | .txLen | .rxCap | .knownBits | .uidInSize | .opt | .blockAddr | .authCmd
  | .key _ | .uidIn _ | .txbuf _ | .rxbuf _ => true
  | .ctrl | .stat | .status | .rxLen | .rxValidBits | .crcLo | .crcHi | .atqa _ | .uidSize | .sak | .cardType
  | .uid _ => false

/-- What a written value reads back as: reserved bits read 0 (R23). -/
def readBack (r : HostReg) (v : Byte) : Byte :=
  match r with
  | .framing => v &&& 0xF7
  | .opt => v &&& 0x01
  | _ => v

/-- RX_LEN, RX_VALID_BITS and RXBUF hold the same in both (R30). -/
def sameReply (h h' : HostRegs) : Prop :=
  h'.rxLen = h.rxLen ∧ h'.rxValidBits = h.rxValidBits ∧ h'.rxbuf = h.rxbuf

/-- The CardId register holds the same in both (R34). -/
def sameCard (h h' : HostRegs) : Prop := h'.uidSize = h.uidSize ∧ h'.uid = h.uid ∧ h'.sak = h.sak

/-- The status an operation ends with when its exchange at `site` fails with `st`, not Collision: HALT maps it,
every other operation passes it (R293). -/
def failureStatus (site : CommSite) (st : Status) : Status := if site = .halt then haltStatus st else st

/-- RESULT after a completion of `i` with `st` (R27). -/
def resultAfter (i : Instr) (st : Status) (h : HostRegs) : Bool :=
  match i with
  | .isNewCardPresent => st == .ok || st == .collision
  | .readCardSerial => st == .ok
  | .communicate | .select | .calcCrc | .requestOrWakeup | .halt | .authenticate | .stopCrypto | .readBlock => h.result

/-- The next step of the operation is its completion with `st`, and no result register but RESULT is written (R291). -/
def endsWith (i : Instr) (st : Status) (s : State) : Prop :=
  ∃ t, exec i s = .next t ∧ t.seq = .idle ∧ t.bus = s.bus ∧ t.env = s.env ∧
    t.h = { s.h with status := statusCode st, busy := false, done := true, result := resultAfter i st s.h }

/-- The next step is the ControlReg read after the reply bytes `d` of the call `c` (R147): it stands at that read, or,
with a FIFO level of 0, which reads no byte (R81, R153), before the computation that finds so. -/
def atControlRead (s : State) (c : CommCall) (d : List Byte) : Prop :=
  ∃ site, s.seq = .communicate site c (.readControl d) ∨
    d = [] ∧ ∃ v, s.seq = .commNext site c (.gotLevel v) ∧ fifoLevel s.params v = 0

/-- The bytes written to FIFODataReg, write by write, in the order of the record. -/
def fifoWrites (bus : List Txn) : List (List Byte) :=
  bus.filterMap (fun t => match t with | .write .fifoDataReg bs => some bs | _ => none)

/-- A bound on the sequencer steps from GO to completion of any operation: 99 exchanges, each with a CollReg
read, six ComputeCrc, and the completion (R154, R194, R216, R306). -/
def turnBound (p : Params) : Nat := 99 * (p.irqPollBudget + 13) + 6 * (p.crcPollBudget + 8) + 1

/-! ### Named assumptions of claims about the card -/

/-- BRINGUP_DONE (R326, R327): another bus master has performed the bring-up. `foreign` is newest first. DESIGN CHOICE,
log entry 25: its transactions are one uninterrupted run of the record, whatever the master wrote before or after. -/
def BringUpDone (s : State) : Prop := ∃ v, (bringUp s.params v).reverse <:+: s.foreign

/-- No other bus master is listed to take a turn (R331). -/
def ExclusiveBus (s : State) : Prop := ∀ t, Turn.foreign t ∉ s.agenda

end Sys2Proof.Machine
end

