-- ==== Sys2Proof/Certificates/Slice0/Obligations.lean ====
section
/-! DEFINITION. The statements for the provers. Each docstring names the rule of the spec it formalises. -/

open Sys2Proof Sys2Proof.Machine
open Host (Outcome)

/-! ### Encodings -/

/-- R101: the ten operation codes, each word written out bit by bit. -/
def Obligations.OperationWordsDecode : Prop :=
  ∀ rest : List Byte,
    decode (0b00000001#8 :: rest) = .ok (.communicate, rest) ∧
    decode (0b00000010#8 :: rest) = .ok (.select, rest) ∧
    decode (0b00000011#8 :: rest) = .ok (.calcCrc, rest) ∧
    decode (0b00000100#8 :: rest) = .ok (.requestOrWakeup, rest) ∧
    decode (0b00000101#8 :: rest) = .ok (.halt, rest) ∧
    decode (0b00000110#8 :: rest) = .ok (.authenticate, rest) ∧
    decode (0b00000111#8 :: rest) = .ok (.stopCrypto, rest) ∧
    decode (0b00001000#8 :: rest) = .ok (.readBlock, rest) ∧
    decode (0b00001001#8 :: rest) = .ok (.isNewCardPresent, rest) ∧
    decode (0b00001010#8 :: rest) = .ok (.readCardSerial, rest)

/-- R101, R102: the encoder's word decodes to the operation it stands for, with nothing dropped; every
decoded word is the encoder's; every other first byte is rejected by its name. -/
def Obligations.EncodeDecodeRoundTrip : Prop :=
  (∀ (i : Instr) (rest : List Byte), i.wf = true → decode (encode i ++ rest) = .ok (i, rest)) ∧
  (∀ (bs rest : List Byte) (i : Instr), decode bs = .ok (i, rest) → bs = encode i ++ rest) ∧
  (∀ (code : Byte) (rest : List Byte), code = 0x00 ∨ 0x0B ≤ code.toNat →
    decode (code :: rest) = .error (.reservedOp code)) ∧
  decode [] = .error .noWord

/-- R21: the offset of every register, as its table gives it; the offset of every register the map lists leads back to
it; and every offset that leads to a register is that register's offset. -/
def Obligations.HostRegisterMapInverse : Prop :=
  (hostOffset .op = 0x00 ∧ hostOffset .ctrl = 0x01 ∧ hostOffset .stat = 0x02 ∧ hostOffset .status = 0x03 ∧
    hostOffset .pcdCmd = 0x04 ∧ hostOffset .irqWait = 0x05 ∧ hostOffset .framing = 0x06 ∧ hostOffset .txLen = 0x07 ∧
    hostOffset .rxCap = 0x08 ∧ hostOffset .rxLen = 0x09 ∧ hostOffset .rxValidBits = 0x0A ∧
    hostOffset .knownBits = 0x0B ∧ hostOffset .uidInSize = 0x0C ∧ hostOffset .opt = 0x0D ∧
    hostOffset .blockAddr = 0x0E ∧ hostOffset .authCmd = 0x0F ∧ hostOffset .crcLo = 0x16 ∧ hostOffset .crcHi = 0x17 ∧
    hostOffset (.atqa 0) = 0x18 ∧ hostOffset (.atqa 1) = 0x19 ∧ hostOffset .uidSize = 0x1A ∧ hostOffset .sak = 0x1B ∧
    hostOffset .cardType = 0x1C) ∧
  ((∀ i, (hostOffset (.key i)).toNat = 0x10 + i.val) ∧ (∀ i, (hostOffset (.uid i)).toNat = 0x20 + i.val) ∧
    (∀ i, (hostOffset (.uidIn i)).toNat = 0x30 + i.val) ∧ (∀ i, (hostOffset (.txbuf i)).toNat = 0x40 + i.val) ∧
    (∀ i, (hostOffset (.rxbuf i)).toNat = 0x80 + i.val)) ∧
  ∀ p : Params,
    (∀ r : HostReg, (∀ i, r = .txbuf i → i.val < p.txbufSize) → (∀ i, r = .rxbuf i → i.val < p.rxbufSize) →
      hostRegAt p (hostOffset r) = some r) ∧
    (∀ (off : Byte) (r : HostReg), hostRegAt p off = some r →
      hostOffset r = off ∧ (∀ i, r = .txbuf i → i.val < p.txbufSize) ∧ (∀ i, r = .rxbuf i → i.val < p.rxbufSize))

/-- R72, R73: the address byte is the register number shifted left by one, bit 0 zero, bit 7 the read flag; and
no two registers of a well-formed map share one (that a well-formed map has no number twice is the model's choice, log
entry 18). -/
def Obligations.RegisterAddressByteFields : Prop :=
  (∀ (m : ChipRegMap) (r : ChipReg) (n : RegNumber) (b : Bool), m.lookup r = some n →
    (addressByte m r b).getLsbD 0 = false ∧ (addressByte m r b).getLsbD 7 = b ∧
      (addressByte m r b).extractLsb' 1 6 = n) ∧
  (∀ (m : ChipRegMap) (r r' : ChipReg) (b b' : Bool), ChipRegMap.wf m = true →
    addressByte m r b = addressByte m r' b' → r = r' ∧ b = b')

/-- R109: the framing byte of an anti-collision frame, and the rule's three examples. -/
def Obligations.AnticollisionFramingByte : Prop :=
  (∀ lk : Nat, lk < 32 → (nvb lk).toNat = (2 + lk / 8) * 16 + lk % 8) ∧
    nvb 0 = 0x20 ∧ nvb 18 = 0x42 ∧ nvb 16 = 0x40

/-- R43, R44: CARD_TYPE with the default table, by the SAK's low seven bits. -/
def Obligations.CardTypeLookup : Prop :=
  ∀ (p : Params) (h : HostRegs), p.cardTypeTable = CardTypeTable.default →
    (h.uidSize = 0 → readReg p h .cardType = 0) ∧
    (h.uidSize ≠ 0 →
      readReg p h .cardType =
        match (h.sak &&& 0x7F).toNat with
        | 0x20 => 1 | 0x40 => 2 | 0x09 => 3 | 0x08 => 4 | 0x18 => 5 | 0x00 => 6
        | 0x10 => 7 | 0x11 => 7 | 0x01 => 8 | 0x04 => 9 | _ => 0)

/-- R8, R73, R75, R106, R107: the default parameters meet their constraints, and the values the operation rules
quote are the defaults, among them the numbers of the registers that the block or the bring-up uses. -/
def Obligations.DefaultParameterValues : Prop :=
  Params.default.wf = true ∧
  (let p := Params.default
   p.irqPollBudget = 2000 ∧ p.crcPollBudget = 5000 ∧ p.txbufSize = 64 ∧ p.rxbufSize = 64 ∧ p.reqReplyCap = 64 ∧
   p.modWidthValue = 0x26 ∧
   p.pcd.idle = 0x00 ∧ p.pcd.calcCrc = 0x03 ∧ p.pcd.transceive = 0x0C ∧ p.pcd.mfAuthent = 0x0E ∧
   p.picc.reqa = 0x26 ∧ p.picc.wupa = 0x52 ∧ p.picc.cascadeTag = 0x88 ∧ p.picc.selCl1 = 0x93 ∧
   p.picc.selCl2 = 0x95 ∧ p.picc.selCl3 = 0x97 ∧ p.picc.nvbSelect = 0x70 ∧ p.picc.hlta = 0x50 ∧
   p.picc.mfRead = 0x30 ∧
   p.mask.irqClearAll = 0x7F ∧ p.mask.irqTimer = 0x01 ∧ p.mask.waitTransceive = 0x30 ∧ p.mask.waitAuth = 0x10 ∧
   p.mask.divCrcIrq = 0x04 ∧ p.mask.errFraming = 0x13 ∧ p.mask.errColl = 0x08 ∧ p.mask.fifoFlush = 0x80 ∧
   p.mask.fifoLevel = 0x7F ∧ p.mask.rxLastBits = 0x07 ∧ p.mask.startSend = 0x80 ∧
   p.mask.collValuesAfter = 0x80 ∧ p.mask.collPosNotValid = 0x20 ∧ p.mask.collPos = 0x1F ∧
   p.mask.crypto1On = 0x08 ∧
   (let n := fun r => p.chipReg.lookup r
    n .commandReg = some 0x01 ∧ n .comIrqReg = some 0x04 ∧ n .divIrqReg = some 0x05 ∧ n .errorReg = some 0x06 ∧
    n .status2Reg = some 0x08 ∧ n .fifoDataReg = some 0x09 ∧ n .fifoLevelReg = some 0x0A ∧
    n .controlReg = some 0x0C ∧ n .bitFramingReg = some 0x0D ∧ n .collReg = some 0x0E ∧ n .modeReg = some 0x11 ∧
    n .txModeReg = some 0x12 ∧ n .rxModeReg = some 0x13 ∧ n .txControlReg = some 0x14 ∧ n .txASKReg = some 0x15 ∧
    n .crcResultRegH = some 0x21 ∧ n .crcResultRegL = some 0x22 ∧ n .modWidthReg = some 0x24 ∧
    n .tModeReg = some 0x2A ∧ n .tPrescalerReg = some 0x2B ∧ n .tReloadRegH = some 0x2C ∧ n .tReloadRegL = some 0x2D))

/-! ### The step -/

/-- A step runs the decoded operation (R24, R45): with the sequencer's turn next and an operation running, step is
exec of the operation S.op decodes to; a listed sequencer turn is taken off the agenda first (the agenda is the
model's own, log entry 7). -/
def Obligations.StepRunsDecodedOperation : Prop :=
  ∀ (s : State) (i : Instr), s.seq ≠ .idle → decode [s.op] = .ok (i, []) →
    (s.agenda = [] → step s = exec i s) ∧
    (∀ rest, s.agenda = .sequencer :: rest → step s = exec i { s with agenda := rest }) ∧
    (∀ rest, s.agenda = .untilIdle :: rest → step s = exec i s)

/-- R25: GO latches OP, sets BUSY, clears DONE and stands at the first step, in one step; STATUS and RESULT are
kept. A write to CTRL with bit 0 = 0 has no effect. -/
def Obligations.GoStartsOperation : Prop :=
  ∀ (s : State) (v : Byte) (rest : List Turn), s.agenda = .write 0x01 v :: rest → s.h.busy = false →
    (v.getLsbD 0 = true →
      step s = .next { s with op := s.h.op, seq := .start, h := { s.h with busy := true, done := false }, agenda := rest }) ∧
    (v.getLsbD 0 = false → step s = .next { s with agenda := rest })

/-- R22: while BUSY every host write is ignored, and a host read returns the register's current value. -/
def Obligations.BusyBlockIgnoresHostWrites : Prop :=
  ∀ (s : State) (off v : Byte) (rest : List Turn), s.h.busy = true →
    (s.agenda = .write off v :: rest → step s = .next { s with agenda := rest }) ∧
    (∀ r, s.agenda = .read off :: rest → hostRegAt s.params off = some r →
      step s = .next { s with agenda := rest, reads := (off, readReg s.params s.h r) :: s.reads })

/-- R20, R21: which offsets are reserved; one reads 0x00, and a write to it is ignored. -/
def Obligations.ReservedOffsetsReadZero : Prop :=
  ∀ (s : State) (off v : Byte) (rest : List Turn),
    (hostRegAt s.params off = none ↔
      (0x1D ≤ off.toNat ∧ off.toNat ≤ 0x1F) ∨ (0x2A ≤ off.toNat ∧ off.toNat ≤ 0x2F) ∨
      (0x3A ≤ off.toNat ∧ off.toNat ≤ 0x3F) ∨ 0xC0 ≤ off.toNat ∨
      (0x40 ≤ off.toNat ∧ off.toNat < 0x80 ∧ s.params.txbufSize ≤ off.toNat - 0x40) ∨
      (0x80 ≤ off.toNat ∧ off.toNat < 0xC0 ∧ s.params.rxbufSize ≤ off.toNat - 0x80)) ∧
    (hostRegAt s.params off = none →
      (s.agenda = .read off :: rest → step s = .next { s with agenda := rest, reads := (off, 0x00) :: s.reads }) ∧
      (s.agenda = .write off v :: rest → step s = .next { s with agenda := rest }))

/-- R21, R23: a host read returns the register at the offset, whose value is the state R21's row gives it, field by
field; a host write to a RW register is read back, less its reserved bits; a write to a RO register is ignored; every
other register keeps its value. CARD_TYPE's value is CardTypeLookup's. -/
def Obligations.HostWriteReadsBack : Prop :=
  (∀ (s : State) (off : Byte) (r : HostReg) (rest : List Turn), s.agenda = .read off :: rest →
    hostRegAt s.params off = some r →
    step s = .next { s with agenda := rest, reads := (off, readReg s.params s.h r) :: s.reads }) ∧
  (∀ (p : Params) (h : HostRegs),
    readReg p h .ctrl = 0x00 ∧
    (readReg p h .stat).toNat = h.busy.toNat + 2 * h.done.toNat + 4 * h.result.toNat ∧
    readReg p h .status = h.status ∧ readReg p h .rxLen = h.rxLen ∧
    (readReg p h .rxValidBits).toNat = h.rxValidBits.toNat ∧
    readReg p h .crcLo = h.crcLo ∧ readReg p h .crcHi = h.crcHi ∧
    readReg p h (.atqa 0) = h.atqa0 ∧ readReg p h (.atqa 1) = h.atqa1 ∧
    readReg p h .uidSize = h.uidSize ∧ readReg p h .sak = h.sak ∧ (∀ i, readReg p h (.uid i) = h.uid[i]) ∧
    readReg p h .op = h.op ∧ readReg p h .pcdCmd = h.pcdCmd ∧ readReg p h .irqWait = h.irqWait ∧
    (readReg p h .framing).toNat = 128 * h.checkCrc.toNat + 16 * h.rxAlign.toNat + h.txLastBits.toNat ∧
    readReg p h .txLen = h.txLen ∧ readReg p h .rxCap = h.rxCap ∧ readReg p h .knownBits = h.knownBits ∧
    readReg p h .uidInSize = h.uidInSize ∧ (readReg p h .opt).toNat = h.isWakeup.toNat ∧
    readReg p h .blockAddr = h.blockAddr ∧ readReg p h .authCmd = h.authCmd ∧
    (∀ i, readReg p h (.key i) = h.key[i]) ∧ (∀ i, readReg p h (.uidIn i) = h.uidIn[i]) ∧
    (∀ i, readReg p h (.txbuf i) = Memory.read h.txbuf i.val) ∧
    (∀ i, readReg p h (.rxbuf i) = Memory.read h.rxbuf i.val)) ∧
  ∀ (s : State) (off v : Byte) (r : HostReg) (rest : List Turn), Memory.wf s.h.txbuf → Memory.wf s.h.rxbuf →
    s.h.busy = false → s.agenda = .write off v :: rest → hostRegAt s.params off = some r → r ≠ .ctrl →
    ∃ h', step s = .next { s with agenda := rest, h := h' } ∧
      (writable r = false → h' = s.h) ∧
      ∀ r', readReg s.params h' r' =
        if r' = r ∧ writable r = true then readBack r v else readReg s.params s.h r'

/-- R320, R321, R322, R54: the reset input, at any moment, puts every host register and internal value at its
reset value in one step, issues no transaction and takes no completion step; power-on is a reset, so the state is
that of State.reset, but for what is no part of the block (log entry 10). -/
def Obligations.ResetAbandonsOperation : Prop :=
  ∀ (s : State) (rest : List Turn), s.agenda = .reset :: rest →
    ∃ t, step s = .next t ∧
      (∀ r, readReg t.params t.h r = 0x00) ∧ t.h.busy = false ∧ t.h.done = false ∧ t.seq = .idle ∧
      t.comm = { irqPoll := 0, err := 0, cn := 0, cvb := 0 } ∧ t.crc = { crcPoll := 0, lo := 0, hi := 0 } ∧
      (∀ i, Buf.get t.sel.frame i = 0x00) ∧ (∀ i, Buf.get t.sel.uidWork i = 0x00) ∧
      t.sel.level = 0 ∧ t.sel.base = 0 ∧ t.sel.useCT = false ∧ t.sel.lk = 0 ∧ t.sel.txlb = 0 ∧ t.sel.rxAlign = 0 ∧
      t.sel.sendLen = 0 ∧ t.sel.rOff = 0 ∧ t.sel.rCap = 0 ∧ t.sel.n = 0 ∧ t.sel.vb = 0 ∧
      t = { State.reset with
            op := t.op, params := s.params, env := s.env, bus := s.bus, foreign := s.foreign, reads := s.reads
            agenda := rest }

/-! ### Every operation completes -/

/-- Every operation answers a next state at each position of its own pseudocode, and faults by name at a
position of another's (that fault is the model's own, log entry 11). -/
def Obligations.EveryOperationRunsAtItsPositions : Prop :=
  ∀ (i : Instr) (s : State),
    (owns i s.seq = true → ∃ t, exec i s = .next t) ∧
    (owns i s.seq = false → exec i s = .fault .strayPosition)

/-- R291: the completion step of each operation: STATUS, its result writes, BUSY, DONE and S.seq, and nothing
else. -/
def Obligations.CompletionStep : Prop :=
  ∀ (s : State) (st : Status), s.seq = .complete st →
    (let h := { s.h with status := statusCode st, busy := false, done := true }
     (∀ i : Instr, i = .communicate ∨ i = .halt ∨ i = .authenticate ∨ i = .stopCrypto ∨ i = .readBlock →
       exec i s = .next { s with h := h, seq := .idle }) ∧
     exec .calcCrc s = .next
       { s with h := if st = .ok then { h with crcLo := s.crc.lo, crcHi := s.crc.hi } else h, seq := .idle } ∧
     exec .requestOrWakeup s = .next
       { s with
         seq := .idle
         h := if st = .ok then { h with atqa0 := Memory.read s.h.rxbuf 0, atqa1 := Memory.read s.h.rxbuf 1 } else h } ∧
     exec .isNewCardPresent s = .next
       { s with
         seq := .idle
         h := { (if st = .ok then
                   { h with atqa0 := Memory.read s.h.rxbuf 0, atqa1 := Memory.read s.h.rxbuf 1 }
                 else h) with
                result := st == .ok || st == .collision } } ∧
     exec .select s = .next
       { s with
         seq := .idle
         h := if st = .ok then
             { h with
               uid := s.sel.uidWork, uidSize := BitVec.ofNat 8 (3 * s.sel.level + 1), sak := Buf.get s.sel.frame 6 }
           else h } ∧
     exec .readCardSerial s = .next
       { s with
         seq := .idle
         h := { (if st = .ok then
                   { h with
                     uid := s.sel.uidWork, uidSize := BitVec.ofNat 8 (3 * s.sel.level + 1)
                     sak := Buf.get s.sel.frame 6 }
                 else h) with
                result := st == .ok } }) ∧
  statusCode .ok = 0x00 ∧ statusCode .genericError = 0x01 ∧ statusCode .collision = 0x02 ∧
  statusCode .timeout = 0x03 ∧ statusCode .bufferTooSmall = 0x04 ∧ statusCode .internalError = 0x05 ∧
  statusCode .invalidArgument = 0x06 ∧ statusCode .crcMismatch = 0x07 ∧ statusCode .mifareNack = 0x08

/-- R119, R341: the argument checks, each completing in the first sequencer step with no bus activity; when an
operation's checks pass, its first step issues its first transaction (R143, R211, R230, R250, R262). Those of
REQUEST_OR_WAKEUP, STOP_CRYPTO and IS_NEW_CARD_PRESENT are no CommandReg write (log entry 21). -/
def Obligations.FirstStepChecksArguments : Prop :=
  ∀ s : State, s.seq = .start →
    (let bad := fun code : Byte =>
       (Outcome.next { s with seq := .idle, h := { s.h with status := code, busy := false, done := true } } :
         Outcome State Fault Refusal)
     let first := fun (i : Instr) (tx : Txn) =>
       ∃ t, exec i s = .next t ∧ t.bus = tx :: s.bus ∧ t.h = s.h ∧ t.seq ≠ .idle
     let idle := Txn.write .commandReg [s.params.pcd.idle]
     let txFits := s.h.txLen.toNat ≤ s.params.txbufSize
     let rxFits := s.h.rxCap.toNat ≤ s.params.rxbufSize
     let resolved := s.h.uidSize = 4 ∨ s.h.uidSize = 7 ∨ s.h.uidSize = 10
     (if s.h.knownBits.toNat ≤ 80 then first .select idle else exec .select s = bad 0x06) ∧
     (if txFits ∧ rxFits then first .communicate idle else exec .communicate s = bad 0x06) ∧
     (if txFits then first .calcCrc idle else exec .calcCrc s = bad 0x06) ∧
     (if s.h.rxCap.toNat < 18 then exec .readBlock s = bad 0x04
      else if rxFits then first .readBlock idle else exec .readBlock s = bad 0x06) ∧
     (if resolved then first .authenticate idle else exec .authenticate s = bad 0x06) ∧
     first .readCardSerial idle ∧ first .halt idle ∧
     first .requestOrWakeup (.read .collReg [nextByte s]) ∧
     first .stopCrypto (.read .status2Reg [nextByte s]) ∧
     first .isNewCardPresent (.write .txModeReg [0x00]) ∧
     (s.op = 0x00 ∨ 0x0B ≤ s.op.toNat → sequencerTurn s = bad 0x06))

/-! ### What a step of the sequencer may do -/

/-- R74, R78, R79, R291: a step of the block issues at most one transaction, to a register of R73's block-use
column, of one byte unless to FIFODataReg; a read's bytes are the environment's next; a sequencer step with no
transaction is a completion. -/
def Obligations.OneTransactionToABlockRegister : Prop :=
  ∀ s t : State, step s = .next t →
    (t.bus = s.bus ∧ t.env = s.env ∨
      ∃ tx : Txn, t.bus = tx :: s.bus ∧ blockUses tx.reg = true ∧ (tx.reg = .fifoDataReg ∨ tx.bytes.length = 1) ∧
        (∀ r bs, tx = .write r bs → t.env = s.env) ∧
        (∀ r raw, tx = .read r raw → raw = s.env.peek raw.length ∧ t.env = s.env.drop raw.length)) ∧
    (s.seq ≠ .idle → s.agenda = [] → t.bus = s.bus → t.seq = .idle ∧ t.h.busy = false ∧ t.h.done = true)

/-- R81: no transaction is of zero length, and an omitted transfer takes no step: with nothing to load the step after
the flush makes the next transaction, and with a FIFO level of 0 the step after the level's read is the ControlReg
read. -/
def Obligations.ZeroLengthTransfersOmitted : Prop :=
  (∀ (s t : State) (tx : Txn), s.Inv → step s = .next t → t.bus = tx :: s.bus → tx.bytes ≠ []) ∧
  (∀ (i : Instr) (site : CommSite) (c : CommCall) (s : State), ownsCommSite i site = true →
    (s.seq = .commNext site c .flushed → c.tx = [] →
      exec i s = .next
        { s with
          bus := .write .bitFramingReg [bitFraming c.rxAlign c.txLastBits] :: s.bus
          seq := .communicate site c .command }) ∧
    (∀ v, s.seq = .commNext site c (.gotLevel v) → v &&& s.params.mask.fifoLevel = 0 →
      ∃ t, exec i s = .next t ∧ t.bus = .read .controlReg [nextByte s] :: s.bus ∧ t.comm.cn = 0 ∧
        t.seq = .commNext site c .stored)) ∧
  (∀ (i : Instr) (site : CrcSite) (s : State), ownsCrcSite i site = true → s.seq = .crcNext site [] .flushed →
    exec i s = .next
      { s with bus := .write .commandReg [s.params.pcd.calcCrc] :: s.bus, seq := .crcNext site [] .started }) ∧
  (∀ (i : Instr) (site : CommSite) (c : CommCall) (s : State), ownsCommSite i site = true →
    s.seq = .replyCrcNext site c [] .flushed →
    exec i s = .next
      { s with bus := .write .commandReg [s.params.pcd.calcCrc] :: s.bus, seq := .replyCrcNext site c [] .started })

/-- Frame (R23, R31): no step of the sequencer changes the parameters, the latched operation, the other masters'
record, the record of host reads, the coming turns, or a host register other than STATUS, BUSY, DONE, RESULT, the RX
registers, the CRC registers, ATQA and the CardId; so every RW register but RXBUF reads as before. A step that is not
the completion step changes none but the RX registers, and those only at a ControlReg read. -/
def Obligations.SequencerFrame : Prop :=
  ∀ s t : State, sequencerTurn s = .next t →
    t.params = s.params ∧ t.op = s.op ∧ t.foreign = s.foreign ∧ t.reads = s.reads ∧ t.agenda = s.agenda ∧
      t.h = { s.h with
              busy := t.h.busy, done := t.h.done, result := t.h.result, status := t.h.status
              rxLen := t.h.rxLen, rxValidBits := t.h.rxValidBits, rxbuf := t.h.rxbuf
              crcLo := t.h.crcLo, crcHi := t.h.crcHi, atqa0 := t.h.atqa0, atqa1 := t.h.atqa1
              uidSize := t.h.uidSize, uid := t.h.uid, sak := t.h.sak } ∧
      (∀ r, writable r = true → (∀ i, r ≠ .rxbuf i) → readReg t.params t.h r = readReg s.params s.h r) ∧
      (t.seq ≠ .idle →
        t.h = { s.h with rxLen := t.h.rxLen, rxValidBits := t.h.rxValidBits, rxbuf := t.h.rxbuf } ∧
          (t.h = s.h ∨
            t.bus = .read .controlReg [nextByte s] :: s.bus ∧ ∃ c d, atControlRead s c d ∧ c.dest = .rxbuf))

/-- Frame of the operations that read no reply into RXBUF (R30, R170, R214, R238, R243, R250): the RX registers,
every byte of RXBUF among them, keep their values; and of all but those that own them, so do the CRC registers, ATQA,
the CardId and RESULT. -/
def Obligations.OperationsKeepOthersRegisters : Prop :=
  ∀ (i : Instr) (s t : State), s.Inv → decodeOp s.op = some i → statusOk i s → s.seq ≠ .idle → exec i s = .next t →
    (i = .select ∨ i = .readCardSerial ∨ i = .calcCrc ∨ i = .halt ∨ i = .authenticate ∨ i = .stopCrypto →
      sameReply s.h t.h ∧ ∀ a, Memory.read t.h.rxbuf a = Memory.read s.h.rxbuf a) ∧
    (∀ a, Memory.read t.h.txbuf a = Memory.read s.h.txbuf a) ∧
    (i ≠ .calcCrc → t.h.crcLo = s.h.crcLo ∧ t.h.crcHi = s.h.crcHi) ∧
    (i ≠ .requestOrWakeup → i ≠ .isNewCardPresent → t.h.atqa0 = s.h.atqa0 ∧ t.h.atqa1 = s.h.atqa1) ∧
    (i ≠ .select → i ≠ .readCardSerial → sameCard s.h t.h) ∧
    (i ≠ .isNewCardPresent → i ≠ .readCardSerial → t.h.result = s.h.result)

/-! ### Who writes the result registers: rules about the whole machine -/

/-- R26: BUSY rises at GO and nowhere else, and falls only at the completion step, which issues no transaction and
leaves the sequencer idle (or at reset); DONE rises only at the completion step, and falls only at GO (or at reset). -/
def Obligations.BusyAndDoneFollowGoAndCompletion : Prop :=
  ∀ s t : State, s.Inv → step s = .next t →
    (let went := ∃ off v rest, s.agenda = .write off v :: rest ∧ off = 0x01 ∧ v.getLsbD 0 = true
     let wasReset := ∃ rest, s.agenda = .reset :: rest
     (s.h.busy = false → (t.h.busy = true ↔ went)) ∧ (s.h.busy = false → went → t.h.done = false) ∧
     (s.agenda = [] → s.h.busy = true → (t.seq = .idle ∨ t.bus = s.bus) → t.h.busy = false ∧ t.h.done = true) ∧
     (s.h.busy = true → t.h.busy = false →
       wasReset ∨ s.seq ≠ .idle ∧ t.seq = .idle ∧ t.h.done = true ∧ t.bus = s.bus) ∧
     (s.h.done = false → t.h.done = true → s.h.busy = true ∧ t.h.busy = false) ∧
     (s.h.done = true → t.h.done = false → went ∧ t.h.busy = true ∨ wasReset))

/-- R34, R196: the CardId register changes only at reset and in the completion step of a SELECT or
READ_CARD_SERIAL that ends OK, and there all its fields are replaced at once, by the working identifier, the level and
the SAK in the frame. -/
def Obligations.CardIdReplacedWhole : Prop :=
  ∀ s t : State, step s = .next t →
    (let selects := decodeOp s.op = some .select ∨ decodeOp s.op = some .readCardSerial
     let committed := t.h.uid = t.sel.uidWork ∧ t.h.uidSize = BitVec.ofNat 8 (3 * t.sel.level + 1) ∧
       t.h.sak = Buf.get t.sel.frame 6
     (sameCard s.h t.h ∨ (∃ rest, s.agenda = .reset :: rest) ∨
       s.seq ≠ .idle ∧ t.seq = .idle ∧ t.bus = s.bus ∧ selects ∧ t.h.status = 0x00 ∧ t.h.done = true ∧ committed) ∧
     (s.agenda = [] → s.seq ≠ .idle → t.seq = .idle → t.h.status = 0x00 → selects → committed))

/-- R35, R197: UID_SIZE is 0 after reset; after a successful selection it is 4, 7 or 10; and whenever it changes
its new value is 0 (at reset) or one of those. -/
def Obligations.UidSizeAlwaysValid : Prop :=
  State.reset.h.uidSize = 0 ∧
  ∀ s t : State, s.Inv → step s = .next t →
    (s.agenda = [] → s.seq ≠ .idle → t.seq = .idle → t.h.status = 0x00 →
      decodeOp s.op = some .select ∨ decodeOp s.op = some .readCardSerial →
      t.h.uidSize = 4 ∨ t.h.uidSize = 7 ∨ t.h.uidSize = 10) ∧
    (t.h.uidSize ≠ s.h.uidSize → (∃ rest, s.agenda = .reset :: rest) ∧ t.h.uidSize = 0 ∨
      (decodeOp s.op = some .select ∨ decodeOp s.op = some .readCardSerial) ∧ t.h.status = 0x00 ∧
        (t.h.uidSize = 4 ∨ t.h.uidSize = 7 ∨ t.h.uidSize = 10))

/-- R32: CRC_LO and CRC_HI are written only when a CALC_CRC completes with OK (and at reset), with the result
bytes of its ComputeCrc. -/
def Obligations.CrcRegistersWrittenByCalcCrcOnly : Prop :=
  ∀ s t : State, step s = .next t →
    (t.h.crcLo = s.h.crcLo ∧ t.h.crcHi = s.h.crcHi ∨ (∃ rest, s.agenda = .reset :: rest) ∨
      s.seq ≠ .idle ∧ t.seq = .idle ∧ t.h.status = 0x00 ∧ decodeOp s.op = some .calcCrc) ∧
    (s.agenda = [] → s.seq ≠ .idle → t.seq = .idle → t.h.status = 0x00 → decodeOp s.op = some .calcCrc →
      t.h.crcLo = s.crc.lo ∧ t.h.crcHi = s.crc.hi)

/-- R33: ATQA0 and ATQA1 are written only when a request completes with OK (and at reset), with the two
reply bytes. -/
def Obligations.AtqaWrittenByRequestsOnly : Prop :=
  ∀ s t : State, step s = .next t →
    (t.h.atqa0 = s.h.atqa0 ∧ t.h.atqa1 = s.h.atqa1 ∨ (∃ rest, s.agenda = .reset :: rest) ∨
      s.seq ≠ .idle ∧ t.seq = .idle ∧ t.h.status = 0x00 ∧
        (decodeOp s.op = some .requestOrWakeup ∨ decodeOp s.op = some .isNewCardPresent)) ∧
    (s.agenda = [] → s.seq ≠ .idle → t.seq = .idle → t.h.status = 0x00 →
      decodeOp s.op = some .requestOrWakeup ∨ decodeOp s.op = some .isNewCardPresent →
      t.h.atqa0 = Memory.read s.h.rxbuf 0 ∧ t.h.atqa1 = Memory.read s.h.rxbuf 1)

/-- R27: RESULT is written only when an IS_NEW_CARD_PRESENT or READ_CARD_SERIAL completes (and at reset): 1 for OK and
Collision of the first, for OK of the second. -/
def Obligations.ResultFlagWrittenByTwoOperations : Prop :=
  ∀ s t : State, step s = .next t →
    (t.h.result = s.h.result ∨ (∃ rest, s.agenda = .reset :: rest) ∨
      s.seq ≠ .idle ∧ t.seq = .idle ∧
        (decodeOp s.op = some .isNewCardPresent ∨ decodeOp s.op = some .readCardSerial)) ∧
    (s.agenda = [] → s.seq ≠ .idle → t.seq = .idle →
      (decodeOp s.op = some .isNewCardPresent → (t.h.result = true ↔ t.h.status = 0x00 ∨ t.h.status = 0x02)) ∧
      (decodeOp s.op = some .readCardSerial → (t.h.result = true ↔ t.h.status = 0x00)))

/-- R30: the RX registers are written by the block only in the step of the ControlReg read of a reply that goes to
RXBUF; entries from n on keep their values; no step of SELECT or READ_CARD_SERIAL writes them. -/
def Obligations.ReplyRegistersWrittenAtRetrieval : Prop :=
  ∀ s t : State, s.Inv → sequencerTurn s = .next t →
    (sameReply s.h t.h ∨
      ∃ c d, atControlRead s c d ∧ c.dest = .rxbuf ∧ t.bus = .read .controlReg [nextByte s] :: s.bus ∧
        t.h.rxLen = BitVec.ofNat 8 d.length ∧
        t.h.rxValidBits.toNat = (nextByte s &&& s.params.mask.rxLastBits).toNat ∧
        (∀ j (hj : j < d.length), Memory.read t.h.rxbuf j = d[j]) ∧
        ∀ a, d.length ≤ a → Memory.read t.h.rxbuf a = Memory.read s.h.rxbuf a) ∧
    (decodeOp s.op = some .select ∨ decodeOp s.op = some .readCardSerial → sameReply s.h t.h)

/-! ### The Communicate Engine, for every operation that uses it -/

/-- R143, R144: the first three writes of every Communicate; then the load, one burst of all of tx, omitted when tx
is empty; then the bit-framing value, its StartSend bit 0. -/
def Obligations.CommunicatePreparesChip : Prop :=
  (∀ (i : Instr) (site : CommSite) (c : CommCall) (s : State), ownsCommSite i site = true →
    (let framed := fun s : State =>
       { s with
         bus := .write .bitFramingReg [bitFraming c.rxAlign c.txLastBits] :: s.bus
         seq := .communicate site c .command }
     (s.seq = .communicate site c .idle →
       runOp i 3 s = .next
         { s with
           bus := .write .fifoLevelReg [s.params.mask.fifoFlush] :: .write .comIrqReg [s.params.mask.irqClearAll] ::
             .write .commandReg [s.params.pcd.idle] :: s.bus
           seq := .commNext site c .flushed }) ∧
     (s.seq = .commNext site c .flushed → c.tx ≠ [] →
       exec i s = .next { s with bus := .write .fifoDataReg c.tx :: s.bus, seq := .communicate site c .framing }) ∧
     (s.seq = .commNext site c .flushed → c.tx = [] → exec i s = .next (framed s)) ∧
     (s.seq = .communicate site c .framing → exec i s = .next (framed s)) ∧
     (bitFraming c.rxAlign c.txLastBits).toNat = 16 * (c.rxAlign % 8) + c.txLastBits % 8 ∧
     (bitFraming c.rxAlign c.txLastBits).getLsbD 7 = false)) ∧
  Params.default.pcd.idle = 0x00 ∧ Params.default.mask.irqClearAll = 0x7F ∧ Params.default.mask.fifoFlush = 0x80

/-- R145: the command is written; for Transceive only, compared on all 8 bits, BitFramingReg is then read and
written back with StartSend. The poll loop starts with its counter at 0, so its first read counts 1 (R46). -/
def Obligations.OnlyTransceiveIsKicked : Prop :=
  (∀ (i : Instr) (site : CommSite) (c : CommCall) (s : State), ownsCommSite i site = true →
    0 < s.params.irqPollBudget →
    (let firstPoll : State :=
       { s with
         bus := .read .comIrqReg [nextByte s] :: s.bus, env := s.env.drop 1, comm := { s.comm with irqPoll := 1 }
         seq := .commNext site c (.polled (nextByte s)) }
     (s.seq = .communicate site c .command →
       exec i s = .next { s with bus := .write .commandReg [c.cmd] :: s.bus, seq := .commNext site c .sent }) ∧
     (s.seq = .commNext site c .sent → c.cmd = s.params.pcd.transceive →
       exec i s = .next
         { s with
           bus := .read .bitFramingReg [nextByte s] :: s.bus, env := s.env.drop 1
           seq := .communicate site c (.kickWrite (nextByte s)) }) ∧
     (s.seq = .commNext site c .sent → c.cmd ≠ s.params.pcd.transceive → exec i s = .next firstPoll) ∧
     (∀ v, s.seq = .communicate site c (.kickWrite v) →
       exec i s = .next
         { s with
           bus := .write .bitFramingReg [v ||| s.params.mask.startSend] :: s.bus, seq := .commNext site c .kicked }) ∧
     (s.seq = .commNext site c .kicked → exec i s = .next firstPoll))) ∧
  Params.default.pcd.transceive = 0x0C ∧ Params.default.mask.startSend = 0x80

/-- R146: the poll, after a read that returned v. The awaited test comes first, then the timer, then the budget; with
none of them the flags are read again, each read counted. A Timeout ends the operation with nothing written to the
destination or to a host register but by the completion. -/
def Obligations.PollTestsAwaitedBeforeTimer : Prop :=
  ∀ (i : Instr) (site : CommSite) (c : CommCall) (v : Byte) (s : State), ownsCommSite i site = true →
    s.seq = .commNext site c (.polled v) →
    (let timedOut := endsWith i (failureStatus site .timeout) s
     (v &&& c.waitIrq ≠ 0 →
       exec i s = .next
         { s with
           bus := .read .errorReg [nextByte s] :: s.bus, env := s.env.drop 1
           comm := { s.comm with err := nextByte s }, seq := .commNext site c .gotError }) ∧
     (v &&& c.waitIrq = 0 → v &&& s.params.mask.irqTimer ≠ 0 → timedOut) ∧
     (v &&& c.waitIrq = 0 → v &&& s.params.mask.irqTimer = 0 → s.comm.irqPoll = s.params.irqPollBudget → timedOut) ∧
     (v &&& c.waitIrq = 0 → v &&& s.params.mask.irqTimer = 0 → s.comm.irqPoll ≠ s.params.irqPollBudget →
       exec i s = .next
         { s with
           bus := .read .comIrqReg [nextByte s] :: s.bus, env := s.env.drop 1
           comm := { s.comm with irqPoll := s.comm.irqPoll + 1 }
           seq := .commNext site c (.polled (nextByte s)) }))

/-- R146, R148, R151: after the ErrorReg read. A framing bit gives GenericError, whatever the collision bit, and writes
nothing; else with a reply expected the FIFO level is read next, the error value kept for the collision test; with none
expected (R141) the collision bit gives Collision and its absence OK, which HALT maps to GenericError (R239). -/
def Obligations.FramingErrorBeforeCollision : Prop :=
  ∀ (i : Instr) (site : CommSite) (c : CommCall) (s : State), ownsCommSite i site = true →
    s.seq = .commNext site c .gotError →
    (let v := s.comm.err
     let m := s.params.mask
     (v &&& m.errFraming ≠ 0 → endsWith i (failureStatus site .genericError) s) ∧
     (v &&& m.errFraming = 0 → 0 < c.cap →
       exec i s = .next
         { s with
           bus := .read .fifoLevelReg [nextByte s] :: s.bus, env := s.env.drop 1
           comm := { s.comm with cn := 0, cvb := 0 }, seq := .commNext site c (.gotLevel (nextByte s)) }) ∧
     (v &&& m.errFraming = 0 → c.cap = 0 → site = .host ∨ site = .halt ∨ site = .authenticate →
       endsWith i (if v &&& m.errColl ≠ 0 then .collision else if site = .halt then .genericError else .ok) s))

/-- R147: after the FIFO level's read, which returned v. A level above the capacity gives BufferTooSmall and writes
nothing; a level equal to it is accepted, and that many bytes are read; a level of 0 reads no FIFO byte, and its
ControlReg read gives an empty reply: RX_LEN 0 and the valid bits read, no byte of RXBUF, and no host register where the
reply goes to S.frame. -/
def Obligations.FifoLevelAgainstCapacity : Prop :=
  ∀ (i : Instr) (site : CommSite) (c : CommCall) (v : Byte) (s : State), ownsCommSite i site = true →
    s.seq = .commNext site c (.gotLevel v) →
    (let lvl := (v &&& s.params.mask.fifoLevel).toNat
     (c.cap < lvl → endsWith i (failureStatus site .bufferTooSmall) s) ∧
     (lvl ≤ c.cap →
       ∃ t, exec i s = .next t ∧ t.comm.cn = lvl ∧
         (0 < lvl → t.bus = .read .fifoDataReg (s.env.peek lvl) :: s.bus ∧ t.h = s.h ∧ t.sel = s.sel) ∧
         (lvl = 0 →
           t.bus = .read .controlReg [nextByte s] :: s.bus ∧ t.sel = s.sel ∧ t.seq = .commNext site c .stored ∧
             t.comm.cvb = (nextByte s &&& s.params.mask.rxLastBits).toNat ∧
             (c.dest = .rxbuf → t.h = { s.h with rxLen := 0, rxValidBits := BitVec.ofNat 3 t.comm.cvb }) ∧
             (c.dest = .frame → t.h = s.h))))

/-- R80, R147: the reply is one burst read of n bytes, the first merged with the byte that stood at the start of
the destination. -/
def Obligations.ReplyReadMergesFirstByte : Prop :=
  ∀ (i : Instr) (site : CommSite) (c : CommCall) (v : Byte) (s : State), ownsCommSite i site = true →
    s.seq = .commNext site c (.gotLevel v) →
    (let n := (v &&& s.params.mask.fifoLevel).toNat
     0 < n → n ≤ c.cap →
     ∃ r0 rest d0, s.env.peek n = r0 :: rest ∧ rest.length + 1 = n ∧
       exec i s = .next
         { s with
           bus := .read .fifoDataReg (r0 :: rest) :: s.bus, env := s.env.drop n, comm := { s.comm with cn := n }
           seq := .communicate site c (.readControl (d0 :: rest)) } ∧
       ∀ j, j < 8 →
         d0.getLsbD j =
           if j < c.rxAlign % 8 then
             (match c.dest with
              | .rxbuf => Memory.read s.h.rxbuf c.off
              | .frame => Buf.get s.sel.frame c.off).getLsbD j
           else r0.getLsbD j)

/-- R147, R30: the ControlReg read of a reply that goes to RXBUF stores the bytes at c.off on, RX_LEN and
RX_VALID_BITS, in that step, whatever the status will be; a reply that goes to S.frame is stored there and changes no
host register. -/
def Obligations.ReplyStoredAtControlRead : Prop :=
  ∀ (i : Instr) (site : CommSite) (c : CommCall) (d : List Byte) (s : State), ownsCommSite i site = true →
    s.seq = .communicate site c (.readControl d) → Memory.wf s.h.rxbuf →
    ∃ t, exec i s = .next t ∧ t.bus = .read .controlReg [nextByte s] :: s.bus ∧ t.env = s.env.drop 1 ∧
      t.seq = .commNext site c .stored ∧
      t.comm = { s.comm with cvb := (nextByte s &&& s.params.mask.rxLastBits).toNat } ∧
      (c.dest = .frame →
        t.h = s.h ∧ t.sel = { s.sel with frame := t.sel.frame } ∧
        ∀ j, j < 9 → Buf.get t.sel.frame j =
          if h : c.off ≤ j ∧ j < c.off + d.length then d[j - c.off]'(by omega) else Buf.get s.sel.frame j) ∧
      (c.dest = .rxbuf →
        t.sel = s.sel ∧
        t.h = { s.h with rxbuf := t.h.rxbuf, rxLen := BitVec.ofNat 8 s.comm.cn, rxValidBits := BitVec.ofNat 3 t.comm.cvb } ∧
        (∀ j (hj : j < d.length), Memory.read t.h.rxbuf (c.off + j) = d[j]) ∧
        (∀ a, a < c.off ∨ c.off + d.length ≤ a → Memory.read t.h.rxbuf a = Memory.read s.h.rxbuf a))

/-- R148, R149, R151: what COMMUNICATE and READ_BLOCK decide after the ControlReg read: Collision first, then, with
the CRC check on, MifareNack, CrcMismatch by shape, or the nested ComputeCrc over all but the last two bytes. -/
def Obligations.StatusDecidedAfterRetrieval : Prop :=
  ∀ (i : Instr) (site : CommSite) (c : CommCall) (s : State),
    i = .communicate ∧ site = .host ∨ i = .readBlock ∧ site = .readBlock →
    s.seq = .commNext site c .stored → c.dest = .rxbuf → 0 < c.cap →
    (let n := s.comm.cn
     let vb := s.comm.cvb
     if s.comm.err &&& s.params.mask.errColl ≠ 0 then endsWith i .collision s
     else if c.checkCrc = false then endsWith i .ok s
     else if n = 1 ∧ vb = 4 then endsWith i .mifareNack s
     else if n < 2 ∨ vb ≠ 0 then endsWith i .crcMismatch s
     else
       exec i s = .next
         { s with
           bus := .write .commandReg [s.params.pcd.idle] :: s.bus
           seq := .replyCrc site c (Memory.slice s.h.rxbuf c.off (n - 2)) .clearDone })

/-- R149, R82: the end of the CRC check: the two result bytes are read, the low one first; the low byte is compared with
the second-last reply byte and the high byte with the last, the ComputeCrc's Timeout being the status if it has one. Its
result goes to no host register. -/
def Obligations.ReplyCrcComparedLowByteFirst : Prop :=
  ∀ (i : Instr) (site : CommSite) (c : CommCall) (data : List Byte) (s : State),
    i = .communicate ∧ site = .host ∨ i = .readBlock ∧ site = .readBlock → c.dest = .rxbuf →
    (s.seq = .replyCrc site c data .readLo →
      runOp i 2 s = .next
        { s with
          bus := .read .crcResultRegH [(s.env.peek 2).getD 1 0] :: .read .crcResultRegL [(s.env.peek 2).getD 0 0] :: s.bus
          env := s.env.drop 2, seq := .replyCrcNext site c data .finished
          crc := { s.crc with lo := (s.env.peek 2).getD 0 0, hi := (s.env.peek 2).getD 1 0 } }) ∧
    (s.seq = .replyCrcNext site c data .finished →
      endsWith i
        (if Memory.read s.h.rxbuf (c.off + s.comm.cn - 2) = s.crc.lo ∧
            Memory.read s.h.rxbuf (c.off + s.comm.cn - 1) = s.crc.hi then .ok else .crcMismatch) s) ∧
    (∀ v, s.seq = .replyCrcNext site c data (.polled v) → v &&& s.params.mask.divCrcIrq = 0 →
      s.crc.crcPoll = s.params.crcPollBudget → endsWith i .timeout s)

/-! ### Whole runs, from the first step to completion. The environment's answers are listed; any bytes are. -/

/-- R150, R154: a COMMUNICATE without CRC check whose poll succeeds at read P and whose reply fits: the status,
the RX registers, and the count of transactions. That a load or a reply above 64 bytes, which only buffer sizes above 64
allow, is one burst is the model's choice (log entry 19). -/
def Obligations.CommunicateRunsToOk : Prop :=
  ∀ (s : State) (polls data kick rest : List Byte) (v err lvl ctl : Byte), s.seq = .start →
    s.h.txLen.toNat ≤ s.params.txbufSize → s.h.rxCap.toNat ≤ s.params.rxbufSize → 0 < s.h.rxCap.toNat →
    s.h.checkCrc = false →
    kick.length = (if s.h.pcdCmd = s.params.pcd.transceive then 1 else 0) →
    s.env.answers = kick ++ polls ++ [v, err, lvl] ++ data ++ [ctl] ++ rest →
    (∀ b ∈ polls, b &&& s.h.irqWait = 0 ∧ b &&& s.params.mask.irqTimer = 0) →
    v &&& s.h.irqWait ≠ 0 → polls.length < s.params.irqPollBudget →
    err &&& s.params.mask.errFraming = 0 → err &&& s.params.mask.errColl = 0 →
    (lvl &&& s.params.mask.fifoLevel).toNat = data.length → data.length ≤ s.h.rxCap.toNat →
    (let t1 := if s.h.txLen = 0 then 0 else 1
     let x := if s.h.pcdCmd = s.params.pcd.transceive then 2 else 0
     let r := if data = [] then 0 else 1
     let count := 5 + t1 + x + (polls.length + 1) + 1 + 2 + r
     ∃ t, runOp .communicate (count + 1) s = .next t ∧ t.seq = .idle ∧ t.bus.length = s.bus.length + count ∧
       t.env = { answers := rest, draws := s.env.draws } ∧
       t.h = { s.h with
               status := 0x00, busy := false, done := true
               rxbuf := Memory.writeMany s.h.rxbuf 0
                 (mergeFirst s.h.rxAlign.toNat (Memory.read s.h.rxbuf 0) data)
               rxLen := BitVec.ofNat 8 data.length
               rxValidBits := BitVec.ofNat 3 (ctl &&& s.params.mask.rxLastBits).toNat })

/-- R154, R153: a COMMUNICATE whose awaited mask is 0 and whose timer never expires polls the whole budget and
ends with Timeout, with no host register changed but by the completion. That a load above 64 bytes, which only a
TXBUF_SIZE above 64 allows, is one burst is the model's choice (log entry 19). -/
def Obligations.CommunicatePollExhaustsBudget : Prop :=
  ∀ (s : State) (polls kick rest : List Byte), s.seq = .start →
    s.h.txLen.toNat ≤ s.params.txbufSize → s.h.rxCap.toNat ≤ s.params.rxbufSize → s.h.irqWait = 0 →
    kick.length = (if s.h.pcdCmd = s.params.pcd.transceive then 1 else 0) →
    s.env.answers = kick ++ polls ++ rest → polls.length = s.params.irqPollBudget →
    (∀ b ∈ polls, b &&& s.params.mask.irqTimer = 0) →
    (let t1 := if s.h.txLen = 0 then 0 else 1
     let x := if s.h.pcdCmd = s.params.pcd.transceive then 2 else 0
     let count := 5 + t1 + x + s.params.irqPollBudget
     ∃ t, runOp .communicate (count + 1) s = .next t ∧ t.seq = .idle ∧ t.bus.length = s.bus.length + count ∧
       t.h = { s.h with status := 0x03, busy := false, done := true })

/-- R213, R214, R216: a CALC_CRC whose poll succeeds at read P: CRC_LO and CRC_HI are the two bytes read, low
first, after 4 + T + P + 3 transactions. One whose flag never comes polls the whole budget and ends with Timeout, CRC_LO
and CRC_HI unchanged. That more than 64 bytes, which only a TXBUF_SIZE above 64 allows, go out as one burst is the
model's choice (log entry 19). -/
def Obligations.CalcCrcRuns : Prop :=
  ∀ (s : State) (polls rest : List Byte) (v lo hi : Byte), s.seq = .start →
    s.h.txLen.toNat ≤ s.params.txbufSize → (∀ b ∈ polls, b &&& s.params.mask.divCrcIrq = 0) →
    (let t1 := if s.h.txLen = 0 then 0 else 1
     (s.env.answers = polls ++ [v, lo, hi] ++ rest → v &&& s.params.mask.divCrcIrq ≠ 0 →
       polls.length < s.params.crcPollBudget →
       (let count := 4 + t1 + (polls.length + 1) + 3
        ∃ t, runOp .calcCrc (count + 1) s = .next t ∧ t.seq = .idle ∧ t.bus.length = s.bus.length + count ∧
          t.env = { answers := rest, draws := s.env.draws } ∧
          (s.h.txLen ≠ 0 → fifoWrites t.bus = Memory.slice s.h.txbuf 0 s.h.txLen.toNat :: fifoWrites s.bus) ∧
          t.h = { s.h with status := 0x00, busy := false, done := true, crcLo := lo, crcHi := hi })) ∧
     (s.env.answers = polls ++ rest → polls.length = s.params.crcPollBudget →
       (let count := 4 + t1 + s.params.crcPollBudget
        ∃ t, runOp .calcCrc (count + 1) s = .next t ∧ t.seq = .idle ∧ t.bus.length = s.bus.length + count ∧
          t.h = { s.h with status := 0x03, busy := false, done := true })))

/-- R217, a claim that takes a chip as a named assumption: when the transactions of a CALC_CRC that ended OK fit a
chip whose CRC unit computes CRC_A, CRC_LO and CRC_HI are CRC_A of the TXBUF bytes. When the chip has its result, and
that it keeps its FIFO, is the chip model's choice (log entry 24). -/
def Obligations.CalcCrcAgreesWithCrcAChip : Prop :=
  ∀ (s t : State) (k : Nat) (chip : Chip) (new : List Txn), s.params = Params.default → s.seq = .start →
    s.h.txLen.toNat ≤ s.params.txbufSize → runOp .calcCrc k s = .next t → t.seq = .idle → t.h.status = 0x00 →
    t.bus = new ++ s.bus → fitsChip s.params chip new.reverse = true →
    (t.h.crcLo, t.h.crcHi) = crcA (Memory.slice s.h.txbuf 0 s.h.txLen.toNat)

/-- R218: the CRC round trip. A Communicate with the CRC check on (COMMUNICATE's or READ_BLOCK's) that stands at the
ControlReg read with the bytes D ++ [lo, hi], vb = 0, no error bit, and a chip whose CRC unit answers lo, hi for D,
completes with OK. -/
def Obligations.CrcRoundTripPasses : Prop :=
  ∀ (i : Instr) (site : CommSite) (s : State) (c : CommCall) (body rest : List Byte) (lo hi ctl v : Byte),
    i = .communicate ∧ site = .host ∨ i = .readBlock ∧ site = .readBlock → c.checkCrc = true → c.dest = .rxbuf → 0 < c.cap → Memory.wf s.h.rxbuf →
    s.seq = .communicate site c (.readControl (body ++ [lo, hi])) → s.comm.cn = body.length + 2 →
    s.comm.err &&& s.params.mask.errColl = 0 → ctl &&& s.params.mask.rxLastBits = 0 →
    0 < s.params.crcPollBudget → v &&& s.params.mask.divCrcIrq ≠ 0 →
    s.env.answers = [ctl, v, lo, hi] ++ rest →
    ∃ t, runOp i 11 s = .next t ∧ t.seq = .idle ∧ t.h.status = 0x00 ∧ t.h.done = true ∧
      t.h.crcLo = s.h.crcLo ∧ t.h.crcHi = s.h.crcHi

/-- R113, R239, R240: HALT sends the HLTA frame with its CRC. A Timeout of the exchange is OK, an OK is
GenericError, GenericError and Collision pass, a Timeout of the frame's CRC is Timeout; no other host register
changes. -/
def Obligations.HaltMapsTimeoutToOk : Prop :=
  ∀ (s : State) (rest : List Byte) (v lo hi kick irq err : Byte), s.params = Params.default → s.seq = .start →
    (let ends := fun (k : Nat) (code : Byte) (new : List Txn → Prop) =>
       ∃ t bus, runOp .halt k s = .next t ∧ t.seq = .idle ∧ t.bus = bus ++ s.bus ∧ new bus ∧
         t.h = { s.h with status := code, busy := false, done := true }
     let sent : List Txn :=
       [ .read .comIrqReg [irq], .write .bitFramingReg [kick ||| 0x80], .read .bitFramingReg [kick],
         .write .commandReg [0x0C], .write .bitFramingReg [0x00], .write .fifoDataReg [0x50, 0x00, lo, hi],
         .write .fifoLevelReg [0x80], .write .comIrqReg [0x7F], .write .commandReg [0x00],
         .read .crcResultRegH [hi], .read .crcResultRegL [lo], .write .commandReg [0x00], .read .divIrqReg [v],
         .write .commandReg [0x03], .write .fifoDataReg [0x50, 0x00], .write .fifoLevelReg [0x80],
         .write .divIrqReg [0x04], .write .commandReg [0x00] ]
     (v &&& 0x04 ≠ 0 → irq &&& 0x30 = 0 → irq &&& 0x01 ≠ 0 → s.env.answers = [v, lo, hi, kick, irq] ++ rest →
       ends 19 0x00 (fun bus => bus = sent)) ∧
     (∀ polls, v &&& 0x04 ≠ 0 → polls.length = 2000 → (∀ b ∈ polls, b &&& 0x31 = 0) →
       s.env.answers = [v, lo, hi, kick] ++ polls ++ rest → ends 2018 0x00 (fun bus => bus.length = 2017)) ∧
     (v &&& 0x04 ≠ 0 → irq &&& 0x30 ≠ 0 → s.env.answers = [v, lo, hi, kick, irq, err] ++ rest →
       ends 20 (if err &&& 0x13 ≠ 0 then 0x01 else if err &&& 0x08 ≠ 0 then 0x02 else 0x01)
         (fun bus => bus = .read .errorReg [err] :: sent)) ∧
     (∀ polls, polls.length = 5000 → (∀ b ∈ polls, b &&& 0x04 = 0) → s.env.answers = polls ++ rest →
       ends 5006 0x03 (fun bus => bus.length = 5005)))

/-- R114, R243, R245, R247: AUTHENTICATE sends the 12-byte frame with the MFAuthent command and no kick, and
completes by the poll and the error bits, changing nothing but STATUS. The bits that give GenericError are R75's mask
0x13, which R146 tests: ErrorReg 0x04 ends OK by the rules, against vector V-AUTH-4 (log entry 12). -/
def Obligations.AuthenticateRuns : Prop :=
  ∀ (s : State) (rest : List Byte) (irq err : Byte), s.params = Params.default → s.seq = .start →
    s.h.uidSize = 4 ∨ s.h.uidSize = 7 ∨ s.h.uidSize = 10 → irq &&& 0x10 ≠ 0 →
    s.env.answers = [irq, err] ++ rest →
    ∃ t, runOp .authenticate 9 s = .next t ∧ t.seq = .idle ∧
      (let u := fun j => Buf.get s.h.uid (s.h.uidSize.toNat - 4 + j)
       let k := fun j => Buf.get s.h.key j
       t.bus =
         [ .read .errorReg [err], .read .comIrqReg [irq], .write .commandReg [0x0E], .write .bitFramingReg [0x00],
           .write .fifoDataReg [s.h.authCmd, s.h.blockAddr, k 0, k 1, k 2, k 3, k 4, k 5, u 0, u 1, u 2, u 3],
           .write .fifoLevelReg [0x80], .write .comIrqReg [0x7F], .write .commandReg [0x00] ] ++ s.bus) ∧
      t.h = { s.h with
              busy := false, done := true
              status := if err &&& 0x13 ≠ 0 then 0x01 else if err &&& 0x08 ≠ 0 then 0x02 else 0x00 }

/-- R250: STOP_CRYPTO reads Status2Reg, writes it back with MFCrypto1On cleared, and completes with OK, writing no
host register except STATUS. It opens with no CommandReg idle write (log entry 21). -/
def Obligations.StopCryptoRuns : Prop :=
  (∀ s : State, s.seq = .start →
    runOp .stopCrypto 3 s = .next
      { s with
        seq := .idle, env := s.env.drop 1
        bus := .write .status2Reg [nextByte s &&& ~~~s.params.mask.crypto1On] :: .read .status2Reg [nextByte s] ::
          s.bus
        h := { s.h with status := 0x00, busy := false, done := true } }) ∧
  Params.default.mask.crypto1On = 0x08 ∧ (0x09#8 &&& ~~~0x08#8) = 0x01#8

/-- R115, R254, R257: READ_BLOCK with an 18-byte reply whose last two bytes the chip's CRC unit confirms: OK, the
reply in RXBUF, 31 transactions. Answered by one byte with 4 valid bits it ends with MifareNack, the byte in RXBUF. A
Timeout of the READ frame's CRC ends it with Timeout. -/
def Obligations.ReadBlockRuns : Prop :=
  (∀ (s : State) (data : List Byte) (v : Byte), s.seq = .crcNext .readFrame data (.polled v) →
    v &&& s.params.mask.divCrcIrq = 0 → s.crc.crcPoll = s.params.crcPollBudget → endsWith .readBlock .timeout s) ∧
  ∀ (s : State) (body rest : List Byte) (v lo hi kick irq v2 lo2 hi2 nak : Byte), s.params = Params.default →
    s.seq = .start → Memory.wf s.h.rxbuf → 18 ≤ s.h.rxCap.toNat → s.h.rxCap.toNat ≤ 64 → body.length = 16 →
    v &&& 0x04 ≠ 0 → irq &&& 0x30 ≠ 0 → v2 &&& 0x04 ≠ 0 →
    (s.env.answers =
        [v, lo, hi, kick, irq, 0x00, 0x12] ++ (body ++ [lo2, hi2]) ++ [0x00, v2, lo2, hi2] ++ rest →
      ∃ t, runOp .readBlock 32 s = .next t ∧ t.seq = .idle ∧ t.bus.length = s.bus.length + 31 ∧
        fifoWrites t.bus =
          [body, [0x30, s.h.blockAddr, lo, hi], [0x30, s.h.blockAddr]] ++ fifoWrites s.bus ∧
        t.h = { s.h with
                status := 0x00, busy := false, done := true, rxLen := 18, rxValidBits := 0, rxbuf := t.h.rxbuf } ∧
        (∀ j, j < 18 → Memory.read t.h.rxbuf j = (body ++ [lo2, hi2]).getD j 0) ∧
        (∀ a, 18 ≤ a → Memory.read t.h.rxbuf a = Memory.read s.h.rxbuf a)) ∧
    (s.env.answers = [v, lo, hi, kick, irq, 0x00, 0x01, nak, 0x04] ++ rest →
      ∃ t, runOp .readBlock 23 s = .next t ∧ t.seq = .idle ∧ t.bus.length = s.bus.length + 22 ∧
        t.h = { s.h with
                status := 0x08, busy := false, done := true, rxLen := 1, rxValidBits := 4, rxbuf := t.h.rxbuf } ∧
        Memory.read t.h.rxbuf 0 = nak ∧ (∀ a, 1 ≤ a → Memory.read t.h.rxbuf a = Memory.read s.h.rxbuf a))

/-- R231 to R236: REQUEST_OR_WAKEUP clears ValuesAfterColl, sends REQA or WUPA as a 7-bit frame, and takes a 2-byte
reply with 0 trailing bits as the ATQA; a 3-byte reply is GenericError, ATQA unchanged. Its trace opens with the
CollReg read (log entry 21). For a reply of any length, of either request operation, a collided one is Collision, and
else one that is not 2 bytes with 0 trailing bits is GenericError. -/
def Obligations.RequestChecksReplyShape : Prop :=
  (∀ (i : Instr) (c : CommCall) (s : State), i = .requestOrWakeup ∨ i = .isNewCardPresent →
    s.seq = .commNext .request c .stored → c.checkCrc = false →
    (if s.comm.err &&& s.params.mask.errColl ≠ 0 then endsWith i .collision s
     else if s.comm.cn ≠ 2 ∨ s.comm.cvb ≠ 0 then endsWith i .genericError s
     else
       ∃ t, exec i s = .next t ∧ t.seq = .idle ∧ t.bus = s.bus ∧
         t.h = { s.h with
                 status := 0x00, busy := false, done := true, result := resultAfter i .ok s.h
                 atqa0 := Memory.read s.h.rxbuf 0, atqa1 := Memory.read s.h.rxbuf 1 })) ∧
  ∀ (s : State) (rest : List Byte) (coll kick irq a0 a1 a2 ctl : Byte), s.params = Params.default → s.seq = .start →
    irq &&& 0x30 ≠ 0 → Memory.wf s.h.rxbuf →
    (s.env.answers = [coll, kick, irq, 0x00, 0x02, a0, a1, ctl] ++ rest →
      ∃ t, runOp .requestOrWakeup 16 s = .next t ∧ t.seq = .idle ∧
        t.bus =
          [ .read .controlReg [ctl], .read .fifoDataReg [a0, a1], .read .fifoLevelReg [0x02], .read .errorReg [0x00],
            .read .comIrqReg [irq], .write .bitFramingReg [kick ||| 0x80], .read .bitFramingReg [kick],
            .write .commandReg [0x0C], .write .bitFramingReg [0x07],
            .write .fifoDataReg [if s.h.isWakeup then 0x52 else 0x26], .write .fifoLevelReg [0x80],
            .write .comIrqReg [0x7F], .write .commandReg [0x00], .write .collReg [coll &&& 0x7F],
            .read .collReg [coll] ] ++ s.bus ∧
        t.h.rxLen = 2 ∧ Memory.read t.h.rxbuf 0 = a0 ∧ Memory.read t.h.rxbuf 1 = a1 ∧ t.h.done = true ∧
        t.h.result = s.h.result ∧
        (ctl &&& 0x07 = 0 → t.h.status = 0x00 ∧ t.h.atqa0 = a0 ∧ t.h.atqa1 = a1) ∧
        (ctl &&& 0x07 ≠ 0 → t.h.status = 0x01 ∧ t.h.atqa0 = s.h.atqa0 ∧ t.h.atqa1 = s.h.atqa1)) ∧
    (s.env.answers = [coll, kick, irq, 0x00, 0x03, a0, a1, a2, ctl] ++ rest →
      ∃ t, runOp .requestOrWakeup 16 s = .next t ∧ t.seq = .idle ∧ t.h.status = 0x01 ∧ t.h.rxLen = 3 ∧
        t.h.atqa0 = s.h.atqa0 ∧ t.h.atqa1 = s.h.atqa1)

/-- R262 to R265: IS_NEW_CARD_PRESENT makes the three defensive writes, then a REQA; OK and Collision both count as
present, a Timeout does not. Its trace opens with the TxModeReg write (log entry 21). -/
def Obligations.PresentCountsCollisionAsPresent : Prop :=
  ∀ (s : State) (rest : List Byte) (coll kick irq a0 a1 err ctl : Byte), s.params = Params.default → s.seq = .start →
    Memory.wf s.h.rxbuf →
    (let first : List Txn := [.write .modWidthReg [0x26], .write .rxModeReg [0x00], .write .txModeReg [0x00]]
     (irq &&& 0x30 ≠ 0 → err &&& 0x13 = 0 → ctl &&& 0x07 = 0 →
       s.env.answers = [coll, kick, irq, err, 0x02, a0, a1, ctl] ++ rest →
       ∃ t new, runOp .isNewCardPresent 19 s = .next t ∧ t.seq = .idle ∧ t.h.result = true ∧ t.h.done = true ∧
         t.bus = new ++ first ++ s.bus ∧ new.length = 15 ∧ fifoWrites new = [[0x26]] ∧
         t.h.status = (if err &&& 0x08 = 0 then 0x00 else 0x02) ∧
         (err &&& 0x08 = 0 → t.h.atqa0 = a0 ∧ t.h.atqa1 = a1) ∧
         (err &&& 0x08 ≠ 0 → t.h.atqa0 = s.h.atqa0 ∧ t.h.atqa1 = s.h.atqa1)) ∧
     (irq &&& 0x30 = 0 → irq &&& 0x01 ≠ 0 → s.env.answers = [coll, kick, irq] ++ rest →
       ∃ t, runOp .isNewCardPresent 15 s = .next t ∧ t.seq = .idle ∧ t.h.result = false ∧ t.h.status = 0x03 ∧
         t.h.atqa0 = s.h.atqa0 ∧ t.h.atqa1 = s.h.atqa1 ∧ sameReply s.h t.h))

/-! ### The Anti-Collision / Selection Engine -/

/-- R174 to R177, R180: the start of a cascade level: its known bits, the tag, the prefix bytes, the other frame
bytes kept, and the path by the known-bit count. -/
def Obligations.CascadeLevelOpens : Prop :=
  ∀ (k decl : Nat) (s : State), 1 ≤ s.sel.level → s.sel.level ≤ 3 →
    (let lv := s.sel.level
     let base := 3 * (lv - 1)
     let tag : Bool := k != 0 && (lv == 1 && decide (4 < decl) || lv == 2 && decide (7 < decl))
     let known := k - 8 * base
     let lk := if tag then known + 8 else known
     let at0 := if tag then 3 else 2
     let nb := min ((known + 7) / 8) (if tag then 3 else 4)
     let t := selectLevel k decl s
     t.sel.base = base ∧ t.sel.useCT = tag ∧ t.sel.lk = lk ∧ t.sel.level = lv ∧ t.sel.uidWork = s.sel.uidWork ∧
     t.h = s.h ∧ t.bus = s.bus ∧
     Buf.get t.sel.frame 0 =
       (if lv = 1 then s.params.picc.selCl1 else if lv = 2 then s.params.picc.selCl2 else s.params.picc.selCl3) ∧
     (tag = true → Buf.get t.sel.frame 2 = s.params.picc.cascadeTag) ∧
     (∀ j, j < nb → Buf.get t.sel.frame (at0 + j) = Buf.get s.sel.uidWork (base + j)) ∧
     (∀ j, at0 + nb ≤ j → j ≤ 5 → Buf.get t.sel.frame j = Buf.get s.sel.frame j) ∧
     (lk < 32 →
       Buf.get t.sel.frame 1 = nvb lk ∧
       ∃ c, t.seq = .communicate .selectRound c .idle ∧ c.cmd = s.params.pcd.transceive ∧
         c.waitIrq = s.params.mask.waitTransceive ∧ c.checkCrc = false ∧ c.dest = .frame ∧ c.txLastBits = lk % 8 ∧
         c.rxAlign = lk % 8 ∧ c.off = 2 + lk / 8 ∧ c.cap = 7 - lk / 8 ∧
         c.tx = Buf.slice t.sel.frame 0 (2 + lk / 8 + (if lk % 8 = 0 then 0 else 1))) ∧
     (32 ≤ lk →
       Buf.get t.sel.frame 1 = s.params.picc.nvbSelect ∧
       (let f := fun j => Buf.get t.sel.frame j
        f 6 = f 2 ^^^ f 3 ^^^ f 4 ^^^ f 5 ∧
        t.seq = .computeCrc .fullFrame [f 0, f 1, f 2, f 3, f 4, f 5, f 6] .idle)))

/-- R172, R110, R111, R178, R180, R198: the first frame of SELECT. With fewer than 32 known bits it is the
anti-collision frame: the command byte, the framing byte, the tag if one is inserted, and the known prefix; with 32 or
more, the seven bytes of the full-level frame, its check byte the XOR of the slice bytes, go to ComputeCrc.
READ_CARD_SERIAL's is the command byte and 0x20. -/
def Obligations.SelectFirstFrame : Prop :=
  ∀ s : State, s.seq = .start → s.h.knownBits.toNat ≤ 80 →
    (let k := s.h.knownBits.toNat
     let tag : Bool := k != 0 && decide (4 < s.h.uidInSize.toNat)
     let lk := if tag then k + 8 else k
     let p := s.params
     let u := fun j => Buf.get s.h.uidIn j
     let slice : List Byte := if tag then [p.picc.cascadeTag, u 0, u 1, u 2] else [u 0, u 1, u 2, u 3]
     (lk < 32 →
       ∃ t, exec .select s = .next t ∧ t.bus = .write .commandReg [p.pcd.idle] :: s.bus ∧ t.h = s.h ∧
         t.seq = .communicate .selectRound
           { cmd := p.pcd.transceive, waitIrq := p.mask.waitTransceive
             tx := [p.picc.selCl1, nvb lk] ++ slice.take ((lk + 7) / 8)
             txLastBits := lk % 8, rxAlign := lk % 8, checkCrc := false, dest := .frame
             off := 2 + lk / 8, cap := 7 - lk / 8 } .clearIrqs) ∧
     (32 ≤ lk →
       ∃ t, exec .select s = .next t ∧ t.bus = .write .commandReg [p.pcd.idle] :: s.bus ∧ t.h = s.h ∧
         t.seq = .computeCrc .fullFrame
           ([p.picc.selCl1, p.picc.nvbSelect] ++ slice ++ [slice.foldl (· ^^^ ·) 0]) .clearDone) ∧
     (∃ t, exec .readCardSerial s = .next t ∧ t.h = s.h ∧
       t.seq = .communicate .selectRound
         { cmd := p.pcd.transceive, waitIrq := p.mask.waitTransceive
           tx := [p.picc.selCl1, 0x20], txLastBits := 0, rxAlign := 0, checkCrc := false, dest := .frame
           off := 2, cap := 7 } .clearIrqs))

/-- R178, R179: after the frame's CRC the full-level frame is sent whole, no significant trailing bits, the reply of at
most 3 bytes landing at frame byte 6; a Timeout of the CRC ends the operation. -/
def Obligations.FullFrameSentWithCrc : Prop :=
  ∀ (i : Instr) (data : List Byte) (s : State), i = .select ∨ i = .readCardSerial →
    (s.seq = .crcNext .fullFrame data .finished →
      ∃ t, exec i s = .next t ∧ t.h = s.h ∧ t.bus = .write .commandReg [s.params.pcd.idle] :: s.bus ∧
        (let f := fun j => Buf.get s.sel.frame j
         t.seq = .communicate .selectRound
           { cmd := s.params.pcd.transceive, waitIrq := s.params.mask.waitTransceive
             tx := [f 0, f 1, f 2, f 3, f 4, f 5, f 6, s.crc.lo, s.crc.hi], txLastBits := 0, rxAlign := 0
             checkCrc := false, dest := .frame, off := 6, cap := 3 } .clearIrqs)) ∧
    (∀ v, s.seq = .crcNext .fullFrame data (.polled v) → v &&& s.params.mask.divCrcIrq = 0 →
      s.crc.crcPoll = s.params.crcPollBudget → endsWith i .timeout s)

/-- R183 to R186, R191, R193: what follows the reply of a round, once it is in the frame: the CollReg read on a
collision; after a partial frame the full-level frame of the received bytes; after the full-level frame the level copy,
the shape test, and the SAK's CRC. -/
def Obligations.SelectRoundOutcome : Prop :=
  ∀ (i : Instr) (c : CommCall) (s : State), i = .select ∨ i = .readCardSerial →
    s.seq = .commNext .selectRound c .stored → c.checkCrc = false → s.sel.base ≤ 6 →
    ∃ t, exec i s = .next t ∧
      (let n := s.comm.cn
       let vb := s.comm.cvb
       let f := fun j => Buf.get s.sel.frame j
       let collided := s.comm.err &&& s.params.mask.errColl ≠ 0
       let idled := t.h = s.h ∧ t.bus = .write .commandReg [s.params.pcd.idle] :: s.bus
       (collided →
         t = { s with
               bus := .read .collReg [nextByte s] :: s.bus, env := s.env.drop 1, sel := { s.sel with n := n, vb := vb }
               seq := .gotColl (nextByte s) }) ∧
       (¬ collided → s.sel.lk < 32 →
         idled ∧ t.sel.lk = 32 ∧
         t.seq = .computeCrc .fullFrame
           [f 0, s.params.picc.nvbSelect, f 2, f 3, f 4, f 5, f 2 ^^^ f 3 ^^^ f 4 ^^^ f 5] .clearDone) ∧
       (¬ collided → 32 ≤ s.sel.lk →
         (f 2 = s.params.picc.cascadeTag → ∀ j, j < 10 → Buf.get t.sel.uidWork j =
           if s.sel.base ≤ j ∧ j < s.sel.base + 3 then f (3 + (j - s.sel.base)) else Buf.get s.sel.uidWork j) ∧
         (f 2 ≠ s.params.picc.cascadeTag → ∀ j, j < 10 → Buf.get t.sel.uidWork j =
           if s.sel.base ≤ j ∧ j < s.sel.base + 4 then f (2 + (j - s.sel.base)) else Buf.get s.sel.uidWork j) ∧
         (n ≠ 3 ∨ vb ≠ 0 → endsWith i .genericError s) ∧
         (n = 3 → vb = 0 → idled ∧ t.seq = .computeCrc .sakCheck [f 6] .clearDone)))

/-- R187 to R190, R194: after the CollReg read, which returned v: an unknown position is Collision, a position not above
the known bits InternalError; else the bit is set to 1, the known bits rise to the position, and the next round
follows: the exchange of R180 to R182, or with 32 known bits the CRC of the full-level frame (R177, R178). -/
def Obligations.CollisionResolvesOneMoreBit : Prop :=
  (∀ (i : Instr) (v : Byte) (s : State), i = .select ∨ i = .readCardSerial → s.seq = .gotColl v → s.params.wf = true →
    (let m := s.params.mask
     let raw := (v &&& m.collPos).toNat
     let p := if raw = 0 then 32 else raw
     (v &&& m.collPosNotValid ≠ 0 → endsWith i .collision s) ∧
     (v &&& m.collPosNotValid = 0 → p ≤ s.sel.lk → endsWith i .internalError s) ∧
     (v &&& m.collPosNotValid = 0 → s.sel.lk < p →
       ∃ t, exec i s = .next t ∧ t.bus = .write .commandReg [s.params.pcd.idle] :: s.bus ∧ t.h = s.h ∧
         s.sel.lk < t.sel.lk ∧ t.sel.lk = p ∧ p ≤ 32 ∧
         (∀ j, 2 ≤ j → j ≤ 5 → Buf.get t.sel.frame j =
           if j = 2 + (p - 1) / 8 then Buf.get s.sel.frame j ||| (1#8 <<< ((p - 1) % 8)) else Buf.get s.sel.frame j) ∧
         (let f := fun j => Buf.get t.sel.frame j
          f 0 = Buf.get s.sel.frame 0 ∧
          (p < 32 →
            f 1 = nvb p ∧ f 6 = Buf.get s.sel.frame 6 ∧
            t.seq = .communicate .selectRound
              { cmd := s.params.pcd.transceive, waitIrq := s.params.mask.waitTransceive
                tx := Buf.slice t.sel.frame 0 (2 + p / 8 + (if p % 8 = 0 then 0 else 1)), txLastBits := p % 8
                rxAlign := p % 8, checkCrc := false, dest := .frame, off := 2 + p / 8, cap := 7 - p / 8 }
              .clearIrqs) ∧
          (p = 32 →
            f 1 = s.params.picc.nvbSelect ∧ f 6 = f 2 ^^^ f 3 ^^^ f 4 ^^^ f 5 ∧
            t.seq = .computeCrc .fullFrame
              [f 0, s.params.picc.nvbSelect, f 2, f 3, f 4, f 5, f 2 ^^^ f 3 ^^^ f 4 ^^^ f 5] .clearDone))))) ∧
  Params.default.mask.collPosNotValid = 0x20 ∧ Params.default.mask.collPos = 0x1F

/-- R192, R195: after the SAK's CRC: a mismatch is CrcMismatch, a Timeout Timeout; with bit 2 clear the selection
ends OK and the CardId is committed (R196); with bit 2 set the next level starts, or InternalError at level 3. The next
level starts as `selectLevel` says (R174 to R178, R180: CascadeLevelOpens), from the host's known-bit count, 0 for
READ_CARD_SERIAL, and the declared length. -/
def Obligations.SakDecidesNextLevel : Prop :=
  ∀ (i : Instr) (data : List Byte) (s : State), i = .select ∨ i = .readCardSerial →
    1 ≤ s.sel.level → s.sel.level ≤ 3 →
    (s.seq = .crcNext .sakCheck data .finished →
      (let f := fun j => Buf.get s.sel.frame j
       let differs := s.crc.lo ≠ f 7 ∨ s.crc.hi ≠ f 8
       (differs → endsWith i .crcMismatch s) ∧
       (¬ differs → f 6 &&& 0x04 = 0 →
         ∃ t, exec i s = .next t ∧ t.seq = .idle ∧ t.bus = s.bus ∧
           t.h = { s.h with
                   status := 0x00, busy := false, done := true, result := resultAfter i .ok s.h
                   uid := s.sel.uidWork, uidSize := BitVec.ofNat 8 (3 * s.sel.level + 1), sak := f 6 }) ∧
       (¬ differs → f 6 &&& 0x04 ≠ 0 → s.sel.level = 3 → endsWith i .internalError s) ∧
       (¬ differs → f 6 &&& 0x04 ≠ 0 → s.sel.level < 3 →
         (let u := selectLevel (if i = .select then s.h.knownBits.toNat else 0) s.h.uidInSize.toNat
            { s with sel := { s.sel with level := s.sel.level + 1 } }
          exec i s = exec i u ∧ u.sel.level = s.sel.level + 1 ∧ u.sel.uidWork = s.sel.uidWork ∧
            ∃ t, exec i s = .next t ∧ t.bus = .write .commandReg [s.params.pcd.idle] :: s.bus ∧ t.h = s.h ∧
              t.sel = u.sel)))) ∧
    (∀ v, s.seq = .crcNext .sakCheck data (.polled v) → v &&& s.params.mask.divCrcIrq = 0 →
      s.crc.crcPoll = s.params.crcPollBudget → endsWith i .timeout s)

/-- R199, R200: SELECT with no known bits and READ_CARD_SERIAL, a card with a 4-byte identifier u0..u3 and no
collision: two exchanges and two ComputeCrc, 44 transactions, and the CardId committed. The identifier bytes from
index 4 on are UID_IN's (R36). -/
def Obligations.FourByteCardIsSelected : Prop :=
  ∀ (s : State) (rest : List Byte) (k1 k2 u0 u1 u2 u3 bcc lo hi sak c0 c1 : Byte), s.params = Params.default →
    s.seq = .start → u0 ≠ 0x88 → sak &&& 0x04 = 0 →
    s.env.answers =
      [k1, 0x30, 0x00, 0x05, u0, u1, u2, u3, bcc, 0x00, 0x04, lo, hi, k2, 0x30, 0x00, 0x03, sak, c0, c1, 0x00, 0x04,
       c0, c1] ++ rest →
    (let x := u0 ^^^ u1 ^^^ u2 ^^^ u3
     let result := fun (i : Instr) (r : Bool) =>
       ∃ t, runOp i 45 s = .next t ∧ t.seq = .idle ∧ t.bus.length = s.bus.length + 44 ∧
         fifoWrites t.bus =
           [[sak], [0x93, 0x70, u0, u1, u2, u3, x, lo, hi], [0x93, 0x70, u0, u1, u2, u3, x], [0x93, 0x20]] ++
             fifoWrites s.bus ∧
         t.env = { answers := rest, draws := s.env.draws } ∧
         (∀ j, j < 10 → Buf.get t.h.uid j =
           if j = 0 then u0 else if j = 1 then u1 else if j = 2 then u2 else if j = 3 then u3
           else Buf.get s.h.uidIn j) ∧
         t.h = { s.h with
                 status := 0x00, busy := false, done := true, result := r, uidSize := 4, sak := sak, uid := t.h.uid }
     (s.h.knownBits = 0 → result .select s.h.result) ∧ result .readCardSerial true)

/-! ### Invariants and bounds of the whole machine -/

/-- The invariant holds at reset. -/
def Obligations.InvariantAtReset : Prop := State.reset.Inv

/-- Every step keeps the invariant: the buffers' canonical form and bounds, BUSY and DONE against S.seq, the
status codes, UID_SIZE, a committed SAK's bit 2, the poll counters, and what each position needs. -/
def Obligations.InvariantKeptByEveryStep : Prop :=
  ∀ s t : State, s.Inv → step s = .next t → t.Inv

/-- R305: the block has no faults: from a state that meets the invariant no step faults. The only refusal is another
bus master's turn while BUSY, which is the model's own choice (log entry 9). -/
def Obligations.NoFaultUnderInvariant : Prop :=
  ∀ s : State, s.Inv →
    (∀ f, step s ≠ .fault f) ∧
    (∀ r, step s = .refused r → s.h.busy = true ∧ ∃ tx rest, s.agenda = .foreign tx :: rest)

/-- R290: the statuses each operation can return. What the operation can still return stays among them at every
step, and the status it completes with is one of them. -/
def Obligations.OperationsReturnOnlyListedStatuses : Prop :=
  (∀ i s, s.seq = .start → statusOk i s) ∧
  (∀ s, s.seq = .start → decodeOp s.op = none →
    ∃ t, sequencerTurn s = .next t ∧ t.seq = .idle ∧ t.h.status = statusCode .invalidArgument) ∧
  ∀ (i : Instr) (s t : State), s.seq ≠ .idle → statusOk i s → exec i s = .next t →
    statusOk i t ∧ (t.seq = .idle → ∃ st ∈ canReturn i, t.h.status = statusCode st)

/-- R306, R194: every operation terminates: from the step after GO, whatever the environment answers, the sequencer
is idle with DONE = 1 after at most the stated number of its steps, with well-formed parameters (R8; the bound of R194
needs a collision position of at most 32). -/
def Obligations.EveryOperationTerminates : Prop :=
  ∀ s : State, s.params.wf = true → s.seq = .start →
    ∃ t, runSequencer (turnBound s.params) s = .next t ∧ t.seq = .idle ∧ t.h.busy = false ∧ t.h.done = true ∧
      t.bus.length ≤ s.bus.length + turnBound s.params

/-- R54: every operation writes its Communicate, ComputeCrc and resolver locals before it reads them, so their
values at its start are unobservable: they change no transaction, no host register, no draw and no position. -/
def Obligations.StartingLocalsUnobservable : Prop :=
  ∀ (i : Instr) (k : Nat) (s : State) (comm : CommLocals) (crc : CrcLocals) (sel : SelectState), s.seq = .start →
    ∃ t t', runOp i k s = .next t ∧ runOp i k { s with comm := comm, crc := crc, sel := sel } = .next t' ∧
      t'.h = t.h ∧ t'.bus = t.bus ∧ t'.env = t.env ∧ t'.seq = t.seq
end

