-- ==== Sys2Proof/Laws/Memory.lean ====
section
/-! SUPPORT. The laws of the two kinds of buffer: read after write, and the canonical form. -/

namespace Sys2Proof.Machine

/-! ### Cell buffers -/

namespace Memory

@[simp] theorem read_nil (i : Nat) : Memory.read [] i = Memory.unlisted := rfl

/-- A write leaves every other index alone. -/
theorem read_write_other (m : Memory) {i j : Nat} (v : Byte) (h : i ≠ j) :
    Memory.read (Memory.write m i v) j = Memory.read m j := by
  induction m with
  | nil => simp only [Memory.write]; split <;> simp [Memory.read, h]
  | cons c m ih =>
    simp only [Memory.write]
    split
    · split <;> simp [Memory.read, h]
    · split
      next hc => subst hc; split <;> simp [Memory.read, h]
      next => simp [Memory.read, ih]

/-- No cell of a canonical buffer lies below its first. -/
theorem read_below {c : Host.Cell} {m : Memory} (h : ∀ x ∈ m, c.1 < x.1) {i : Nat} (hi : i ≤ c.1) :
    Memory.read m i = Memory.unlisted := by
  induction m with
  | nil => rfl
  | cons d m ih =>
    have hd := h d (by simp)
    simp only [Memory.read]
    rw [if_neg (by omega), ih (fun x hx => h x (by simp [hx]))]

/-- A write is read back. -/
theorem read_write_same {m : Memory} (hm : Memory.wf m) (i : Nat) (v : Byte) :
    Memory.read (Memory.write m i v) i = v := by
  induction m with
  | nil => simp only [Memory.write]; split <;> simp_all [Memory.read]
  | cons c m ih =>
    obtain ⟨hp, hn⟩ := hm
    rw [List.pairwise_cons] at hp
    have hm' : Memory.wf m := ⟨hp.2, fun x hx => hn x (by simp [hx])⟩
    simp only [Memory.write]
    split
    next hlt =>
      split
      next hv =>
        simp only [Memory.read]
        rw [if_neg (by omega), read_below hp.1 (by omega), hv]
      next => simp [Memory.read]
    next hge =>
      split
      next heq =>
        split
        next hv => rw [read_below hp.1 (by omega), hv]
        next => simp [Memory.read]
      next hne =>
        simp only [Memory.read]
        rw [if_neg (fun h => hne h.symm), ih hm']

/-- A cell of the buffer after a write is the written one or an old one. -/
theorem mem_write {m : Memory} {i : Nat} {v : Byte} {x : Host.Cell} (h : x ∈ Memory.write m i v) :
    x = (i, v) ∨ x ∈ m := by
  induction m with
  | nil => simp only [Memory.write] at h; split at h <;> simp_all
  | cons c m ih =>
    simp only [Memory.write] at h
    split at h
    · split at h <;> simp_all
    · split at h
      · split at h <;> simp_all
        tauto
      · simp only [List.mem_cons] at h ⊢
        rcases h with h | h
        · exact .inr (.inl h)
        · rcases ih h with h | h
          · exact .inl h
          · exact .inr (.inr h)

/-- A write keeps the canonical form. -/
theorem write_wf {m : Memory} (hm : Memory.wf m) (i : Nat) (v : Byte) : Memory.wf (Memory.write m i v) := by
  induction m with
  | nil =>
    simp only [Memory.write]
    split
    · exact hm
    next hv => exact ⟨by simp, by simpa using hv⟩
  | cons c m ih =>
    obtain ⟨hp, hn⟩ := hm
    have hp' := List.pairwise_cons.1 hp
    have hm' : Memory.wf m := ⟨hp'.2, fun x hx => hn x (by simp [hx])⟩
    simp only [Memory.write]
    split
    next hlt =>
      split
      · exact ⟨hp, hn⟩
      next hv =>
        refine ⟨List.pairwise_cons.2 ⟨?_, hp⟩, ?_⟩
        · intro x hx
          rcases List.mem_cons.1 hx with rfl | hx
          · exact hlt
          · exact Nat.lt_trans hlt (hp'.1 x hx)
        · intro x hx
          rcases List.mem_cons.1 hx with rfl | hx
          · exact hv
          · exact hn x hx
    next hge =>
      split
      next heq =>
        split
        · exact hm'
        next hv =>
          refine ⟨List.pairwise_cons.2 ⟨fun x hx => heq ▸ hp'.1 x hx, hp'.2⟩, ?_⟩
          intro x hx
          rcases List.mem_cons.1 hx with rfl | hx
          · exact hv
          · exact hn x (by simp [hx])
      next hne =>
        obtain ⟨ip, inn⟩ := ih hm'
        refine ⟨List.pairwise_cons.2 ⟨?_, ip⟩, ?_⟩
        · intro x hx
          rcases mem_write hx with rfl | hx
          · simp only; omega
          · exact hp'.1 x hx
        · intro x hx
          rcases List.mem_cons.1 hx with rfl | hx
          · exact hn x (by simp)
          · exact inn x hx

/-- A burst of writes keeps the canonical form. -/
theorem writeMany_wf {m : Memory} (hm : Memory.wf m) (i : Nat) (bs : List Byte) :
    Memory.wf (Memory.writeMany m i bs) := by
  induction bs generalizing m i with
  | nil => exact hm
  | cons b bs ih => exact ih (write_wf hm i b) (i + 1)

/-- A cell after a burst of writes is an old one or lies in the burst. -/
theorem mem_writeMany {m : Memory} {i : Nat} {bs : List Byte} {x : Host.Cell}
    (h : x ∈ Memory.writeMany m i bs) : x ∈ m ∨ (i ≤ x.1 ∧ x.1 < i + bs.length) := by
  induction bs generalizing m i with
  | nil => exact .inl h
  | cons b bs ih =>
    rcases ih h with h | h
    · rcases mem_write h with rfl | h
      · exact .inr ⟨Nat.le_refl _, by simp⟩
      · exact .inl h
    · exact .inr ⟨by omega, by simp only [List.length_cons]; omega⟩

/-- A burst of writes leaves every index outside it alone. -/
theorem read_writeMany_other (m : Memory) {i j : Nat} (bs : List Byte) (h : j < i ∨ i + bs.length ≤ j) :
    Memory.read (Memory.writeMany m i bs) j = Memory.read m j := by
  induction bs generalizing m i with
  | nil => rfl
  | cons b bs ih =>
    simp only [List.length_cons] at h
    simp only [Memory.writeMany]
    rw [ih _ (by omega), read_write_other _ _ (by omega)]

/-- A burst of writes is read back. -/
theorem read_writeMany_same {m : Memory} (hm : Memory.wf m) {i j : Nat} (bs : List Byte) (h : j < bs.length) :
    Memory.read (Memory.writeMany m i bs) (i + j) = bs[j] := by
  induction bs generalizing m i j with
  | nil => simp at h
  | cons b bs ih =>
    simp only [Memory.writeMany]
    cases j with
    | zero => simpa [read_writeMany_other _ bs (Or.inl (Nat.lt_succ_self i))] using read_write_same hm i b
    | succ j =>
      have := ih (m := Memory.write m i b) (write_wf hm i b) (i := i + 1) (j := j) (by simpa using h)
      simpa [Nat.add_assoc, Nat.add_comm 1 j] using this

/-- A cell of a canonical buffer is what its index reads as. -/
theorem read_of_mem {m : Memory} (hm : Memory.wf m) {c : Host.Cell} (hc : c ∈ m) : Memory.read m c.1 = c.2 := by
  induction m with
  | nil => simp at hc
  | cons d m ih =>
    obtain ⟨hp, hn⟩ := hm
    have hp' := List.pairwise_cons.1 hp
    simp only [Memory.read]
    rcases List.mem_cons.1 hc with rfl | hc
    · simp
    · rw [if_neg (Nat.ne_of_lt (hp'.1 c hc)), ih ⟨hp'.2, fun x hx => hn x (by simp [hx])⟩ hc]

end Memory

/-! ### Buffers of fixed length -/

namespace Buf

theorem get_put_same {n : Nat} (v : Vector Byte n) {i : Nat} (x : Byte) (h : i < n) :
    Buf.get (Buf.put v i x) i = x := by
  simp [Buf.get, Buf.put, h]

theorem get_put_other {n : Nat} (v : Vector Byte n) {i j : Nat} (x : Byte) (h : i ≠ j) :
    Buf.get (Buf.put v i x) j = Buf.get v j := by
  simp [Buf.get, Buf.put, h]

theorem get_putMany_other {n : Nat} (v : Vector Byte n) {i j : Nat} (bs : List Byte)
    (h : j < i ∨ i + bs.length ≤ j) : Buf.get (Buf.putMany v i bs) j = Buf.get v j := by
  induction bs generalizing v i with
  | nil => rfl
  | cons b bs ih =>
    simp only [List.length_cons] at h
    simp only [Buf.putMany]
    rw [ih _ (by omega), get_put_other _ _ (by omega)]

theorem get_putMany_same {n : Nat} (v : Vector Byte n) {i j : Nat} (bs : List Byte) (h : j < bs.length)
    (hn : i + bs.length ≤ n) : Buf.get (Buf.putMany v i bs) (i + j) = bs[j] := by
  induction bs generalizing v i j with
  | nil => simp at h
  | cons b bs ih =>
    simp only [List.length_cons] at h hn
    simp only [Buf.putMany]
    cases j with
    | zero =>
      have := get_putMany_other (Buf.put v i b) bs (Or.inl (Nat.lt_succ_self i))
      simpa [get_put_same v b (show i < n by omega)] using this
    | succ j =>
      have := ih (Buf.put v i b) (i := i + 1) (j := j) (by omega) (by omega)
      simpa [Nat.add_assoc, Nat.add_comm 1 j] using this

@[simp] theorem slice_length {n : Nat} (v : Vector Byte n) (i k : Nat) : (Buf.slice v i k).length = k := by
  simp [Buf.slice]

/-- Two buffers that read alike at every index are the same. -/
theorem ext_get {n : Nat} {v w : Vector Byte n} (h : ∀ i, i < n → Buf.get v i = Buf.get w i) : v = w := by
  ext i hi : 1
  simpa [Buf.get, hi] using h i hi

end Buf

/-! ### Environment draws -/

namespace Env

@[simp] theorem peek_length (e : Env) (n : Nat) : (e.peek n).length = n := by simp [Env.peek]

/-- Answers that are listed come first. -/
theorem peek_append (xs rest : List Byte) (d : Nat) : Env.peek ⟨xs ++ rest, d⟩ xs.length = xs := by
  apply List.ext_getElem
  · simp [Env.peek]
  · intro i h1 h2
    simp [Env.peek, List.getElem?_append_left h2, h2]

theorem drop_append (xs rest : List Byte) (d : Nat) : Env.drop ⟨xs ++ rest, d⟩ xs.length = ⟨rest, d⟩ := by
  simp [Env.drop]

@[simp] theorem peek_one_cons (b : Byte) (rest : List Byte) (d : Nat) : Env.peek ⟨b :: rest, d⟩ 1 = [b] :=
  peek_append [b] rest d

@[simp] theorem drop_one_cons (b : Byte) (rest : List Byte) (d : Nat) : Env.drop ⟨b :: rest, d⟩ 1 = ⟨rest, d⟩ :=
  drop_append [b] rest d

end Env

end Sys2Proof.Machine
end

