-- ==== Sys2Proof/Laws/State.lean ====
section
/-! SUPPORT. One lemma per field per update of the state: what a setter changes and what it leaves. -/

namespace Sys2Proof.Machine.State

variable (s : State)

@[simp] theorem withH_params (x : HostRegs) : (s.withH x).params = s.params := rfl
@[simp] theorem withH_h (x : HostRegs) : (s.withH x).h = x := rfl
@[simp] theorem withH_op (x : HostRegs) : (s.withH x).op = s.op := rfl
@[simp] theorem withH_seq (x : HostRegs) : (s.withH x).seq = s.seq := rfl
@[simp] theorem withH_comm (x : HostRegs) : (s.withH x).comm = s.comm := rfl
@[simp] theorem withH_crc (x : HostRegs) : (s.withH x).crc = s.crc := rfl
@[simp] theorem withH_sel (x : HostRegs) : (s.withH x).sel = s.sel := rfl
@[simp] theorem withH_env (x : HostRegs) : (s.withH x).env = s.env := rfl
@[simp] theorem withH_bus (x : HostRegs) : (s.withH x).bus = s.bus := rfl
@[simp] theorem withH_foreign (x : HostRegs) : (s.withH x).foreign = s.foreign := rfl
@[simp] theorem withH_reads (x : HostRegs) : (s.withH x).reads = s.reads := rfl
@[simp] theorem withH_agenda (x : HostRegs) : (s.withH x).agenda = s.agenda := rfl
@[simp] theorem withH_withH (x y : HostRegs) : (s.withH x).withH y = s.withH y := rfl
@[simp] theorem withH_self : s.withH s.h = s := rfl

@[simp] theorem withOp_params (x : Byte) : (s.withOp x).params = s.params := rfl
@[simp] theorem withOp_h (x : Byte) : (s.withOp x).h = s.h := rfl
@[simp] theorem withOp_op (x : Byte) : (s.withOp x).op = x := rfl
@[simp] theorem withOp_seq (x : Byte) : (s.withOp x).seq = s.seq := rfl
@[simp] theorem withOp_comm (x : Byte) : (s.withOp x).comm = s.comm := rfl
@[simp] theorem withOp_crc (x : Byte) : (s.withOp x).crc = s.crc := rfl
@[simp] theorem withOp_sel (x : Byte) : (s.withOp x).sel = s.sel := rfl
@[simp] theorem withOp_env (x : Byte) : (s.withOp x).env = s.env := rfl
@[simp] theorem withOp_bus (x : Byte) : (s.withOp x).bus = s.bus := rfl
@[simp] theorem withOp_foreign (x : Byte) : (s.withOp x).foreign = s.foreign := rfl
@[simp] theorem withOp_reads (x : Byte) : (s.withOp x).reads = s.reads := rfl
@[simp] theorem withOp_agenda (x : Byte) : (s.withOp x).agenda = s.agenda := rfl
@[simp] theorem withOp_withOp (x y : Byte) : (s.withOp x).withOp y = s.withOp y := rfl
@[simp] theorem withOp_self : s.withOp s.op = s := rfl

@[simp] theorem withSeq_params (x : Seq) : (s.withSeq x).params = s.params := rfl
@[simp] theorem withSeq_h (x : Seq) : (s.withSeq x).h = s.h := rfl
@[simp] theorem withSeq_op (x : Seq) : (s.withSeq x).op = s.op := rfl
@[simp] theorem withSeq_seq (x : Seq) : (s.withSeq x).seq = x := rfl
@[simp] theorem withSeq_comm (x : Seq) : (s.withSeq x).comm = s.comm := rfl
@[simp] theorem withSeq_crc (x : Seq) : (s.withSeq x).crc = s.crc := rfl
@[simp] theorem withSeq_sel (x : Seq) : (s.withSeq x).sel = s.sel := rfl
@[simp] theorem withSeq_env (x : Seq) : (s.withSeq x).env = s.env := rfl
@[simp] theorem withSeq_bus (x : Seq) : (s.withSeq x).bus = s.bus := rfl
@[simp] theorem withSeq_foreign (x : Seq) : (s.withSeq x).foreign = s.foreign := rfl
@[simp] theorem withSeq_reads (x : Seq) : (s.withSeq x).reads = s.reads := rfl
@[simp] theorem withSeq_agenda (x : Seq) : (s.withSeq x).agenda = s.agenda := rfl
@[simp] theorem withSeq_withSeq (x y : Seq) : (s.withSeq x).withSeq y = s.withSeq y := rfl
@[simp] theorem withSeq_self : s.withSeq s.seq = s := rfl

@[simp] theorem withComm_params (x : CommLocals) : (s.withComm x).params = s.params := rfl
@[simp] theorem withComm_h (x : CommLocals) : (s.withComm x).h = s.h := rfl
@[simp] theorem withComm_op (x : CommLocals) : (s.withComm x).op = s.op := rfl
@[simp] theorem withComm_seq (x : CommLocals) : (s.withComm x).seq = s.seq := rfl
@[simp] theorem withComm_comm (x : CommLocals) : (s.withComm x).comm = x := rfl
@[simp] theorem withComm_crc (x : CommLocals) : (s.withComm x).crc = s.crc := rfl
@[simp] theorem withComm_sel (x : CommLocals) : (s.withComm x).sel = s.sel := rfl
@[simp] theorem withComm_env (x : CommLocals) : (s.withComm x).env = s.env := rfl
@[simp] theorem withComm_bus (x : CommLocals) : (s.withComm x).bus = s.bus := rfl
@[simp] theorem withComm_foreign (x : CommLocals) : (s.withComm x).foreign = s.foreign := rfl
@[simp] theorem withComm_reads (x : CommLocals) : (s.withComm x).reads = s.reads := rfl
@[simp] theorem withComm_agenda (x : CommLocals) : (s.withComm x).agenda = s.agenda := rfl
@[simp] theorem withComm_withComm (x y : CommLocals) : (s.withComm x).withComm y = s.withComm y := rfl
@[simp] theorem withComm_self : s.withComm s.comm = s := rfl

@[simp] theorem withCrc_params (x : CrcLocals) : (s.withCrc x).params = s.params := rfl
@[simp] theorem withCrc_h (x : CrcLocals) : (s.withCrc x).h = s.h := rfl
@[simp] theorem withCrc_op (x : CrcLocals) : (s.withCrc x).op = s.op := rfl
@[simp] theorem withCrc_seq (x : CrcLocals) : (s.withCrc x).seq = s.seq := rfl
@[simp] theorem withCrc_comm (x : CrcLocals) : (s.withCrc x).comm = s.comm := rfl
@[simp] theorem withCrc_crc (x : CrcLocals) : (s.withCrc x).crc = x := rfl
@[simp] theorem withCrc_sel (x : CrcLocals) : (s.withCrc x).sel = s.sel := rfl
@[simp] theorem withCrc_env (x : CrcLocals) : (s.withCrc x).env = s.env := rfl
@[simp] theorem withCrc_bus (x : CrcLocals) : (s.withCrc x).bus = s.bus := rfl
@[simp] theorem withCrc_foreign (x : CrcLocals) : (s.withCrc x).foreign = s.foreign := rfl
@[simp] theorem withCrc_reads (x : CrcLocals) : (s.withCrc x).reads = s.reads := rfl
@[simp] theorem withCrc_agenda (x : CrcLocals) : (s.withCrc x).agenda = s.agenda := rfl
@[simp] theorem withCrc_withCrc (x y : CrcLocals) : (s.withCrc x).withCrc y = s.withCrc y := rfl
@[simp] theorem withCrc_self : s.withCrc s.crc = s := rfl

@[simp] theorem withSel_params (x : SelectState) : (s.withSel x).params = s.params := rfl
@[simp] theorem withSel_h (x : SelectState) : (s.withSel x).h = s.h := rfl
@[simp] theorem withSel_op (x : SelectState) : (s.withSel x).op = s.op := rfl
@[simp] theorem withSel_seq (x : SelectState) : (s.withSel x).seq = s.seq := rfl
@[simp] theorem withSel_comm (x : SelectState) : (s.withSel x).comm = s.comm := rfl
@[simp] theorem withSel_crc (x : SelectState) : (s.withSel x).crc = s.crc := rfl
@[simp] theorem withSel_sel (x : SelectState) : (s.withSel x).sel = x := rfl
@[simp] theorem withSel_env (x : SelectState) : (s.withSel x).env = s.env := rfl
@[simp] theorem withSel_bus (x : SelectState) : (s.withSel x).bus = s.bus := rfl
@[simp] theorem withSel_foreign (x : SelectState) : (s.withSel x).foreign = s.foreign := rfl
@[simp] theorem withSel_reads (x : SelectState) : (s.withSel x).reads = s.reads := rfl
@[simp] theorem withSel_agenda (x : SelectState) : (s.withSel x).agenda = s.agenda := rfl
@[simp] theorem withSel_withSel (x y : SelectState) : (s.withSel x).withSel y = s.withSel y := rfl
@[simp] theorem withSel_self : s.withSel s.sel = s := rfl

@[simp] theorem withEnv_params (x : Env) : (s.withEnv x).params = s.params := rfl
@[simp] theorem withEnv_h (x : Env) : (s.withEnv x).h = s.h := rfl
@[simp] theorem withEnv_op (x : Env) : (s.withEnv x).op = s.op := rfl
@[simp] theorem withEnv_seq (x : Env) : (s.withEnv x).seq = s.seq := rfl
@[simp] theorem withEnv_comm (x : Env) : (s.withEnv x).comm = s.comm := rfl
@[simp] theorem withEnv_crc (x : Env) : (s.withEnv x).crc = s.crc := rfl
@[simp] theorem withEnv_sel (x : Env) : (s.withEnv x).sel = s.sel := rfl
@[simp] theorem withEnv_env (x : Env) : (s.withEnv x).env = x := rfl
@[simp] theorem withEnv_bus (x : Env) : (s.withEnv x).bus = s.bus := rfl
@[simp] theorem withEnv_foreign (x : Env) : (s.withEnv x).foreign = s.foreign := rfl
@[simp] theorem withEnv_reads (x : Env) : (s.withEnv x).reads = s.reads := rfl
@[simp] theorem withEnv_agenda (x : Env) : (s.withEnv x).agenda = s.agenda := rfl
@[simp] theorem withEnv_withEnv (x y : Env) : (s.withEnv x).withEnv y = s.withEnv y := rfl
@[simp] theorem withEnv_self : s.withEnv s.env = s := rfl

@[simp] theorem withBus_params (x : List Txn) : (s.withBus x).params = s.params := rfl
@[simp] theorem withBus_h (x : List Txn) : (s.withBus x).h = s.h := rfl
@[simp] theorem withBus_op (x : List Txn) : (s.withBus x).op = s.op := rfl
@[simp] theorem withBus_seq (x : List Txn) : (s.withBus x).seq = s.seq := rfl
@[simp] theorem withBus_comm (x : List Txn) : (s.withBus x).comm = s.comm := rfl
@[simp] theorem withBus_crc (x : List Txn) : (s.withBus x).crc = s.crc := rfl
@[simp] theorem withBus_sel (x : List Txn) : (s.withBus x).sel = s.sel := rfl
@[simp] theorem withBus_env (x : List Txn) : (s.withBus x).env = s.env := rfl
@[simp] theorem withBus_bus (x : List Txn) : (s.withBus x).bus = x := rfl
@[simp] theorem withBus_foreign (x : List Txn) : (s.withBus x).foreign = s.foreign := rfl
@[simp] theorem withBus_reads (x : List Txn) : (s.withBus x).reads = s.reads := rfl
@[simp] theorem withBus_agenda (x : List Txn) : (s.withBus x).agenda = s.agenda := rfl
@[simp] theorem withBus_withBus (x y : List Txn) : (s.withBus x).withBus y = s.withBus y := rfl
@[simp] theorem withBus_self : s.withBus s.bus = s := rfl

@[simp] theorem withForeign_params (x : List Txn) : (s.withForeign x).params = s.params := rfl
@[simp] theorem withForeign_h (x : List Txn) : (s.withForeign x).h = s.h := rfl
@[simp] theorem withForeign_op (x : List Txn) : (s.withForeign x).op = s.op := rfl
@[simp] theorem withForeign_seq (x : List Txn) : (s.withForeign x).seq = s.seq := rfl
@[simp] theorem withForeign_comm (x : List Txn) : (s.withForeign x).comm = s.comm := rfl
@[simp] theorem withForeign_crc (x : List Txn) : (s.withForeign x).crc = s.crc := rfl
@[simp] theorem withForeign_sel (x : List Txn) : (s.withForeign x).sel = s.sel := rfl
@[simp] theorem withForeign_env (x : List Txn) : (s.withForeign x).env = s.env := rfl
@[simp] theorem withForeign_bus (x : List Txn) : (s.withForeign x).bus = s.bus := rfl
@[simp] theorem withForeign_foreign (x : List Txn) : (s.withForeign x).foreign = x := rfl
@[simp] theorem withForeign_reads (x : List Txn) : (s.withForeign x).reads = s.reads := rfl
@[simp] theorem withForeign_agenda (x : List Txn) : (s.withForeign x).agenda = s.agenda := rfl
@[simp] theorem withForeign_withForeign (x y : List Txn) : (s.withForeign x).withForeign y = s.withForeign y := rfl
@[simp] theorem withForeign_self : s.withForeign s.foreign = s := rfl

@[simp] theorem withReads_params (x : List (Byte × Byte)) : (s.withReads x).params = s.params := rfl
@[simp] theorem withReads_h (x : List (Byte × Byte)) : (s.withReads x).h = s.h := rfl
@[simp] theorem withReads_op (x : List (Byte × Byte)) : (s.withReads x).op = s.op := rfl
@[simp] theorem withReads_seq (x : List (Byte × Byte)) : (s.withReads x).seq = s.seq := rfl
@[simp] theorem withReads_comm (x : List (Byte × Byte)) : (s.withReads x).comm = s.comm := rfl
@[simp] theorem withReads_crc (x : List (Byte × Byte)) : (s.withReads x).crc = s.crc := rfl
@[simp] theorem withReads_sel (x : List (Byte × Byte)) : (s.withReads x).sel = s.sel := rfl
@[simp] theorem withReads_env (x : List (Byte × Byte)) : (s.withReads x).env = s.env := rfl
@[simp] theorem withReads_bus (x : List (Byte × Byte)) : (s.withReads x).bus = s.bus := rfl
@[simp] theorem withReads_foreign (x : List (Byte × Byte)) : (s.withReads x).foreign = s.foreign := rfl
@[simp] theorem withReads_reads (x : List (Byte × Byte)) : (s.withReads x).reads = x := rfl
@[simp] theorem withReads_agenda (x : List (Byte × Byte)) : (s.withReads x).agenda = s.agenda := rfl
@[simp] theorem withReads_withReads (x y : List (Byte × Byte)) : (s.withReads x).withReads y = s.withReads y := rfl
@[simp] theorem withReads_self : s.withReads s.reads = s := rfl

@[simp] theorem withAgenda_params (x : List Turn) : (s.withAgenda x).params = s.params := rfl
@[simp] theorem withAgenda_h (x : List Turn) : (s.withAgenda x).h = s.h := rfl
@[simp] theorem withAgenda_op (x : List Turn) : (s.withAgenda x).op = s.op := rfl
@[simp] theorem withAgenda_seq (x : List Turn) : (s.withAgenda x).seq = s.seq := rfl
@[simp] theorem withAgenda_comm (x : List Turn) : (s.withAgenda x).comm = s.comm := rfl
@[simp] theorem withAgenda_crc (x : List Turn) : (s.withAgenda x).crc = s.crc := rfl
@[simp] theorem withAgenda_sel (x : List Turn) : (s.withAgenda x).sel = s.sel := rfl
@[simp] theorem withAgenda_env (x : List Turn) : (s.withAgenda x).env = s.env := rfl
@[simp] theorem withAgenda_bus (x : List Turn) : (s.withAgenda x).bus = s.bus := rfl
@[simp] theorem withAgenda_foreign (x : List Turn) : (s.withAgenda x).foreign = s.foreign := rfl
@[simp] theorem withAgenda_reads (x : List Turn) : (s.withAgenda x).reads = s.reads := rfl
@[simp] theorem withAgenda_agenda (x : List Turn) : (s.withAgenda x).agenda = x := rfl
@[simp] theorem withAgenda_withAgenda (x y : List Turn) : (s.withAgenda x).withAgenda y = s.withAgenda y := rfl
@[simp] theorem withAgenda_self : s.withAgenda s.agenda = s := rfl

end Sys2Proof.Machine.State
end

