-- ==== Sys2Proof/Laws/Engine.lean ====
section
/-! SUPPORT. What the shared operations can do, said once: the bus primitives, GO, completion, and one step of
ComputeCrc and of Communicate. Proofs cite these instead of unfolding the engines. -/

namespace Sys2Proof.Machine

/-! ### Bus primitives -/

section Bus

variable (r : ChipReg) (bytes : List Byte) (n : Nat) (s : State)

@[simp] theorem busWrite_params : (busWrite r bytes s).params = s.params := rfl
@[simp] theorem busWrite_h : (busWrite r bytes s).h = s.h := rfl
@[simp] theorem busWrite_op : (busWrite r bytes s).op = s.op := rfl
@[simp] theorem busWrite_seq : (busWrite r bytes s).seq = s.seq := rfl
@[simp] theorem busWrite_comm : (busWrite r bytes s).comm = s.comm := rfl
@[simp] theorem busWrite_crc : (busWrite r bytes s).crc = s.crc := rfl
@[simp] theorem busWrite_sel : (busWrite r bytes s).sel = s.sel := rfl
@[simp] theorem busWrite_env : (busWrite r bytes s).env = s.env := rfl
@[simp] theorem busWrite_bus : (busWrite r bytes s).bus = .write r bytes :: s.bus := rfl
@[simp] theorem busWrite_foreign : (busWrite r bytes s).foreign = s.foreign := rfl
@[simp] theorem busWrite_reads : (busWrite r bytes s).reads = s.reads := rfl
@[simp] theorem busWrite_agenda : (busWrite r bytes s).agenda = s.agenda := rfl

@[simp] theorem busReadN_params : (busReadN r n s).params = s.params := rfl
@[simp] theorem busReadN_h : (busReadN r n s).h = s.h := rfl
@[simp] theorem busReadN_op : (busReadN r n s).op = s.op := rfl
@[simp] theorem busReadN_seq : (busReadN r n s).seq = s.seq := rfl
@[simp] theorem busReadN_comm : (busReadN r n s).comm = s.comm := rfl
@[simp] theorem busReadN_crc : (busReadN r n s).crc = s.crc := rfl
@[simp] theorem busReadN_sel : (busReadN r n s).sel = s.sel := rfl
@[simp] theorem busReadN_env : (busReadN r n s).env = s.env.drop n := rfl
@[simp] theorem busReadN_bus : (busReadN r n s).bus = .read r (s.env.peek n) :: s.bus := rfl
@[simp] theorem busReadN_foreign : (busReadN r n s).foreign = s.foreign := rfl
@[simp] theorem busReadN_reads : (busReadN r n s).reads = s.reads := rfl
@[simp] theorem busReadN_agenda : (busReadN r n s).agenda = s.agenda := rfl

@[simp] theorem busRead_params : (busRead r s).params = s.params := rfl
@[simp] theorem busRead_h : (busRead r s).h = s.h := rfl
@[simp] theorem busRead_op : (busRead r s).op = s.op := rfl
@[simp] theorem busRead_seq : (busRead r s).seq = s.seq := rfl
@[simp] theorem busRead_comm : (busRead r s).comm = s.comm := rfl
@[simp] theorem busRead_crc : (busRead r s).crc = s.crc := rfl
@[simp] theorem busRead_sel : (busRead r s).sel = s.sel := rfl
@[simp] theorem busRead_env : (busRead r s).env = s.env.drop 1 := rfl
@[simp] theorem busRead_foreign : (busRead r s).foreign = s.foreign := rfl
@[simp] theorem busRead_reads : (busRead r s).reads = s.reads := rfl
@[simp] theorem busRead_agenda : (busRead r s).agenda = s.agenda := rfl

/-- A one-byte read records the byte it returned. -/
@[simp] theorem busRead_bus : (busRead r s).bus = .read r [nextByte s] :: s.bus := rfl

/-- A listed answer is what the next one-byte read returns. -/
theorem nextByte_of_answers {b : Byte} {rest : List Byte} (h : s.env.answers = b :: rest) : nextByte s = b := by
  simp [nextByte, Env.peek, h]

/-- A one-byte read consumes one listed answer. -/
theorem drop_of_answers {b : Byte} {rest : List Byte} (h : s.env.answers = b :: rest) :
    s.env.drop 1 = ⟨rest, s.env.draws⟩ := by
  simp [Env.drop, h]

end Bus

/-! ### What an engine step leaves alone -/

/-- `u` is `s` but for the bus record, the environment, and the locals of the two engines. -/
structure Quiet (s u : State) : Prop where
  params : u.params = s.params
  h : u.h = s.h
  op : u.op = s.op
  sel : u.sel = s.sel
  foreign : u.foreign = s.foreign
  reads : u.reads = s.reads
  agenda : u.agenda = s.agenda

/-- `u` follows `s` by one transaction to a register the block uses. -/
def OneTxn (s u : State) : Prop := ∃ tx : Txn, u.bus = tx :: s.bus ∧ blockUses tx.reg = true

/-- A transaction of ComputeCrc, and then the next position, or what comes after it (R213). -/
theorem crcStep_cases (here : CrcPos → Seq) (next : CrcNext → Seq) (data : List Byte) (pos : CrcPos) (s : State) :
    ∃ u : State, Quiet s u ∧ u.comm = s.comm ∧ OneTxn s u ∧
      (u.crc.crcPoll = if pos = .poll then s.crc.crcPoll + 1 else s.crc.crcPoll) ∧
      ((∃ q, q ≠ .poll ∧ q ≠ .load ∧ crcStep here next data pos s = u.withSeq (here q)) ∨
        ∃ k, (k = .finished ↔ pos = .readHi) ∧ crcStep here next data pos s = u.withSeq (next k)) := by
  cases pos with
  | idle =>
    exact ⟨busWrite .commandReg [s.params.pcd.idle] s, ⟨rfl, rfl, rfl, rfl, rfl, rfl, rfl⟩, rfl, ⟨_, rfl, rfl⟩, rfl,
      .inl ⟨.clearDone, by simp, by simp, rfl⟩⟩
  | clearDone =>
    exact ⟨busWrite .divIrqReg [s.params.mask.divCrcIrq] s, ⟨rfl, rfl, rfl, rfl, rfl, rfl, rfl⟩, rfl, ⟨_, rfl, rfl⟩,
      rfl, .inl ⟨.flush, by simp, by simp, rfl⟩⟩
  | flush =>
    exact ⟨busWrite .fifoLevelReg [s.params.mask.fifoFlush] s, ⟨rfl, rfl, rfl, rfl, rfl, rfl, rfl⟩, rfl,
      ⟨_, rfl, rfl⟩, rfl, .inr ⟨.flushed, by simp, rfl⟩⟩
  | load =>
    exact ⟨busWrite .fifoDataReg data s, ⟨rfl, rfl, rfl, rfl, rfl, rfl, rfl⟩, rfl, ⟨_, rfl, rfl⟩, rfl,
      .inl ⟨.start, by simp, by simp, rfl⟩⟩
  | start =>
    exact ⟨busWrite .commandReg [s.params.pcd.calcCrc] s, ⟨rfl, rfl, rfl, rfl, rfl, rfl, rfl⟩, rfl, ⟨_, rfl, rfl⟩, rfl,
      .inr ⟨.started, by simp, rfl⟩⟩
  | poll =>
    exact ⟨(busRead .divIrqReg s).withCrc { s.crc with crcPoll := s.crc.crcPoll + 1 },
      ⟨rfl, rfl, rfl, rfl, rfl, rfl, rfl⟩, rfl, ⟨_, rfl, rfl⟩, rfl, .inr ⟨.polled (nextByte s), by simp, rfl⟩⟩
  | stop =>
    exact ⟨busWrite .commandReg [s.params.pcd.idle] s, ⟨rfl, rfl, rfl, rfl, rfl, rfl, rfl⟩, rfl, ⟨_, rfl, rfl⟩, rfl,
      .inl ⟨.readLo, by simp, by simp, rfl⟩⟩
  | readLo =>
    exact ⟨(busRead .crcResultRegL s).withCrc { s.crc with lo := nextByte s }, ⟨rfl, rfl, rfl, rfl, rfl, rfl, rfl⟩,
      rfl, ⟨_, rfl, rfl⟩, rfl, .inl ⟨.readHi, by simp, by simp, rfl⟩⟩
  | readHi =>
    exact ⟨(busRead .crcResultRegH s).withCrc { s.crc with hi := nextByte s }, ⟨rfl, rfl, rfl, rfl, rfl, rfl, rfl⟩,
      rfl, ⟨_, rfl, rfl⟩, rfl, .inr ⟨.finished, by simp, rfl⟩⟩

/-- The pure computation of ComputeCrc: the next position, or the return with Timeout with the poll budget used up, or
the return with OK after the high byte was read (R213). It changes at most the poll counter, to 0. -/
theorem crcResume_cases (here : CrcPos → Seq) (ret : Status → State → State) (data : List Byte) (k : CrcNext)
    (s : State) :
    ∃ n, (n = s.crc.crcPoll ∨ n = 0) ∧
      (let u := s.withCrc { s.crc with crcPoll := n }
       (∃ q, (q = .load → data ≠ []) ∧ (q = .poll → n ≠ s.params.crcPollBudget) ∧
          crcResume here ret data k s = u.withSeq (here q)) ∨
        (n = s.params.crcPollBudget ∧ crcResume here ret data k s = ret .timeout u) ∨
        (k = .finished ∧ crcResume here ret data k s = ret .ok u)) := by
  have head : ∀ n, (∃ q, (q = .load → data ≠ []) ∧ (q = .poll → n ≠ s.params.crcPollBudget) ∧
        crcPollHead here ret (s.withCrc { s.crc with crcPoll := n }) =
          (s.withCrc { s.crc with crcPoll := n }).withSeq (here q)) ∨
      (n = s.params.crcPollBudget ∧ crcPollHead here ret (s.withCrc { s.crc with crcPoll := n }) =
        ret .timeout (s.withCrc { s.crc with crcPoll := n })) := by
    intro n
    unfold crcPollHead
    split
    next h => exact .inr ⟨h, rfl⟩
    next h => exact .inl ⟨.poll, by simp, fun _ => h, rfl⟩
  have keep : s.withCrc { s.crc with crcPoll := s.crc.crcPoll } = s := rfl
  cases k with
  | flushed =>
    exact ⟨_, .inl rfl, .inl ⟨if data.isEmpty then .start else .load, by cases data <;> simp,
      by cases data <;> simp, rfl⟩⟩
  | started =>
    refine ⟨0, .inr rfl, ?_⟩
    rcases head 0 with h | h
    · exact .inl h
    · exact .inr (.inl h)
  | polled v =>
    refine ⟨s.crc.crcPoll, .inl rfl, ?_⟩
    by_cases hd : crcDone s.params v = true
    · exact .inl ⟨.stop, by simp, by simp, by simp [crcResume, hd, keep]⟩
    · have := head s.crc.crcPoll
      rw [keep] at this
      simp only [crcResume, hd]
      rcases this with h | h
      · exact .inl h
      · exact .inr (.inl h)
  | finished => exact ⟨_, .inl rfl, .inr (.inr ⟨rfl, rfl⟩)⟩

/-! ### Communicate -/

@[simp] theorem mergeFirst_length (align : Nat) (old0 : Byte) (bs : List Byte) :
    (mergeFirst align old0 bs).length = bs.length := by
  cases bs with
  | nil => rfl
  | cons b bs => simp only [mergeFirst]; split <;> rfl

/-- Steps 7 to 9 of Communicate return with the reply's `n` and `vb`, or call the CRC check's ComputeCrc (R148,
R149). -/
theorem afterReply_cases (site : CommSite) (ret : CommReturn) (c : CommCall) (s : State) :
    (afterReply site ret c s = ret .collision s.comm.cn s.comm.cvb s) ∨
      (c.checkCrc = false ∨ c.cap = 0) ∧ afterReply site ret c s = ret .ok s.comm.cn s.comm.cvb s ∨
      (c.checkCrc = true ∧ 0 < c.cap) ∧
        (afterReply site ret c s = ret .mifareNack s.comm.cn s.comm.cvb s ∨
          afterReply site ret c s = ret .crcMismatch s.comm.cn s.comm.cvb s ∨
          2 ≤ s.comm.cn ∧ s.comm.cvb = 0 ∧
            afterReply site ret c s =
              s.withSeq (.replyCrc site c (destSlice c.dest c.off (s.comm.cn - 2) s) .idle)) := by
  unfold afterReply callCrc
  split
  · exact .inl rfl
  · split
    next h =>
      refine .inr (.inr ⟨h, ?_⟩)
      split
      · exact .inl rfl
      · split
        · exact .inr (.inl rfl)
        next h2 => exact .inr (.inr ⟨by omega, by omega, rfl⟩)
    next h =>
      refine .inr (.inl ⟨?_, rfl⟩)
      cases hc : c.checkCrc
      · exact .inl rfl
      · exact .inr (by simp [hc] at h; exact h)

/-- The end of the CRC check returns with its status (R149). -/
theorem afterReplyCrc_cases (ret : CommReturn) (c : CommCall) (cs : Status) (s : State) :
    ∃ st, afterReplyCrc ret c cs s = ret st s.comm.cn s.comm.cvb s ∧
      (cs ≠ .ok ∧ st = cs ∨ cs = .ok ∧ (st = .crcMismatch ∨ st = .ok)) := by
  unfold afterReplyCrc
  simp only
  split
  next h => exact ⟨cs, rfl, .inl ⟨h, rfl⟩⟩
  next h =>
    have h : cs = .ok := by simpa using h
    split
    · exact ⟨_, rfl, .inr ⟨h, .inl rfl⟩⟩
    · exact ⟨_, rfl, .inr ⟨h, .inr rfl⟩⟩

/-- A transaction of Communicate, and then the next position, or what comes after it, the reply stored before by the
ControlReg read (R142, R147). -/
theorem commStep_cases (site : CommSite) (c : CommCall) (pos : CommPos) (s : State) :
    ∃ u : State, Quiet s u ∧ u.crc = s.crc ∧ OneTxn s u ∧ u.comm.cn = s.comm.cn ∧
      (u.comm.irqPoll = if pos = .poll then s.comm.irqPoll + 1 else s.comm.irqPoll) ∧
      ((∃ q, (q ≠ .load ∧ q ≠ .poll ∧ q ≠ .readLevel ∧ q ≠ .readData ∧
            ∀ d, q = .readControl d → pos = .readData ∧ d.length = s.comm.cn) ∧
          commStep site c pos s = u.withSeq (.communicate site c q)) ∨
        (∃ k, k ≠ .stored ∧ ((∃ v, k = .gotLevel v) → pos = .readLevel) ∧
          commStep site c pos s = u.withSeq (.commNext site c k)) ∨
        ∃ d, pos = .readControl d ∧
          commStep site c pos s = (storeReply c d u.comm.cn u.comm.cvb u).withSeq (.commNext site c .stored)) := by
  cases pos with
  | idle =>
    exact ⟨busWrite .commandReg [s.params.pcd.idle] s, ⟨rfl, rfl, rfl, rfl, rfl, rfl, rfl⟩, rfl, ⟨_, rfl, rfl⟩, rfl, rfl,
      .inl ⟨.clearIrqs, by simp, rfl⟩⟩
  | clearIrqs =>
    exact ⟨busWrite .comIrqReg [s.params.mask.irqClearAll] s, ⟨rfl, rfl, rfl, rfl, rfl, rfl, rfl⟩, rfl,
      ⟨_, rfl, rfl⟩, rfl, rfl, .inl ⟨.flush, by simp, rfl⟩⟩
  | flush =>
    exact ⟨busWrite .fifoLevelReg [s.params.mask.fifoFlush] s, ⟨rfl, rfl, rfl, rfl, rfl, rfl, rfl⟩, rfl,
      ⟨_, rfl, rfl⟩, rfl, rfl, .inr (.inl ⟨.flushed, by simp, by simp, rfl⟩)⟩
  | load =>
    exact ⟨busWrite .fifoDataReg c.tx s, ⟨rfl, rfl, rfl, rfl, rfl, rfl, rfl⟩, rfl, ⟨_, rfl, rfl⟩, rfl, rfl,
      .inl ⟨.framing, by simp, rfl⟩⟩
  | framing =>
    exact ⟨busWrite .bitFramingReg [bitFraming c.rxAlign c.txLastBits] s, ⟨rfl, rfl, rfl, rfl, rfl, rfl, rfl⟩, rfl,
      ⟨_, rfl, rfl⟩, rfl, rfl, .inl ⟨.command, by simp, rfl⟩⟩
  | command =>
    exact ⟨busWrite .commandReg [c.cmd] s, ⟨rfl, rfl, rfl, rfl, rfl, rfl, rfl⟩, rfl, ⟨_, rfl, rfl⟩, rfl, rfl,
      .inr (.inl ⟨.sent, by simp, by simp, rfl⟩)⟩
  | kickRead =>
    exact ⟨busRead .bitFramingReg s, ⟨rfl, rfl, rfl, rfl, rfl, rfl, rfl⟩, rfl, ⟨_, rfl, rfl⟩, rfl, rfl,
      .inl ⟨.kickWrite (nextByte s), by simp, rfl⟩⟩
  | kickWrite v =>
    exact ⟨busWrite .bitFramingReg [v ||| s.params.mask.startSend] s, ⟨rfl, rfl, rfl, rfl, rfl, rfl, rfl⟩, rfl,
      ⟨_, rfl, rfl⟩, rfl, rfl, .inr (.inl ⟨.kicked, by simp, by simp, rfl⟩)⟩
  | poll =>
    exact ⟨(busRead .comIrqReg s).withComm { s.comm with irqPoll := s.comm.irqPoll + 1 },
      ⟨rfl, rfl, rfl, rfl, rfl, rfl, rfl⟩, rfl, ⟨_, rfl, rfl⟩, rfl, rfl,
      .inr (.inl ⟨.polled (nextByte s), by simp, by simp, rfl⟩)⟩
  | readError =>
    exact ⟨(busRead .errorReg s).withComm { s.comm with err := nextByte s },
      ⟨rfl, rfl, rfl, rfl, rfl, rfl, rfl⟩, rfl, ⟨_, rfl, rfl⟩, rfl, rfl,
      .inr (.inl ⟨.gotError, by simp, by simp, rfl⟩)⟩
  | readLevel =>
    exact ⟨busRead .fifoLevelReg s, ⟨rfl, rfl, rfl, rfl, rfl, rfl, rfl⟩, rfl, ⟨_, rfl, rfl⟩, rfl, rfl,
      .inr (.inl ⟨.gotLevel (nextByte s), by simp, by simp, rfl⟩)⟩
  | readData =>
    exact ⟨busReadN .fifoDataReg s.comm.cn s, ⟨rfl, rfl, rfl, rfl, rfl, rfl, rfl⟩, rfl, ⟨_, rfl, rfl⟩, rfl, rfl,
      .inl ⟨.readControl (mergeFirst (c.rxAlign % 8) (destRead c.dest c.off s) (s.env.peek s.comm.cn)), by simp, rfl⟩⟩
  | readControl d =>
    exact ⟨(busRead .controlReg s).withComm { s.comm with cvb := lastBits s.params (nextByte s) },
      ⟨rfl, rfl, rfl, rfl, rfl, rfl, rfl⟩, rfl, ⟨_, rfl, rfl⟩, rfl, rfl, .inr (.inr ⟨d, rfl, rfl⟩)⟩

/-- What a Communicate position needs of the pure computation before it, `u` being the state after that. -/
def commPosFrom (c : CommCall) (u : State) : CommPos → Prop
  | .load => c.tx ≠ []
  | .poll => u.comm.irqPoll ≠ u.params.irqPollBudget
  | .readLevel => 0 < c.cap
  | .readData => 0 < u.comm.cn ∧ u.comm.cn ≤ c.cap
  | .readControl d => d = [] ∧ u.comm.cn = 0
  | _ => True

/-- The pure computation of Communicate: the next position, or an early return, or steps 7 to 9 (R142). It changes the
engine's locals at most. -/
theorem commResume_cases (site : CommSite) (ret : CommReturn) (c : CommCall) (k : CommNext) (s : State) :
    ∃ x : CommLocals, (x.irqPoll = s.comm.irqPoll ∨ x.irqPoll = 0) ∧
      (let u := s.withComm x
       (∃ q, commPosFrom c u q ∧ (q = .readData ∨ (∃ d, q = .readControl d) → ∃ v, k = .gotLevel v) ∧
          commResume site ret c k s = u.withSeq (.communicate site c q)) ∨
        commResume site ret c k s = ret .timeout 0 0 u ∨
        (commResume site ret c k s = ret .genericError 0 0 u ∧ k = .gotError) ∨
        (commResume site ret c k s = ret .bufferTooSmall 0 0 u ∧ ∃ v, k = .gotLevel v) ∨
        (commResume site ret c k s = afterReply site ret c u ∧
          (k = .stored ∧ x = s.comm ∨ k = .gotError ∧ c.cap = 0 ∧ x.cn = 0 ∧ x.cvb = 0))) := by
  have head : ∀ x : CommLocals,
      (∃ q, commPosFrom c (s.withComm x) q ∧ (q = .readData ∨ (∃ d, q = .readControl d) → ∃ v, k = .gotLevel v) ∧
          irqPollHead site ret c (s.withComm x) = (s.withComm x).withSeq (.communicate site c q)) ∨
        irqPollHead site ret c (s.withComm x) = ret .timeout 0 0 (s.withComm x) := by
    intro x
    unfold irqPollHead
    split
    · exact .inr rfl
    next h => exact .inl ⟨.poll, h, by simp, rfl⟩
  have keep : s.withComm s.comm = s := rfl
  cases k with
  | flushed =>
    exact ⟨s.comm, .inl rfl, .inl ⟨if c.tx.isEmpty then .framing else .load,
      by cases h : c.tx <;> simp [commPosFrom, h], by cases c.tx <;> simp, rfl⟩⟩
  | sent =>
    by_cases ht : c.cmd = s.params.pcd.transceive
    · exact ⟨s.comm, .inl rfl, .inl ⟨.kickRead, trivial, by simp, by simp [commResume, ht, keep]⟩⟩
    · refine ⟨{ s.comm with irqPoll := 0 }, .inr rfl, ?_⟩
      simp only [commResume, ht, if_false, irqPollEnter]
      rcases head { s.comm with irqPoll := 0 } with h | h
      · exact .inl h
      · exact .inr (.inl h)
  | kicked =>
    refine ⟨{ s.comm with irqPoll := 0 }, .inr rfl, ?_⟩
    rcases head { s.comm with irqPoll := 0 } with h | h
    · exact .inl h
    · exact .inr (.inl h)
  | polled v =>
    refine ⟨s.comm, .inl rfl, ?_⟩
    by_cases ha : awaited c v = true
    · exact .inl ⟨.readError, trivial, by simp, by simp [commResume, ha, keep]⟩
    · by_cases ht : timerExpired s.params v = true
      · exact .inr (.inl (by simp [commResume, ha, ht, keep]))
      · have := head s.comm
        simp only [commResume, ha, ht]
        rcases this with h | h
        · exact .inl h
        · exact .inr (.inl h)
  | gotError =>
    by_cases hf : framingError s.params s.comm.err = true
    · exact ⟨s.comm, .inl rfl, .inr (.inr (.inl ⟨by simp [commResume, hf, keep], rfl⟩))⟩
    · refine ⟨{ s.comm with cn := 0, cvb := 0 }, .inl rfl, ?_⟩
      by_cases hc : 0 < c.cap
      · exact .inl ⟨.readLevel, hc, by simp, by simp [commResume, hf, hc]⟩
      · exact .inr (.inr (.inr (.inr ⟨by simp [commResume, hf, hc], .inr ⟨rfl, by omega, rfl, rfl⟩⟩)))
  | gotLevel v =>
    by_cases hl : c.cap < fifoLevel s.params v
    · exact ⟨s.comm, .inl rfl, .inr (.inr (.inr (.inl ⟨by simp [commResume, hl, keep], v, rfl⟩)))⟩
    · refine ⟨{ s.comm with cn := fifoLevel s.params v }, .inl rfl, ?_⟩
      by_cases h0 : fifoLevel s.params v = 0
      · exact .inl ⟨.readControl [], ⟨rfl, h0⟩, fun _ => ⟨v, rfl⟩, by simp [commResume, h0]⟩
      · exact .inl ⟨.readData, ⟨Nat.pos_of_ne_zero h0, Nat.le_of_not_lt hl⟩, fun _ => ⟨v, rfl⟩,
          by simp [commResume, hl, h0]⟩
  | stored => exact ⟨s.comm, .inl rfl, .inr (.inr (.inr (.inr ⟨rfl, .inl ⟨rfl, rfl⟩⟩)))⟩

end Sys2Proof.Machine
end

