-- ==== Sys2Proof/Laws/PerInstr.lean ====
section
/-! SUPPORT. One lemma per operation, for the host's case split: each operation's word is one byte, of a code that is
not reserved (30_encoding.md R100 to R102). -/

namespace Sys2Proof.Laws.OneByteWord

/-- The operation is well formed, and its word is one byte in the range of the assigned codes. -/
def Statement (i : Instr) : Prop :=
  i.wf = true ∧ (encode i).length = 1 ∧ 0x01 ≤ (opcode i).toNat ∧ (opcode i).toNat ≤ 0x0A

theorem communicate : Statement .communicate := by unfold Statement; decide
theorem select : Statement .select := by unfold Statement; decide
theorem calcCrc : Statement .calcCrc := by unfold Statement; decide
theorem requestOrWakeup : Statement .requestOrWakeup := by unfold Statement; decide
theorem halt : Statement .halt := by unfold Statement; decide
theorem authenticate : Statement .authenticate := by unfold Statement; decide
theorem stopCrypto : Statement .stopCrypto := by unfold Statement; decide
theorem readBlock : Statement .readBlock := by unfold Statement; decide
theorem isNewCardPresent : Statement .isNewCardPresent := by unfold Statement; decide
theorem readCardSerial : Statement .readCardSerial := by unfold Statement; decide

end Sys2Proof.Laws.OneByteWord
end

