-- ==== Sys2Proof/Laws/Step.lean ====
section
/-! SUPPORT. What one step of an operation is at each position, said once for all operations, and what one step of
the block is for each turn. Proofs about `exec` and `step` cite these. -/

namespace Sys2Proof.Machine

open Host (Outcome)

/-! ### An operation at a position -/

/-- What an operation does before its first transaction. -/
def opening (i : Instr) (s : State) : State :=
  match i with
  | .communicate => communicateBegin s
  | .select => selectBegin s.h.knownBits.toNat s
  | .calcCrc => calcCrcBegin s
  | .requestOrWakeup => requestBegin s
  | .halt => haltBegin s
  | .authenticate => authenticateBegin s
  | .stopCrypto => s.withSeq .clearCryptoRead
  | .readBlock => readBlockBegin s
  | .isNewCardPresent => s.withSeq .writeTxMode
  | .readCardSerial => selectBegin 0 s

/-- The caller's code after a Communicate. -/
def commReturn : CommSite → CommReturn
  | .host => communicateReturn
  | .selectRound => selectAfterExchange
  | .request => requestAfterExchange
  | .halt => haltAfterExchange
  | .authenticate => authenticateReturn
  | .readBlock => readBlockReturn

/-- The known-bit count a selection runs with. -/
def knownBitsOf (i : Instr) (h : HostRegs) : Nat := if i = .select then h.knownBits.toNat else 0

/-- The caller's code after a ComputeCrc, of an operation with the host registers `h`. -/
def crcReturn (i : Instr) (h : HostRegs) : CrcSite → Status → State → State
  | .calcCrc => calcCrcReturn
  | .fullFrame => selectAfterFrameCrc
  | .sakCheck => selectAfterSakCrc (knownBitsOf i h) h.uidInSize.toNat
  | .haltFrame => haltAfterCrc
  | .readFrame => readBlockAfterCrc

/-- The result writes of an operation's completion. -/
def resultWrites (i : Instr) (st : Status) (s : State) : HostRegs → HostRegs :=
  match i with
  | .calcCrc => calcCrcResults st s.crc
  | .select => selectResults st s.sel
  | .readCardSerial => serialResults st s.sel
  | .requestOrWakeup => requestResults st
  | .isNewCardPresent => presentResults st
  | .communicate | .halt | .authenticate | .stopCrypto | .readBlock => id

variable {i : Instr} {s : State}

/-- At a position of a Communicate a step of the operation is a step of the engine. -/
theorem exec_communicate {site : CommSite} {c : CommCall} {pos : CommPos} (h : ownsCommSite i site = true)
    (hs : s.seq = .communicate site c pos) : exec i s = .next (commStep site c pos s) := by
  cases site <;> cases i <;> first
    | (simp only [ownsCommSite] at h; contradiction)
    | simp [exec, execCommunicate, execSelect, execReadCardSerial, execRequestOrWakeup, execIsNewCardPresent, execHalt,
        execAuthenticate, execReadBlock, enter, hs, communicateResume, selectResume, requestResume, haltResume,
        authenticateResume, readBlockResume, communicateStep, selectStep, requestStep, presentStep, haltStep,
        authenticateStep, readBlockStep]

/-- At a position of a CRC check a step of the operation is a step of its ComputeCrc. -/
theorem exec_replyCrc {site : CommSite} {c : CommCall} {data : List Byte} {pos : CrcPos}
    (h : ownsCommSite i site = true) (hs : s.seq = .replyCrc site c data pos) :
    exec i s = .next (replyCrcStep site c data pos s) := by
  cases site <;> cases i <;> first
    | (simp only [ownsCommSite] at h; contradiction)
    | simp [exec, execCommunicate, execSelect, execReadCardSerial, execRequestOrWakeup, execIsNewCardPresent, execHalt,
        execAuthenticate, execReadBlock, enter, hs, communicateResume, selectResume, requestResume, haltResume,
        authenticateResume, readBlockResume, communicateStep, selectStep, requestStep, presentStep, haltStep,
        authenticateStep, readBlockStep]

/-- At a position of a ComputeCrc a step of the operation is a step of it. -/
theorem exec_computeCrc {site : CrcSite} {data : List Byte} {pos : CrcPos} (h : ownsCrcSite i site = true)
    (hs : s.seq = .computeCrc site data pos) :
    exec i s = .next (crcStep (.computeCrc site data) (.crcNext site data) data pos s) := by
  cases site <;> cases i <;> first
    | (simp only [ownsCrcSite] at h; contradiction)
    | simp [exec, execCalcCrc, execSelect, execReadCardSerial, execHalt, execReadBlock, enter, hs, selectResume,
        haltResume, readBlockResume, calcCrcResume, calcCrcStep,
        selectStep, haltStep, readBlockStep]

/-- The completion step of an operation. -/
theorem exec_complete {st : Status} (hs : s.seq = .complete st) :
    exec i s = .next (completeWith (resultWrites i st s) st s) := by
  cases i <;>
    simp [exec, execCommunicate, execSelect, execReadCardSerial, execRequestOrWakeup, execIsNewCardPresent, execHalt,
      execAuthenticate, execReadBlock, execCalcCrc, execStopCrypto, enter, hs, communicateResume, selectResume,
      requestResume, haltResume, authenticateResume, readBlockResume, calcCrcResume, communicateStep, selectStep,
      requestStep,
      presentStep, haltStep, authenticateStep, readBlockStep, calcCrcStep, stopCryptoStep, complete, resultWrites]

theorem exec_readColl (h : i = .select ∨ i = .readCardSerial) (hs : s.seq = .readColl) :
    exec i s = .next (collStep s) := by
  rcases h with rfl | rfl <;> simp [exec, execSelect, execReadCardSerial, enter, hs, selectResume, selectStep]

theorem exec_clearCollRead (h : i = .requestOrWakeup ∨ i = .isNewCardPresent) (hs : s.seq = .clearCollRead) :
    exec i s = .next ((busRead .collReg s).withSeq (.clearCollWrite (nextByte s))) := by
  rcases h with rfl | rfl <;>
    simp [exec, execRequestOrWakeup, execIsNewCardPresent, enter, hs, requestResume, requestStep, presentStep]

theorem exec_clearCollWrite {v : Byte} (h : i = .requestOrWakeup ∨ i = .isNewCardPresent)
    (hs : s.seq = .clearCollWrite v) :
    exec i s = .next ((busWrite .collReg [v &&& ~~~s.params.mask.collValuesAfter] s).withSeq .collCleared) := by
  rcases h with rfl | rfl <;>
    simp [exec, execRequestOrWakeup, execIsNewCardPresent, enter, hs, requestResume, requestStep, presentStep]

theorem exec_clearCryptoRead (hs : s.seq = .clearCryptoRead) :
    exec .stopCrypto s = .next ((busRead .status2Reg s).withSeq (.clearCryptoWrite (nextByte s))) := by
  simp [exec, execStopCrypto, enter, hs, stopCryptoStep]

theorem exec_clearCryptoWrite {v : Byte} (hs : s.seq = .clearCryptoWrite v) :
    exec .stopCrypto s =
      .next (finish .ok (busWrite .status2Reg [v &&& ~~~s.params.mask.crypto1On] s)) := by
  simp [exec, execStopCrypto, enter, hs, stopCryptoStep]

theorem exec_writeTxMode (hs : s.seq = .writeTxMode) :
    exec .isNewCardPresent s = .next ((busWrite .txModeReg [0x00] s).withSeq .writeRxMode) := by
  simp [exec, execIsNewCardPresent, enter, hs, requestResume, presentStep]

theorem exec_writeRxMode (hs : s.seq = .writeRxMode) :
    exec .isNewCardPresent s = .next ((busWrite .rxModeReg [0x00] s).withSeq .writeModWidth) := by
  simp [exec, execIsNewCardPresent, enter, hs, requestResume, presentStep]

theorem exec_writeModWidth (hs : s.seq = .writeModWidth) :
    exec .isNewCardPresent s =
      .next (requestBegin (busWrite .modWidthReg [s.params.modWidthValue] s)) := by
  simp [exec, execIsNewCardPresent, enter, hs, requestResume, presentStep]

/-- At a position of another operation an operation stops. -/
theorem exec_stray (h : owns i s.seq = false) : exec i s = .fault .strayPosition := by
  cases hs : s.seq <;> rw [hs] at h
  case computeCrc site data pos =>
    cases site <;> cases i <;> first
      | (simp [owns, ownsCrcSite] at h; done)
      | simp [exec, execCommunicate, execSelect, execReadCardSerial, execRequestOrWakeup, execIsNewCardPresent,
          execHalt, execAuthenticate, execReadBlock, execCalcCrc, execStopCrypto, enter, hs, communicateResume,
          selectResume, requestResume, haltResume, authenticateResume, readBlockResume, calcCrcResume,
          communicateStep,
          selectStep, requestStep, presentStep, haltStep, authenticateStep, readBlockStep, calcCrcStep,
          stopCryptoStep]
  case communicate site c pos =>
    cases site <;> cases i <;> first
      | (simp [owns, ownsCommSite] at h; done)
      | simp [exec, execCommunicate, execSelect, execReadCardSerial, execRequestOrWakeup, execIsNewCardPresent,
          execHalt, execAuthenticate, execReadBlock, execCalcCrc, execStopCrypto, enter, hs, communicateResume,
          selectResume, requestResume, haltResume, authenticateResume, readBlockResume, calcCrcResume,
          communicateStep,
          selectStep, requestStep, presentStep, haltStep, authenticateStep, readBlockStep, calcCrcStep,
          stopCryptoStep]
  case replyCrc site c data pos =>
    cases site <;> cases i <;> first
      | (simp [owns, ownsCommSite] at h; done)
      | simp [exec, execCommunicate, execSelect, execReadCardSerial, execRequestOrWakeup, execIsNewCardPresent,
          execHalt, execAuthenticate, execReadBlock, execCalcCrc, execStopCrypto, enter, hs, communicateResume,
          selectResume, requestResume, haltResume, authenticateResume, readBlockResume, calcCrcResume,
          communicateStep,
          selectStep, requestStep, presentStep, haltStep, authenticateStep, readBlockStep, calcCrcStep,
          stopCryptoStep]
  case crcNext site data k =>
    cases site <;> cases i <;> first
      | (simp [owns, ownsCrcSite] at h; done)
      | simp [exec, execCommunicate, execSelect, execReadCardSerial, execRequestOrWakeup, execIsNewCardPresent,
          execHalt, execAuthenticate, execReadBlock, execCalcCrc, execStopCrypto, enter, hs, communicateResume,
          selectResume, requestResume, haltResume, authenticateResume, readBlockResume, calcCrcResume,
          communicateStep,
          selectStep, requestStep, presentStep, haltStep, authenticateStep, readBlockStep, calcCrcStep,
          stopCryptoStep]
  case commNext site c k =>
    cases site <;> cases i <;> first
      | (simp [owns, ownsCommSite] at h; done)
      | simp [exec, execCommunicate, execSelect, execReadCardSerial, execRequestOrWakeup, execIsNewCardPresent,
          execHalt, execAuthenticate, execReadBlock, execCalcCrc, execStopCrypto, enter, hs, communicateResume,
          selectResume, requestResume, haltResume, authenticateResume, readBlockResume, calcCrcResume,
          communicateStep,
          selectStep, requestStep, presentStep, haltStep, authenticateStep, readBlockStep, calcCrcStep,
          stopCryptoStep]
  case replyCrcNext site c data k =>
    cases site <;> cases i <;> first
      | (simp [owns, ownsCommSite] at h; done)
      | simp [exec, execCommunicate, execSelect, execReadCardSerial, execRequestOrWakeup, execIsNewCardPresent,
          execHalt, execAuthenticate, execReadBlock, execCalcCrc, execStopCrypto, enter, hs, communicateResume,
          selectResume, requestResume, haltResume, authenticateResume, readBlockResume, calcCrcResume,
          communicateStep,
          selectStep, requestStep, presentStep, haltStep, authenticateStep, readBlockStep, calcCrcStep,
          stopCryptoStep]
  all_goals
    cases i <;> first
      | (simp [owns] at h; done)
      | simp [exec, execCommunicate, execSelect, execReadCardSerial, execRequestOrWakeup, execIsNewCardPresent,
          execHalt, execAuthenticate, execReadBlock, execCalcCrc, execStopCrypto, enter, hs, communicateResume,
          selectResume, requestResume, haltResume, authenticateResume, readBlockResume, calcCrcResume,
          communicateStep,
          selectStep, requestStep, presentStep, haltStep, authenticateStep, readBlockStep, calcCrcStep,
          stopCryptoStep]

/-! ### Openings -/

/-- A round of a selection stands at the full-level frame's CRC when 32 bits are known, else at the exchange of the
anti-collision frame (R177). -/
theorem selectRound_full {s : State} (h : 32 ≤ s.sel.lk) :
    selectRound s =
      (s.withSel { s.sel with frame := fullFrame s.params s.sel.frame }).withSeq
        (.computeCrc .fullFrame (Buf.slice (fullFrame s.params s.sel.frame) 0 7) .idle) := by
  simp [selectRound, h, callCrc]

theorem selectRound_partial {s : State} (h : s.sel.lk < 32) :
    selectRound s =
      (s.withSel { partialFrame s.sel with rxAlign := s.sel.lk % 8 }).withSeq
        (.communicate .selectRound (selectCall s.params { partialFrame s.sel with rxAlign := s.sel.lk % 8 }) .idle) := by
  have : ¬ 32 ≤ s.sel.lk := by omega
  simp [selectRound, this, selectExchange, callCommunicate, partialFrame]

/-- What an opening leaves alone. -/
structure Opened (s u : State) : Prop where
  params : u.params = s.params
  h : u.h = s.h
  op : u.op = s.op
  comm : u.comm = s.comm
  crc : u.crc = s.crc
  env : u.env = s.env
  bus : u.bus = s.bus
  foreign : u.foreign = s.foreign
  reads : u.reads = s.reads
  agenda : u.agenda = s.agenda

theorem selectRound_opened (s : State) : Opened s (selectRound s) := by
  rcases Nat.lt_or_ge s.sel.lk 32 with h | h
  · rw [selectRound_partial h]; exact ⟨rfl, rfl, rfl, rfl, rfl, rfl, rfl, rfl, rfl, rfl⟩
  · rw [selectRound_full h]; exact ⟨rfl, rfl, rfl, rfl, rfl, rfl, rfl, rfl, rfl, rfl⟩

/-- What every exchange of the resolver asks for (R182). -/
structure SelectShape (c : CommCall) : Prop where
  dest : c.dest = .frame
  checkCrc : c.checkCrc = false
  fits : c.off + c.cap ≤ 9
  cap : 0 < c.cap

/-- Where a round starts: the CRC of the full-level frame, or the exchange. -/
def RoundSeq (q : Seq) : Prop :=
  (∃ data, q = .computeCrc .fullFrame data .idle) ∨ ∃ c, q = .communicate .selectRound c .idle ∧ SelectShape c

theorem selectRound_seq (s : State) : RoundSeq (selectRound s).seq := by
  rcases Nat.lt_or_ge s.sel.lk 32 with h | h
  · rw [selectRound_partial h]
    refine .inr ⟨_, rfl, rfl, rfl, ?_, ?_⟩ <;> simp only [selectCall, partialFrame, wholeBytes] <;> omega
  · rw [selectRound_full h]; exact .inl ⟨_, rfl⟩

/-- A round keeps the cascade level. -/
theorem selectRound_level (s : State) : (selectRound s).sel.level = s.sel.level := by
  rcases Nat.lt_or_ge s.sel.lk 32 with h | h
  · rw [selectRound_partial h]; rfl
  · rw [selectRound_full h]; rfl

theorem selectLevel_opened (k decl : Nat) (s : State) : Opened s (selectLevel k decl s) := by
  obtain ⟨a, b, c, d, e, f, g, h, i, j⟩ := selectRound_opened (s.withSel (levelStart s.params k decl s.sel))
  exact ⟨a, b, c, d, e, f, g, h, i, j⟩

theorem Opened.trans {s u v : State} (a : Opened s u) (b : Opened u v) : Opened s v :=
  ⟨b.params.trans a.params, b.h.trans a.h, b.op.trans a.op, b.comm.trans a.comm, b.crc.trans a.crc, b.env.trans a.env,
    b.bus.trans a.bus, b.foreign.trans a.foreign, b.reads.trans a.reads, b.agenda.trans a.agenda⟩

theorem opened_withSeq (s : State) (q : Seq) : Opened s (s.withSeq q) :=
  ⟨rfl, rfl, rfl, rfl, rfl, rfl, rfl, rfl, rfl, rfl⟩

theorem opened_withSel (s : State) (x : SelectState) : Opened s (s.withSel x) :=
  ⟨rfl, rfl, rfl, rfl, rfl, rfl, rfl, rfl, rfl, rfl⟩

/-- An opening changes only the resolver and the position. -/
theorem opening_opened (i : Instr) (s : State) : Opened s (opening i s) := by
  have sel : ∀ k, Opened s (selectBegin k s) := by
    intro k
    unfold selectBegin
    split
    · obtain ⟨a, b, c, d, e, f, g, h, i, j⟩ :=
        selectLevel_opened k s.h.uidInSize.toNat (s.withSel (selectInit s.h.uidIn s.sel))
      exact ⟨a, b, c, d, e, f, g, h, i, j⟩
    · exact ⟨rfl, rfl, rfl, rfl, rfl, rfl, rfl, rfl, rfl, rfl⟩
  have ite : ∀ (c : Prop) [Decidable c] (x y : State), Opened s x → Opened s y → Opened s (if c then x else y) := by
    intro c _ x y hx hy; split <;> assumption
  have q : ∀ q, Opened s (s.withSeq q) := fun q => ⟨rfl, rfl, rfl, rfl, rfl, rfl, rfl, rfl, rfl, rfl⟩
  cases i with
  | communicate => exact ite _ _ _ (q _) (q _)
  | select => exact sel _
  | calcCrc => exact ite _ _ _ (q _) (q _)
  | requestOrWakeup => exact q _
  | halt => exact q _
  | authenticate => exact ite _ _ _ (q _) (q _)
  | stopCrypto => exact q _
  | readBlock => exact ite _ _ _ (q _) (ite _ _ _ (q _) (q _))
  | isNewCardPresent => exact q _
  | readCardSerial => exact sel _

/-- Where an opening stands: at a failed check's completion, or at the operation's first transaction. -/
def openedAt (i : Instr) (s : State) : Seq → Prop
  | .complete st =>
    (st = .invalidArgument ∧ (i = .communicate ∨ i = .calcCrc ∨ i = .select ∨ i = .authenticate ∨ i = .readBlock)) ∨
      (st = .bufferTooSmall ∧ i = .readBlock)
  | .communicate .host c .idle => i = .communicate ∧ c = hostCall s.h ∧ communicateArgs s.params s.h = true
  | .computeCrc .calcCrc data .idle => i = .calcCrc ∧ data = txBytes s.h
  | .computeCrc .haltFrame data .idle => i = .halt ∧ data = hltaBody s.params
  | .computeCrc .readFrame data .idle =>
    i = .readBlock ∧ data = readBody s.params s.h ∧ s.h.rxCap.toNat ≤ s.params.rxbufSize
  | .communicate .authenticate c .idle => i = .authenticate ∧ c = authenticateCall s.params s.h
  | .computeCrc .fullFrame _ .idle => i = .select ∨ i = .readCardSerial
  | .communicate .selectRound c .idle => (i = .select ∨ i = .readCardSerial) ∧ SelectShape c
  | .clearCollRead => i = .requestOrWakeup
  | .clearCryptoRead => i = .stopCrypto
  | .writeTxMode => i = .isNewCardPresent
  | _ => False

theorem opening_seq (i : Instr) (s : State) : openedAt i s (opening i s).seq := by
  have sel : ∀ k, i = .select ∨ i = .readCardSerial → (i = .readCardSerial → selectArgs k = true) →
      openedAt i s (selectBegin k s).seq := by
    intro k hi hk
    unfold selectBegin
    split
    · rcases selectRound_seq ((s.withSel (selectInit s.h.uidIn s.sel)).withSel
        (levelStart s.params k s.h.uidInSize.toNat (selectInit s.h.uidIn s.sel))) with ⟨d, h⟩ | ⟨c, h, hc⟩
      · show openedAt i s (selectRound _).seq
        erw [h]
        exact hi
      · show openedAt i s (selectRound _).seq
        erw [h]
        exact ⟨hi, hc⟩
    next h => exact .inl ⟨rfl, by rcases hi with rfl | rfl <;> simp_all⟩
  cases i with
  | communicate =>
    change openedAt _ s (communicateBegin s).seq
    unfold communicateBegin; split
    next h => exact ⟨rfl, rfl, h⟩
    next => exact .inl ⟨rfl, by simp⟩
  | select => exact sel _ (by simp) (by simp)
  | calcCrc =>
    change openedAt _ s (calcCrcBegin s).seq
    unfold calcCrcBegin; split
    next h => exact ⟨rfl, rfl⟩
    next => exact .inl ⟨rfl, by simp⟩
  | requestOrWakeup => exact rfl
  | halt => exact ⟨rfl, rfl⟩
  | authenticate =>
    change openedAt _ s (authenticateBegin s).seq
    unfold authenticateBegin; split
    next h => exact ⟨rfl, rfl⟩
    next => exact .inl ⟨rfl, by simp⟩
  | stopCrypto => exact rfl
  | readBlock =>
    change openedAt _ s (readBlockBegin s).seq
    unfold readBlockBegin; split
    · exact .inr ⟨rfl, rfl⟩
    · split
      · exact .inl ⟨rfl, by simp⟩
      next h => exact ⟨rfl, rfl, by omega⟩
  | isNewCardPresent => exact rfl
  | readCardSerial => exact sel _ (by simp) (by simp [selectArgs])

/-- An opening stands at a position of its operation. -/
theorem opening_owns (i : Instr) (s : State) : owns i (opening i s).seq = true := by
  have h := opening_seq i s
  generalize (opening i s).seq = q at h
  cases q with
  | idle | start | complete => rfl
  | computeCrc site d p => cases site <;> cases p <;> simp_all [openedAt, owns, ownsCrcSite]
  | communicate site c p => cases site <;> cases p <;> simp_all [openedAt, owns, ownsCommSite]
  | crcNext | commNext | replyCrc | replyCrcNext | readColl | gotColl | clearCollWrite | collCleared | clearCryptoWrite
  | writeRxMode | writeModWidth => exact h.elim
  | clearCollRead | clearCryptoRead | writeTxMode => simp_all [openedAt, owns]

/-- An opening of a selection stands at the first level (R172). -/
theorem selectBegin_level (k : Nat) (s : State) (h : selectArgs k = true) : (selectBegin k s).sel.level = 1 := by
  unfold selectBegin
  rw [if_pos h]
  exact selectRound_level _

/-! ### The resolver's code between transactions -/

/-- After the exchange of a round (R183 to R186, R191). -/
theorem selectAfterExchange_cases (st : Status) (n vb : Nat) (u : State) :
    Opened u (selectAfterExchange st n vb u) ∧
      (selectAfterExchange st n vb u).sel.level = u.sel.level ∧
      (st = .collision ∧ (selectAfterExchange st n vb u).seq = .readColl ∨
        st ≠ .collision ∧ st ≠ .ok ∧ (selectAfterExchange st n vb u).seq = .complete st ∨
        st = .ok ∧
          ((selectAfterExchange st n vb u).seq = .complete .genericError ∨
            (∃ d, (selectAfterExchange st n vb u).seq = .computeCrc .sakCheck d .idle) ∨
            ∃ d, (selectAfterExchange st n vb u).seq = .computeCrc .fullFrame d .idle)) := by
  unfold selectAfterExchange
  simp only
  split
  next h => exact ⟨(opened_withSel _ _).trans (opened_withSeq _ _), rfl, .inl ⟨h, rfl⟩⟩
  next h =>
    split
    next h' => exact ⟨(opened_withSel _ _).trans (opened_withSeq _ _), rfl, .inr (.inl ⟨h, h', rfl⟩)⟩
    next h' =>
      have h' : st = .ok := by simpa using h'
      split
      · unfold levelResolved
        simp only
        split
        · exact ⟨(opened_withSel _ _).trans ((opened_withSel _ _).trans (opened_withSeq _ _)), rfl,
            .inr (.inr ⟨h', .inl rfl⟩)⟩
        · exact ⟨(opened_withSel _ _).trans ((opened_withSel _ _).trans (opened_withSeq _ _)), rfl,
            .inr (.inr ⟨h', .inr (.inl ⟨_, rfl⟩)⟩)⟩
      · rw [selectRound_full (by exact Nat.le_refl 32)]
        exact ⟨(opened_withSel _ _).trans ((opened_withSel _ _).trans ((opened_withSel _ _).trans (opened_withSeq _ _))),
          rfl, .inr (.inr ⟨h', .inr (.inr ⟨_, rfl⟩)⟩)⟩

/-- After the CRC of the full-level frame (R178, R179). -/
theorem selectAfterFrameCrc_cases (cs : Status) (u : State) :
    Opened u (selectAfterFrameCrc cs u) ∧ (selectAfterFrameCrc cs u).sel.level = u.sel.level ∧
      (cs ≠ .ok ∧ (selectAfterFrameCrc cs u).seq = .complete cs ∨
        cs = .ok ∧ ∃ c, (selectAfterFrameCrc cs u).seq = .communicate .selectRound c .idle ∧ SelectShape c) := by
  unfold selectAfterFrameCrc
  split
  next h => exact ⟨opened_withSeq _ _, rfl, .inl ⟨h, rfl⟩⟩
  next h =>
    exact ⟨(opened_withSel _ _).trans ((opened_withSel _ _).trans (opened_withSeq _ _)), rfl,
      .inr ⟨by simpa using h, _, rfl, rfl, rfl, Nat.le_refl 9, Nat.succ_pos 2⟩⟩

/-- After the CRC of the SAK (R192, R195). -/
theorem selectAfterSakCrc_cases (k decl : Nat) (cs : Status) (u : State) :
    Opened u (selectAfterSakCrc k decl cs u) ∧
      (cs ≠ .ok ∧ selectAfterSakCrc k decl cs u = u.withSeq (.complete cs) ∨
        cs = .ok ∧
          (selectAfterSakCrc k decl cs u = u.withSeq (.complete .crcMismatch) ∨
            uidIncomplete (Buf.get u.sel.frame 6) = false ∧
              selectAfterSakCrc k decl cs u = u.withSeq (.complete .ok) ∨
            u.sel.level = 3 ∧ selectAfterSakCrc k decl cs u = u.withSeq (.complete .internalError) ∨
            u.sel.level ≠ 3 ∧ (selectAfterSakCrc k decl cs u).sel.level = u.sel.level + 1 ∧
              RoundSeq (selectAfterSakCrc k decl cs u).seq)) := by
  unfold selectAfterSakCrc
  split
  next h => exact ⟨opened_withSeq _ _, .inl ⟨h, rfl⟩⟩
  next h =>
    have h : cs = .ok := by simpa using h
    split
    · exact ⟨opened_withSeq _ _, .inr ⟨h, .inl rfl⟩⟩
    · split
      next hs =>
        split
        next hl => exact ⟨opened_withSeq _ _, .inr ⟨h, .inr (.inr (.inl ⟨hl, rfl⟩))⟩⟩
        next hl =>
          exact ⟨(opened_withSel _ _).trans (selectLevel_opened _ _ _),
            .inr ⟨h, .inr (.inr (.inr ⟨hl, selectRound_level _, selectRound_seq _⟩))⟩⟩
      next hs => exact ⟨opened_withSeq _ _, .inr ⟨h, .inr (.inl ⟨by simpa using hs, rfl⟩)⟩⟩

/-- What follows the CollReg read (R187 to R190). -/
theorem collResume_cases (v : Byte) (s : State) :
    Opened s (collResume v s) ∧ (collResume v s).sel.level = s.sel.level ∧
      ((collResume v s).seq = .complete .collision ∨ (collResume v s).seq = .complete .internalError ∨
        RoundSeq (collResume v s).seq) := by
  unfold collResume
  split
  · exact ⟨opened_withSeq _ _, rfl, .inl rfl⟩
  · simp only
    split
    · exact ⟨opened_withSeq _ _, rfl, .inr (.inl rfl)⟩
    · exact ⟨(opened_withSel _ _).trans (selectRound_opened _), selectRound_level _, .inr (.inr (selectRound_seq _))⟩

/-! ### The pure computation before a step -/

/-- What an operation computes before its next primitive or its completion (R11). -/
def resume (i : Instr) (s : State) : State :=
  match s.seq with
  | .start => opening i s
  | .crcNext site data k => crcResume (.computeCrc site data) (crcReturn i s.h site) data k s
  | .commNext site c k => commResume site (commReturn site) c k s
  | .replyCrcNext site c data k => replyCrcResume site (commReturn site) c data k s
  | .collCleared =>
    callCommunicate .request
      (transceiveCall s.params (requestFrame s.params (i = .requestOrWakeup ∧ s.h.isWakeup)) 7 false
        s.params.reqReplyCap) s
  | .gotColl v => collResume v s
  | _ => s

/-- A position that names a primitive or the completion step, with no pure computation before it. -/
def Seq.atPrimitive : Seq → Bool
  | .idle | .start | .crcNext .. | .commNext .. | .replyCrcNext .. | .gotColl _ | .collCleared => false
  | .computeCrc .. | .communicate .. | .replyCrc .. | .readColl | .clearCollRead | .clearCollWrite _ | .clearCryptoRead
  | .clearCryptoWrite _ | .writeTxMode | .writeRxMode | .writeModWidth | .complete _ => true

/-- At such a position nothing is computed before the step. -/
theorem resume_atPrimitive (h : s.seq.atPrimitive = true) : resume i s = s := by
  unfold resume
  split <;> first | rfl | (rename_i hs; rw [hs] at h; cases h)

/-- Pure computation issues no transaction, draws nothing and writes no host register. -/
structure Computed (s u : State) : Prop where
  params : u.params = s.params
  h : u.h = s.h
  op : u.op = s.op
  env : u.env = s.env
  bus : u.bus = s.bus
  foreign : u.foreign = s.foreign
  reads : u.reads = s.reads
  agenda : u.agenda = s.agenda

theorem Computed.refl (s : State) : Computed s s := ⟨rfl, rfl, rfl, rfl, rfl, rfl, rfl, rfl⟩

theorem Opened.computed {s u : State} (o : Opened s u) : Computed s u :=
  ⟨o.params, o.h, o.op, o.env, o.bus, o.foreign, o.reads, o.agenda⟩

theorem computed_withComm (s : State) (x : CommLocals) : Computed s (s.withComm x) :=
  ⟨rfl, rfl, rfl, rfl, rfl, rfl, rfl, rfl⟩

theorem computed_withCrc (s : State) (x : CrcLocals) : Computed s (s.withCrc x) :=
  ⟨rfl, rfl, rfl, rfl, rfl, rfl, rfl, rfl⟩

theorem Computed.trans {s u v : State} (a : Computed s u) (b : Computed u v) : Computed s v :=
  ⟨b.params.trans a.params, b.h.trans a.h, b.op.trans a.op, b.env.trans a.env, b.bus.trans a.bus,
    b.foreign.trans a.foreign, b.reads.trans a.reads, b.agenda.trans a.agenda⟩

/-- Pure computation that ends at a primitive or the completion of the operation `i`. -/
def Reaches (i : Instr) (s u : State) : Prop := Computed s u ∧ u.seq.atPrimitive = true ∧ owns i u.seq = true

theorem Reaches.of_computed {s u v : State} (a : Computed s u) (b : Reaches i u v) : Reaches i s v :=
  ⟨a.trans b.1, b.2⟩

theorem reaches_withSeq (s : State) (q : Seq) (h : q.atPrimitive = true) (ho : owns i q = true) :
    Reaches i s (s.withSeq q) := ⟨(opened_withSeq s q).computed, h, ho⟩

theorem RoundSeq.reaches {q : Seq} (hi : i = .select ∨ i = .readCardSerial) (h : RoundSeq q) :
    q.atPrimitive = true ∧ owns i q = true := by
  rcases h with ⟨d, rfl⟩ | ⟨c, rfl, -⟩ <;> rcases hi with rfl | rfl <;> exact ⟨rfl, rfl⟩

/-- The caller of a Communicate goes on to a primitive or the completion. -/
theorem commReturn_reaches {site : CommSite} (h : ownsCommSite i site = true) (st : Status) (n vb : Nat) (s : State) :
    Reaches i s (commReturn site st n vb s) := by
  have fin : ∀ st, Reaches i s (s.withSeq (.complete st)) := fun st => reaches_withSeq s _ rfl rfl
  cases site with
  | host => exact fin _
  | selectRound =>
    have hi : i = .select ∨ i = .readCardSerial := by simpa [ownsCommSite] using h
    obtain ⟨ho, -, hq⟩ := selectAfterExchange_cases st n vb s
    refine ⟨ho.computed, ?_⟩
    show Seq.atPrimitive (selectAfterExchange st n vb s).seq = true ∧ owns i (selectAfterExchange st n vb s).seq = true
    rcases hq with ⟨-, e⟩ | ⟨-, -, e⟩ | ⟨-, e | ⟨d, e⟩ | ⟨d, e⟩⟩ <;> rw [e] <;> rcases hi with rfl | rfl <;>
      exact ⟨rfl, rfl⟩
  | request =>
    show Reaches i s (requestAfterExchange st n vb s)
    unfold requestAfterExchange finish
    split
    · exact fin _
    · split <;> exact fin _
  | halt => exact fin _
  | authenticate => exact fin _
  | readBlock => exact fin _

/-- The caller of a ComputeCrc goes on to a primitive or the completion. -/
theorem crcReturn_reaches {site : CrcSite} (h : ownsCrcSite i site = true) (x : HostRegs) (st : Status) (s : State) :
    Reaches i s (crcReturn i x site st s) := by
  have fin : ∀ st, Reaches i s (s.withSeq (.complete st)) := fun st => reaches_withSeq s _ rfl rfl
  cases site with
  | calcCrc => exact fin _
  | fullFrame =>
    have hi : i = .select ∨ i = .readCardSerial := by simpa [ownsCrcSite] using h
    obtain ⟨ho, -, hq⟩ := selectAfterFrameCrc_cases st s
    refine ⟨ho.computed, ?_⟩
    show Seq.atPrimitive (selectAfterFrameCrc st s).seq = true ∧ owns i (selectAfterFrameCrc st s).seq = true
    rcases hq with ⟨-, e⟩ | ⟨-, c, e, -⟩ <;> rw [e] <;> rcases hi with rfl | rfl <;> exact ⟨rfl, rfl⟩
  | sakCheck =>
    have hi : i = .select ∨ i = .readCardSerial := by simpa [ownsCrcSite] using h
    obtain ⟨ho, hq⟩ := selectAfterSakCrc_cases (knownBitsOf i x) x.uidInSize.toNat st s
    show Reaches i s (selectAfterSakCrc (knownBitsOf i x) x.uidInSize.toNat st s)
    rcases hq with ⟨-, e⟩ | ⟨-, e | ⟨-, e⟩ | ⟨-, e⟩ | ⟨-, -, e⟩⟩
    · rw [e]; exact fin _
    · rw [e]; exact fin _
    · rw [e]; exact fin _
    · rw [e]; exact fin _
    · exact ⟨ho.computed, e.reaches hi⟩
  | haltFrame =>
    show Reaches i s (haltAfterCrc st s)
    unfold haltAfterCrc finish
    split
    · exact fin _
    · exact reaches_withSeq s _ rfl (by simpa [ownsCrcSite, ownsCommSite, owns] using h)
  | readFrame =>
    show Reaches i s (readBlockAfterCrc st s)
    unfold readBlockAfterCrc finish
    split
    · exact fin _
    · exact reaches_withSeq s _ rfl (by simpa [ownsCrcSite, ownsCommSite, owns] using h)

/-- Steps 7 to 9 of a Communicate go on to a primitive or the completion. -/
theorem afterReply_reaches {site : CommSite} (h : ownsCommSite i site = true) (c : CommCall) (s : State) :
    Reaches i s (afterReply site (commReturn site) c s) := by
  rcases afterReply_cases site (commReturn site) c s with e | ⟨-, e⟩ | ⟨-, e | e | ⟨-, -, e⟩⟩ <;> rw [e]
  · exact commReturn_reaches h _ _ _ _
  · exact commReturn_reaches h _ _ _ _
  · exact commReturn_reaches h _ _ _ _
  · exact commReturn_reaches h _ _ _ _
  · exact reaches_withSeq s _ rfl h

/-- The pure computation of an operation ends at a primitive or the completion of that operation, and it shows in no
transaction, draw or host register. -/
theorem resume_reaches (h : owns i s.seq = true) (hs : s.seq ≠ .idle) : Reaches i s (resume i s) := by
  unfold resume
  split
  next hq =>
    refine ⟨(opening_opened i s).computed, ?_, opening_owns i s⟩
    have := opening_seq i s
    generalize (opening i s).seq = q at this
    cases q <;> first | rfl | exact this.elim
  next site data k hq =>
    rw [hq] at h
    obtain ⟨n, -, ⟨q, -, -, e⟩ | ⟨-, e⟩ | ⟨-, e⟩⟩ :=
      crcResume_cases (.computeCrc site data) (crcReturn i s.h site) data k s <;> rw [e]
    · exact .of_computed (computed_withCrc s _) (reaches_withSeq _ _ rfl h)
    · exact .of_computed (computed_withCrc s _) (crcReturn_reaches h _ _ _)
    · exact .of_computed (computed_withCrc s _) (crcReturn_reaches h _ _ _)
  next site c k hq =>
    rw [hq] at h
    obtain ⟨x, -, ⟨q, -, -, e⟩ | e | ⟨e, -⟩ | ⟨e, -⟩ | ⟨e, -⟩⟩ := commResume_cases site (commReturn site) c k s <;> rw [e]
    · exact .of_computed (computed_withComm s x) (reaches_withSeq _ _ rfl h)
    · exact .of_computed (computed_withComm s x) (commReturn_reaches h _ _ _ _)
    · exact .of_computed (computed_withComm s x) (commReturn_reaches h _ _ _ _)
    · exact .of_computed (computed_withComm s x) (commReturn_reaches h _ _ _ _)
    · exact .of_computed (computed_withComm s x) (afterReply_reaches h _ _)
  next site c data k hq =>
    rw [hq] at h
    have ret : ∀ st u, Reaches i u (afterReplyCrc (commReturn site) c st u) := by
      intro st u
      obtain ⟨st', e, -⟩ := afterReplyCrc_cases (commReturn site) c st u
      rw [e]
      exact commReturn_reaches h _ _ _ _
    unfold replyCrcResume
    obtain ⟨n, -, ⟨q, -, -, e⟩ | ⟨-, e⟩ | ⟨-, e⟩⟩ :=
      crcResume_cases (.replyCrc site c data) (afterReplyCrc (commReturn site) c) data k s <;> rw [e]
    · exact .of_computed (computed_withCrc s _) (reaches_withSeq _ _ rfl h)
    · exact .of_computed (computed_withCrc s _) (ret _ _)
    · exact .of_computed (computed_withCrc s _) (ret _ _)
  next hq =>
    rw [hq] at h
    exact reaches_withSeq s _ rfl h
  next v hq =>
    rw [hq] at h
    have hi : i = .select ∨ i = .readCardSerial := by simpa [owns] using h
    obtain ⟨ho, -, hr⟩ := collResume_cases v s
    refine ⟨ho.computed, ?_⟩
    rcases hr with e | e | e
    · rw [e]; exact ⟨rfl, rfl⟩
    · rw [e]; exact ⟨rfl, rfl⟩
    · exact e.reaches hi
  next n1 n2 n3 n4 n5 n6 =>
    refine ⟨.refl s, ?_, h⟩
    cases hq : s.seq <;> first
      | rfl | exact absurd hq hs | exact absurd hq n1 | exact absurd hq (n2 _ _ _) | exact absurd hq (n3 _ _ _)
      | exact absurd hq (n4 _ _ _ _) | exact absurd hq n5 | exact absurd hq (n6 _)

/-- A step of an operation is the pure computation up to its next primitive or its completion, and then that: R11. -/
theorem exec_resume (h : owns i s.seq = true) (hs : s.seq ≠ .idle) : exec i s = exec i (resume i s) := by
  obtain ⟨hc, ha, -⟩ := resume_reaches h hs
  have e : ∀ b, enter i b (resume i s) = resume i s := by
    intro b; unfold enter
    split
    next hq => rw [hq] at ha; cases ha
    next hq => rw [hq] at ha; cases ha
    next => rfl
  have r : ∀ u : State, u.seq.atPrimitive = true →
      communicateResume u = u ∧ (∀ k, selectResume k u = u) ∧ calcCrcResume u = u ∧ (∀ w, requestResume w u = u) ∧
        haltResume u = u ∧ authenticateResume u = u ∧ readBlockResume u = u := by
    intro u hu
    refine ⟨?_, fun k => ?_, ?_, fun w => ?_, ?_, ?_, ?_⟩ <;>
      simp only [communicateResume, selectResume, calcCrcResume, requestResume, haltResume, authenticateResume,
        readBlockResume] <;>
      split <;> first | rfl | (rename_i hq; rw [hq] at hu; cases hu)
  obtain ⟨r1, r2, r3, r4, r5, r6, r7⟩ := r _ ha
  by_cases hq : s.seq = .start
  · have ho : resume i s = opening i s := by unfold resume; rw [hq]
    rw [ho] at e r1 r2 r3 r4 r5 r6 r7 hc ⊢
    have e' : ∀ b : State → State, enter i b s = b s := fun b => by simp [enter, hq]
    cases i <;>
      simp only [exec, execCommunicate, execSelect, execReadCardSerial, execRequestOrWakeup, execIsNewCardPresent,
        execHalt, execAuthenticate, execReadBlock, execCalcCrc, execStopCrypto, e, e', hc.h, r1, r2, r3, r4, r5, r6, r7] <;>
      simp only [opening] at * <;> simp only [*]
  · have e' : ∀ b : State → State, enter i b s = s := by
      intro b; unfold enter; split <;> first | contradiction | rfl
    have l : (i = .communicate → communicateResume s = resume i s) ∧
        (i = .select → selectResume s.h.knownBits.toNat s = resume i s) ∧
        (i = .readCardSerial → selectResume 0 s = resume i s) ∧ (i = .calcCrc → calcCrcResume s = resume i s) ∧
        (i = .requestOrWakeup → requestResume s.h.isWakeup s = resume i s) ∧
        (i = .isNewCardPresent → requestResume false s = resume i s) ∧ (i = .halt → haltResume s = resume i s) ∧
        (i = .authenticate → authenticateResume s = resume i s) ∧ (i = .readBlock → readBlockResume s = resume i s) ∧
        (i = .stopCrypto → s = resume i s) := by
      unfold resume communicateResume selectResume calcCrcResume requestResume haltResume authenticateResume
        readBlockResume
      refine ⟨?_, ?_, ?_, ?_, ?_, ?_, ?_, ?_, ?_, ?_⟩ <;> rintro rfl <;> cases h' : s.seq <;>
        simp only [h', owns] at h hq ⊢ <;>
        first
        | contradiction
        | done
        | (rename CrcSite => site; cases site <;> first | rfl | (simp [ownsCrcSite] at h))
        | (rename CommSite => site; cases site <;> first | rfl | (simp [ownsCommSite] at h))
        | simp
    obtain ⟨l1, l2, l3, l4, l5, l6, l7, l8, l9, l10⟩ := l
    cases i <;>
      simp only [exec, execCommunicate, execSelect, execReadCardSerial, execRequestOrWakeup, execIsNewCardPresent,
        execHalt, execAuthenticate, execReadBlock, execCalcCrc, execStopCrypto, e, e', r1, r2, r3, r4, r5, r6, r7]
    · rw [l1 rfl]
    · rw [l2 rfl]
    · rw [l4 rfl]
    · rw [l5 rfl]
    · rw [l7 rfl]
    · rw [l8 rfl]
    · rw [← l10 rfl]
    · rw [l9 rfl]
    · rw [l6 rfl]
    · rw [l3 rfl]

/-! ### Runs -/

/-- A run goes on past a step that is not the completion. -/
theorem runOp_continue {k : Nat} {t : State} (h : exec i s = .next t) (ht : t.seq ≠ .idle) :
    runOp i (k + 1) s = runOp i k t := by
  simp [runOp, h, ht]

/-- A run ends at the completion. -/
theorem runOp_complete {k : Nat} {t : State} (h : exec i s = .next t) (ht : t.seq = .idle) :
    runOp i (k + 1) s = .next t := by
  simp [runOp, h, ht]

/-- An exchange that ends early with `st` leaves the operation at its completion step, nothing else changed but
the resolver's `S.n` and `S.vb` (R183, R235, R239). -/
theorem commReturn_failed {site : CommSite} {st : Status} (hok : st ≠ .ok) (hc : st ≠ .collision) (u : State) :
    ∃ n vb, commReturn site st 0 0 u =
      (u.withSel { u.sel with n := n, vb := vb }).withSeq (.complete (failureStatus site st)) := by
  cases site <;>
    simp only [commReturn, communicateReturn, selectAfterExchange, requestAfterExchange, haltAfterExchange,
      authenticateReturn, readBlockReturn, finish, hok, hc, failureStatus, ne_eq, not_false_eq_true, if_true, if_false,
      reduceCtorEq] <;>
    exact ⟨_, _, rfl⟩

/-! ### Turns -/

/-- With a running operation the sequencer's turn is a step of it. -/
theorem sequencerTurn_running (hs : s.seq ≠ .idle) (h : decodeOp s.op = some i) : sequencerTurn s = exec i s := by
  unfold sequencerTurn
  split
  next h => exact absurd h hs
  next => rw [h]

/-- A reserved code completes (R102). -/
theorem sequencerTurn_reserved (hs : s.seq ≠ .idle) (h : decodeOp s.op = none) :
    sequencerTurn s = .next (complete .invalidArgument s) := by
  unfold sequencerTurn
  split
  next h => exact absurd h hs
  next => rw [h]

/-- While idle the sequencer's turn changes nothing. -/
theorem sequencerTurn_idle (hs : s.seq = .idle) : sequencerTurn s = .next s := by
  unfold sequencerTurn; rw [hs]

theorem step_sequencer (h : s.agenda = []) : step s = sequencerTurn s := by simp [step, h]

theorem step_write {off v : Byte} {rest : List Turn} (h : s.agenda = .write off v :: rest) :
    step s = .next (hostWrite off v (s.withAgenda rest)) := by simp [step, h]

theorem step_read {off : Byte} {rest : List Turn} (h : s.agenda = .read off :: rest) :
    step s = .next (hostReadTurn off (s.withAgenda rest)) := by simp [step, h]

theorem step_reset {rest : List Turn} (h : s.agenda = .reset :: rest) :
    step s = .next (resetBlock (s.withAgenda rest)) := by simp [step, h]

/-- Between two steps of a running operation a turn of the host changes nothing but the coming turns and the record of
host reads (R22): the pure computation at the start of the next step (R11) finds the values the last step left. -/
theorem step_host_while_busy (hb : s.h.busy = true) {turn : Turn} {rest : List Turn} (ha : s.agenda = turn :: rest)
    (ht : (∃ off v, turn = .write off v) ∨ (∃ off, turn = .read off) ∨ turn = .wait) :
    ∃ agenda reads, step s = .next { s with agenda := agenda, reads := reads } := by
  obtain ⟨off, v, rfl⟩ | ⟨off, rfl⟩ | rfl := ht
  · exact ⟨rest, s.reads, by rw [step_write ha]; simp [hostWrite, hb, State.withAgenda]⟩
  · exact ⟨rest, _, step_read ha⟩
  · by_cases hd : s.h.done = true
    · exact ⟨rest, _, by simp only [step, ha, hostWaitTurn]; rw [if_pos (by exact hd)]; rfl⟩
    · exact ⟨_, _, by simp only [step, ha, hostWaitTurn]; rw [if_neg (by exact hd)]; rfl⟩

/-- Between two steps of a running operation another master's turn is refused (R331). -/
theorem step_foreign_while_busy (hb : s.h.busy = true) {t : Txn} {rest : List Turn} (ha : s.agenda = .foreign t :: rest) :
    step s = .refused .foreignBusMaster := by
  simp only [step, ha, foreignTurn]
  exact if_pos hb

/-- The word placed by withFetchWord is the operation the next step runs. -/
theorem step_withFetchWord {nbits w : Nat} (h : decodeOp (BitVec.ofNat 8 w) = some i) :
    step (s.withFetchWord nbits w) = exec i (s.withFetchWord nbits w) := by
  rw [step_sequencer (by rfl)]
  exact sequencerTurn_running (by simp [State.withFetchWord, armed, go]) h

end Sys2Proof.Machine
end

