-- ==== Sys2Proof/Tests/Slice0.lean ====
section
/-! SUPPORT. Tests. Each expected value is the spec's, from the rule or the vector of 95_test_vectors.md named in
the docstring; the witnesses at the end show, for each statement with hypotheses, a state and operands that meet them. -/

namespace Sys2Proof.Tests

open Sys2Proof Sys2Proof.Machine
open Host (Outcome)

/-! ### Helpers -/

/-- A check of the next state. -/
def nextIs (o : Outcome State Fault Refusal) (check : State → Bool) : Bool :=
  match o with
  | .next t => check t
  | _ => false

/-- A busy block at a position, with operation code `code`, registers `f` of reset's, and the listed answers. -/
def stand (code : Byte) (q : Seq) (answers : List Byte) (f : HostRegs → HostRegs := id) : State :=
  { State.reset with
    op := code, seq := q, h := { f HostRegs.reset with op := code, busy := true }, env := ⟨answers, 0⟩ }

/-- An idle block with a coming turn. -/
def turn (t : Turn) (f : HostRegs → HostRegs := id) : State :=
  { State.reset with h := f HostRegs.reset, agenda := [t] }

/-- The call of V-COM-1: Transceive of one byte 26, 7 bits, capacity 2. -/
def reqaCall : CommCall :=
  { cmd := 0x0C, waitIrq := 0x30, tx := [0x26], txLastBits := 7, rxAlign := 0, checkCrc := false
    dest := .rxbuf, off := 0, cap := 2 }

/-- The resolver's call of the first frame 93 20. -/
def cl1Call : CommCall :=
  { cmd := 0x0C, waitIrq := 0x30, tx := [0x93, 0x20], txLastBits := 0, rxAlign := 0, checkCrc := false
    dest := .frame, off := 2, cap := 7 }

/-- The call of READ_BLOCK for block 4. -/
def readCall : CommCall :=
  { cmd := 0x0C, waitIrq := 0x30, tx := [0x30, 0x04, 0x26, 0xEE], txLastBits := 0, rxAlign := 0, checkCrc := true
    dest := .rxbuf, off := 0, cap := 18 }

/-- HALT's and AUTHENTICATE's calls expect no reply. -/
def noReplyCall : CommCall := { reqaCall with txLastBits := 0, cap := 0 }

/-! ### WellFormed: each check refuses an ill-formed term -/

theorem test_params_default_wf : Params.default.wf = true := by decide
theorem test_params_irqPollBudget : Params.wf { Params.default with irqPollBudget := 0 } = false := by decide
theorem test_params_crcPollBudget : Params.wf { Params.default with crcPollBudget := 0 } = false := by decide
theorem test_params_txbufSize_low : Params.wf { Params.default with txbufSize := 11 } = false := by decide
theorem test_params_txbufSize_high : Params.wf { Params.default with txbufSize := 256 } = false := by decide
theorem test_params_rxbufSize_low : Params.wf { Params.default with rxbufSize := 17, reqReplyCap := 3 } = false := by
  decide
theorem test_params_rxbufSize_high : Params.wf { Params.default with rxbufSize := 128 } = false := by decide
theorem test_params_reqReplyCap_low : Params.wf { Params.default with reqReplyCap := 2 } = false := by decide
theorem test_params_reqReplyCap_high : Params.wf { Params.default with reqReplyCap := 65 } = false := by decide
theorem test_chipReg_missing : ChipRegMap.wf (ChipRegMap.default.drop 1) = false := by decide
theorem test_chipReg_same_number : ChipRegMap.wf ((.commandReg, 0x02) :: ChipRegMap.default.drop 1) = false := by
  decide
theorem test_pcd_five_bits : PcdCodes.wf { PcdCodes.default with calcCrc := 0x10 } = false := by decide
theorem test_mask_fifoLevel : ChipMasks.wf { ChipMasks.default with fifoLevel := 0x80 } = false := by decide
theorem test_mask_rxLastBits : ChipMasks.wf { ChipMasks.default with rxLastBits := 0x08 } = false := by decide
theorem test_mask_collPos : ChipMasks.wf { ChipMasks.default with collPos := 0x20 } = false := by decide
theorem test_xfer_txlb : Pseudo.wf (.xfer 0x0C 0x30 8 0 false 2 [0x26]) = false := by decide
theorem test_xfer_align : Pseudo.wf (.xfer 0x0C 0x30 0 8 false 2 [0x26]) = false := by decide
theorem test_xfer_bytes : Pseudo.wf (.xfer 0x0C 0x30 0 0 false 2 (List.replicate 65 0)) = false := by decide
theorem test_select_uid : Pseudo.wf (.select 0 4 [0x11]) = false := by decide
theorem test_crc_bytes : Pseudo.wf (.crc (List.replicate 65 0)) = false := by decide
theorem test_auth_key : Pseudo.wf (.auth 0x60 4 [0xFF]) = false := by decide
theorem test_xfer_wf : Pseudo.wf (.xfer 0x0C 0x30 7 0 false 2 [0x26]) = true := by decide

/-! ### Decoding: the words of R101, bit by bit, and the reserved codes of R102 -/

theorem test_decode_communicate : decodeTableWord 8 0b00000001 = some .communicate := by decide
theorem test_decode_select : decodeTableWord 8 0b00000010 = some .select := by decide
theorem test_decode_calcCrc : decodeTableWord 8 0b00000011 = some .calcCrc := by decide
theorem test_decode_requestOrWakeup : decodeTableWord 8 0b00000100 = some .requestOrWakeup := by decide
theorem test_decode_halt : decodeTableWord 8 0b00000101 = some .halt := by decide
theorem test_decode_authenticate : decodeTableWord 8 0b00000110 = some .authenticate := by decide
theorem test_decode_stopCrypto : decodeTableWord 8 0b00000111 = some .stopCrypto := by decide
theorem test_decode_readBlock : decodeTableWord 8 0b00001000 = some .readBlock := by decide
theorem test_decode_isNewCardPresent : decodeTableWord 8 0b00001001 = some .isNewCardPresent := by decide
theorem test_decode_readCardSerial : decodeTableWord 8 0b00001010 = some .readCardSerial := by decide
theorem test_decode_reserved_zero : decode [0x00] = .error (.reservedOp 0x00) := by rfl
theorem test_decode_reserved_eleven : decode [0x0B] = .error (.reservedOp 0x0B) := by rfl
theorem test_decode_reserved_high_bit : decodeTableWord 8 0b10000001 = none := by decide
theorem test_opTable_rows_disjoint :
    opTable.Pairwise (fun a b => a.pattern &&& (a.mask &&& b.mask) ≠ b.pattern &&& (a.mask &&& b.mask)) := by decide

/-! ### Encoded values -/

/-- V-ENC-1. -/
theorem test_bitFraming : bitFraming 2 2 = 0x22 ∧ bitFraming 7 7 = 0x77 ∧ bitFraming 0 7 = 0x07 := by decide

/-- V-ENC-2. -/
theorem test_nvb :
    [0, 1, 7, 8, 16, 18, 24, 31].map (fun k => (nvb k, partialLen k, wholeBytes k, 9 - wholeBytes k)) =
      [(0x20, 2, 2, 7), (0x21, 3, 2, 7), (0x27, 3, 2, 7), (0x30, 3, 3, 6), (0x40, 4, 4, 5), (0x42, 5, 4, 5),
       (0x50, 5, 5, 4), (0x57, 6, 5, 4)] := by decide

/-- V-ENC-3: the AUTHENTICATE frame of a 7-byte identifier ends in its last four bytes. -/
theorem test_authFrame :
    authFrame { HostRegs.reset with
                authCmd := 0x60, blockAddr := 0x04, key := Vector.replicate 6 0xFF, uidSize := 7
                uid := Buf.putMany (Vector.replicate 10 0) 0 [0x04, 0xA1, 0xB2, 0xC3, 0xD4, 0xE5, 0xF6] } =
      [0x60, 0x04, 0xFF, 0xFF, 0xFF, 0xFF, 0xFF, 0xFF, 0xC3, 0xD4, 0xE5, 0xF6] := by decide

/-- V-ENC-4. -/
theorem test_bcc :
    xorAll [0x88, 0x04, 0xA1, 0xB2] = 0x9F ∧ xorAll [0xC3, 0xD4, 0xE5, 0xF6] = 0x04 ∧
      xorAll [0x11, 0x22, 0x32, 0x44] = 0x45 := by decide

/-- R72's encoding: FIFODataReg (0x09) read and written, ComIrqReg (0x04) read. -/
theorem test_addressByte :
    addressByte ChipRegMap.default .fifoDataReg true = 0x92 ∧
      addressByte ChipRegMap.default .fifoDataReg false = 0x12 ∧
      addressByte ChipRegMap.default .comIrqReg true = 0x88 := by decide

/-- V-MEM-1. -/
theorem test_merge :
    mergeFirst 0 0x5A [0xA8] = [0xA8] ∧ mergeFirst 1 0xFF [0x00] = [0x01] ∧ mergeFirst 2 0x02 [0x30] = [0x32] ∧
      mergeFirst 3 0x05 [0xA8, 0x11] = [0xAD, 0x11] ∧ mergeFirst 7 0x7F [0x00] = [0x7F] ∧
      mergeFirst 7 0x00 [0xFF] = [0x80] := by decide

/-- V-MEM-2: CollReg 12, 00, 20, C5. -/
theorem test_collPosition :
    collPosition Params.default 0x12 = 18 ∧ collPosition Params.default 0x00 = 32 ∧
      collPosUnknown Params.default 0x32 = true ∧ collPosUnknown Params.default 0xC5 = false ∧
      collPosition Params.default 0xC5 = 5 := by decide

/-- V-MEM-3, V-ENC-3: CRC_A of 08, of 50 00, of 30 04, and of nothing. -/
theorem test_crcA :
    crcA [0x08] = (0xB6, 0xDD) ∧ crcA [0x50, 0x00] = (0x57, 0xCD) ∧ crcA [0x30, 0x04] = (0x26, 0xEE) ∧
      crcA [] = (0x63, 0x63) := by decide

/-- R117: 8n, or 8(n-1)+vb. -/
theorem test_replyBits : replyBits 2 0 = 16 ∧ replyBits 2 3 = 11 := by decide

/-- V-HOST-7. -/
theorem test_cardType :
    [0x08, 0x88, 0x18, 0x09, 0x00, 0x10, 0x11, 0x20, 0x40, 0x01, 0x28].map
        (fun k => cardTypeCode (cardTypeOf CardTypeTable.default k)) = [4, 4, 5, 3, 6, 7, 7, 1, 2, 8, 0] := by decide

/-- P2's statement 1 to 8: the accesses `xfer` expands to. -/
theorem test_expand_xfer :
    scriptTurns (expand (.xfer 0x0C 0x30 7 0 false 2 [0x26])) =
      [.write 0x40 0x26, .write 0x07 0x01, .write 0x04 0x0C, .write 0x05 0x30, .write 0x06 0x07, .write 0x08 0x02,
       .write 0x00 0x01, .write 0x01 0x01, .wait] := by decide

/-! ### Host accesses -/

/-- V-HOST-1: STAT, STATUS, CARD_TYPE after reset. -/
theorem test_reset_reads :
    hostRead 0x02 State.reset = 0x00 ∧ hostRead 0x03 State.reset = 0x00 ∧ hostRead 0x1C State.reset = 0x00 := by decide

/-- V-HOST-2: a reserved OP. -/
theorem test_reserved_op :
    nextIs (step (stand 0x0B .start [])) (fun t => t.h.status = 0x06 ∧ statByte t.h = 0x02 ∧ t.bus = []) = true := by
  decide

/-- V-HOST-3: FRAMING's reserved bit. -/
theorem test_framing_reserved :
    nextIs (step (turn (.write 0x06 0xFF))) (fun t => hostRead 0x06 t = 0xF7 ∧ hostRead 0x1D t = 0x00) = true := by decide

/-- V-HOST-3: STATUS is RO. -/
theorem test_status_read_only : nextIs (step (turn (.write 0x03 0x05))) (fun t => t.h.status = 0x00) = true := by decide

/-- V-HOST-4: GO with bit 0 clear. -/
theorem test_go_bit_clear : nextIs (step (turn (.write 0x01 0xFE))) (fun t => t.h.busy = false ∧ t.seq = .idle) = true := by
  decide

/-- V-HOST-6: STAT while busy, RESULT kept from before. -/
theorem test_stat_while_busy :
    nextIs (step (turn (.write 0x01 0x01) (fun h => { h with done := true, result := true })))
      (fun t => hostRead 0x02 t = 0x05 ∧ t.seq = .start) = true := by decide

/-! ### One step of each operation -/

/-- V-COM-11: the merged first byte, AD 11. -/
theorem test_communicate_merge :
    nextIs
      (execCommunicate
        { stand 0x01 (.communicate .host { reqaCall with rxAlign := 3, cap := 6 } .readData) [0xA8, 0x11]
            (fun h => { h with rxbuf := [(0, 0x05)] }) with
          comm := ⟨1, 0, 2, 0⟩ })
      (fun t =>
        t.bus = [.read .fifoDataReg [0xA8, 0x11]] ∧
          t.seq = .communicate .host { reqaCall with rxAlign := 3, cap := 6 } (.readControl [0xAD, 0x11])) = true := by
  decide

/-- V-COM-13: a poll read of 0x31: the awaited flag wins over the timer flag, so ErrorReg is read next. -/
theorem test_communicate_awaited_first :
    nextIs (execCommunicate (stand 0x01 (.commNext .host reqaCall (.polled 0x31)) [0x00]))
      (fun t => t.bus = [.read .errorReg [0x00]] ∧ t.seq = .commNext .host reqaCall .gotError) = true := by decide

/-- T-SEL-13: KNOWN_BITS 8, UID_IN_SIZE 7, UID_IN0 = 04: the first frame is 93 40 88 04, the reply at 4. -/
theorem test_select_known_prefix :
    nextIs
      (execSelect
        (stand 0x02 .start []
          (fun h => { h with knownBits := 8, uidInSize := 7, uidIn := Buf.put h.uidIn 0 0x04 })))
      (fun t =>
        t.seq = .communicate .selectRound
          { cl1Call with tx := [0x93, 0x40, 0x88, 0x04], off := 4, cap := 5 } .clearIrqs) = true := by decide

/-- T-SEL-2: position 18 patches bit 1 of frame byte 4; the next frame is 93 42 11 22 02. -/
theorem test_select_collision :
    nextIs
      (execSelect
        { stand 0x02 (.gotColl 0x12) [] with
          sel := { SelectState.reset with
                   level := 1, frame := Buf.putMany SelectState.reset.frame 0 [0x93, 0x20, 0x11, 0x22, 0, 0, 0] } })
      (fun t =>
        t.sel.lk = 18 ∧ t.bus = [.write .commandReg [0x00]] ∧
          t.seq = .communicate .selectRound
            { cl1Call with
              tx := [0x93, 0x42, 0x11, 0x22, 0x02], txLastBits := 2, rxAlign := 2, off := 4, cap := 5 } .clearIrqs) =
      true := by decide

/-- V-CRC-4: TX_LEN 65. -/
theorem test_calcCrc_args :
    nextIs (execCalcCrc (stand 0x03 .start [] (fun h => { h with txLen := 65 })))
      (fun t => t.h.status = 0x06 ∧ t.bus = []) = true := by decide

/-- V-CRC-1: at completion CRC_LO = 57, CRC_HI = CD. -/
theorem test_calcCrc_result :
    nextIs (execCalcCrc { stand 0x03 (.complete .ok) [] with crc := ⟨1, 0x57, 0xCD⟩ })
      (fun t => t.h.crcLo = 0x57 ∧ t.h.crcHi = 0xCD ∧ statByte t.h = 0x02) = true := by decide

/-- V-REQ-1: CollReg read as A0 is written back as 20. -/
theorem test_request_clears_bit :
    nextIs (execRequestOrWakeup (stand 0x04 (.clearCollWrite 0xA0) [])) (fun t => t.bus = [.write .collReg [0x20]]) =
      true := by decide

/-- V-REQ-2: a 3-byte reply is GenericError, ATQA unchanged. -/
theorem test_request_three_bytes :
    nextIs
      (execRequestOrWakeup
        { stand 0x04 (.commNext .request { reqaCall with cap := 64 } .stored) []
            (fun h => { h with rxbuf := [(0, 0x04)] }) with
          comm := ⟨1, 0, 3, 0⟩ })
      (fun t => t.h.status = 0x01 ∧ t.h.atqa0 = 0x00 ∧ t.bus = []) = true := by decide

/-- R153: a FIFO level of 0 reads no FIFO byte; the ControlReg read, valid bits 5, stores RX_LEN = 0 and no byte. -/
theorem test_communicate_empty_reply :
    nextIs
      (execCommunicate
        (stand 0x01 (.commNext .host reqaCall (.gotLevel 0x80)) [0x05]
          (fun h => { h with rxLen := 2, rxbuf := [(0, 0x44)] })))
      (fun t =>
        t.bus = [.read .controlReg [0x05]] ∧ t.h.rxLen = 0x00 ∧ t.h.rxValidBits = 5 ∧ t.h.rxbuf = [(0, 0x44)]) =
      true := by decide

/-- V-HALT-1: a Timeout of the exchange is OK. -/
theorem test_halt_timeout :
    nextIs (execHalt (stand 0x05 (.commNext .halt noReplyCall (.polled 0x01)) []))
      (fun t => t.h.status = 0x00 ∧ statByte t.h = 0x02 ∧ t.bus = []) = true := by
  decide

/-- V-HALT-2: an OK of the exchange is GenericError, with no FIFO read. -/
theorem test_halt_answered :
    nextIs (execHalt (stand 0x05 (.commNext .halt noReplyCall .gotError) []))
      (fun t => t.h.status = 0x01 ∧ t.bus = []) = true := by decide

/-- V-AUTH-3: no CardId. -/
theorem test_authenticate_no_card :
    nextIs (execAuthenticate (stand 0x06 .start [])) (fun t => t.h.status = 0x06 ∧ t.bus = []) = true := by decide

/-- V-AUTH-1: CommandReg 0E is not followed by StartSend but by the poll. -/
theorem test_authenticate_no_kick :
    nextIs (execAuthenticate (stand 0x06 (.commNext .authenticate { noReplyCall with cmd := 0x0E } .sent) [0x10]))
      (fun t =>
        t.bus = [.read .comIrqReg [0x10]] ∧
          t.seq = .commNext .authenticate { noReplyCall with cmd := 0x0E } (.polled 0x10)) = true := by decide

/-- V-STOP-1: Status2Reg read as 09 is written back as 01. -/
theorem test_stopCrypto_write :
    nextIs (execStopCrypto (stand 0x07 (.clearCryptoWrite 0x09) []))
      (fun t => t.bus = [.write .status2Reg [0x01]] ∧ t.seq = .complete .ok) = true := by decide

/-- V-READ-3: RX_CAP 17. -/
theorem test_readBlock_small_buffer :
    nextIs (execReadBlock (stand 0x08 .start [] (fun h => { h with rxCap := 17 })))
      (fun t => t.h.status = 0x04 ∧ t.bus = []) = true := by decide

/-- V-READ-2: one byte with 4 valid bits is the NAK. -/
theorem test_readBlock_nak :
    nextIs (execReadBlock { stand 0x08 (.commNext .readBlock readCall .stored) [] with comm := ⟨1, 0, 1, 4⟩ })
      (fun t => t.h.status = 0x08 ∧ t.bus = []) = true := by decide

/-- V-PRES-1: the first write, and the ModWidthReg write 26 before the request. -/
theorem test_present_writes :
    nextIs (execIsNewCardPresent (stand 0x09 .start [])) (fun t => t.bus = [.write .txModeReg [0x00]]) = true ∧
      nextIs (execIsNewCardPresent (stand 0x09 .writeModWidth []))
        (fun t => t.bus = [.write .modWidthReg [0x26]] ∧ t.seq = .clearCollRead) = true := by decide

/-- V-PRES-2: a Collision sets RESULT and leaves ATQA. -/
theorem test_present_collision :
    nextIs (execIsNewCardPresent (stand 0x09 (.complete .collision) [] (fun h => { h with rxbuf := [(0, 0x04)] })))
      (fun t => t.h.status = 0x02 ∧ statByte t.h = 0x06 ∧ t.h.atqa0 = 0x00) = true := by decide

/-- V-SERIAL-1: the commit, STAT 06. -/
theorem test_serial_commit :
    nextIs
      (execReadCardSerial
        { stand 0x0A (.complete .ok) [] with
          sel := { SelectState.reset with level := 1, frame := Buf.put SelectState.reset.frame 6 0x08 } })
      (fun t => t.h.uidSize = 4 ∧ t.h.sak = 0x08 ∧ statByte t.h = 0x06) = true := by decide

/-- V-SERIAL-1, no card: STATUS 03, STAT 02. -/
theorem test_serial_timeout :
    nextIs (execReadCardSerial (stand 0x0A (.complete .timeout) [])) (fun t => t.h.status = 0x03 ∧ statByte t.h = 0x02) =
      true := by decide

/-! ### Witnesses: for each statement with hypotheses, a state and operands that meet them all, clause by clause -/

theorem nextIs_elim {o : Outcome State Fault Refusal} {check : State → Bool} (h : nextIs o check = true) :
    ∃ t, o = .next t ∧ check t = true := by
  cases o with
  | next t => exact ⟨t, rfl, h⟩
  | fault f => exact absurd h (by simp [nextIs])
  | refused r => exact absurd h (by simp [nextIs])

theorem witness_EncodeDecodeRoundTrip :
    Instr.wf .halt = true ∧ decode [0x05, 0xAA] = .ok (.halt, [0xAA]) ∧
      (∀ c ∈ [(0x00 : Byte), 0x0B, 0xFF], c = 0x00 ∨ 0x0B ≤ c.toNat) := by
  refine ⟨rfl, rfl, by decide⟩

theorem witness_HostRegisterMapInverse :
    hostRegAt { Params.default with txbufSize := 12 } 0x4B = some (.txbuf 11) ∧
      hostRegAt Params.default 0xBF = some (.rxbuf 63) ∧
      (∀ i : Fin 64, HostReg.txbuf 11 = .txbuf i → i.val < 12) := by
  refine ⟨by decide, by decide, ?_⟩
  intro i h
  cases h
  decide

theorem witness_RegisterAddressByteFields :
    ChipRegMap.default.lookup .testADCReg = some 0x3B ∧ ChipRegMap.wf ChipRegMap.default = true ∧
      addressByte ChipRegMap.default .collReg true = addressByte ChipRegMap.default .collReg true := by
  refine ⟨by decide, by decide, rfl⟩

/-- R109 at its last value, 31 known bits: 0x57 (V-ENC-2). -/
theorem witness_AnticollisionFramingByte : 31 < 32 ∧ nvb 31 = 0x57 := by decide

theorem witness_CardTypeLookup :
    Params.default.cardTypeTable = CardTypeTable.default ∧ HostRegs.reset.uidSize = 0 ∧
      HostRegs.uidSize { HostRegs.reset with uidSize := 10, sak := 0x20 } ≠ 0 := by decide

theorem witness_StepRunsDecodedOperation :
    ∃ s s' s'' : State, (s.seq ≠ .idle ∧ decode [s.op] = .ok (.halt, []) ∧ s.agenda = []) ∧
      (s'.seq ≠ .idle ∧ decode [s'.op] = .ok (.halt, []) ∧ s'.agenda = [.sequencer]) ∧
      (s''.seq ≠ .idle ∧ decode [s''.op] = .ok (.halt, []) ∧ s''.agenda = [.untilIdle]) :=
  ⟨stand 0x05 .start [], { stand 0x05 .start [] with agenda := [.sequencer] },
    { stand 0x05 .start [] with agenda := [.untilIdle] },
    ⟨by decide, rfl, rfl⟩, ⟨by decide, rfl, rfl⟩, ⟨by decide, rfl, rfl⟩⟩

theorem witness_GoStartsOperation :
    ∀ v ∈ [(0x01 : Byte), 0xFE], (turn (.write 0x01 v)).agenda = [.write 0x01 v] ∧
      (turn (.write 0x01 v)).h.busy = false ∧ (v = 0x01 → v.getLsbD 0 = true) ∧ (v = 0xFE → v.getLsbD 0 = false) := by
  decide

theorem witness_BusyBlockIgnoresHostWrites :
    ∃ s s' : State, (s.h.busy = true ∧ s.agenda = [.write 0x07 0x00]) ∧
      (s'.h.busy = true ∧ s'.agenda = [.read 0x07] ∧ hostRegAt s'.params 0x07 = some .txLen) :=
  ⟨{ stand 0x03 .start [] with agenda := [.write 0x07 0x00] }, { stand 0x03 .start [] with agenda := [.read 0x07] },
    by decide⟩

theorem witness_ReservedOffsetsReadZero :
    (∀ off ∈ [(0x1D : Byte), 0x1F, 0x2A, 0x2F, 0x3A, 0x3F, 0xC0, 0xFF], hostRegAt Params.default off = none) ∧
      hostRegAt { Params.default with txbufSize := 12, rxbufSize := 18 } 0x4C = none ∧
      hostRegAt { Params.default with txbufSize := 12, rxbufSize := 18 } 0x92 = none ∧
      (turn (.read 0x1D)).agenda = [.read 0x1D] ∧ (turn (.write 0x1D 0x55)).agenda = [.write 0x1D 0x55] := by decide

theorem witness_HostWriteReadsBack :
    ∃ s s' : State, (Memory.wf s.h.txbuf ∧ Memory.wf s.h.rxbuf ∧ s.h.busy = false ∧ s.agenda = [.write 0x06 0xFF] ∧
        hostRegAt s.params 0x06 = some .framing ∧ HostReg.framing ≠ .ctrl ∧ writable .framing = true) ∧
      (Memory.wf s'.h.txbuf ∧ Memory.wf s'.h.rxbuf ∧ s'.h.busy = false ∧ s'.agenda = [.write 0x03 0x05] ∧
        hostRegAt s'.params 0x03 = some .status ∧ HostReg.status ≠ .ctrl ∧ writable .status = false) ∧
      ((turn (.read 0x02)).agenda = [.read 0x02] ∧ hostRegAt (turn (.read 0x02)).params 0x02 = some .stat) :=
  ⟨turn (.write 0x06 0xFF) (fun h => { h with txbuf := [(0, 0x26)] }), turn (.write 0x03 0x05), by decide⟩

theorem witness_ResetAbandonsOperation :
    ∃ s : State, s.agenda = [.reset] ∧ s.h.busy = true ∧ s.seq = .communicate .host reqaCall .poll :=
  ⟨{ stand 0x01 (.communicate .host reqaCall .poll) [] with agenda := [.reset] }, by decide⟩

theorem witness_EveryOperationRunsAtItsPositions :
    (∀ i ∈ [Instr.communicate, .select, .calcCrc, .requestOrWakeup, .halt, .authenticate, .stopCrypto, .readBlock,
        .isNewCardPresent, .readCardSerial], owns i .start = true ∧ owns i (.complete .ok) = true) ∧
      owns .communicate (.communicate .host reqaCall .poll) = true ∧ owns .halt .readColl = false := by decide

theorem witness_CompletionStep :
    ∀ st ∈ [Status.ok, .genericError, .collision, .timeout, .bufferTooSmall, .internalError, .invalidArgument,
      .crcMismatch, .mifareNack], (stand 0x01 (.complete st) []).seq = .complete st := by decide

theorem witness_FirstStepChecksArguments :
    ∃ s s' : State,
      (s.seq = .start ∧ s.h.knownBits.toNat = 80 ∧ s.h.txLen.toNat = 64 ∧ s.h.rxCap.toNat = 64 ∧ s.h.uidSize = 10 ∧
        s.op = 0x00) ∧
      (s'.seq = .start ∧ s'.h.knownBits.toNat = 81 ∧ s'.h.txLen.toNat = 65 ∧ s'.h.rxCap.toNat = 17 ∧
        s'.h.uidSize = 0 ∧ s'.op = 0x0B) ∧
      ∀ cap ∈ [(18 : Byte), 65], (stand 0x08 .start [] (fun h => { h with rxCap := cap })).seq = .start ∧
        (stand 0x08 .start [] (fun h => { h with rxCap := cap })).h.rxCap = cap :=
  ⟨stand 0x00 .start [] (fun h => { h with knownBits := 80, txLen := 64, rxCap := 64, uidSize := 10 }),
    stand 0x0B .start [] (fun h => { h with knownBits := 81, txLen := 65, rxCap := 17 }), by decide⟩

theorem witness_OneTransactionToABlockRegister :
    ∃ s t : State, step s = .next t ∧ s.seq ≠ .idle ∧ s.agenda = [] ∧ t.bus = s.bus :=
  ⟨stand 0x01 (.complete .ok) [], _, rfl, by decide, rfl, rfl⟩

/-- An operation just started from reset, with default parameters, meets the invariant. -/
theorem inv_start (c : Byte) (answers : List Byte) : (stand c .start answers).Inv where
  params_wf := test_params_default_wf
  txbuf_wf := ⟨.nil, nofun⟩
  rxbuf_wf := ⟨.nil, nofun⟩
  txbuf_size := nofun
  rxbuf_size := nofun
  busy_iff := by simp [stand]
  done_not_busy := nofun
  status_code := Nat.zero_le _
  rx_len := Nat.zero_le _
  uid_size := .inl rfl
  sak_complete := fun h => absurd rfl h
  irq_poll := Nat.zero_le _
  crc_poll := Nat.zero_le _
  position := .inr (.inl rfl)
  position_ok := trivial

/-- A GO is written to a block that has completed an operation. -/
def goState : State := turn (.write 0x01 0x01) (fun h => { h with op := 0x04, done := true })

theorem inv_goState : goState.Inv where
  params_wf := test_params_default_wf
  txbuf_wf := by decide
  rxbuf_wf := by decide
  txbuf_size := by decide
  rxbuf_size := by decide
  busy_iff := by decide
  done_not_busy := by decide
  status_code := by decide
  rx_len := by decide
  uid_size := by decide
  sak_complete := by decide
  irq_poll := by decide
  crc_poll := by decide
  position := .inl rfl
  position_ok := trivial

/-- SELECT of T-SEL-1 after the SAK's CRC was read: the next step is its completion. -/
def selectDone : State :=
  { stand 0x02 (.crcNext .sakCheck [0x08] .finished) [] with
    crc := ⟨1, 0xB6, 0xDD⟩
    sel := { SelectState.reset with
             level := 1, frame := Buf.putMany SelectState.reset.frame 6 [0x08, 0xB6, 0xDD]
             uidWork := Buf.putMany SelectState.reset.uidWork 0 [0x11, 0x22, 0x33, 0x44] } }

theorem inv_selectDone : selectDone.Inv where
  params_wf := test_params_default_wf
  txbuf_wf := by decide
  rxbuf_wf := by decide
  txbuf_size := by decide
  rxbuf_size := by decide
  busy_iff := by decide
  done_not_busy := by decide
  status_code := by decide
  rx_len := by decide
  uid_size := by decide
  sak_complete := by decide
  irq_poll := by decide
  crc_poll := by decide
  position := .inr (.inr ⟨.select, by decide, by decide⟩)
  position_ok := ⟨nofun, fun _ => ⟨by decide, by decide⟩⟩

/-- The reset input comes while a card is held and a COMMUNICATE polls. -/
def resetTurn : State :=
  { stand 0x01 (.communicate .host reqaCall .poll) [] (fun h => { h with uidSize := 4, sak := 0x08 }) with
    agenda := [.reset] }

theorem inv_resetTurn : resetTurn.Inv where
  params_wf := test_params_default_wf
  txbuf_wf := by decide
  rxbuf_wf := by decide
  txbuf_size := by decide
  rxbuf_size := by decide
  busy_iff := by decide
  done_not_busy := by decide
  status_code := by decide
  rx_len := by decide
  uid_size := by decide
  sak_complete := by decide
  irq_poll := by decide
  crc_poll := by decide
  position := .inr (.inr ⟨.communicate, by decide, by decide⟩)
  position_ok := ⟨⟨rfl, rfl, by decide⟩, (by decide : 0 < 2000), nofun⟩

/-- COMMUNICATE of V-COM-1 at its ControlReg read. -/
def atControl : State :=
  { stand 0x01 (.communicate .host reqaCall (.readControl [0x44, 0x00])) [0x00] with comm := ⟨1, 0, 2, 0⟩ }

theorem inv_atControl : atControl.Inv where
  params_wf := test_params_default_wf
  txbuf_wf := by decide
  rxbuf_wf := by decide
  txbuf_size := by decide
  rxbuf_size := by decide
  busy_iff := by decide
  done_not_busy := by decide
  status_code := by decide
  rx_len := by decide
  uid_size := by decide
  sak_complete := by decide
  irq_poll := by decide
  crc_poll := by decide
  position := .inr (.inr ⟨.communicate, by decide, by decide⟩)
  position_ok := ⟨⟨rfl, rfl, by decide⟩, ⟨by decide, by decide⟩, nofun⟩

theorem witness_ZeroLengthTransfersOmitted :
    (∃ s t : State, s.Inv ∧ step s = .next t ∧ t.bus = .read .controlReg [0x00] :: s.bus) ∧
      (ownsCommSite .communicate .host = true ∧
        (stand 0x01 (.commNext .host { reqaCall with tx := [] } .flushed) []).seq =
          .commNext .host { reqaCall with tx := [] } .flushed) ∧
      (stand 0x01 (.commNext .host reqaCall (.gotLevel 0x80)) []).seq = .commNext .host reqaCall (.gotLevel 0x80) ∧
      (0x80 : Byte) &&& Params.default.mask.fifoLevel = 0 ∧ ownsCrcSite .calcCrc .calcCrc = true ∧
      (stand 0x03 (.crcNext .calcCrc [] .flushed) []).seq = .crcNext .calcCrc [] .flushed ∧
      (stand 0x01 (.replyCrcNext .host reqaCall [] .flushed) []).seq = .replyCrcNext .host reqaCall [] .flushed := by
  refine ⟨⟨atControl, _, inv_atControl, rfl, rfl⟩, by decide⟩

theorem witness_SequencerFrame :
    ∃ s t u v : State, sequencerTurn s = .next t ∧ t.seq = .idle ∧ sequencerTurn u = .next v ∧ v.seq ≠ .idle :=
  ⟨stand 0x01 (.complete .ok) [], _, stand 0x05 .start [], _, rfl, rfl, rfl, by decide⟩

theorem witness_OperationsKeepOthersRegisters (i : Instr) :
    ∃ s t : State, s.Inv ∧ decodeOp s.op = some i ∧ statusOk i s ∧ s.seq ≠ .idle ∧ exec i s = .next t := by
  refine ⟨stand (opcode i) .start [], ?_⟩
  have h := inv_start (opcode i) []
  cases i <;> exact ⟨_, h, by decide, trivial, by decide, rfl⟩

theorem witness_BusyAndDoneFollowGoAndCompletion :
    (∃ s t : State, s.Inv ∧ step s = .next t ∧ s.h.busy = false ∧ t.h.busy = true) ∧
      (∃ s t : State, s.Inv ∧ step s = .next t ∧ s.h.busy = true ∧ t.h.busy = false) ∧
      (∃ s t : State, s.Inv ∧ step s = .next t ∧ s.h.done = false ∧ t.h.done = true) ∧
      (∃ s t : State, s.Inv ∧ step s = .next t ∧ s.h.done = true ∧ t.h.done = false) :=
  ⟨⟨goState, _, inv_goState, rfl, rfl, rfl⟩, ⟨resetTurn, _, inv_resetTurn, rfl, rfl, rfl⟩,
    ⟨selectDone, _, inv_selectDone, rfl, rfl, rfl⟩, ⟨goState, _, inv_goState, rfl, rfl, rfl⟩⟩

theorem witness_CardIdReplacedWhole :
    ∃ s t : State, step s = .next t ∧ ¬ sameCard s.h t.h ∧ s.agenda = [] ∧ s.seq ≠ .idle ∧ t.seq = .idle ∧
      t.h.status = 0x00 ∧ decodeOp s.op = some .select :=
  ⟨selectDone, _, rfl, by unfold sameCard; decide, by decide⟩

theorem witness_UidSizeAlwaysValid :
    (∃ s t : State, s.Inv ∧ step s = .next t ∧ t.h.uidSize ≠ s.h.uidSize ∧ s.agenda = [] ∧ s.seq ≠ .idle ∧
        t.seq = .idle ∧ t.h.status = 0x00 ∧ decodeOp s.op = some .select) ∧
      (∃ s t : State, s.Inv ∧ step s = .next t ∧ t.h.uidSize ≠ s.h.uidSize ∧ t.h.uidSize = 0) :=
  ⟨⟨selectDone, _, inv_selectDone, rfl, by decide⟩, ⟨resetTurn, _, inv_resetTurn, rfl, by decide, rfl⟩⟩

theorem witness_CrcRegistersWrittenByCalcCrcOnly :
    ∃ s t : State, step s = .next t ∧ s.agenda = [] ∧ s.seq ≠ .idle ∧ t.seq = .idle ∧ t.h.status = 0x00 ∧
      decodeOp s.op = some .calcCrc ∧ t.h.crcLo ≠ s.h.crcLo :=
  ⟨{ stand 0x03 (.crcNext .calcCrc [0x50, 0x00] .finished) [] with crc := ⟨1, 0x57, 0xCD⟩ }, _, rfl, by decide⟩

theorem witness_AtqaWrittenByRequestsOnly :
    ∃ s t : State, step s = .next t ∧ s.agenda = [] ∧ s.seq ≠ .idle ∧ t.seq = .idle ∧ t.h.status = 0x00 ∧
      decodeOp s.op = some .requestOrWakeup ∧ t.h.atqa0 ≠ s.h.atqa0 :=
  ⟨{ stand 0x04 (.commNext .request reqaCall .stored) [] (fun h => { h with rxbuf := [(0, 0x04)] }) with
     comm := ⟨1, 0, 2, 0⟩ }, _, rfl, by decide⟩

theorem witness_ResultFlagWrittenByTwoOperations :
    (∃ s t : State, step s = .next t ∧ s.agenda = [] ∧ s.seq ≠ .idle ∧ t.seq = .idle ∧
        decodeOp s.op = some .isNewCardPresent ∧ t.h.status = 0x02 ∧ t.h.result = true) ∧
      (∃ s t : State, step s = .next t ∧ s.agenda = [] ∧ s.seq ≠ .idle ∧ t.seq = .idle ∧
        decodeOp s.op = some .readCardSerial ∧ t.h.status = 0x00 ∧ t.h.result = true) :=
  ⟨⟨{ stand 0x09 (.commNext .request reqaCall .stored) [] with comm := ⟨1, 0x08, 2, 0⟩ }, _, rfl, by decide⟩,
    ⟨{ selectDone with op := 0x0A }, _, rfl, by decide⟩⟩

theorem witness_ReplyRegistersWrittenAtRetrieval :
    (∃ s t : State, s.Inv ∧ sequencerTurn s = .next t ∧ t.h.rxLen ≠ s.h.rxLen) ∧
      (∃ s t : State, s.Inv ∧ sequencerTurn s = .next t ∧ decodeOp s.op = some .select) :=
  ⟨⟨atControl, _, inv_atControl, rfl, by decide⟩, ⟨selectDone, _, inv_selectDone, rfl, by decide⟩⟩

theorem witness_CommunicatePreparesChip :
    ownsCommSite .communicate .host = true ∧ reqaCall.tx ≠ [] ∧
      (∀ pos ∈ [CommPos.idle, .framing],
        (stand 0x01 (.communicate .host reqaCall pos) []).seq = .communicate .host reqaCall pos) ∧
      ∀ tx ∈ [[], [(0x26 : Byte)]],
        (stand 0x01 (.commNext .host { reqaCall with tx := tx } .flushed) []).seq =
          .commNext .host { reqaCall with tx := tx } .flushed := by decide

theorem witness_OnlyTransceiveIsKicked :
    (ownsCommSite .communicate .host = true ∧ 0 < Params.default.irqPollBudget ∧
      (∀ pos ∈ [CommPos.command, .kickWrite 0x07],
        (stand 0x01 (.communicate .host reqaCall pos) []).seq = .communicate .host reqaCall pos) ∧
      ∀ k ∈ [CommNext.sent, .kicked], (stand 0x01 (.commNext .host reqaCall k) []).seq = .commNext .host reqaCall k) ∧
      reqaCall.cmd = Params.default.pcd.transceive ∧
      (CommCall.cmd { reqaCall with cmd := 0x0E }) ≠ Params.default.pcd.transceive := by decide

theorem witness_PollTestsAwaitedBeforeTimer :
    let s := fun v n => { stand 0x01 (.commNext .host reqaCall (.polled v)) [] with comm := ⟨n, 0, 0, 0⟩ }
    ownsCommSite .communicate .host = true ∧
      (∀ v n, (s v n).seq = .commNext .host reqaCall (.polled v)) ∧
      ((0x31 : Byte) &&& reqaCall.waitIrq ≠ 0) ∧
      ((0x01 : Byte) &&& reqaCall.waitIrq = 0 ∧ (0x01 : Byte) &&& Params.default.mask.irqTimer ≠ 0) ∧
      ((0x00 : Byte) &&& reqaCall.waitIrq = 0 ∧ (0x00 : Byte) &&& Params.default.mask.irqTimer = 0) ∧
      (s 0x00 2000).comm.irqPoll = Params.default.irqPollBudget ∧
      (s 0x00 1999).comm.irqPoll ≠ Params.default.irqPollBudget := by
  refine ⟨rfl, fun _ _ => rfl, by decide⟩

theorem witness_FramingErrorBeforeCollision :
    let s := fun err => { stand 0x01 (.commNext .host reqaCall .gotError) [] with comm := ⟨1, err, 0, 0⟩ }
    ownsCommSite .communicate .host = true ∧ ownsCommSite .halt .halt = true ∧
      (s 0x18).seq = .commNext .host reqaCall .gotError ∧
      ((s 0x18).comm.err &&& Params.default.mask.errFraming ≠ 0) ∧
      ((s 0x08).comm.err &&& Params.default.mask.errFraming = 0 ∧ 0 < reqaCall.cap) ∧
      ((s 0x08).comm.err &&& Params.default.mask.errFraming = 0 ∧ noReplyCall.cap = 0) ∧
      (stand 0x05 (.commNext .halt noReplyCall .gotError) []).seq = .commNext .halt noReplyCall .gotError := by
  decide

theorem witness_FifoLevelAgainstCapacity :
    (∀ v ∈ [(0x00 : Byte), 0x02, 0x03],
        (stand 0x01 (.commNext .host reqaCall (.gotLevel v)) []).seq = .commNext .host reqaCall (.gotLevel v)) ∧
      ownsCommSite .communicate .host = true ∧
      reqaCall.cap < ((0x03 : Byte) &&& Params.default.mask.fifoLevel).toNat ∧
      ((0x02 : Byte) &&& Params.default.mask.fifoLevel).toNat = reqaCall.cap ∧
      ((0x00 : Byte) &&& Params.default.mask.fifoLevel).toNat = 0 ∧ reqaCall.dest = .rxbuf ∧
      (stand 0x02 (.commNext .selectRound cl1Call (.gotLevel 0x00)) []).seq = .commNext .selectRound cl1Call (.gotLevel 0x00) ∧
      ownsCommSite .select .selectRound = true ∧ cl1Call.dest = .frame := by decide

theorem witness_ReplyReadMergesFirstByte :
    let c := { reqaCall with rxAlign := 3 }
    let s := stand 0x01 (.commNext .host c (.gotLevel 0x02)) [0xA8, 0x11]
    ownsCommSite .communicate .host = true ∧ s.seq = .commNext .host c (.gotLevel 0x02) ∧
      0 < ((0x02 : Byte) &&& s.params.mask.fifoLevel).toNat ∧
      ((0x02 : Byte) &&& s.params.mask.fifoLevel).toNat ≤ c.cap := by decide

theorem witness_ReplyStoredAtControlRead :
    (atControl.seq = .communicate .host reqaCall (.readControl [0x44, 0x00]) ∧ reqaCall.dest = .rxbuf ∧
        ownsCommSite .communicate .host = true ∧ Memory.wf atControl.h.rxbuf) ∧
      (let s := stand 0x02 (.communicate .selectRound cl1Call (.readControl [0x11])) []
       s.seq = .communicate .selectRound cl1Call (.readControl [0x11]) ∧ cl1Call.dest = .frame ∧
         ownsCommSite .select .selectRound = true ∧ Memory.wf s.h.rxbuf) := by decide

/-- Each branch: a collision, no CRC check, the NAK, a short reply, and a reply to check. -/
theorem witness_StatusDecidedAfterRetrieval :
    ∀ e ∈ [((0x08 : Byte), 18, 0, true), (0x00, 18, 0, false), (0x00, 1, 4, true), (0x00, 1, 0, true),
        (0x00, 18, 0, true)],
      let c := { readCall with checkCrc := e.2.2.2 }
      let s := { stand 0x08 (.commNext .readBlock c .stored) [] with comm := ⟨1, e.1, e.2.1, e.2.2.1⟩ }
      s.seq = .commNext .readBlock c .stored ∧ c.dest = .rxbuf ∧ 0 < c.cap := by decide

theorem witness_ReplyCrcComparedLowByteFirst :
    ∃ s s' s'' : State, readCall.dest = .rxbuf ∧ s.seq = .replyCrc .readBlock readCall [0x08] .readLo ∧
      s'.seq = .replyCrcNext .readBlock readCall [0x08] .finished ∧
      s''.seq = .replyCrcNext .readBlock readCall [0x08] (.polled 0x00) ∧
      (0x00 : Byte) &&& s''.params.mask.divCrcIrq = 0 ∧ s''.crc.crcPoll = s''.params.crcPollBudget :=
  ⟨stand 0x08 (.replyCrc .readBlock readCall [0x08] .readLo) [0xB6, 0xDD],
    { stand 0x08 (.replyCrcNext .readBlock readCall [0x08] .finished) [] with crc := ⟨1, 0xB6, 0xDD⟩ },
    { stand 0x08 (.replyCrcNext .readBlock readCall [0x08] (.polled 0x00)) [] with crc := ⟨5000, 0, 0⟩ }, by decide⟩

/-- COMMUNICATE of V-COM-1 with one poll more; and one with no byte sent and none received. -/
theorem witness_CommunicateRunsToOk :
    ∀ e ∈ [([(0x00 : Byte)], [(0x44 : Byte), 0x00], (1 : Byte), (0x0C : Byte), [(0x07 : Byte)]), ([], [], 0, 0x08, [])],
      let s := stand 0x01 .start (e.2.2.2.2 ++ e.1 ++ [0x30, 0x00, BitVec.ofNat 8 e.2.1.length] ++ e.2.1 ++ [0x00])
        (fun h => { h with pcdCmd := e.2.2.2.1, irqWait := 0x30, txLen := e.2.2.1, rxCap := 2 })
      s.seq = .start ∧ s.h.txLen.toNat ≤ s.params.txbufSize ∧ s.h.rxCap.toNat ≤ s.params.rxbufSize ∧
        0 < s.h.rxCap.toNat ∧ s.h.checkCrc = false ∧
        e.2.2.2.2.length = (if s.h.pcdCmd = s.params.pcd.transceive then 1 else 0) ∧
        s.env.answers =
          e.2.2.2.2 ++ e.1 ++ [0x30, 0x00, BitVec.ofNat 8 e.2.1.length] ++ e.2.1 ++ [0x00] ++ [] ∧
        (∀ b ∈ e.1, b &&& s.h.irqWait = 0 ∧ b &&& s.params.mask.irqTimer = 0) ∧
        (0x30 : Byte) &&& s.h.irqWait ≠ 0 ∧ e.1.length < s.params.irqPollBudget ∧
        (0x00 : Byte) &&& s.params.mask.errFraming = 0 ∧ (0x00 : Byte) &&& s.params.mask.errColl = 0 ∧
        (BitVec.ofNat 8 e.2.1.length &&& s.params.mask.fifoLevel).toNat = e.2.1.length ∧
        e.2.1.length ≤ s.h.rxCap.toNat := by decide

theorem witness_CommunicatePollExhaustsBudget :
    ∃ (s : State) (polls : List Byte), s.seq = .start ∧ s.h.txLen.toNat ≤ s.params.txbufSize ∧
      s.h.rxCap.toNat ≤ s.params.rxbufSize ∧ s.h.irqWait = 0 ∧
      [(0x00 : Byte)].length = (if s.h.pcdCmd = s.params.pcd.transceive then 1 else 0) ∧
      s.env.answers = [0x00] ++ polls ++ [] ∧ polls.length = s.params.irqPollBudget ∧
      ∀ b ∈ polls, b &&& s.params.mask.irqTimer = 0 :=
  ⟨{ stand 0x01 .start [0x00, 0x00, 0x00] (fun h => { h with pcdCmd := 0x0C }) with
     params := { Params.default with irqPollBudget := 2 } }, [0x00, 0x00], by decide⟩

theorem witness_CalcCrcRuns :
    ∃ s s' : State, (s.seq = .start ∧ s.h.txLen.toNat ≤ s.params.txbufSize ∧
        (∀ b ∈ [(0x00 : Byte)], b &&& s.params.mask.divCrcIrq = 0) ∧
        s.env.answers = [0x00] ++ [0x04, 0x63, 0x63] ++ [] ∧ (0x04 : Byte) &&& s.params.mask.divCrcIrq ≠ 0 ∧
        [(0x00 : Byte)].length < s.params.crcPollBudget) ∧
      (s'.seq = .start ∧ s'.h.txLen.toNat = s'.params.txbufSize ∧ s'.env.answers = [0x00] ++ [] ∧
        [(0x00 : Byte)].length = s'.params.crcPollBudget) :=
  ⟨stand 0x03 .start [0x00, 0x04, 0x63, 0x63],
    { stand 0x03 .start [0x00] (fun h => { h with txLen := 64 }) with
      params := { Params.default with crcPollBudget := 1 } }, by decide⟩

/-- CALC_CRC of no byte, V-CRC-2: a chip that computes CRC_A fits its run. -/
theorem witness_CalcCrcAgreesWithCrcAChip :
    ∃ (s t : State) (k : Nat) (chip : Chip) (new : List Txn), s.params = Params.default ∧ s.seq = .start ∧
      s.h.txLen.toNat ≤ s.params.txbufSize ∧ runOp .calcCrc k s = .next t ∧ t.seq = .idle ∧ t.h.status = 0x00 ∧
      t.bus = new ++ s.bus ∧ fitsChip s.params chip new.reverse = true := by
  have h : nextIs (runOp .calcCrc 9 (stand 0x03 .start [0x04, 0x63, 0x63])) (fun t =>
      t.seq = .idle ∧ t.h.status = 0x00 ∧ fitsChip Params.default ⟨0, 0, 0, [0x55], false, 0, 0⟩ t.bus.reverse) =
      true := by decide
  obtain ⟨t, ht, hc⟩ := nextIs_elim h
  simp only [decide_eq_true_eq] at hc
  exact ⟨_, t, 9, ⟨0, 0, 0, [0x55], false, 0, 0⟩, t.bus, rfl, rfl, by decide, ht, hc.1, hc.2.1,
    by simp [stand, State.reset], hc.2.2⟩

theorem witness_CrcRoundTripPasses :
    ∃ (s : State) (c : CommCall), c.checkCrc = true ∧ c.dest = .rxbuf ∧ 0 < c.cap ∧ Memory.wf s.h.rxbuf ∧
      s.seq = .communicate .readBlock c (.readControl ([0x08] ++ [0xB6, 0xDD])) ∧
      s.comm.cn = [(0x08 : Byte)].length + 2 ∧ s.comm.err &&& s.params.mask.errColl = 0 ∧
      (0x00 : Byte) &&& s.params.mask.rxLastBits = 0 ∧ 0 < s.params.crcPollBudget ∧
      (0x04 : Byte) &&& s.params.mask.divCrcIrq ≠ 0 ∧ s.env.answers = [0x00, 0x04, 0xB6, 0xDD] ++ [] :=
  ⟨{ stand 0x08 (.communicate .readBlock readCall (.readControl [0x08, 0xB6, 0xDD])) [0x00, 0x04, 0xB6, 0xDD] with
     comm := ⟨1, 0, 3, 0⟩ }, readCall, by decide⟩

/-- HALT: the four clauses (V-HALT-1, the budget, V-HALT-2, V-HALT-3). -/
theorem witness_HaltMapsTimeoutToOk :
    (∃ s : State, s.params = Params.default ∧ s.seq = .start ∧ (0x04 : Byte) &&& 0x04 ≠ 0 ∧
        (0x01 : Byte) &&& 0x30 = 0 ∧ (0x01 : Byte) &&& 0x01 ≠ 0 ∧
        s.env.answers = [0x04, 0x57, 0xCD, 0x00, 0x01] ++ []) ∧
      (∃ (s : State) (polls : List Byte), s.params = Params.default ∧ s.seq = .start ∧ polls.length = 2000 ∧
        (∀ b ∈ polls, b &&& 0x31 = 0) ∧ s.env.answers = [0x04, 0x57, 0xCD, 0x00] ++ polls ++ []) ∧
      (∃ s : State, s.params = Params.default ∧ s.seq = .start ∧ (0x30 : Byte) &&& 0x30 ≠ 0 ∧
        s.env.answers = [0x04, 0x57, 0xCD, 0x00, 0x30, 0x00] ++ []) ∧
      (∃ (s : State) (polls : List Byte), s.params = Params.default ∧ s.seq = .start ∧ polls.length = 5000 ∧
        (∀ b ∈ polls, b &&& 0x04 = 0) ∧ s.env.answers = polls ++ []) := by
  refine ⟨⟨stand 0x05 .start [0x04, 0x57, 0xCD, 0x00, 0x01], by decide⟩,
    ⟨stand 0x05 .start ([0x04, 0x57, 0xCD, 0x00] ++ List.replicate 2000 0x00), List.replicate 2000 0x00, rfl, rfl,
      List.length_replicate, ?_, (List.append_nil _).symm⟩,
    ⟨stand 0x05 .start [0x04, 0x57, 0xCD, 0x00, 0x30, 0x00], by decide⟩,
    ⟨stand 0x05 .start (List.replicate 5000 0x00), List.replicate 5000 0x00, rfl, rfl,
      List.length_replicate, ?_, (List.append_nil _).symm⟩⟩ <;>
    (intro b hb; rw [List.eq_of_mem_replicate hb]; decide)

theorem witness_AuthenticateRuns :
    ∃ s : State, s.params = Params.default ∧ s.seq = .start ∧ (s.h.uidSize = 4 ∨ s.h.uidSize = 7 ∨ s.h.uidSize = 10) ∧
      (0x10 : Byte) &&& 0x10 ≠ 0 ∧ s.env.answers = [0x10, 0x00] ++ [] :=
  ⟨stand 0x06 .start [0x10, 0x00] (fun h => { h with uidSize := 7 }), by decide⟩

theorem witness_StopCryptoRuns : ∃ s : State, s.seq = .start ∧ nextByte s = 0x09 :=
  ⟨stand 0x07 .start [0x09], by decide⟩

/-- READ_BLOCK whose READ frame's CRC has used up its budget. -/
theorem witness_ReadBlockRuns_crcTimeout :
    ∃ s : State, s.seq = .crcNext .readFrame [0x30, 0x04] (.polled 0x00) ∧
      (0x00 : Byte) &&& s.params.mask.divCrcIrq = 0 ∧ s.crc.crcPoll = s.params.crcPollBudget :=
  ⟨{ stand 0x08 (.crcNext .readFrame [0x30, 0x04] (.polled 0x00)) [] with crc := ⟨5000, 0, 0⟩ }, by decide⟩

/-- READ_BLOCK of V-READ-1 and of V-READ-2. -/
theorem witness_ReadBlockRuns :
    ∃ (s s' : State) (body : List Byte), s.params = Params.default ∧ s.seq = .start ∧ Memory.wf s.h.rxbuf ∧
      18 ≤ s.h.rxCap.toNat ∧ s.h.rxCap.toNat ≤ 64 ∧ body.length = 16 ∧ (0x04 : Byte) &&& 0x04 ≠ 0 ∧
      (0x30 : Byte) &&& 0x30 ≠ 0 ∧
      s.env.answers =
        [0x04, 0x26, 0xEE, 0x00, 0x30, 0x00, 0x12] ++ (body ++ [0x23, 0x80]) ++ [0x00, 0x04, 0x23, 0x80] ++ [] ∧
      s' = { s with env := ⟨[0x04, 0x26, 0xEE, 0x00, 0x30, 0x00, 0x01, 0x04, 0x04] ++ [], 0⟩ } :=
  ⟨stand 0x08 .start
      ([0x04, 0x26, 0xEE, 0x00, 0x30, 0x00, 0x12] ++ (List.replicate 16 0x40 ++ [0x23, 0x80]) ++
        [0x00, 0x04, 0x23, 0x80])
      (fun h => { h with rxCap := 18, blockAddr := 4 }), _, List.replicate 16 0x40,
    rfl, rfl, by decide, by decide, by decide, by decide, by decide, by decide, by decide, rfl⟩

/-- A request's reply of 0, 1, 2, 3 and 4 bytes, stored, not collided and collided. -/
theorem witness_RequestChecksReplyShape_anyLength :
    ∀ n ∈ [0, 1, 2, 3, 4], ∀ err ∈ [(0x00 : Byte), 0x08],
      let s : State := { stand 0x04 (.commNext .request reqaCall .stored) [] with comm := ⟨1, err, n, 0⟩ }
      s.seq = .commNext .request reqaCall .stored ∧ reqaCall.checkCrc = false := by decide

/-- REQUEST_OR_WAKEUP of V-REQ-1 and of V-REQ-2. -/
theorem witness_RequestChecksReplyShape :
    ∃ s s' : State, s.params = Params.default ∧ s.seq = .start ∧ (0x30 : Byte) &&& 0x30 ≠ 0 ∧ Memory.wf s.h.rxbuf ∧
      s.env.answers = [0x20, 0x07, 0x30, 0x00, 0x02, 0x04, 0x00, 0x00] ++ [] ∧
      s' = { s with env := ⟨[0x20, 0x07, 0x30, 0x00, 0x03, 0x04, 0x00, 0x00, 0x00] ++ [], 0⟩ } :=
  ⟨stand 0x04 .start [0x20, 0x07, 0x30, 0x00, 0x02, 0x04, 0x00, 0x00], _, rfl, rfl, by decide, by decide, rfl, rfl⟩

/-- IS_NEW_CARD_PRESENT of V-PRES-2 and of V-PRES-3. -/
theorem witness_PresentCountsCollisionAsPresent :
    ∃ s s' : State, s.params = Params.default ∧ s.seq = .start ∧ Memory.wf s.h.rxbuf ∧ (0x32 : Byte) &&& 0x30 ≠ 0 ∧
      (0x08 : Byte) &&& 0x13 = 0 ∧ (0x00 : Byte) &&& 0x07 = 0 ∧
      s.env.answers = [0x20, 0x07, 0x32, 0x08, 0x02, 0x04, 0x00, 0x00] ++ [] ∧
      (0x01 : Byte) &&& 0x30 = 0 ∧ (0x01 : Byte) &&& 0x01 ≠ 0 ∧ s' = { s with env := ⟨[0x20, 0x07, 0x01] ++ [], 0⟩ } :=
  ⟨stand 0x09 .start [0x20, 0x07, 0x32, 0x08, 0x02, 0x04, 0x00, 0x00], _, rfl, rfl, by decide, by decide, by decide,
    by decide, rfl, by decide, by decide, rfl⟩

theorem witness_CascadeLevelOpens :
    ∀ lv ∈ [1, 2, 3],
      1 ≤ (State.sel { State.reset with sel := { SelectState.reset with level := lv } }).level ∧
        (State.sel { State.reset with sel := { SelectState.reset with level := lv } }).level ≤ 3 := by decide

theorem witness_SelectFirstFrame :
    ∀ k ∈ [(0 : Byte), 23, 31, 32, 80], (stand 0x02 .start [] (fun h => { h with knownBits := k })).seq = .start ∧
      (stand 0x02 .start [] (fun h => { h with knownBits := k })).h.knownBits.toNat ≤ 80 := by decide

theorem witness_FullFrameSentWithCrc :
    ∃ s s' : State, s.seq = .crcNext .fullFrame [0x93] .finished ∧ s'.seq = .crcNext .fullFrame [0x93] (.polled 0x00) ∧
      (0x00 : Byte) &&& s'.params.mask.divCrcIrq = 0 ∧ s'.crc.crcPoll = s'.params.crcPollBudget :=
  ⟨stand 0x02 (.crcNext .fullFrame [0x93] .finished) [],
    { stand 0x02 (.crcNext .fullFrame [0x93] (.polled 0x00)) [] with crc := ⟨5000, 0, 0⟩ }, by decide⟩

/-- T-SEL-2 (a collision), the reply to the first frame of T-SEL-1, the SAK reply, and a reply of another shape. -/
theorem witness_SelectRoundOutcome :
    ∀ e ∈ [((0x08 : Byte), 0, 5, 0), (0x00, 0, 5, 0), (0x00, 32, 3, 0), (0x00, 32, 2, 0), (0x00, 32, 3, 1)],
      let s : State :=
        { stand 0x02 (.commNext .selectRound cl1Call .stored) [0x12] with
          comm := ⟨1, e.1, e.2.2.1, e.2.2.2⟩, sel := { SelectState.reset with level := 3, base := 6, lk := e.2.1 } }
      s.seq = .commNext .selectRound cl1Call .stored ∧ cl1Call.checkCrc = false ∧ s.sel.base ≤ 6 := by
  decide

theorem witness_CollisionResolvesOneMoreBit :
    let s := fun (v : Byte) => stand 0x02 (.gotColl v) []
    (∀ v, (s v).seq = .gotColl v ∧ (s v).params.wf = true) ∧
      ((0x20 : Byte) &&& Params.default.mask.collPosNotValid ≠ 0) ∧
      ((0x12 : Byte) &&& Params.default.mask.collPosNotValid = 0 ∧
        ((0x12 : Byte) &&& Params.default.mask.collPos).toNat = 18) ∧
      ((0x00 : Byte) &&& Params.default.mask.collPosNotValid = 0 ∧
        ((0x00 : Byte) &&& Params.default.mask.collPos).toNat = 0) ∧
      (s 0x12).sel.lk < 18 ∧ (State.sel { s 0x12 with sel := { SelectState.reset with lk := 18 } }).lk = 18 := by
  refine ⟨fun _ => ⟨rfl, test_params_default_wf⟩, by decide⟩

theorem witness_SakDecidesNextLevel :
    (∀ lv ∈ [1, 2, 3],
        let s : State :=
          { stand 0x02 (.crcNext .sakCheck [0x04] .finished) [] with
            crc := ⟨1, 0xDA, 0x17⟩
            sel := { SelectState.reset with
                     level := lv, frame := Buf.putMany SelectState.reset.frame 6 [0x04, 0xDA, 0x17] } }
        1 ≤ s.sel.level ∧ s.sel.level ≤ 3 ∧ s.seq = .crcNext .sakCheck [0x04] .finished ∧
          ¬ (s.crc.lo ≠ Buf.get s.sel.frame 7 ∨ s.crc.hi ≠ Buf.get s.sel.frame 8) ∧
          Buf.get s.sel.frame 6 &&& 0x04 ≠ 0) ∧
      (1 ≤ selectDone.sel.level ∧ selectDone.seq = .crcNext .sakCheck [0x08] .finished ∧
        ¬ (selectDone.crc.lo ≠ Buf.get selectDone.sel.frame 7 ∨ selectDone.crc.hi ≠ Buf.get selectDone.sel.frame 8) ∧
        Buf.get selectDone.sel.frame 6 &&& 0x04 = 0) ∧
      (let s : State :=
        { stand 0x02 (.crcNext .sakCheck [0x08] (.polled 0x00)) [] with
          crc := ⟨5000, 0, 0⟩, sel := { SelectState.reset with level := 1 } }
       s.seq = .crcNext .sakCheck [0x08] (.polled 0x00) ∧ (0x00 : Byte) &&& s.params.mask.divCrcIrq = 0 ∧
         s.crc.crcPoll = s.params.crcPollBudget) := by decide

/-- T-SEL-1. -/
theorem witness_FourByteCardIsSelected :
    ∃ s : State, s.params = Params.default ∧ s.seq = .start ∧ (0x11 : Byte) ≠ 0x88 ∧ (0x08 : Byte) &&& 0x04 = 0 ∧
      s.h.knownBits = 0 ∧
      s.env.answers =
        [0x00, 0x30, 0x00, 0x05, 0x11, 0x22, 0x33, 0x44, 0x44, 0x00, 0x04, 0x51, 0x9C, 0x00, 0x30, 0x00, 0x03, 0x08,
         0xB6, 0xDD, 0x00, 0x04, 0xB6, 0xDD] ++ [] :=
  ⟨stand 0x02 .start
      [0x00, 0x30, 0x00, 0x05, 0x11, 0x22, 0x33, 0x44, 0x44, 0x00, 0x04, 0x51, 0x9C, 0x00, 0x30, 0x00, 0x03, 0x08,
       0xB6, 0xDD, 0x00, 0x04, 0xB6, 0xDD], rfl, rfl, by decide, by decide, rfl, rfl⟩

theorem witness_InvariantKeptByEveryStep : ∃ s t : State, s.Inv ∧ step s = .next t ∧ t.bus ≠ s.bus :=
  ⟨atControl, _, inv_atControl, rfl, by decide⟩

/-- Another master's turn while BUSY, from a state that meets the invariant. -/
theorem witness_NoFaultUnderInvariant :
    ∃ s : State, s.Inv ∧ step s = .refused .foreignBusMaster := by
  refine ⟨{ stand 0x01 .start [] with agenda := [.foreign (.write .txASKReg [0x40])] }, ?_, rfl⟩
  have h := inv_start 0x01 []
  exact { h with }

theorem witness_OperationsReturnOnlyListedStatuses :
    (∀ i : Instr, ∃ s t : State, s.seq = .start ∧ s.seq ≠ .idle ∧ statusOk i s ∧ exec i s = .next t) ∧
      (∃ s : State, s.seq = .start ∧ decodeOp s.op = none) ∧
      (∃ s t : State, statusOk .halt s ∧ exec .halt s = .next t ∧ t.seq = .idle) := by
  refine ⟨fun i => ⟨stand (opcode i) .start [], ?_⟩, ⟨stand 0xFF .start [], by decide⟩,
    ⟨stand 0x05 (.complete .collision) [], _, (by decide : Status.collision ∈ canReturn .halt), rfl, rfl⟩⟩
  cases i <;> exact ⟨_, rfl, by decide, trivial, rfl⟩

theorem witness_EveryOperationTerminates :
    ∃ s : State, s.params.wf = true ∧ s.seq = .start ∧ s.env.answers = [] :=
  ⟨stand 0x02 .start [], test_params_default_wf, by decide⟩

theorem witness_StartingLocalsUnobservable :
    ∃ s : State, s.seq = .start ∧ { s with comm := ⟨3, 1, 2, 1⟩, crc := ⟨7, 1, 2⟩ } ≠ s :=
  ⟨stand 0x02 .start [], by decide⟩

end Sys2Proof.Tests
end

/-! PROOF. The default parameters (00_scope.md R8, 20_memory.md R73 and R75, 30_encoding.md R106 and R107): each
table meets its own check, and the parameters meet theirs from those. -/
section
namespace Sys2Proof

theorem ChipRegMap.default_wf : ChipRegMap.wf ChipRegMap.default = true := by decide

theorem PcdCodes.default_wf : PcdCodes.default.wf = true := by decide

theorem ChipMasks.default_wf : ChipMasks.default.wf = true := by decide

/-- Beside the checks of the three tables, R8 constrains only the budgets, the buffer sizes and the reply capacity,
whose defaults are numerals. -/
theorem Params.default_wf : Params.default.wf = true := by
  simp [Params.wf, Params.default, ChipRegMap.default_wf, PcdCodes.default_wf, ChipMasks.default_wf]

/-- Settles O7: the constraints by `Params.default_wf`; each quoted value is an entry of the tables of R8, R73, R75,
R106 and R107, so each equation holds by evaluation. -/
theorem defaultParameterValues : Obligations.DefaultParameterValues := by
  unfold Obligations.DefaultParameterValues
  refine ⟨Params.default_wf, ?_⟩
  dsimp only
  and_intros <;> rfl

end Sys2Proof
end

/-! PROOF. The host register map (10_state.md R20, R21): each register's offset leads back to it, and the offsets that
lead nowhere are the reserved ones. -/
section
namespace Sys2Proof.Machine

/-- The rows of the table of registers that stand alone agree with `hostOffset`, and none is of an array. -/
theorem scalarRegs_rows : ∀ e ∈ scalarRegs, hostOffset e.2 = e.1 ∧ (∀ i, e.2 ≠ .txbuf i) ∧ ∀ i, e.2 ≠ .rxbuf i := by
  simp [scalarRegs, hostOffset]

/-- What the table gives for an offset is one of its rows. -/
theorem scalarRegs_lookup {off : Byte} {r : HostReg} (h : scalarRegs.lookup off = some r) : (off, r) ∈ scalarRegs := by
  obtain ⟨l₁, l₂, hl, -⟩ := List.lookup_eq_some_iff.1 h
  rw [hl]
  simp

/-- No offset of the table lies in an array's window, so the map finds it in the table. -/
theorem hostRegAt_scalar (p : Params) {e : Byte × HostReg} (he : e ∈ scalarRegs) :
    hostRegAt p e.1 = some e.2 := by
  revert e
  simp [scalarRegs, hostRegAt, List.lookup]

/-- The offsets of the arrays (R21). -/
theorem hostOffset_arrays :
    (∀ i, (hostOffset (.key i)).toNat = 0x10 + i.val) ∧ (∀ i, (hostOffset (.uid i)).toNat = 0x20 + i.val) ∧
      (∀ i, (hostOffset (.uidIn i)).toNat = 0x30 + i.val) ∧ (∀ i, (hostOffset (.txbuf i)).toNat = 0x40 + i.val) ∧
      (∀ i, (hostOffset (.rxbuf i)).toNat = 0x80 + i.val) := by
  and_intros <;> intro i <;> exact Nat.mod_eq_of_lt (by have := i.isLt; omega)

/-- The offset of every register the map lists leads back to it. -/
theorem hostRegAt_hostOffset (p : Params) (r : HostReg) (ht : ∀ i, r = .txbuf i → i.val < p.txbufSize)
    (hr : ∀ i, r = .rxbuf i → i.val < p.rxbufSize) : hostRegAt p (hostOffset r) = some r := by
  obtain ⟨hkey, huid, huidIn, htxbuf, hrxbuf⟩ := hostOffset_arrays
  cases r with
  | key i => rw [hostRegAt]; simp (disch := omega) only [hkey, dif_pos]; simp
  | uid i => rw [hostRegAt]; simp (disch := omega) only [huid, dif_neg, dif_pos]; simp
  | uidIn i => rw [hostRegAt]; simp (disch := omega) only [huidIn, dif_neg, dif_pos]; simp
  | txbuf i => rw [hostRegAt]; simp (disch := omega) only [htxbuf, dif_neg, dif_pos]; simp [ht i rfl]
  | rxbuf i => rw [hostRegAt]; simp (disch := omega) only [hrxbuf, dif_neg, dif_pos]; simp [hr i rfl]
  | atqa i => fin_cases i <;> exact hostRegAt_scalar p (e := (_, _)) (by simp [scalarRegs])
  | _ => exact hostRegAt_scalar p (e := (_, _)) (by simp [scalarRegs])

/-- Every offset that leads to a register is that register's, and of TXBUF and RXBUF it leads to an entry within the
size. -/
theorem hostOffset_of_hostRegAt {p : Params} {off : Byte} {r : HostReg} (h : hostRegAt p off = some r) :
    hostOffset r = off ∧ (∀ i, r = .txbuf i → i.val < p.txbufSize) ∧ ∀ i, r = .rxbuf i → i.val < p.rxbufSize := by
  have window : ∀ {base n : Nat}, base ≤ off.toNat → n = base + (off.toNat - base) → BitVec.ofNat 8 n = off := by
    intro base n hb hn
    rw [hn, Nat.add_sub_cancel' hb, BitVec.ofNat_toNat, BitVec.setWidth_eq]
  unfold hostRegAt at h
  dsimp only at h
  split at h
  next hw => cases h; exact ⟨window hw.1 rfl, nofun, nofun⟩
  split at h
  next hw => cases h; exact ⟨window hw.1 rfl, nofun, nofun⟩
  split at h
  next hw => cases h; exact ⟨window hw.1 rfl, nofun, nofun⟩
  split at h
  next hw =>
    split at h
    next hsize => cases h; exact ⟨window hw.1 rfl, fun i hi => by rw [← HostReg.txbuf.inj hi]; exact hsize, nofun⟩
    next => cases h
  split at h
  next hw =>
    split at h
    next hsize => cases h; exact ⟨window hw.1 rfl, nofun, fun i hi => by rw [← HostReg.rxbuf.inj hi]; exact hsize⟩
    next => cases h
  next =>
    obtain ⟨ho, ht, hr⟩ := scalarRegs_rows _ (scalarRegs_lookup h)
    exact ⟨ho, fun i hi => absurd hi (ht i), fun i hi => absurd hi (hr i)⟩

/-- CTRL is at 0x01 and nowhere else. -/
theorem hostRegAt_eq_ctrl {p : Params} {off : Byte} : hostRegAt p off = some .ctrl ↔ off = 0x01 := by
  constructor
  · exact fun h => (hostOffset_of_hostRegAt h).1.symm
  · rintro rfl
    exact hostRegAt_hostOffset p .ctrl nofun nofun

/-- Settles O3: the offsets by evaluation, the two directions by `hostRegAt_hostOffset` and
`hostOffset_of_hostRegAt`. -/
theorem hostRegisterMapInverse : Obligations.HostRegisterMapInverse := by
  unfold Obligations.HostRegisterMapInverse
  exact ⟨by and_intros <;> rfl, hostOffset_arrays,
    fun p => ⟨hostRegAt_hostOffset p, fun _ _ => hostOffset_of_hostRegAt⟩⟩

/-- The offsets of the table are those below the windows' gaps. -/
theorem scalarRegs_lookup_none (off : Byte) :
    scalarRegs.lookup off = none ↔
      ¬ (off.toNat < 0x10 ∨ 0x16 ≤ off.toNat ∧ off.toNat < 0x1D) := by
  rw [List.lookup_eq_none_iff]
  simp only [scalarRegs, List.forall_mem_cons, bne_iff_ne, ne_eq, ← BitVec.toNat_inj]
  simp
  omega

/-- The reserved offsets (R20, R21). -/
theorem hostRegAt_eq_none (p : Params) (off : Byte) :
    hostRegAt p off = none ↔
      (0x1D ≤ off.toNat ∧ off.toNat ≤ 0x1F) ∨ (0x2A ≤ off.toNat ∧ off.toNat ≤ 0x2F) ∨
      (0x3A ≤ off.toNat ∧ off.toNat ≤ 0x3F) ∨ 0xC0 ≤ off.toNat ∨
      (0x40 ≤ off.toNat ∧ off.toNat < 0x80 ∧ p.txbufSize ≤ off.toNat - 0x40) ∨
      (0x80 ≤ off.toNat ∧ off.toNat < 0xC0 ∧ p.rxbufSize ≤ off.toNat - 0x80) := by
  unfold hostRegAt
  dsimp only
  split
  next => simp only [reduceCtorEq, false_iff]; omega
  split
  next => simp only [reduceCtorEq, false_iff]; omega
  split
  next => simp only [reduceCtorEq, false_iff]; omega
  split
  next =>
    split <;> simp only [reduceCtorEq, false_iff, true_iff] <;> omega
  split
  next =>
    split <;> simp only [reduceCtorEq, false_iff, true_iff] <;> omega
  next =>
    rw [scalarRegs_lookup_none]
    omega
end Sys2Proof.Machine
end

/-! PROOF. The host's accesses (10_state.md R20 to R25, R43, R44): what a read returns, what a write leaves in each
register, and GO. -/
section
namespace Sys2Proof.Machine

/-! ### Bits -/

/-- A flag of one bit is that bit. -/
theorem flagged_twoPow (v : Byte) {k : Nat} (hk : k < 8) : flagged v (BitVec.twoPow 8 k) = v.getLsbD k := by
  have hne : BitVec.twoPow 8 k ≠ 0#8 := by interval_cases k <;> decide
  unfold flagged
  rw [BitVec.and_twoPow]
  split
  next h => simpa [h] using hne
  next h => simpa using h

theorem flagged_bit0 (v : Byte) : flagged v 0x01 = v.getLsbD 0 := flagged_twoPow v (k := 0) (by decide)

theorem flagged_bit7 (v : Byte) : flagged v 0x80 = v.getLsbD 7 := flagged_twoPow v (k := 7) (by decide)

theorem bit0_toNat (b : Bool) : (bit0 b).toNat = b.toNat := by cases b <;> rfl

/-- STAT's three bits (R21). -/
theorem statByte_toNat (h : HostRegs) : (statByte h).toNat = h.busy.toNat + 2 * h.done.toNat + 4 * h.result.toNat := by
  unfold statByte
  cases h.busy <;> cases h.done <;> cases h.result <;> rfl

/-- The three fields of FRAMING do not overlap (R100). -/
theorem framingByte_toNat (h : HostRegs) :
    (framingByte h).toNat = 128 * h.checkCrc.toNat + 16 * h.rxAlign.toNat + h.txLastBits.toNat := by
  have ha := h.rxAlign.isLt
  have ht := h.txLastBits.isLt
  have hc := Bool.toNat_le h.checkCrc
  have e1 : h.checkCrc.toNat <<< 7 % 256 = h.checkCrc.toNat <<< 7 := Nat.mod_eq_of_lt (by rw [Nat.shiftLeft_eq]; omega)
  have e2 : h.rxAlign.toNat <<< 4 % 256 = h.rxAlign.toNat <<< 4 := Nat.mod_eq_of_lt (by rw [Nat.shiftLeft_eq]; omega)
  have e3 : h.rxAlign.toNat % 256 = h.rxAlign.toNat := Nat.mod_eq_of_lt (by omega)
  have e4 : h.txLastBits.toNat % 256 = h.txLastBits.toNat := Nat.mod_eq_of_lt (by omega)
  have upper : h.checkCrc.toNat <<< 7 ||| h.rxAlign.toNat <<< 4 = (h.checkCrc.toNat * 8 + h.rxAlign.toNat) <<< 4 := by
    rw [← Nat.shiftLeft_add_eq_or_of_lt (by rw [Nat.shiftLeft_eq]; omega)]
    simp only [Nat.shiftLeft_eq]
    omega
  simp only [framingByte, BitVec.toNat_or, BitVec.toNat_shiftLeft, BitVec.toNat_setWidth, bit0_toNat, Nat.reducePow, e1,
    e2, e3, e4]
  rw [upper, ← Nat.shiftLeft_add_eq_or_of_lt (by omega), Nat.shiftLeft_eq]
  omega

/-- FRAMING reads back less its reserved bit 3 (R23). -/
theorem framingByte_written (h : HostRegs) (v : Byte) :
    framingByte (writeReg .framing v h) = v &&& 0xF7 := by
  apply BitVec.eq_of_getLsbD_eq
  intro k hk
  simp only [framingByte, writeReg, flagged_bit7]
  interval_cases k <;> cases h7 : v[7] <;> simp [bit0, h7]

/-- OPT reads back bit 0 alone (R23). -/
theorem bit0_flagged (v : Byte) : bit0 (flagged v 0x01) = v &&& 0x01 := by
  apply BitVec.eq_of_getLsbD_eq
  intro k hk
  rw [flagged_bit0]
  interval_cases k <;> cases h0 : v[0] <;> simp [bit0, h0]

/-! ### The written register and the others -/

/-- A register no write reaches keeps the registers as they are. -/
theorem writeReg_readOnly {r : HostReg} (h : writable r = false) (v : Byte) (x : HostRegs) : writeReg r v x = x := by
  cases r <;> first | rfl | exact absurd h nofun

/-- A written register reads back as R23 says. -/
theorem readReg_writeReg_same {r : HostReg} (hr : writable r = true) (p : Params) (v : Byte) {x : HostRegs}
    (ht : Memory.wf x.txbuf) (hx : Memory.wf x.rxbuf) : readReg p (writeReg r v x) r = readBack r v := by
  cases r with
  | framing => exact framingByte_written x v
  | opt => exact bit0_flagged v
  | key i => exact Buf.get_put_same _ _ i.isLt
  | uidIn i => exact Buf.get_put_same _ _ i.isLt
  | txbuf i => exact Memory.read_write_same ht _ _
  | rxbuf i => exact Memory.read_write_same hx _ _
  | op | pcdCmd | irqWait | txLen | rxCap | knownBits | uidInSize | blockAddr | authCmd => rfl
  | ctrl | stat | status | rxLen | rxValidBits | crcLo | crcHi | atqa | uidSize | sak | cardType | uid => cases hr

/-- A write changes no other register. -/
theorem readReg_writeReg_other {r r' : HostReg} (hne : r' ≠ r) (p : Params) (v : Byte) (x : HostRegs) :
    readReg p (writeReg r v x) r' = readReg p x r' := by
  cases r with
  | key i =>
    cases r' with
    | key j => exact Buf.get_put_other _ _ (fun e => hne (by rw [Fin.ext e]))
    | _ => rfl
  | uidIn i =>
    cases r' with
    | uidIn j => exact Buf.get_put_other _ _ (fun e => hne (by rw [Fin.ext e]))
    | _ => rfl
  | txbuf i =>
    cases r' with
    | txbuf j => exact Memory.read_write_other _ _ (fun e => hne (by rw [Fin.ext e]))
    | _ => rfl
  | rxbuf i =>
    cases r' with
    | rxbuf j => exact Memory.read_write_other _ _ (fun e => hne (by rw [Fin.ext e]))
    | _ => rfl
  | op | pcdCmd | irqWait | framing | txLen | rxCap | knownBits | uidInSize | opt | blockAddr | authCmd =>
    cases r' <;> first | rfl | exact absurd rfl hne
  | ctrl | stat | status | rxLen | rxValidBits | crcLo | crcHi | atqa | uidSize | sak | cardType | uid => rfl

theorem bufGet_eq {n : Nat} (v : Vector Byte n) (i : Fin n) : Buf.get v i.val = v[i] := by simp [Buf.get]

/-! ### The turn of a host access -/

variable {s : State} {off v : Byte} {rest : List Turn}

theorem hostRead_of_register {r : HostReg} (h : hostRegAt s.params off = some r) :
    hostRead off s = readReg s.params s.h r := by
  unfold hostRead; rw [h]

theorem hostRead_of_reserved (h : hostRegAt s.params off = none) : hostRead off s = 0x00 := by
  unfold hostRead; rw [h]

theorem hostWrite_of_busy (h : s.h.busy = true) (off v : Byte) : hostWrite off v s = s := if_pos h

theorem hostWrite_of_reserved (h : hostRegAt s.params off = none) (v : Byte) : hostWrite off v s = s := by
  unfold hostWrite; rw [h]; exact ite_self _

/-- A write to CTRL is GO when bit 0 is 1, else nothing (R25). -/
theorem hostWrite_ctrl (h : s.h.busy = false) (v : Byte) :
    hostWrite 0x01 v s = if v.getLsbD 0 then go s else s := by
  unfold hostWrite
  rw [hostRegAt_eq_ctrl.2 rfl, h, flagged_bit0]
  rfl

theorem hostWrite_of_register {r : HostReg} (h : s.h.busy = false) (hr : hostRegAt s.params off = some r)
    (hc : r ≠ .ctrl) (v : Byte) : hostWrite off v s = s.withH (writeReg r v s.h) := by
  unfold hostWrite
  rw [hr, h]
  cases r <;> first | rfl | exact absurd rfl hc

/-- A host write changes nothing, or it is GO, or it writes a register that is not CTRL. -/
theorem hostWrite_cases (off v : Byte) (s : State) :
    hostWrite off v s = s ∨
      (s.h.busy = false ∧ off = 0x01 ∧ v.getLsbD 0 = true ∧ hostWrite off v s = go s) ∨
      (s.h.busy = false ∧ ∃ r, hostRegAt s.params off = some r ∧ r ≠ .ctrl ∧
        hostWrite off v s = s.withH (writeReg r v s.h)) := by
  cases hb : s.h.busy with
  | true => exact .inl (hostWrite_of_busy hb off v)
  | false =>
    cases hr : hostRegAt s.params off with
    | none => exact .inl (hostWrite_of_reserved hr v)
    | some r =>
      by_cases hc : r = .ctrl
      · subst hc
        obtain rfl := hostRegAt_eq_ctrl.1 hr
        rw [hostWrite_ctrl hb]
        split
        next hv => exact .inr (.inl ⟨rfl, rfl, hv, rfl⟩)
        next => exact .inl rfl
      · exact .inr (.inr ⟨rfl, r, rfl, hc, hostWrite_of_register hb hr hc v⟩)

/-! ### Statements -/

/-- Settles O6: row by row against R44; a value no row lists is found by none, so UNKNOWN. -/
theorem cardTypeLookup : Obligations.CardTypeLookup := by
  unfold Obligations.CardTypeLookup
  intro p h hp
  refine ⟨fun h0 => by simp [readReg, cardType, h0, cardTypeCode], fun h0 => ?_⟩
  simp only [readReg, cardType, if_neg h0, cardTypeOf, hp]
  generalize h.sak &&& 0x7F = x
  split
  case h_11 =>
    have hnone : CardTypeTable.default.lookup x = none := by
      rw [List.lookup_eq_none_iff]
      simp only [CardTypeTable.default, List.forall_mem_cons, bne_iff_ne, ne_eq, ← BitVec.toNat_inj]
      simp
      tauto
    rw [hnone]
    rfl
  all_goals
    next hx =>
      have hx' : BitVec.ofNat 8 x.toNat = x := by simp
      rw [hx] at hx'
      subst hx'
      rfl

/-- Settles O9: a CTRL write of an idle block is GO or nothing, by `hostWrite_ctrl`. -/
theorem goStartsOperation : Obligations.GoStartsOperation := by
  unfold Obligations.GoStartsOperation
  intro s v rest ha hb
  rw [step_write ha, hostWrite_ctrl (s := s.withAgenda rest) hb]
  exact ⟨fun hv => by rw [if_pos hv]; rfl, fun hv => by rw [hv]; rfl⟩

/-- Settles O10: a write by `hostWrite_of_busy`; a read does not ask for BUSY. -/
theorem busyBlockIgnoresHostWrites : Obligations.BusyBlockIgnoresHostWrites := by
  unfold Obligations.BusyBlockIgnoresHostWrites
  intro s off v rest hb
  refine ⟨fun ha => ?_, fun r ha hr => ?_⟩
  · rw [step_write ha, hostWrite_of_busy (s := s.withAgenda rest) hb]; rfl
  · rw [step_read ha, hostReadTurn, hostRead_of_register (s := s.withAgenda rest) hr]; rfl

/-- Settles O11: the reserved offsets by `hostRegAt_eq_none`. -/
theorem reservedOffsetsReadZero : Obligations.ReservedOffsetsReadZero := by
  unfold Obligations.ReservedOffsetsReadZero
  intro s off v rest
  refine ⟨hostRegAt_eq_none s.params off, fun hr => ⟨fun ha => ?_, fun ha => ?_⟩⟩
  · rw [step_read ha, hostReadTurn, hostRead_of_reserved (s := s.withAgenda rest) hr]; rfl
  · rw [step_write ha, hostWrite_of_reserved (s := s.withAgenda rest) hr]; rfl

/-- Settles O12: the values by R21's rows, and a write by what the written register and every other reads after it. -/
theorem hostWriteReadsBack : Obligations.HostWriteReadsBack := by
  unfold Obligations.HostWriteReadsBack
  refine ⟨fun s off r rest ha hr => ?_, fun p h => ?_, fun s off v r rest ht hx hb ha hr hc => ?_⟩
  · rw [step_read ha, hostReadTurn, hostRead_of_register (s := s.withAgenda rest) hr]; rfl
  · refine ⟨rfl, statByte_toNat h, rfl, rfl, ?_, rfl, rfl, rfl, rfl, rfl, rfl, fun i => bufGet_eq _ i, rfl, rfl, rfl,
      framingByte_toNat h, rfl, rfl, rfl, rfl, bit0_toNat _, rfl, rfl, fun i => bufGet_eq _ i, fun i => bufGet_eq _ i,
      fun _ => rfl, fun _ => rfl⟩
    have hlt : h.rxValidBits.toNat < 2 ^ 8 := Nat.lt_trans h.rxValidBits.isLt (by decide)
    exact (BitVec.toNat_setWidth _ _).trans (Nat.mod_eq_of_lt hlt)
  · refine ⟨writeReg r v s.h, ?_, fun hw => writeReg_readOnly hw v _, fun r' => ?_⟩
    · rw [step_write ha, hostWrite_of_register (s := s.withAgenda rest) hb hr hc]; rfl
    · split
      next h => obtain ⟨rfl, hw⟩ := h; exact readReg_writeReg_same hw _ v ht hx
      next h =>
        by_cases hr' : r' = r
        · rw [writeReg_readOnly (by simpa [hr'] using h)]
        · exact readReg_writeReg_other hr' _ v _

end Sys2Proof.Machine
end

/-! PROOF. What a step of an operation is at a bus primitive or the completion, said once for all operations: a step
of an engine, one of the accesses outside the engines, or the completion step. -/
section
namespace Sys2Proof.Machine

/-- The bus accesses outside the two engines: the position of each and the next one (R186, R231, R250, R263). -/
def AccessSeq (i : Instr) : Seq → Seq → Prop
  | .readColl, .gotColl _ => i = .select ∨ i = .readCardSerial
  | .clearCollRead, .clearCollWrite _ | .clearCollWrite _, .collCleared =>
    i = .requestOrWakeup ∨ i = .isNewCardPresent
  | .clearCryptoRead, .clearCryptoWrite _ => i = .stopCrypto
  | .clearCryptoWrite _, .complete st => i = .stopCrypto ∧ st = .ok
  | .writeTxMode, .writeRxMode | .writeRxMode, .writeModWidth | .writeModWidth, .clearCollRead =>
    i = .isNewCardPresent
  | _, _ => False

/-- An access goes on to a position of its operation. -/
theorem accessSeq_owns {i : Instr} {p q : Seq} (h : AccessSeq i p q) : q ≠ .idle ∧ owns i q = true := by
  unfold AccessSeq at h
  split at h
  · rcases h with rfl | rfl <;> exact ⟨nofun, rfl⟩
  · rcases h with rfl | rfl <;> exact ⟨nofun, rfl⟩
  · rcases h with rfl | rfl <;> exact ⟨nofun, rfl⟩
  · subst h; exact ⟨nofun, rfl⟩
  · exact ⟨nofun, rfl⟩
  · subst h; exact ⟨nofun, rfl⟩
  · subst h; exact ⟨nofun, rfl⟩
  · subst h; exact ⟨nofun, rfl⟩
  · exact h.elim

/-- What a step of the operation `i` is at a bus primitive or the completion. -/
inductive PrimitiveStep (i : Instr) (s : State) : State → Prop where
  | computeCrc {site : CrcSite} {data : List Byte} {pos : CrcPos} (hs : s.seq = .computeCrc site data pos)
      (ho : ownsCrcSite i site = true) :
      PrimitiveStep i s (crcStep (.computeCrc site data) (.crcNext site data) data pos s)
  | communicate {site : CommSite} {c : CommCall} {pos : CommPos} (hs : s.seq = .communicate site c pos)
      (ho : ownsCommSite i site = true) : PrimitiveStep i s (commStep site c pos s)
  | replyCrc {site : CommSite} {c : CommCall} {data : List Byte} {pos : CrcPos}
      (hs : s.seq = .replyCrc site c data pos) (ho : ownsCommSite i site = true) :
      PrimitiveStep i s (replyCrcStep site c data pos s)
  | access {u : State} {q : Seq} (quiet : Quiet s u) (comm : u.comm = s.comm) (crc : u.crc = s.crc)
      (txn : OneTxn s u) (hq : AccessSeq i s.seq q) : PrimitiveStep i s (u.withSeq q)
  | complete {st : Status} (hs : s.seq = .complete st) :
      PrimitiveStep i s (completeWith (resultWrites i st s) st s)

theorem quiet_busWrite (r : ChipReg) (bytes : List Byte) (s : State) : Quiet s (busWrite r bytes s) :=
  ⟨rfl, rfl, rfl, rfl, rfl, rfl, rfl⟩

theorem quiet_busRead (r : ChipReg) (s : State) : Quiet s (busRead r s) := ⟨rfl, rfl, rfl, rfl, rfl, rfl, rfl⟩

variable {i : Instr} {s : State}

/-- At a bus primitive or the completion of its own an operation takes one of these steps. -/
theorem exec_primitiveStep (ho : owns i s.seq = true) (ha : s.seq.atPrimitive = true) :
    ∃ t, exec i s = .next t ∧ PrimitiveStep i s t := by
  have write : ∀ {r bytes q}, blockUses r = true → AccessSeq i s.seq q →
      PrimitiveStep i s ((busWrite r bytes s).withSeq q) :=
    fun hr hq => .access (quiet_busWrite _ _ s) rfl rfl ⟨_, rfl, hr⟩ hq
  have read : ∀ {r q}, blockUses r = true → AccessSeq i s.seq q → PrimitiveStep i s ((busRead r s).withSeq q) :=
    fun hr hq => .access (quiet_busRead _ s) rfl rfl ⟨_, rfl, hr⟩ hq
  cases hs : s.seq with
  | idle | start | crcNext | commNext | replyCrcNext | gotColl | collCleared => rw [hs] at ha; cases ha
  | complete => exact ⟨_, exec_complete hs, .complete hs⟩
  | computeCrc => rw [hs] at ho; exact ⟨_, exec_computeCrc ho hs, .computeCrc hs ho⟩
  | communicate => rw [hs] at ho; exact ⟨_, exec_communicate ho hs, .communicate hs ho⟩
  | replyCrc => rw [hs] at ho; exact ⟨_, exec_replyCrc ho hs, .replyCrc hs ho⟩
  | readColl =>
    have hi : i = .select ∨ i = .readCardSerial := by simpa [hs, owns] using ho
    exact ⟨_, exec_readColl hi hs, read rfl (by rw [hs]; exact hi)⟩
  | clearCollRead =>
    have hi : i = .requestOrWakeup ∨ i = .isNewCardPresent := by simpa [hs, owns] using ho
    exact ⟨_, exec_clearCollRead hi hs, read rfl (by rw [hs]; exact hi)⟩
  | clearCollWrite =>
    have hi : i = .requestOrWakeup ∨ i = .isNewCardPresent := by simpa [hs, owns] using ho
    exact ⟨_, exec_clearCollWrite hi hs, write rfl (by rw [hs]; exact hi)⟩
  | clearCryptoRead =>
    obtain rfl : i = .stopCrypto := by simpa [hs, owns] using ho
    exact ⟨_, exec_clearCryptoRead hs, read rfl (by rw [hs]; rfl)⟩
  | clearCryptoWrite =>
    obtain rfl : i = .stopCrypto := by simpa [hs, owns] using ho
    exact ⟨_, exec_clearCryptoWrite hs, write rfl (by rw [hs]; exact ⟨rfl, rfl⟩)⟩
  | writeTxMode =>
    obtain rfl : i = .isNewCardPresent := by simpa [hs, owns] using ho
    exact ⟨_, exec_writeTxMode hs, write rfl (by rw [hs]; rfl)⟩
  | writeRxMode =>
    obtain rfl : i = .isNewCardPresent := by simpa [hs, owns] using ho
    exact ⟨_, exec_writeRxMode hs, write rfl (by rw [hs]; rfl)⟩
  | writeModWidth =>
    obtain rfl : i = .isNewCardPresent := by simpa [hs, owns] using ho
    exact ⟨_, exec_writeModWidth hs, write rfl (by rw [hs]; rfl)⟩

/-- A step of an operation at a position of its own: the pure computation, to `u`, and then the step from there. -/
theorem exec_cases {t : State} (hs : s.seq ≠ .idle) (he : exec i s = .next t) :
    owns i s.seq = true ∧ Reaches i s (resume i s) ∧ PrimitiveStep i (resume i s) t := by
  have ho : owns i s.seq = true := by
    cases h : owns i s.seq with
    | true => rfl
    | false => rw [exec_stray h] at he; cases he
  have hr := resume_reaches ho hs
  obtain ⟨t', he', hp⟩ := exec_primitiveStep hr.2.2 hr.2.1
  rw [exec_resume ho hs, he'] at he
  cases he
  exact ⟨ho, hr, hp⟩

/-- A running sequencer's turn is a step of the latched operation, or the completion of a reserved code (R102). -/
theorem sequencerTurn_cases {t : State} (hs : s.seq ≠ .idle) (h : sequencerTurn s = .next t) :
    (∃ i, decodeOp s.op = some i ∧ exec i s = .next t) ∨
      decodeOp s.op = none ∧ t = complete .invalidArgument s := by
  cases hd : decodeOp s.op with
  | some i => exact .inl ⟨i, rfl, by rw [← sequencerTurn_running hs hd]; exact h⟩
  | none => rw [sequencerTurn_reserved hs hd] at h; cases h; exact .inr ⟨rfl, rfl⟩

/-! ### The result writes of the completion -/

section ResultWrites

variable (i : Instr) (st : Status) (s : State) (h : HostRegs)

/-- No result write goes beyond RESULT, the CRC registers, ATQA and the CardId. -/
theorem resultWrites_frame :
    resultWrites i st s h =
      { h with
        result := (resultWrites i st s h).result
        crcLo := (resultWrites i st s h).crcLo, crcHi := (resultWrites i st s h).crcHi
        atqa0 := (resultWrites i st s h).atqa0, atqa1 := (resultWrites i st s h).atqa1
        uidSize := (resultWrites i st s h).uidSize, uid := (resultWrites i st s h).uid
        sak := (resultWrites i st s h).sak } := by
  by_cases hst : st = .ok <;> cases i <;>
    simp [resultWrites, calcCrcResults, requestResults, presentResults, selectResults, serialResults, hst]

/-- The CRC registers are CALC_CRC's, on OK (R32). -/
theorem resultWrites_crc :
    (resultWrites i st s h).crcLo = (if i = .calcCrc ∧ st = .ok then s.crc.lo else h.crcLo) ∧
      (resultWrites i st s h).crcHi = (if i = .calcCrc ∧ st = .ok then s.crc.hi else h.crcHi) := by
  by_cases hst : st = .ok <;> cases i <;>
    simp [resultWrites, calcCrcResults, requestResults, presentResults, selectResults, serialResults, hst]

/-- ATQA is a request's, on OK (R33). -/
theorem resultWrites_atqa :
    (resultWrites i st s h).atqa0 =
        (if (i = .requestOrWakeup ∨ i = .isNewCardPresent) ∧ st = .ok then Memory.read h.rxbuf 0 else h.atqa0) ∧
      (resultWrites i st s h).atqa1 =
        (if (i = .requestOrWakeup ∨ i = .isNewCardPresent) ∧ st = .ok then Memory.read h.rxbuf 1 else h.atqa1) := by
  by_cases hst : st = .ok <;> cases i <;>
    simp [resultWrites, calcCrcResults, requestResults, presentResults, selectResults, serialResults, hst]

/-- RESULT is that of the two convenience operations, on every status (R27). -/
theorem resultWrites_result : (resultWrites i st s h).result = resultAfter i st h := by
  cases i with
  | isNewCardPresent | readCardSerial => cases st <;> rfl
  | _ =>
    by_cases hst : st = .ok <;>
      simp [resultWrites, calcCrcResults, requestResults, selectResults, resultAfter, hst]

variable {i st}

/-- A selection that ends OK commits the CardId (R34, R196). -/
theorem resultWrites_commit (hi : i = .select ∨ i = .readCardSerial) :
    (resultWrites i .ok s h).uid = s.sel.uidWork ∧
      (resultWrites i .ok s h).uidSize = BitVec.ofNat 8 (3 * s.sel.level + 1) ∧
      (resultWrites i .ok s h).sak = Buf.get s.sel.frame 6 := by
  rcases hi with rfl | rfl <;> simp [resultWrites, selectResults, serialResults]

/-- Any other completion keeps it. -/
theorem resultWrites_sameCard (hn : ¬ ((i = .select ∨ i = .readCardSerial) ∧ st = .ok)) :
    sameCard h (resultWrites i st s h) := by
  by_cases hst : st = .ok <;> cases i <;>
    simp_all [sameCard, resultWrites, calcCrcResults, requestResults, presentResults, selectResults, serialResults]

end ResultWrites

/-! ### Positions at which an operation answers -/

/-- On an idle block a call of `exec` does GO with the operation's own code first. -/
theorem exec_idle (hs : s.seq = .idle) : exec i s = exec i (go (s.withH { s.h with op := opcode i })) := by
  cases i <;>
    simp [exec, execCommunicate, execSelect, execReadCardSerial, execRequestOrWakeup, execIsNewCardPresent, execHalt,
      execAuthenticate, execReadBlock, execCalcCrc, execStopCrypto, enter, hs, go]

/-- A running operation answers a next state at its own positions. -/
theorem exec_next_of_running (ho : owns i s.seq = true) (hs : s.seq ≠ .idle) : ∃ t, exec i s = .next t := by
  obtain ⟨-, ha, ho'⟩ := resume_reaches ho hs
  obtain ⟨t, he, -⟩ := exec_primitiveStep ho' ha
  exact ⟨t, (exec_resume ho hs).trans he⟩

/-- Settles O14: while running by `exec_next_of_running`, on an idle block by the same after GO; elsewhere the operation
stops by `exec_stray`. -/
theorem everyOperationRunsAtItsPositions : Obligations.EveryOperationRunsAtItsPositions := by
  unfold Obligations.EveryOperationRunsAtItsPositions
  refine fun i s => ⟨fun ho => ?_, exec_stray⟩
  by_cases hs : s.seq = .idle
  · rw [exec_idle hs]
    exact exec_next_of_running rfl (by simp [go])
  · exact exec_next_of_running ho hs

end Sys2Proof.Machine
end

/-! PROOF. The invariant of the block (O56), for a running operation: its pure computation keeps it, and so does its
step at a bus primitive or the completion. -/
section
namespace Sys2Proof.Machine

/-- What the invariant says of the poll counters and of the position. -/
structure Settled (s : State) : Prop where
  irq_poll : s.comm.irqPoll ≤ s.params.irqPollBudget
  crc_poll : s.crc.crcPoll ≤ s.params.crcPollBudget
  position_ok : seqOk s

variable {i : Instr} {s u : State}

/-- The invariant's part on the poll counters and the position. -/
theorem State.Inv.settled (h : s.Inv) : Settled s := ⟨h.irq_poll, h.crc_poll, h.position_ok⟩

/-! ### Completions -/

/-- A failed operation needs nothing at its completion. -/
theorem seqOk_complete_failed {st : Status} (hs : s.seq = .complete st) (h : st ≠ .ok) : seqOk s := by
  unfold seqOk
  rw [hs]
  cases st with
  | ok => exact absurd rfl h
  | _ => trivial

/-- Nor does an operation that selects no card. -/
theorem seqOk_complete_other {st : Status} (hs : s.seq = .complete st) (hd : decodeOp s.op = some i)
    (h : i ≠ .select ∧ i ≠ .readCardSerial) : seqOk s := by
  by_cases hst : st = .ok
  · subst hst
    unfold seqOk
    rw [hs]
    intro hsel
    rw [hd] at hsel
    rcases hsel with e | e <;> cases e
    · exact absurd rfl h.1
    · exact absurd rfl h.2
  · exact seqOk_complete_failed hs hst

/-- The sites of the resolver are those of SELECT and READ_CARD_SERIAL. -/
theorem ownsCommSite_resolver {site : CommSite} (ho : ownsCommSite i site = true) (h : site ≠ .selectRound) :
    i ≠ .select ∧ i ≠ .readCardSerial := by
  cases site with
  | selectRound => exact absurd rfl h
  | _ => constructor <;> rintro rfl <;> cases ho

theorem ownsCrcSite_resolver {site : CrcSite} (ho : ownsCrcSite i site = true)
    (h : site ≠ .fullFrame ∧ site ≠ .sakCheck) : i ≠ .select ∧ i ≠ .readCardSerial := by
  cases site with
  | fullFrame => exact absurd rfl h.1
  | sakCheck => exact absurd rfl h.2
  | _ => constructor <;> rintro rfl <;> cases ho

/-! ### Calls -/

/-- A round of the resolver stands at a position whose needs the level meets. -/
theorem seqOk_round (h : RoundSeq s.seq) (hl : levelOk s) : seqOk s := by
  unfold seqOk
  rcases h with ⟨d, hq⟩ | ⟨c, hq, hc⟩ <;> rw [hq]
  · exact ⟨trivial, nofun, fun _ => hl⟩
  · exact ⟨⟨hc.dest, hc.fits⟩, trivial, fun _ => hl⟩

/-- A reply that goes to RXBUF is no reply of the resolver's, and it fits there from index 0 on. -/
theorem callFits_rxbuf {p : Params} {site : CommSite} {c : CommCall} (h : callFits p site c) (hd : c.dest = .rxbuf) :
    site ≠ .selectRound ∧ c.off = 0 ∧ c.cap ≤ p.rxbufSize := by
  cases site with
  | selectRound => exact absurd (h.1.symm.trans hd) nofun
  | _ => exact ⟨nofun, h.2⟩

theorem levelOk_of_level_eq (h : u.sel.level = s.sel.level) (hl : levelOk s) : levelOk u := by
  unfold levelOk at *
  rwa [h]

/-- What a Communicate's call needs, at every position of it. -/
def CommReady (site : CommSite) (c : CommCall) (s : State) : Prop :=
  callFits s.params site c ∧ (site = .selectRound → levelOk s)

/-- What a ComputeCrc needs, at every position of it. -/
def CrcReady (site : CrcSite) (s : State) : Prop :=
  (site = .readFrame → s.h.rxCap.toNat ≤ s.params.rxbufSize) ∧ (site = .fullFrame ∨ site = .sakCheck → levelOk s)

theorem Quiet.commReady {site : CommSite} {c : CommCall} (hu : Quiet s u) (hr : CommReady site c s) :
    CommReady site c u :=
  ⟨hu.params ▸ hr.1, fun e => levelOk_of_level_eq (congrArg _ hu.sel) (hr.2 e)⟩

theorem Quiet.crcReady {site : CrcSite} (hu : Quiet s u) (hr : CrcReady site s) : CrcReady site u :=
  ⟨by rw [hu.h, hu.params]; exact hr.1, fun e => levelOk_of_level_eq (congrArg _ hu.sel) (hr.2 e)⟩

/-! ### The callers' code after an exchange or a checksum -/

/-- The caller of a Communicate stands where its needs are met. -/
theorem commReturn_seqOk {site : CommSite} (ho : ownsCommSite i site = true) (hd : decodeOp s.op = some i)
    (hl : site = .selectRound → levelOk s) (st : Status) (n vb : Nat) : seqOk (commReturn site st n vb s) := by
  have fin : site ≠ .selectRound → ∀ st, seqOk (s.withSeq (.complete st)) := fun h st =>
    seqOk_complete_other rfl hd (ownsCommSite_resolver ho h)
  cases site with
  | host => exact fin nofun _
  | selectRound =>
    obtain ⟨-, hlev, hq⟩ := selectAfterExchange_cases st n vb s
    have hl' : levelOk (selectAfterExchange st n vb s) := levelOk_of_level_eq hlev (hl rfl)
    show seqOk (selectAfterExchange st n vb s)
    rcases hq with ⟨-, e⟩ | ⟨-, hok, e⟩ | ⟨-, e | ⟨d, e⟩ | ⟨d, e⟩⟩
    · unfold seqOk; rw [e]; exact hl'
    · exact seqOk_complete_failed e hok
    · exact seqOk_complete_failed e nofun
    · unfold seqOk; rw [e]; exact ⟨trivial, nofun, fun _ => hl'⟩
    · exact seqOk_round (.inl ⟨d, e⟩) hl'
  | request =>
    show seqOk (requestAfterExchange st n vb s)
    unfold requestAfterExchange finish
    split
    · exact fin nofun _
    · split <;> exact fin nofun _
  | halt => exact fin nofun _
  | authenticate => exact fin nofun _
  | readBlock => exact fin nofun _

/-- The caller of a ComputeCrc stands where its needs are met. -/
theorem crcReturn_seqOk {site : CrcSite} (ho : ownsCrcSite i site = true) (hd : decodeOp s.op = some i)
    (hr : CrcReady site s) (x : HostRegs) (st : Status) : seqOk (crcReturn i x site st s) := by
  obtain ⟨hcap, hl⟩ := hr
  have fin : site ≠ .fullFrame ∧ site ≠ .sakCheck → ∀ st, seqOk (s.withSeq (.complete st)) := fun h st =>
    seqOk_complete_other rfl hd (ownsCrcSite_resolver ho h)
  cases site with
  | calcCrc => exact fin ⟨nofun, nofun⟩ _
  | fullFrame =>
    obtain ⟨-, hlev, hq⟩ := selectAfterFrameCrc_cases st s
    show seqOk (selectAfterFrameCrc st s)
    rcases hq with ⟨hok, e⟩ | ⟨-, c, e, hc⟩
    · exact seqOk_complete_failed e hok
    · exact seqOk_round (.inr ⟨c, e, hc⟩) (levelOk_of_level_eq hlev (hl (.inl rfl)))
  | sakCheck =>
    have hlev := hl (.inr rfl)
    obtain ⟨-, hq⟩ := selectAfterSakCrc_cases (knownBitsOf i x) x.uidInSize.toNat st s
    show seqOk (selectAfterSakCrc (knownBitsOf i x) x.uidInSize.toNat st s)
    rcases hq with ⟨hok, e⟩ | ⟨-, e | ⟨hsak, e⟩ | ⟨-, e⟩ | ⟨h3, hnext, e⟩⟩
    · rw [e]; exact seqOk_complete_failed rfl hok
    · rw [e]; exact seqOk_complete_failed rfl nofun
    · rw [e]; exact fun _ => ⟨hlev, hsak⟩
    · rw [e]; exact seqOk_complete_failed rfl nofun
    · refine seqOk_round e ?_
      unfold levelOk at *
      omega
  | haltFrame =>
    show seqOk (haltAfterCrc st s)
    unfold haltAfterCrc finish
    split
    · exact fin ⟨nofun, nofun⟩ _
    · exact ⟨⟨rfl, rfl, Nat.zero_le _⟩, trivial, nofun⟩
  | readFrame =>
    show seqOk (readBlockAfterCrc st s)
    unfold readBlockAfterCrc finish
    split
    · exact fin ⟨nofun, nofun⟩ _
    · exact ⟨⟨rfl, rfl, hcap rfl⟩, trivial, nofun⟩

/-- A selection starts at the first level (R172), or its check failed. -/
theorem selectBegin_seqOk (k : Nat) (s : State) : seqOk (selectBegin k s) := by
  by_cases hk : selectArgs k = true
  · have hlevel := selectBegin_level k s hk
    refine seqOk_round ?_ ⟨Nat.le_of_eq hlevel.symm, by omega⟩
    unfold selectBegin
    rw [if_pos hk]
    exact selectRound_seq _
  · refine seqOk_complete_failed (st := .invalidArgument) ?_ nofun
    unfold selectBegin
    rw [if_neg hk]
    rfl

/-- An operation opens where its needs are met: the argument checks see to the capacities (R119). -/
theorem opening_seqOk (i : Instr) (s : State) : seqOk (opening i s) := by
  have failed : ∀ {st}, st ≠ .ok → seqOk (s.withSeq (.complete st)) := fun h => seqOk_complete_failed rfl h
  cases i with
  | communicate =>
    change seqOk (communicateBegin s)
    unfold communicateBegin
    split
    next h =>
      have hcap : s.h.rxCap.toNat ≤ s.params.rxbufSize := by simp [communicateArgs] at h; exact h.2
      exact ⟨⟨rfl, rfl, hcap⟩, trivial, nofun⟩
    next => exact failed nofun
  | select => exact selectBegin_seqOk _ s
  | readCardSerial => exact selectBegin_seqOk _ s
  | calcCrc =>
    change seqOk (calcCrcBegin s)
    unfold calcCrcBegin
    split
    · exact ⟨trivial, nofun, nofun⟩
    · exact failed nofun
  | requestOrWakeup | stopCrypto | isNewCardPresent => exact trivial
  | halt => exact ⟨trivial, nofun, nofun⟩
  | authenticate =>
    change seqOk (authenticateBegin s)
    unfold authenticateBegin
    split
    · exact ⟨⟨rfl, rfl, Nat.zero_le _⟩, trivial, nofun⟩
    · exact failed nofun
  | readBlock =>
    change seqOk (readBlockBegin s)
    unfold readBlockBegin
    split
    · exact failed nofun
    · split
      · exact failed nofun
      next h => exact ⟨trivial, fun _ => Nat.le_of_not_lt h, nofun⟩

/-! ### The pure computation -/

/-- Steps 7 to 9 of a Communicate stand where the needs are met. -/
theorem afterReply_seqOk {site : CommSite} {c : CommCall} (ho : ownsCommSite i site = true)
    (hd : decodeOp s.op = some i) (hr : CommReady site c s) : seqOk (afterReply site (commReturn site) c s) := by
  rcases afterReply_cases site (commReturn site) c s with e | ⟨-, e⟩ | ⟨-, e | e | ⟨-, -, e⟩⟩ <;> rw [e]
  case inr.inr.inr.inr => exact ⟨hr.1, trivial, hr.2⟩
  all_goals exact commReturn_seqOk ho hd hr.2 _ _ _

/-- The caller's code after an exchange changes only the resolver and the position. -/
theorem commReturn_opened (site : CommSite) (st : Status) (n vb : Nat) (s : State) :
    Opened s (commReturn site st n vb s) := by
  cases site with
  | selectRound => exact (selectAfterExchange_cases st n vb s).1
  | request =>
    change Opened s (requestAfterExchange st n vb s)
    unfold requestAfterExchange
    split
    · exact opened_withSeq _ _
    · split <;> exact opened_withSeq _ _
  | host | halt | authenticate | readBlock => exact opened_withSeq _ _

/-- So does the caller's code after a checksum. -/
theorem crcReturn_opened (i : Instr) (x : HostRegs) (site : CrcSite) (st : Status) (s : State) :
    Opened s (crcReturn i x site st s) := by
  cases site with
  | calcCrc => exact opened_withSeq _ _
  | fullFrame => exact (selectAfterFrameCrc_cases st s).1
  | sakCheck => exact (selectAfterSakCrc_cases (knownBitsOf i x) x.uidInSize.toNat st s).1
  | haltFrame =>
    change Opened s (haltAfterCrc st s)
    unfold haltAfterCrc
    split <;> exact opened_withSeq _ _
  | readFrame =>
    change Opened s (readBlockAfterCrc st s)
    unfold readBlockAfterCrc
    split <;> exact opened_withSeq _ _

/-- So do steps 7 to 9 of Communicate. -/
theorem afterReply_opened (site : CommSite) (c : CommCall) (s : State) :
    Opened s (afterReply site (commReturn site) c s) := by
  rcases afterReply_cases site (commReturn site) c s with e | ⟨-, e⟩ | ⟨-, e | e | ⟨-, -, e⟩⟩ <;> rw [e]
  case inr.inr.inr.inr => exact opened_withSeq _ _
  all_goals exact commReturn_opened _ _ _ _ _

theorem afterReplyCrc_opened (site : CommSite) (c : CommCall) (cs : Status) (s : State) :
    Opened s (afterReplyCrc (commReturn site) c cs s) := by
  obtain ⟨st, e, -⟩ := afterReplyCrc_cases (commReturn site) c cs s
  rw [e]
  exact commReturn_opened _ _ _ _ _

/-- What keeps the engines' locals keeps the bounds of the poll counters. -/
theorem Opened.settled (o : Opened s u) (hirq : s.comm.irqPoll ≤ s.params.irqPollBudget)
    (hcrc : s.crc.crcPoll ≤ s.params.crcPollBudget) (hq : seqOk u) : Settled u :=
  ⟨by rwa [o.comm, o.params], by rwa [o.crc, o.params], hq⟩

/-- A poll that the loop's head let pass is within the budget. -/
theorem crcPosOk_of_head {data : List Byte} {q : CrcPos} (hload : q = .load → data ≠ [])
    (hpoll : q = .poll → s.crc.crcPoll ≠ s.params.crcPollBudget) (hcrc : s.crc.crcPoll ≤ s.params.crcPollBudget) :
    crcPosOk s data q := by
  cases q with
  | load => exact hload rfl
  | poll => exact Nat.lt_of_le_of_ne hcrc (hpoll rfl)
  | _ => trivial

/-- What the pure computation of a Communicate leaves meets the needs of the position it stands at. -/
theorem commPosOk_of_from {c : CommCall} {q : CommPos} (h : commPosFrom c s q)
    (hirq : s.comm.irqPoll ≤ s.params.irqPollBudget) : commPosOk s c q := by
  cases q with
  | poll => exact Nat.lt_of_le_of_ne hirq h
  | readControl d => obtain ⟨rfl, hn⟩ := h; exact ⟨hn.symm, by omega⟩
  | load | readLevel | readData => exact h
  | _ => trivial

/-- The pure computation of a ComputeCrc, whatever call it stands in. -/
theorem crcResume_settled {here : CrcPos → Seq} {ret : Status → State → State} {data : List Byte} (k : CrcNext)
    (hirq : s.comm.irqPoll ≤ s.params.irqPollBudget) (hcrc : s.crc.crcPoll ≤ s.params.crcPollBudget)
    (hhere : ∀ x q, crcPosOk (s.withCrc x) data q → seqOk ((s.withCrc x).withSeq (here q)))
    (hret : ∀ x st, Opened (s.withCrc x) (ret st (s.withCrc x)) ∧ seqOk (ret st (s.withCrc x))) :
    Settled (crcResume here ret data k s) := by
  obtain ⟨n, hn, h⟩ := crcResume_cases here ret data k s
  have hn : n ≤ s.params.crcPollBudget := by omega
  rcases h with ⟨q, hload, hpoll, e⟩ | ⟨-, e⟩ | ⟨-, e⟩ <;> rw [e]
  · exact ⟨hirq, hn, hhere _ _ (crcPosOk_of_head hload hpoll hn)⟩
  · exact (hret _ _).1.settled hirq hn (hret _ _).2
  · exact (hret _ _).1.settled hirq hn (hret _ _).2

/-- The pure computation of a Communicate. -/
theorem commResume_settled {site : CommSite} {c : CommCall} (k : CommNext) (ho : ownsCommSite i site = true)
    (hd : decodeOp s.op = some i) (hirq : s.comm.irqPoll ≤ s.params.irqPollBudget)
    (hcrc : s.crc.crcPoll ≤ s.params.crcPollBudget) (hr : CommReady site c s) :
    Settled (commResume site (commReturn site) c k s) := by
  obtain ⟨x, hx, h⟩ := commResume_cases site (commReturn site) c k s
  have hx : x.irqPoll ≤ s.params.irqPollBudget := by omega
  rcases h with ⟨q, hq, -, e⟩ | e | ⟨e, -⟩ | ⟨e, -⟩ | ⟨e, -⟩ <;> rw [e]
  · exact ⟨hx, hcrc, hr.1, commPosOk_of_from (s := s.withComm x) hq hx, hr.2⟩
  case inr.inr.inr.inr => exact (afterReply_opened _ _ _).settled hx hcrc (afterReply_seqOk ho hd hr)
  all_goals exact (commReturn_opened _ _ _ _ _).settled hx hcrc (commReturn_seqOk (s := s.withComm x) ho hd hr.2 _ _ _)

/-- The pure computation of an operation keeps what the invariant says of the poll counters and the position. -/
theorem resume_settled (h : s.Inv) (hd : decodeOp s.op = some i) (ho : owns i s.seq = true) :
    Settled (resume i s) := by
  obtain ⟨hirq, hcrc, hok⟩ := h.settled
  unfold resume
  split
  next hq => exact (opening_opened i s).settled hirq hcrc (opening_seqOk i s)
  next site data k hq =>
    rw [hq] at ho
    unfold seqOk at hok
    rw [hq] at hok
    exact crcResume_settled k hirq hcrc (fun x q hp => ⟨hp, hok⟩)
      (fun x st => ⟨crcReturn_opened _ _ _ _ _, crcReturn_seqOk (s := s.withCrc x) ho hd hok _ _⟩)
  next site c k hq =>
    rw [hq] at ho
    unfold seqOk at hok
    rw [hq] at hok
    exact commResume_settled k ho hd hirq hcrc ⟨hok.1, hok.2.2⟩
  next site c data k hq =>
    rw [hq] at ho
    unfold seqOk at hok
    rw [hq] at hok
    refine crcResume_settled k hirq hcrc (fun x q hp => ⟨hok.1, hp, hok.2⟩)
      (fun x st => ⟨afterReplyCrc_opened _ _ _ _, ?_⟩)
    obtain ⟨st', e, -⟩ := afterReplyCrc_cases (commReturn site) c st (s.withCrc x)
    rw [e]
    exact commReturn_seqOk (s := s.withCrc x) ho hd hok.2 _ _ _
  next hq =>
    have hcap : s.params.reqReplyCap ≤ s.params.rxbufSize := by
      have hp := h.params_wf
      simp only [Params.wf, Bool.and_eq_true, decide_eq_true_eq] at hp
      omega
    exact ⟨hirq, hcrc, ⟨rfl, rfl, hcap⟩, trivial, nofun⟩
  next v hq =>
    unfold seqOk at hok
    rw [hq] at hok
    obtain ⟨o, hlev, e | e | e⟩ := collResume_cases v s
    · exact o.settled hirq hcrc (seqOk_complete_failed e nofun)
    · exact o.settled hirq hcrc (seqOk_complete_failed e nofun)
    · exact o.settled hirq hcrc (seqOk_round e (levelOk_of_level_eq hlev hok))
  next => exact h.settled

/-- A running block whose host registers change in the RX registers at most meets the invariant again, if the new
reply does its part and the position is settled. -/
theorem State.Inv.of_running {t : State} {n : Byte} {vb : BitVec 3} {m : Memory} (h : s.Inv) (hs : s.seq ≠ .idle)
    (ht : t.seq ≠ .idle) (hp : t.params = s.params) (hop : t.op = s.op)
    (hh : t.h = { s.h with rxLen := n, rxValidBits := vb, rxbuf := m }) (hm : Memory.wf m)
    (hsize : ∀ c ∈ m, c.1 < s.params.rxbufSize) (hn : n.toNat ≤ s.params.rxbufSize) (hd : decodeOp s.op = some i)
    (ho : owns i t.seq = true) (hset : Settled t) : t.Inv where
  params_wf := by rw [hp]; exact h.params_wf
  txbuf_wf := by rw [hh]; exact h.txbuf_wf
  rxbuf_wf := by rw [hh]; exact hm
  txbuf_size := by rw [hh, hp]; exact h.txbuf_size
  rxbuf_size := by rw [hh, hp]; exact hsize
  busy_iff := by rw [hh]; exact h.busy_iff.trans (iff_of_true hs ht)
  done_not_busy := by rw [hh]; exact h.done_not_busy
  status_code := by rw [hh]; exact h.status_code
  rx_len := by rw [hh, hp]; exact hn
  uid_size := by rw [hh]; exact h.uid_size
  sak_complete := by rw [hh]; exact h.sak_complete
  irq_poll := hset.irq_poll
  crc_poll := hset.crc_poll
  position := .inr (.inr ⟨i, by rw [hop]; exact hd, ho⟩)
  position_ok := hset.position_ok

/-- So does one whose host registers do not change. -/
theorem State.Inv.of_running_quiet {t : State} (h : s.Inv) (hs : s.seq ≠ .idle) (ht : t.seq ≠ .idle)
    (hp : t.params = s.params) (hop : t.op = s.op) (hh : t.h = s.h) (hd : decodeOp s.op = some i)
    (ho : owns i t.seq = true) (hset : Settled t) : t.Inv :=
  h.of_running hs ht hp hop hh h.rxbuf_wf h.rxbuf_size h.rx_len hd ho hset

/-- The pure computation of an operation keeps the invariant. -/
theorem resume_inv (h : s.Inv) (hd : decodeOp s.op = some i) (ho : owns i s.seq = true) (hs : s.seq ≠ .idle) :
    (resume i s).Inv := by
  obtain ⟨hc, ha, ho'⟩ := resume_reaches ho hs
  exact h.of_running_quiet hs (fun e => by rw [e] at ha; cases ha) hc.params hc.op hc.h hd ho' (resume_settled h hd ho)

/-! ### The step at a bus primitive or the completion -/

/-- A transaction of a ComputeCrc, whatever call it stands in. -/
theorem crcStep_inv {here : CrcPos → Seq} {next : CrcNext → Seq} {data : List Byte} {pos : CrcPos} (h : s.Inv)
    (hs : s.seq ≠ .idle) (hd : decodeOp s.op = some i) (hpos : crcPosOk s data pos)
    (hhere : ∀ q, here q ≠ .idle ∧ owns i (here q) = true) (hnext : ∀ k, next k ≠ .idle ∧ owns i (next k) = true)
    (hok : ∀ u, Quiet s u → (∀ q, crcPosOk u data q → seqOk (u.withSeq (here q))) ∧ ∀ k, seqOk (u.withSeq (next k))) :
    (crcStep here next data pos s).Inv := by
  obtain ⟨u, hu, hcomm, -, hcrc, hstep⟩ := crcStep_cases here next data pos s
  have hirq : u.comm.irqPoll ≤ u.params.irqPollBudget := by rw [hcomm, hu.params]; exact h.irq_poll
  have hcrc : u.crc.crcPoll ≤ u.params.crcPollBudget := by
    rw [hcrc, hu.params]
    split
    next hp => subst hp; exact hpos
    next => exact h.crc_poll
  rcases hstep with ⟨q, hpoll, hload, e⟩ | ⟨k, -, e⟩ <;> rw [e]
  · exact h.of_running_quiet hs (hhere q).1 hu.params hu.op hu.h hd (hhere q).2
      ⟨hirq, hcrc, (hok u hu).1 q (crcPosOk_of_head (absurd · hload) (absurd · hpoll) hcrc)⟩
  · exact h.of_running_quiet hs (hnext k).1 hu.params hu.op hu.h hd (hnext k).2 ⟨hirq, hcrc, (hok u hu).2 k⟩

/-- A reply is stored where it fits (R30, R147). -/
theorem storeReply_inv {site : CommSite} {c : CommCall} {d : List Byte} {vb : Nat} (h : s.Inv) (hs : s.seq ≠ .idle)
    (hd : decodeOp s.op = some i) (ho : ownsCommSite i site = true) (hr : CommReady site c s)
    (hlen : d.length ≤ c.cap) (hu : Quiet s u) (hirq : u.comm.irqPoll ≤ u.params.irqPollBudget)
    (hcrc : u.crc.crcPoll ≤ u.params.crcPollBudget) :
    ((storeReply c d d.length vb u).withSeq (.commNext site c .stored)).Inv := by
  obtain ⟨hfu, hlu⟩ := hu.commReady hr
  unfold storeReply
  cases hdest : c.dest with
  | frame => exact h.of_running_quiet hs nofun hu.params hu.op hu.h hd ho ⟨hirq, hcrc, hfu, trivial, hlu⟩
  | rxbuf =>
    obtain ⟨-, hoff, hcap⟩ := callFits_rxbuf hr.1 hdest
    refine h.of_running hs nofun hu.params hu.op (by rw [State.withSeq_h, State.withH_h, hu.h])
      (Memory.writeMany_wf h.rxbuf_wf _ _) (fun x hx => ?_) ?_ hd ho ⟨hirq, hcrc, hfu, trivial, hlu⟩
    · rcases Memory.mem_writeMany hx with hx | ⟨-, hx⟩
      · exact h.rxbuf_size x hx
      · omega
    · rw [BitVec.toNat_ofNat]
      exact (Nat.mod_le _ _).trans (hlen.trans hcap)

/-- A transaction of a Communicate. -/
theorem commStep_inv {site : CommSite} {c : CommCall} {pos : CommPos} (h : s.Inv) (hs : s.seq ≠ .idle)
    (hd : decodeOp s.op = some i) (ho : ownsCommSite i site = true) (hr : CommReady site c s)
    (hpos : commPosOk s c pos) : (commStep site c pos s).Inv := by
  obtain ⟨u, hu, hcrc, -, hcn, hpoll, hstep⟩ := commStep_cases site c pos s
  have hcrc : u.crc.crcPoll ≤ u.params.crcPollBudget := by rw [hcrc, hu.params]; exact h.crc_poll
  have hirq : u.comm.irqPoll ≤ u.params.irqPollBudget := by
    rw [hpoll, hu.params]
    split
    next hp => subst hp; exact hpos
    next => exact h.irq_poll
  obtain ⟨hfu, hlu⟩ := hu.commReady hr
  rcases hstep with ⟨q, ⟨hload, hpoll, hlevel, hdata, hctl⟩, e⟩ | ⟨k, -, hlevel, e⟩ | ⟨d, hp, e⟩ <;> rw [e]
  · refine h.of_running_quiet hs nofun hu.params hu.op hu.h hd ho ⟨hirq, hcrc, hfu, ?_, hlu⟩
    cases q with
    | readControl d =>
      obtain ⟨rfl, hlen⟩ := hctl d rfl
      obtain ⟨-, hle⟩ := hpos
      exact ⟨hlen.trans hcn.symm, hcn ▸ hle⟩
    | load | poll | readLevel | readData => contradiction
    | _ => trivial
  · refine h.of_running_quiet hs nofun hu.params hu.op hu.h hd ho ⟨hirq, hcrc, hfu, ?_, hlu⟩
    cases k with
    | gotLevel v => obtain rfl := hlevel ⟨v, rfl⟩; exact hpos
    | _ => trivial
  · rw [hp] at hpos
    obtain ⟨hlen, hle⟩ := hpos
    rw [hcn, ← hlen]
    exact storeReply_inv h hs hd ho hr (hlen ▸ hle) hu hirq hcrc

/-- An access outside the engines. -/
theorem access_inv {q : Seq} (h : s.Inv) (hs : s.seq ≠ .idle) (hd : decodeOp s.op = some i) (hu : Quiet s u)
    (hcomm : u.comm = s.comm) (hcrc : u.crc = s.crc) (hq : AccessSeq i s.seq q) : (u.withSeq q).Inv := by
  have hok : seqOk (u.withSeq q) := by
    have hok := h.position_ok
    unfold seqOk at hok
    unfold AccessSeq at hq
    split at hq
    next hs' => rw [hs'] at hok; exact levelOk_of_level_eq (congrArg _ hu.sel) hok
    next => exact trivial
    next => exact trivial
    next => exact trivial
    next =>
      obtain ⟨rfl, rfl⟩ := hq
      exact seqOk_complete_other rfl (i := .stopCrypto) (hu.op ▸ hd) ⟨nofun, nofun⟩
    next => exact trivial
    next => exact trivial
    next => exact trivial
    next => exact hq.elim
  obtain ⟨hidle, ho⟩ := accessSeq_owns hq
  exact h.of_running_quiet hs hidle hu.params hu.op hu.h hd ho
    ⟨by rw [State.withSeq_comm, hcomm]; exact hu.params ▸ h.irq_poll,
      by rw [State.withSeq_crc, hcrc]; exact hu.params ▸ h.crc_poll, hok⟩

theorem statusCode_le (st : Status) : (statusCode st).toNat ≤ 8 := by cases st <;> decide

/-- At a selection's completion with OK the level gives one of the three identifier lengths (R35). -/
theorem uidSize_of_level (h : levelOk s) :
    BitVec.ofNat 8 (3 * s.sel.level + 1) = 4#8 ∨ BitVec.ofNat 8 (3 * s.sel.level + 1) = 7#8 ∨
      BitVec.ofNat 8 (3 * s.sel.level + 1) = 10#8 := by
  obtain ⟨h1, h3⟩ := h
  obtain h | h | h : s.sel.level = 1 ∨ s.sel.level = 2 ∨ s.sel.level = 3 := by omega
  all_goals rw [h]; decide

/-- The completion step. -/
theorem completeWith_inv {f : HostRegs → HostRegs} {st : Status} (h : s.Inv)
    (hf : f s.h = { s.h with
      result := (f s.h).result, crcLo := (f s.h).crcLo, crcHi := (f s.h).crcHi, atqa0 := (f s.h).atqa0
      atqa1 := (f s.h).atqa1, uidSize := (f s.h).uidSize, uid := (f s.h).uid, sak := (f s.h).sak })
    (hcard : sameCard s.h (f s.h) ∨
      ((f s.h).uidSize = 4 ∨ (f s.h).uidSize = 7 ∨ (f s.h).uidSize = 10) ∧ uidIncomplete (f s.h).sak = false) :
    (completeWith f st s).Inv where
  params_wf := h.params_wf
  txbuf_wf := by show Memory.wf (f s.h).txbuf; rw [hf]; exact h.txbuf_wf
  rxbuf_wf := by show Memory.wf (f s.h).rxbuf; rw [hf]; exact h.rxbuf_wf
  txbuf_size := by show ∀ c ∈ (f s.h).txbuf, _; rw [hf]; exact h.txbuf_size
  rxbuf_size := by show ∀ c ∈ (f s.h).rxbuf, _; rw [hf]; exact h.rxbuf_size
  busy_iff := iff_of_false nofun (absurd rfl)
  done_not_busy := fun _ => rfl
  status_code := statusCode_le st
  rx_len := by show (f s.h).rxLen.toNat ≤ _; rw [hf]; exact h.rx_len
  uid_size := by
    rcases hcard with ⟨hsize, -, -⟩ | ⟨hsize, -⟩
    · have hkept : (completeWith f st s).h.uidSize = s.h.uidSize := hsize
      rw [hkept]; exact h.uid_size
    · exact .inr hsize
  sak_complete := by
    rcases hcard with ⟨hsize, -, hsak⟩ | ⟨-, hsak⟩
    · show (f s.h).uidSize ≠ 0 → uidIncomplete (f s.h).sak = false
      rw [hsize, hsak]; exact h.sak_complete
    · exact fun _ => hsak
  irq_poll := h.irq_poll
  crc_poll := h.crc_poll
  position := .inl rfl
  position_ok := trivial

/-- A step of an operation at a bus primitive or the completion keeps the invariant. -/
theorem PrimitiveStep.inv {t : State} (hp : PrimitiveStep i s t) (h : s.Inv) (hd : decodeOp s.op = some i) : t.Inv := by
  have hok := h.position_ok
  unfold seqOk at hok
  cases hp with
  | computeCrc hs ho =>
    rw [hs] at hok
    obtain ⟨hpos, hr⟩ := hok
    refine crcStep_inv h (by rw [hs]; nofun) hd hpos (fun q => ⟨nofun, ho⟩) (fun k => ⟨nofun, ho⟩) fun u hu => ?_
    exact ⟨fun q hq => ⟨hq, hu.crcReady hr⟩, fun k => hu.crcReady hr⟩
  | communicate hs ho =>
    rw [hs] at hok
    exact commStep_inv h (by rw [hs]; nofun) hd ho ⟨hok.1, hok.2.2⟩ hok.2.1
  | replyCrc hs ho =>
    rw [hs] at hok
    obtain ⟨hfits, hpos, hl⟩ := hok
    refine crcStep_inv h (by rw [hs]; nofun) hd hpos (fun q => ⟨nofun, ho⟩) (fun k => ⟨nofun, ho⟩) fun u hu => ?_
    have hr : CommReady _ _ u := hu.commReady ⟨hfits, hl⟩
    exact ⟨fun q hq => ⟨hr.1, hq, hr.2⟩, fun k => hr⟩
  | access hu hcomm hcrc _ hq =>
    refine access_inv h (fun e => ?_) hd hu hcomm hcrc hq
    rw [e] at hq
    exact hq
  | @complete st hs =>
    rw [hs] at hok
    refine completeWith_inv h (resultWrites_frame i st s s.h) ?_
    by_cases hsel : (i = .select ∨ i = .readCardSerial) ∧ st = .ok
    · obtain ⟨hi, rfl⟩ := hsel
      obtain ⟨hlevel, hsak⟩ := hok (by rw [hd]; simpa using hi)
      obtain ⟨-, hsize, hsak'⟩ := resultWrites_commit s s.h hi
      exact .inr ⟨by rw [hsize]; exact uidSize_of_level hlevel, by rw [hsak', hsak]⟩
    · exact .inl (resultWrites_sameCard s s.h hsel)

end Sys2Proof.Machine
end

/-! PROOF. The turns of a step, said once, and that every one of them keeps the invariant (O56). -/
section
namespace Sys2Proof.Machine

/-! ### What a step is -/

/-- What a step is: a step of the running operation, the completion of a reserved code, a host write, a reset, or a turn
that changes nothing but the records and the coming turns. -/
inductive TurnTaken (s : State) : State → Prop where
  | operation {i : Instr} {agenda : List Turn} {t : State} (hs : s.seq ≠ .idle) (hd : decodeOp s.op = some i)
      (he : exec i (s.withAgenda agenda) = .next t) : TurnTaken s t
  | reserved {agenda : List Turn} (hs : s.seq ≠ .idle) (hd : decodeOp s.op = none) :
      TurnTaken s (complete .invalidArgument (s.withAgenda agenda))
  | write {off v : Byte} {rest : List Turn} (ha : s.agenda = .write off v :: rest) :
      TurnTaken s (hostWrite off v (s.withAgenda rest))
  | reset {rest : List Turn} (ha : s.agenda = .reset :: rest) : TurnTaken s (resetBlock (s.withAgenda rest))
  | observed (agenda : List Turn) (foreign : List Txn) (reads : List (Byte × Byte))
      (hs : s.agenda = [] → s.seq = .idle) (hw : ∀ off v rest, s.agenda ≠ .write off v :: rest) :
      TurnTaken s { s with agenda := agenda, foreign := foreign, reads := reads }

variable {s t : State}

/-- The sequencer's turn, with the coming turns left as `agenda`. -/
theorem turnTaken_sequencer {agenda : List Turn} (hw : ∀ off v rest, s.agenda ≠ .write off v :: rest)
    (h : sequencerTurn (s.withAgenda agenda) = .next t) : TurnTaken s t := by
  by_cases hs : s.seq = .idle
  · rw [sequencerTurn_idle (s := s.withAgenda agenda) hs] at h
    cases h
    exact .observed agenda s.foreign s.reads (fun _ => hs) hw
  · rcases sequencerTurn_cases (s := s.withAgenda agenda) hs h with ⟨i, hd, he⟩ | ⟨hd, rfl⟩
    · exact .operation hs hd he
    · exact .reserved hs hd

/-- Every step is one of these. -/
theorem step_cases (h : step s = .next t) : TurnTaken s t := by
  unfold step at h
  split at h
  next ha => exact turnTaken_sequencer (agenda := s.agenda) (by simp [ha]) h
  next rest ha => exact turnTaken_sequencer (by simp [ha]) h
  next rest ha =>
    unfold untilIdleTurn at h
    split at h
    next hs => cases h; exact .observed rest s.foreign s.reads (fun _ => hs) (by simp [ha])
    next => exact turnTaken_sequencer (agenda := s.agenda) (by simp [ha]) h
  next off v rest ha => cases h; exact .write ha
  next off rest ha => cases h; exact .observed rest s.foreign _ (by simp [ha]) (by simp [ha])
  next rest ha =>
    cases h
    unfold hostWaitTurn
    dsimp only
    split
    · exact .observed rest s.foreign _ (by simp [ha]) (by simp [ha])
    · exact .observed _ s.foreign _ (by simp [ha]) (by simp [ha])
  next rest ha => cases h; exact .reset ha
  next tx rest ha =>
    unfold foreignTurn at h
    split at h
    · cases h
    · cases h; exact .observed rest _ s.reads (by simp [ha]) (by simp [ha])

/-- Settles O8: `decode` gives the operation `decodeOp` does, and the listed turns are the sequencer's. -/
theorem stepRunsDecodedOperation : Obligations.StepRunsDecodedOperation := by
  unfold Obligations.StepRunsDecodedOperation
  intro s i hs hdec
  have hd : decodeOp s.op = some i := by
    unfold decode at hdec
    split at hdec
    next => cases hdec
    next code rest' hcode =>
      cases hcode
      split at hdec
      next j hj => cases hdec; exact hj
      next => cases hdec
  refine ⟨fun ha => ?_, fun rest ha => ?_, fun rest ha => ?_⟩
  · rw [step_sequencer ha, sequencerTurn_running hs hd]
  · simp only [step, ha]
    exact sequencerTurn_running (s := s.withAgenda rest) hs hd
  · simp only [step, ha, untilIdleTurn]
    exact sequencerTurn_running hs hd

/-! ### Registers a host write leaves alone -/

/-- The result registers hold the same in both. -/
structure ResultsKept (h h' : HostRegs) : Prop where
  result : h'.result = h.result
  crc : h'.crcLo = h.crcLo ∧ h'.crcHi = h.crcHi
  atqa : h'.atqa0 = h.atqa0 ∧ h'.atqa1 = h.atqa1
  card : sameCard h h'

/-- So do BUSY, DONE, STATUS and RX_LEN, which no host write reaches either (R21). -/
structure ReadOnlyKept (h h' : HostRegs) : Prop extends ResultsKept h h' where
  busy : h'.busy = h.busy
  done : h'.done = h.done
  status : h'.status = h.status
  rxLen : h'.rxLen = h.rxLen

theorem ResultsKept.refl (h : HostRegs) : ResultsKept h h := ⟨rfl, ⟨rfl, rfl⟩, ⟨rfl, rfl⟩, rfl, rfl, rfl⟩

/-- No host write reaches a read-only register. -/
theorem writeReg_readOnlyKept (r : HostReg) (v : Byte) (h : HostRegs) : ReadOnlyKept h (writeReg r v h) := by
  cases r <;> exact ⟨⟨rfl, ⟨rfl, rfl⟩, ⟨rfl, rfl⟩, rfl, rfl, rfl⟩, rfl, rfl, rfl, rfl⟩

/-- A host write keeps TXBUF and RXBUF canonical and within their sizes. -/
theorem writeReg_buffers {p : Params} {off : Byte} {r : HostReg} {h : HostRegs} (hr : hostRegAt p off = some r)
    (v : Byte) (ht : Memory.wf h.txbuf ∧ ∀ c ∈ h.txbuf, c.1 < p.txbufSize)
    (hx : Memory.wf h.rxbuf ∧ ∀ c ∈ h.rxbuf, c.1 < p.rxbufSize) :
    (Memory.wf (writeReg r v h).txbuf ∧ ∀ c ∈ (writeReg r v h).txbuf, c.1 < p.txbufSize) ∧
      (Memory.wf (writeReg r v h).rxbuf ∧ ∀ c ∈ (writeReg r v h).rxbuf, c.1 < p.rxbufSize) := by
  obtain ⟨-, htsize, hxsize⟩ := hostOffset_of_hostRegAt hr
  have written : ∀ {m : Memory} {n i : Nat}, i < n → (Memory.wf m ∧ ∀ c ∈ m, c.1 < n) →
      Memory.wf (Memory.write m i v) ∧ ∀ c ∈ Memory.write m i v, c.1 < n := fun hi hm =>
    ⟨Memory.write_wf hm.1 _ _, fun c hc => (Memory.mem_write hc).elim (fun e => e ▸ hi) (hm.2 c)⟩
  cases r with
  | txbuf i => exact ⟨written (htsize i rfl) ht, hx⟩
  | rxbuf i => exact ⟨ht, written (hxsize i rfl) hx⟩
  | _ => exact ⟨ht, hx⟩

/-! ### The invariant -/

/-- The invariant speaks of the block alone, not of the records and the coming turns. -/
theorem State.Inv.observed (h : s.Inv) (agenda : List Turn) (foreign : List Txn) (reads : List (Byte × Byte)) :
    State.Inv { s with agenda := agenda, foreign := foreign, reads := reads } :=
  ⟨h.params_wf, h.txbuf_wf, h.rxbuf_wf, h.txbuf_size, h.rxbuf_size, h.busy_iff, h.done_not_busy, h.status_code,
    h.rx_len, h.uid_size, h.sak_complete, h.irq_poll, h.crc_poll, h.position, h.position_ok⟩

/-- A step of the running operation: first its pure computation, then the step from there. -/
theorem exec_inv {i : Instr} (h : s.Inv) (hs : s.seq ≠ .idle) (hd : decodeOp s.op = some i)
    (he : exec i s = .next t) : t.Inv := by
  obtain ⟨ho, hr, hp⟩ := exec_cases hs he
  exact hp.inv (resume_inv h hd ho hs) (by rw [hr.1.op]; exact hd)

theorem complete_inv (h : s.Inv) (st : Status) : (complete st s).Inv :=
  completeWith_inv h rfl (.inl ⟨rfl, rfl, rfl⟩)

/-- GO stands at the first step, which needs nothing. -/
theorem go_inv (h : s.Inv) : (go s).Inv where
  params_wf := h.params_wf
  txbuf_wf := h.txbuf_wf
  rxbuf_wf := h.rxbuf_wf
  txbuf_size := h.txbuf_size
  rxbuf_size := h.rxbuf_size
  busy_iff := iff_of_true rfl nofun
  done_not_busy := nofun
  status_code := h.status_code
  rx_len := h.rx_len
  uid_size := h.uid_size
  sak_complete := h.sak_complete
  irq_poll := h.irq_poll
  crc_poll := h.crc_poll
  position := .inr (.inl rfl)
  position_ok := trivial

/-- A host write of a register, in an idle block. -/
theorem writeReg_inv {off : Byte} {r : HostReg} (h : s.Inv) (hb : s.h.busy = false)
    (hr : hostRegAt s.params off = some r) (v : Byte) : (s.withH (writeReg r v s.h)).Inv := by
  have hk := writeReg_readOnlyKept r v s.h
  obtain ⟨⟨ht, htsize⟩, hx, hxsize⟩ := writeReg_buffers hr v ⟨h.txbuf_wf, h.txbuf_size⟩ ⟨h.rxbuf_wf, h.rxbuf_size⟩
  have hidle : s.seq = .idle := by
    by_contra hs
    rw [h.busy_iff.2 hs] at hb
    cases hb
  obtain ⟨hsize, -, hsak⟩ := hk.card
  exact
    { params_wf := h.params_wf
      txbuf_wf := ht
      rxbuf_wf := hx
      txbuf_size := htsize
      rxbuf_size := hxsize
      busy_iff := by rw [State.withH_h, hk.busy]; exact h.busy_iff
      done_not_busy := by rw [State.withH_h, hk.busy, hk.done]; exact h.done_not_busy
      status_code := by rw [State.withH_h, hk.status]; exact h.status_code
      rx_len := by rw [State.withH_h, hk.rxLen]; exact h.rx_len
      uid_size := by rw [State.withH_h, hsize]; exact h.uid_size
      sak_complete := by rw [State.withH_h, hsize, hsak]; exact h.sak_complete
      irq_poll := h.irq_poll
      crc_poll := h.crc_poll
      position := .inl hidle
      position_ok := by unfold seqOk; rw [State.withH_seq, hidle]; trivial }

theorem hostWrite_inv (h : s.Inv) (off v : Byte) : (hostWrite off v s).Inv := by
  rcases hostWrite_cases off v s with e | ⟨-, -, -, e⟩ | ⟨hb, r, hr, -, e⟩ <;> rw [e]
  · exact h
  · exact go_inv h
  · exact writeReg_inv h hb hr v

/-- The reset state meets the invariant for any well-formed parameters. -/
theorem resetBlock_inv (h : s.params.wf = true) : (resetBlock s).Inv where
  params_wf := h
  txbuf_wf := ⟨.nil, nofun⟩
  rxbuf_wf := ⟨.nil, nofun⟩
  txbuf_size := nofun
  rxbuf_size := nofun
  busy_iff := iff_of_false nofun (absurd rfl)
  done_not_busy := nofun
  status_code := Nat.zero_le _
  rx_len := Nat.zero_le _
  uid_size := .inl rfl
  sak_complete := fun h => absurd rfl h
  irq_poll := Nat.zero_le _
  crc_poll := Nat.zero_le _
  position := .inl rfl
  position_ok := trivial

/-- Settles O55: `State.reset` is the reset of itself. -/
theorem invariantAtReset : Obligations.InvariantAtReset :=
  resetBlock_inv (s := State.reset) Params.default_wf

/-- Settles O56: each turn a step can be keeps the invariant, a step of the operation by `exec_inv`. -/
theorem invariantKeptByEveryStep : Obligations.InvariantKeptByEveryStep := by
  unfold Obligations.InvariantKeptByEveryStep
  intro s t h hstep
  have hinv : ∀ agenda, (s.withAgenda agenda).Inv := fun agenda => h.observed agenda _ _
  cases step_cases hstep with
  | @operation _ agenda _ hs hd he => exact exec_inv (hinv agenda) hs hd he
  | reserved hs hd => exact complete_inv (hinv _) _
  | write ha => exact hostWrite_inv (hinv _) _ _
  | reset ha => exact resetBlock_inv h.params_wf
  | observed => exact h.observed _ _ _

end Sys2Proof.Machine
end

/-! PROOF. What one step of the sequencer can do to the host registers: nothing, take a reply into RXBUF at the
ControlReg read (R30, R147), or complete (R291). -/
section
namespace Sys2Proof.Machine

variable {i : Instr} {s t : State}

/-! ### Where a reply is taken -/

/-- The first primitive of a call, the CollReg read, or the completion: where the callers' code stands. -/
def Seq.isCall : Seq → Bool
  | .communicate _ _ .idle | .computeCrc _ _ .idle | .replyCrc _ _ _ .idle | .readColl | .complete _ => true
  | _ => false

theorem RoundSeq.isCall {q : Seq} (h : RoundSeq q) : q.isCall = true := by
  rcases h with ⟨d, rfl⟩ | ⟨c, rfl, -⟩ <;> rfl

/-- The caller of a Communicate stands there. -/
theorem commReturn_isCall (site : CommSite) (st : Status) (n vb : Nat) (s : State) :
    (commReturn site st n vb s).seq.isCall = true := by
  cases site with
  | selectRound =>
    obtain ⟨-, -, ⟨-, e⟩ | ⟨-, -, e⟩ | ⟨-, e | ⟨d, e⟩ | ⟨d, e⟩⟩⟩ := selectAfterExchange_cases st n vb s <;>
      exact (congrArg Seq.isCall e).trans rfl
  | request =>
    change (requestAfterExchange st n vb s).seq.isCall = true
    unfold requestAfterExchange
    split
    · rfl
    · split <;> rfl
  | host | halt | authenticate | readBlock => rfl

/-- So does the caller of a ComputeCrc. -/
theorem crcReturn_isCall (i : Instr) (x : HostRegs) (site : CrcSite) (st : Status) (s : State) :
    (crcReturn i x site st s).seq.isCall = true := by
  cases site with
  | calcCrc => rfl
  | fullFrame =>
    obtain ⟨-, -, ⟨-, e⟩ | ⟨-, c, e, -⟩⟩ := selectAfterFrameCrc_cases st s <;> exact (congrArg Seq.isCall e).trans rfl
  | sakCheck =>
    change (selectAfterSakCrc (knownBitsOf i x) x.uidInSize.toNat st s).seq.isCall = true
    obtain ⟨-, ⟨-, e⟩ | ⟨-, e | ⟨-, e⟩ | ⟨-, e⟩ | ⟨-, -, e⟩⟩⟩ :=
      selectAfterSakCrc_cases (knownBitsOf i x) x.uidInSize.toNat st s
    case inr.inr.inr.inr => exact e.isCall
    all_goals rw [e]; rfl
  | haltFrame =>
    change (haltAfterCrc st s).seq.isCall = true
    unfold haltAfterCrc
    split <;> rfl
  | readFrame =>
    change (readBlockAfterCrc st s).seq.isCall = true
    unfold readBlockAfterCrc
    split <;> rfl

theorem afterReply_isCall (site : CommSite) (c : CommCall) (s : State) :
    (afterReply site (commReturn site) c s).seq.isCall = true := by
  rcases afterReply_cases site (commReturn site) c s with e | ⟨-, e⟩ | ⟨-, e | e | ⟨-, -, e⟩⟩ <;> rw [e]
  case inr.inr.inr.inr => rfl
  all_goals exact commReturn_isCall _ _ _ _ _

theorem afterReplyCrc_isCall (site : CommSite) (c : CommCall) (cs : Status) (s : State) :
    (afterReplyCrc (commReturn site) c cs s).seq.isCall = true := by
  obtain ⟨st, e, -⟩ := afterReplyCrc_cases (commReturn site) c cs s
  rw [e]
  exact commReturn_isCall _ _ _ _ _

/-- The next step is the ControlReg read after the reply bytes `d` of the call `c`, with `n` then in `S.cn`: it stands
at that read, or at the computation that finds a FIFO level of 0. -/
def RetrievalAt (s : State) (site : CommSite) (c : CommCall) (d : List Byte) (n : Nat) : Prop :=
  s.seq = .communicate site c (.readControl d) ∧ n = s.comm.cn ∨
    d = [] ∧ n = 0 ∧ ∃ v, s.seq = .commNext site c (.gotLevel v) ∧ fifoLevel s.params v = 0

theorem RetrievalAt.atControlRead {site : CommSite} {c : CommCall} {d : List Byte} {n : Nat}
    (h : RetrievalAt s site c d n) : atControlRead s c d := by
  rcases h with ⟨hs, -⟩ | ⟨hd, -, hv⟩
  · exact ⟨site, .inl hs⟩
  · exact ⟨site, .inr ⟨hd, hv⟩⟩

/-- Only a FIFO level of 0 leads the pure computation of a Communicate to the ControlReg read (R81, R153). -/
theorem commResume_readControl {site site' : CommSite} {c c' : CommCall} {k : CommNext} {d : List Byte}
    (hs : s.seq = .commNext site c k)
    (h : (commResume site (commReturn site) c k s).seq = .communicate site' c' (.readControl d)) :
    RetrievalAt s site' c' d (commResume site (commReturn site) c k s).comm.cn := by
  have nocall : ∀ {u : State}, u.seq.isCall = true → u.seq ≠ .communicate site' c' (.readControl d) := by
    intro u hu e; rw [e] at hu; cases hu
  obtain ⟨x, -, ⟨q, hfrom, hlevel, e⟩ | e | ⟨e, -⟩ | ⟨e, -⟩ | ⟨e, -⟩⟩ := commResume_cases site (commReturn site) c k s
  · have hread := h
    rw [e] at hread
    cases hread
    obtain ⟨hd, hn⟩ := hfrom
    obtain ⟨v, rfl⟩ := hlevel (.inr ⟨d, rfl⟩)
    refine .inr ⟨hd, by rw [e]; exact hn, v, hs, ?_⟩
    have hle : ¬ c.cap < fifoLevel s.params v := fun hl => by
      rw [show commResume site (commReturn site) c (.gotLevel v) s = commReturn site .bufferTooSmall 0 0 s from
        if_pos hl] at h
      exact nocall (commReturn_isCall _ _ _ _ _) h
    have hcn : (commResume site (commReturn site) c (.gotLevel v) s).comm.cn = fifoLevel s.params v := by
      simp [commResume, hle]
    rw [← hcn, e]
    exact hn
  all_goals rw [e] at h
  case inr.inr.inr.inr => exact absurd h (nocall (afterReply_isCall _ _ _))
  all_goals exact absurd h (nocall (commReturn_isCall _ _ _ _ _))

/-- Where the pure computation leads to the ControlReg read. -/
theorem resume_readControl {site : CommSite} {c : CommCall} {d : List Byte}
    (h : (resume i s).seq = .communicate site c (.readControl d)) :
    RetrievalAt s site c d (resume i s).comm.cn := by
  have nocall : ∀ {u : State}, u.seq.isCall = true → u.seq ≠ .communicate site c (.readControl d) := by
    intro u hu e; rw [e] at hu; cases hu
  unfold resume at h ⊢
  split at h
  next hq =>
    have ho := opening_seq i s
    rw [h] at ho
    cases site <;> exact ho.elim
  next site' data k hq =>
    obtain ⟨n, -, ⟨q, -, -, e⟩ | ⟨-, e⟩ | ⟨-, e⟩⟩ :=
      crcResume_cases (.computeCrc site' data) (crcReturn i s.h site') data k s <;> rw [e] at h
    · cases h
    · exact absurd h (nocall (crcReturn_isCall _ _ _ _ _))
    · exact absurd h (nocall (crcReturn_isCall _ _ _ _ _))
  next site' c' k hq => exact commResume_readControl hq h
  next site' c' data k hq =>
    unfold replyCrcResume at h
    obtain ⟨n, -, ⟨q, -, -, e⟩ | ⟨-, e⟩ | ⟨-, e⟩⟩ :=
      crcResume_cases (.replyCrc site' c' data) (afterReplyCrc (commReturn site') c') data k s <;> rw [e] at h
    · cases h
    · exact absurd h (nocall (afterReplyCrc_isCall _ _ _ _))
    · exact absurd h (nocall (afterReplyCrc_isCall _ _ _ _))
  next hq => cases h
  next v hq =>
    obtain ⟨-, -, e | e | e⟩ := collResume_cases v s
    · rw [e] at h; cases h
    · rw [e] at h; cases h
    · exact absurd h (nocall e.isCall)
  next => exact .inl ⟨h, rfl⟩

/-! ### The checksum bytes -/

/-- The pure computation keeps the checksum bytes. -/
theorem resume_crcBytes (i : Instr) (s : State) :
    (resume i s).crc.lo = s.crc.lo ∧ (resume i s).crc.hi = s.crc.hi := by
  have same : ∀ {u : State}, u.crc = s.crc → u.crc.lo = s.crc.lo ∧ u.crc.hi = s.crc.hi := fun e => by
    rw [e]; exact ⟨rfl, rfl⟩
  have opened : ∀ {n : Nat} {u : State}, Opened (s.withCrc { s.crc with crcPoll := n }) u →
      u.crc.lo = s.crc.lo ∧ u.crc.hi = s.crc.hi := fun o => by rw [o.crc]; exact ⟨rfl, rfl⟩
  unfold resume
  split
  next => exact same (opening_opened i s).crc
  next site data k hq =>
    obtain ⟨n, -, ⟨q, -, -, e⟩ | ⟨-, e⟩ | ⟨-, e⟩⟩ :=
      crcResume_cases (.computeCrc site data) (crcReturn i s.h site) data k s <;> rw [e]
    · exact ⟨rfl, rfl⟩
    · exact opened (crcReturn_opened _ _ _ _ _)
    · exact opened (crcReturn_opened _ _ _ _ _)
  next site c k hq =>
    obtain ⟨x, -, ⟨q, -, -, e⟩ | e | ⟨e, -⟩ | ⟨e, -⟩ | ⟨e, -⟩⟩ :=
      commResume_cases site (commReturn site) c k s <;> rw [e]
    case inl => exact ⟨rfl, rfl⟩
    case inr.inr.inr.inr => exact same (afterReply_opened _ _ _).crc
    all_goals exact same (commReturn_opened _ _ _ _ _).crc
  next site c data k hq =>
    unfold replyCrcResume
    obtain ⟨n, -, ⟨q, -, -, e⟩ | ⟨-, e⟩ | ⟨-, e⟩⟩ :=
      crcResume_cases (.replyCrc site c data) (afterReplyCrc (commReturn site) c) data k s <;> rw [e]
    · exact ⟨rfl, rfl⟩
    · exact opened (afterReplyCrc_opened _ _ _ _)
    · exact opened (afterReplyCrc_opened _ _ _ _)
  next => exact ⟨rfl, rfl⟩
  next v hq => exact same (collResume_cases v s).1.crc
  next => exact ⟨rfl, rfl⟩

/-! ### What a step does to the host registers -/

/-- What no step of the sequencer changes beside the host registers. -/
structure SequencerKept (s t : State) : Prop where
  params : t.params = s.params
  op : t.op = s.op
  foreign : t.foreign = s.foreign
  reads : t.reads = s.reads
  agenda : t.agenda = s.agenda

theorem SequencerKept.of_computed {u : State} (h : SequencerKept u t) (hc : Computed s u) : SequencerKept s t :=
  ⟨h.params.trans hc.params, h.op.trans hc.op, h.foreign.trans hc.foreign, h.reads.trans hc.reads,
    h.agenda.trans hc.agenda⟩

theorem nextByte_computed {u : State} (hc : Computed s u) : nextByte u = nextByte s := by
  unfold nextByte; rw [hc.env]

/-- The ControlReg read stores the reply at its destination (R147), and of the host registers changes those of a reply
into RXBUF (R30). -/
theorem commStep_readControl (site : CommSite) (c : CommCall) (d : List Byte) (s : State) :
    (commStep site c (.readControl d) s).seq ≠ .idle ∧
      (commStep site c (.readControl d) s).bus = .read .controlReg [nextByte s] :: s.bus ∧
      SequencerKept s (commStep site c (.readControl d) s) ∧
      (commStep site c (.readControl d) s).h =
        match c.dest with
        | .rxbuf =>
          { s.h with
            rxbuf := Memory.writeMany s.h.rxbuf c.off d, rxLen := BitVec.ofNat 8 s.comm.cn
            rxValidBits := BitVec.ofNat 3 (lastBits s.params (nextByte s)) }
        | .frame => s.h := by
  unfold commStep storeReply
  cases c.dest <;> exact ⟨nofun, rfl, ⟨rfl, rfl, rfl, rfl, rfl⟩, rfl⟩

/-- The operation `i` completes with `st`: its result writes, STATUS, BUSY and DONE, with no transaction (R291). -/
structure CompletedBy (i : Instr) (st : Status) (s t : State) : Prop where
  seq : t.seq = .idle
  bus : t.bus = s.bus
  crc_bytes : t.crc.lo = s.crc.lo ∧ t.crc.hi = s.crc.hi
  regs : t.h = { resultWrites i st t s.h with status := statusCode st, busy := false, done := true }

/-- What a step of the operation `i` does to the host registers. -/
inductive ExecResult (i : Instr) (s t : State) : Prop where
  | running (hseq : t.seq ≠ .idle) (hbus : ∃ tx, t.bus = tx :: s.bus) (hh : t.h = s.h)
  | retrieved {site : CommSite} {c : CommCall} {d : List Byte} {n : Nat} (ho : ownsCommSite i site = true)
      (hat : RetrievalAt s site c d n) (hdest : c.dest = .rxbuf) (hseq : t.seq ≠ .idle)
      (hbus : t.bus = .read .controlReg [nextByte s] :: s.bus)
      (hh : t.h =
        { s.h with
          rxbuf := Memory.writeMany s.h.rxbuf c.off d, rxLen := BitVec.ofNat 8 n
          rxValidBits := BitVec.ofNat 3 (lastBits s.params (nextByte s)) })
  | completed {st : Status} (hc : CompletedBy i st s t)

/-- The result writes read the checksum bytes and the resolver alone. -/
theorem resultWrites_congr {u : State} (hcrc : u.crc = s.crc) (hsel : u.sel = s.sel) (st : Status) (h : HostRegs) :
    resultWrites i st u h = resultWrites i st s h := by
  cases i <;> simp only [resultWrites, hcrc, hsel]

/-- A transaction of ComputeCrc leaves the host registers alone and goes on to a position of its caller. -/
theorem crcStep_quiet {P : Seq → Prop} {here : CrcPos → Seq} {next : CrcNext → Seq} (hhere : ∀ q, P (here q))
    (hnext : ∀ k, P (next k)) (data : List Byte) (pos : CrcPos) (s : State) :
    ∃ u q, crcStep here next data pos s = u.withSeq q ∧ P q ∧ Quiet s u ∧ OneTxn s u := by
  obtain ⟨u, hu, -, htx, -, ⟨q, -, -, e⟩ | ⟨k, -, e⟩⟩ := crcStep_cases here next data pos s
  · exact ⟨u, _, e, hhere q, hu, htx⟩
  · exact ⟨u, _, e, hnext k, hu, htx⟩

/-- What a step at a bus primitive or the completion does to the host registers. -/
theorem PrimitiveStep.result {u : State} (hp : PrimitiveStep i u t) (hc : Computed s u)
    (hcrc : u.crc.lo = s.crc.lo ∧ u.crc.hi = s.crc.hi)
    (hat : ∀ site c d, u.seq = .communicate site c (.readControl d) → RetrievalAt s site c d u.comm.cn) :
    SequencerKept s t ∧ ExecResult i s t := by
  have quiet : ∀ {v : State} {q : Seq}, q ≠ .idle → Quiet u v → OneTxn u v →
      SequencerKept s (v.withSeq q) ∧ ExecResult i s (v.withSeq q) := by
    intro v q hq hv ⟨tx, htx, _⟩
    exact ⟨.of_computed (u := u) ⟨hv.params, hv.op, hv.foreign, hv.reads, hv.agenda⟩ hc,
      .running hq ⟨tx, by rw [State.withSeq_bus, htx, hc.bus]⟩ (hv.h.trans hc.h)⟩
  cases hp with
  | @computeCrc site data pos hs ho =>
    obtain ⟨v, q, e, hq, hv, htx⟩ := crcStep_quiet (P := (· ≠ .idle)) (here := .computeCrc site data)
      (next := .crcNext site data) (fun _ => nofun) (fun _ => nofun) data pos u
    rw [e]
    exact quiet hq hv htx
  | @replyCrc site c data pos hs ho =>
    obtain ⟨v, q, e, hq, hv, htx⟩ := crcStep_quiet (P := (· ≠ .idle)) (here := .replyCrc site c data)
      (next := .replyCrcNext site c data) (fun _ => nofun) (fun _ => nofun) data pos u
    rw [replyCrcStep, e]
    exact quiet hq hv htx
  | @communicate site c pos hs ho =>
    obtain ⟨v, hv, -, htx, -, -, ⟨q, -, e⟩ | ⟨k, -, -, e⟩ | ⟨d, rfl, -⟩⟩ := commStep_cases site c pos u
    · rw [e]; exact quiet nofun hv htx
    · rw [e]; exact quiet nofun hv htx
    · obtain ⟨hseq, hbus, hkept, hh⟩ := commStep_readControl site c d u
      refine ⟨hkept.of_computed hc, ?_⟩
      rw [nextByte_computed hc, hc.bus] at hbus
      rw [nextByte_computed hc, hc.params, hc.h] at hh
      cases hdest : c.dest with
      | frame => exact .running hseq ⟨_, hbus⟩ (by rw [hh, hdest])
      | rxbuf => exact .retrieved ho (hat site c d hs) hdest hseq hbus (by rw [hh, hdest])
  | access hu hcomm hcrc' htx hq =>
    exact quiet (accessSeq_owns hq).1 hu htx
  | @complete st hs =>
    have hw : resultWrites i st (completeWith (resultWrites i st u) st u) s.h = resultWrites i st u u.h := by
      rw [hc.h]
      exact resultWrites_congr (s := u) rfl rfl st s.h
    exact ⟨⟨hc.params, hc.op, hc.foreign, hc.reads, hc.agenda⟩, .completed ⟨rfl, hc.bus, hcrc, by rw [hw]; rfl⟩⟩

/-- A step at a bus primitive goes on to a position of its operation; only the completion leaves the sequencer idle. -/
theorem PrimitiveStep.goes_on (hp : PrimitiveStep i s t) :
    (∃ st, s.seq = .complete st ∧ t = completeWith (resultWrites i st s) st s) ∨
      t.seq ≠ .idle ∧ owns i t.seq = true := by
  cases hp with
  | @computeCrc site data pos hs ho =>
    obtain ⟨v, q, e, hq, -, -⟩ := crcStep_quiet (P := fun q => q ≠ .idle ∧ owns i q = true)
      (here := .computeCrc site data) (next := .crcNext site data) (fun _ => ⟨nofun, ho⟩) (fun _ => ⟨nofun, ho⟩)
      data pos s
    rw [e]
    exact .inr hq
  | @replyCrc site c data pos hs ho =>
    obtain ⟨v, q, e, hq, -, -⟩ := crcStep_quiet (P := fun q => q ≠ .idle ∧ owns i q = true)
      (here := .replyCrc site c data) (next := .replyCrcNext site c data) (fun _ => ⟨nofun, ho⟩) (fun _ => ⟨nofun, ho⟩)
      data pos s
    rw [replyCrcStep, e]
    exact .inr hq
  | @communicate site c pos hs ho =>
    obtain ⟨v, -, -, -, -, -, ⟨q, -, e⟩ | ⟨k, -, -, e⟩ | ⟨d, -, e⟩⟩ := commStep_cases site c pos s <;>
      rw [e] <;> exact .inr ⟨nofun, ho⟩
  | access _ _ _ _ hq => exact .inr (accessSeq_owns hq)
  | @complete st hs => exact .inl ⟨st, hs, rfl⟩

/-- Only the completion step leaves the sequencer idle. -/
theorem PrimitiveStep.of_idle (hp : PrimitiveStep i s t) (ht : t.seq = .idle) :
    ∃ st, s.seq = .complete st ∧ t = completeWith (resultWrites i st s) st s :=
  hp.goes_on.resolve_right fun h => h.1 ht

/-- What a step of an operation does to the host registers. -/
theorem exec_result (hs : s.seq ≠ .idle) (he : exec i s = .next t) : SequencerKept s t ∧ ExecResult i s t := by
  obtain ⟨-, hr, hp⟩ := exec_cases hs he
  exact hp.result hr.1 (resume_crcBytes i s) fun _ _ _ => resume_readControl

end Sys2Proof.Machine
end

/-! PROOF. Who writes the host registers (10_state.md R23, R26, R27, R29 to R35): the frames of the sequencer's steps,
and the rules about each result register. -/
section
namespace Sys2Proof.Machine

variable {i : Instr} {s t : State}

/-! ### Frames -/

/-- The block writes no other host register than these. -/
def BlockWrites (h h' : HostRegs) : Prop :=
  h' = { h with
    busy := h'.busy, done := h'.done, result := h'.result, status := h'.status
    rxLen := h'.rxLen, rxValidBits := h'.rxValidBits, rxbuf := h'.rxbuf
    crcLo := h'.crcLo, crcHi := h'.crcHi, atqa0 := h'.atqa0, atqa1 := h'.atqa1
    uidSize := h'.uidSize, uid := h'.uid, sak := h'.sak }

/-- No step of an operation writes another. -/
theorem ExecResult.blockWrites (h : ExecResult i s t) : BlockWrites s.h t.h := by
  unfold BlockWrites
  cases h with
  | running _ _ hh => rw [hh]
  | retrieved _ _ _ _ _ hh => rw [hh]
  | @completed st hc => rw [hc.regs, resultWrites_frame i st t s.h]

/-- So the RW registers but RXBUF read as before. -/
theorem readReg_blockWrites {p : Params} {h h' : HostRegs} (hb : BlockWrites h h') {r : HostReg}
    (hw : writable r = true) (hr : ∀ i, r ≠ .rxbuf i) : readReg p h' r = readReg p h r := by
  rw [hb]
  cases r with
  | rxbuf i => exact absurd rfl (hr i)
  | ctrl | stat | status | rxLen | rxValidBits | crcLo | crcHi | atqa | uidSize | sak | cardType | uid => cases hw
  | _ => rfl

/-- Settles O19: by `exec_result`, a reserved code completing with no result write. -/
theorem sequencerFrame : Obligations.SequencerFrame := by
  unfold Obligations.SequencerFrame
  intro s t h
  have frame : SequencerKept s t ∧ BlockWrites s.h t.h ∧ (t.seq ≠ .idle →
      t.h = { s.h with rxLen := t.h.rxLen, rxValidBits := t.h.rxValidBits, rxbuf := t.h.rxbuf } ∧
        (t.h = s.h ∨
          t.bus = .read .controlReg [nextByte s] :: s.bus ∧ ∃ c d, atControlRead s c d ∧ c.dest = .rxbuf)) := by
    by_cases hs : s.seq = .idle
    · rw [sequencerTurn_idle hs] at h
      cases h
      exact ⟨⟨rfl, rfl, rfl, rfl, rfl⟩, rfl, absurd hs⟩
    · rcases sequencerTurn_cases hs h with ⟨i, -, he⟩ | ⟨-, rfl⟩
      · obtain ⟨hk, hr⟩ := exec_result hs he
        refine ⟨hk, hr.blockWrites, fun ht => ?_⟩
        cases hr with
        | running _ _ hh => exact ⟨by rw [hh], .inl hh⟩
        | retrieved _ hat hdest _ hbus hh => exact ⟨by rw [hh], .inr ⟨hbus, _, _, hat.atControlRead, hdest⟩⟩
        | completed hc => exact absurd hc.seq ht
      · exact ⟨⟨rfl, rfl, rfl, rfl, rfl⟩, rfl, absurd rfl⟩
  obtain ⟨⟨hp, hop, hf, hr, ha⟩, hw, hrun⟩ := frame
  exact ⟨hp, hop, hf, hr, ha, hw, fun r hwr hx => by rw [hp]; exact readReg_blockWrites hw hwr hx, hrun⟩

/-! ### Replies -/

/-- The reply being taken fits its destination, and its length is the one in `S.cn`. -/
theorem RetrievalAt.ready {site : CommSite} {c : CommCall} {d : List Byte} {n : Nat}
    (h : RetrievalAt s site c d n) (hinv : s.Inv) : callFits s.params site c ∧ n = d.length := by
  have hok := hinv.position_ok
  unfold seqOk at hok
  rcases h with ⟨hs, hn⟩ | ⟨hd, hn, v, hs, -⟩ <;> rw [hs] at hok
  · obtain ⟨hfits, ⟨hlen, -⟩, -⟩ := hok
    exact ⟨hfits, hn.trans hlen.symm⟩
  · exact ⟨hok.1, by rw [hd, hn]; rfl⟩

/-- A call whose reply is being taken expects one, and has the shape of its operation's calls. -/
theorem RetrievalAt.callShape {site : CommSite} {c : CommCall} {d : List Byte} {n : Nat}
    (h : RetrievalAt s site c d n) (hst : statusOk i s) : callShape i c ∧ 0 < c.cap := by
  unfold statusOk at hst
  rcases h with ⟨hs, -⟩ | ⟨-, -, v, hs, -⟩ <;> rw [hs] at hst
  · exact ⟨hst.1, hst.2 (.inr (.inr ⟨d, rfl⟩))⟩
  · exact ⟨hst.1, hst.2 (.inl ⟨v, rfl⟩)⟩

/-- A step that takes no reply into RXBUF keeps the RX registers. -/
theorem ExecResult.keepsReply (h : ExecResult i s t)
    (hn : ∀ site c d n, ownsCommSite i site = true → RetrievalAt s site c d n → c.dest ≠ .rxbuf) :
    sameReply s.h t.h := by
  cases h with
  | running _ _ hh => rw [hh]; exact ⟨rfl, rfl, rfl⟩
  | retrieved ho hat hdest => exact absurd hdest (hn _ _ _ _ ho hat)
  | @completed st hc => rw [hc.regs, resultWrites_frame i st t s.h]; exact ⟨rfl, rfl, rfl⟩

/-- The selections take their replies into the frame. -/
theorem selection_keepsReply (h : ExecResult i s t) (hinv : s.Inv) (hi : i = .select ∨ i = .readCardSerial) :
    sameReply s.h t.h := by
  refine h.keepsReply fun site c d n ho hat hdest => ?_
  obtain ⟨hsite, -⟩ := callFits_rxbuf (hat.ready hinv).1 hdest
  obtain ⟨h1, h2⟩ := ownsCommSite_resolver ho hsite
  exact hi.elim h1 h2

/-- The valid bits fit RX_VALID_BITS, by the range of the mask (R48). -/
theorem lastBits_lt {p : Params} (h : p.wf = true) (v : Byte) : lastBits p v < 8 := by
  have hm : p.mask.wf = true := by
    simp only [Params.wf, Bool.and_eq_true] at h
    exact h.2
  simp only [ChipMasks.wf, Bool.and_eq_true, decide_eq_true_eq] at hm
  have hle : lastBits p v ≤ p.mask.rxLastBits.toNat := by
    unfold lastBits
    rw [BitVec.toNat_and]
    exact Nat.and_le_right
  omega

/-- Settles O27: a reply is stored from index 0 on by the invariant, and its valid bits fit by R48's range of the
mask. -/
theorem replyRegistersWrittenAtRetrieval : Obligations.ReplyRegistersWrittenAtRetrieval := by
  unfold Obligations.ReplyRegistersWrittenAtRetrieval
  intro s t hinv h
  by_cases hs : s.seq = .idle
  · rw [sequencerTurn_idle hs] at h
    cases h
    exact ⟨.inl ⟨rfl, rfl, rfl⟩, fun _ => ⟨rfl, rfl, rfl⟩⟩
  rcases sequencerTurn_cases hs h with ⟨i, hd, he⟩ | ⟨-, rfl⟩
  · obtain ⟨-, hr⟩ := exec_result hs he
    refine ⟨?_, fun hi => selection_keepsReply hr hinv (by rw [hd] at hi; simpa using hi)⟩
    cases hr with
    | running _ _ hh => exact .inl (by rw [hh]; exact ⟨rfl, rfl, rfl⟩)
    | @completed st hc => exact .inl (by rw [hc.regs, resultWrites_frame i st t s.h]; exact ⟨rfl, rfl, rfl⟩)
    | @retrieved site c d n ho hat hdest _ hbus hh =>
      obtain ⟨hfits, rfl⟩ := hat.ready hinv
      obtain ⟨-, hoff, -⟩ := callFits_rxbuf hfits hdest
      refine .inr ⟨c, d, hat.atControlRead, hdest, hbus, by rw [hh], ?_, fun j hj => ?_, fun a ha => ?_⟩
      · rw [hh]
        exact Nat.mod_eq_of_lt (lastBits_lt hinv.params_wf _)
      · rw [hh, hoff]
        simpa using Memory.read_writeMany_same hinv.rxbuf_wf (i := 0) d hj
      · rw [hh, hoff]
        exact Memory.read_writeMany_other _ _ (.inr (by omega))
  · exact ⟨.inl ⟨rfl, rfl, rfl⟩, fun _ => ⟨rfl, rfl, rfl⟩⟩

/-! ### The result registers at a completion -/

section Completion

variable {st : Status}

theorem statusCode_eq_ok : statusCode st = 0x00 ↔ st = .ok := by cases st <;> decide

theorem statusCode_eq_collision : statusCode st = 0x02 ↔ st = .collision := by cases st <;> decide

theorem CompletedBy.status (h : CompletedBy i st s t) : t.h.status = statusCode st := by rw [h.regs]

theorem CompletedBy.busy (h : CompletedBy i st s t) : t.h.busy = false := by rw [h.regs]

theorem CompletedBy.done (h : CompletedBy i st s t) : t.h.done = true := by rw [h.regs]

theorem CompletedBy.result (h : CompletedBy i st s t) : t.h.result = resultAfter i st s.h := by
  rw [h.regs]
  exact resultWrites_result i st t s.h

theorem CompletedBy.crc (h : CompletedBy i st s t) :
    t.h.crcLo = (if i = .calcCrc ∧ st = .ok then s.crc.lo else s.h.crcLo) ∧
      t.h.crcHi = (if i = .calcCrc ∧ st = .ok then s.crc.hi else s.h.crcHi) := by
  rw [h.regs, ← h.crc_bytes.1, ← h.crc_bytes.2]
  exact resultWrites_crc i st t s.h

theorem CompletedBy.atqa (h : CompletedBy i st s t) :
    t.h.atqa0 =
        (if (i = .requestOrWakeup ∨ i = .isNewCardPresent) ∧ st = .ok then Memory.read s.h.rxbuf 0 else s.h.atqa0) ∧
      t.h.atqa1 =
        (if (i = .requestOrWakeup ∨ i = .isNewCardPresent) ∧ st = .ok then Memory.read s.h.rxbuf 1 else s.h.atqa1) := by
  rw [h.regs]
  exact resultWrites_atqa i st t s.h

theorem CompletedBy.commit (h : CompletedBy i .ok s t) (hi : i = .select ∨ i = .readCardSerial) :
    t.h.uid = t.sel.uidWork ∧ t.h.uidSize = BitVec.ofNat 8 (3 * t.sel.level + 1) ∧
      t.h.sak = Buf.get t.sel.frame 6 := by
  rw [h.regs]
  exact resultWrites_commit t s.h hi

theorem CompletedBy.card (h : CompletedBy i st s t) (hn : ¬ ((i = .select ∨ i = .readCardSerial) ∧ st = .ok)) :
    sameCard s.h t.h := by
  rw [h.regs]
  exact resultWrites_sameCard t s.h hn

end Completion

/-- A step that does not complete leaves the result registers alone. -/
theorem ExecResult.kept_or_completed (h : ExecResult i s t) :
    ResultsKept s.h t.h ∧ t.seq ≠ .idle ∨ ∃ st, CompletedBy i st s t := by
  cases h with
  | running hseq _ hh => exact .inl ⟨hh ▸ .refl _, hseq⟩
  | retrieved _ _ _ hseq _ hh => exact .inl ⟨by rw [hh]; exact ⟨rfl, ⟨rfl, rfl⟩, ⟨rfl, rfl⟩, rfl, rfl, rfl⟩, hseq⟩
  | completed hc => exact .inr ⟨_, hc⟩

/-- The operations that read no reply into RXBUF (R170, R214, R238, R243, R250). -/
theorem no_retrieval (hinv : s.Inv) (hst : statusOk i s)
    (hi : i = .select ∨ i = .readCardSerial ∨ i = .calcCrc ∨ i = .halt ∨ i = .authenticate ∨ i = .stopCrypto)
    (site : CommSite) (c : CommCall) (d : List Byte) (n : Nat) (ho : ownsCommSite i site = true)
    (hat : RetrievalAt s site c d n) : c.dest ≠ .rxbuf := by
  intro hdest
  obtain ⟨hsite, -⟩ := callFits_rxbuf (hat.ready hinv).1 hdest
  obtain ⟨⟨-, hcap⟩, hpos⟩ := hat.callShape hst
  obtain ⟨h1, h2⟩ := ownsCommSite_resolver ho hsite
  rcases hi with h | h | rfl | h | h | rfl
  · exact h1 h
  · exact h2 h
  · cases site <;> cases ho
  · exact absurd (hcap (.inl h)) (by omega)
  · exact absurd (hcap (.inr h)) (by omega)
  · cases site <;> cases ho

/-- Settles O20: such an operation takes no reply by `no_retrieval`, and the result registers of the others are kept by
its completion. -/
theorem operationsKeepOthersRegisters : Obligations.OperationsKeepOthersRegisters := by
  unfold Obligations.OperationsKeepOthersRegisters
  intro i s t hinv hd hst hs he
  obtain ⟨-, hr⟩ := exec_result hs he
  refine ⟨fun hi => ?_, fun a => by rw [hr.blockWrites], ?_⟩
  · obtain ⟨hlen, hvb, hbuf⟩ := hr.keepsReply (no_retrieval hinv hst hi)
    exact ⟨⟨hlen, hvb, hbuf⟩, fun a => by rw [hbuf]⟩
  · rcases hr.kept_or_completed with ⟨hk, -⟩ | ⟨st, hc⟩
    · exact ⟨fun _ => hk.crc, fun _ _ => hk.atqa, fun _ _ => hk.card, fun _ _ => hk.result⟩
    · refine ⟨fun hi => ?_, fun h1 h2 => ?_, fun h1 h2 => hc.card (by tauto), fun h1 h2 => ?_⟩
      · simpa [hi] using hc.crc
      · simpa [h1, h2] using hc.atqa
      · rw [hc.result]
        cases i <;> first | rfl | contradiction

/-! ### The result registers of the whole machine -/

/-- No host write changes a result register. -/
theorem hostWrite_resultsKept (off v : Byte) (s : State) : ResultsKept s.h (hostWrite off v s).h := by
  rcases hostWrite_cases off v s with e | ⟨-, -, -, e⟩ | ⟨-, r, -, -, e⟩ <;> rw [e]
  · exact .refl _
  · exact ⟨rfl, ⟨rfl, rfl⟩, ⟨rfl, rfl⟩, rfl, rfl, rfl⟩
  · exact (writeReg_readOnlyKept r v s.h).toResultsKept

/-- The result registers change at the completion of an operation and at reset alone; a step of the sequencer that ends
with the result registers kept and the block idle completes a reserved code. -/
theorem step_results (h : step s = .next t) :
    (∃ i st, s.seq ≠ .idle ∧ decodeOp s.op = some i ∧ CompletedBy i st s t) ∨ (∃ rest, s.agenda = .reset :: rest) ∨
      ResultsKept s.h t.h ∧ (s.agenda = [] → s.seq ≠ .idle → t.seq = .idle → decodeOp s.op = none) := by
  cases step_cases h with
  | @operation i agenda _ hs hd he =>
    rcases (exec_result (s := s.withAgenda agenda) hs he).2.kept_or_completed with ⟨hk, hseq⟩ | ⟨st, hc⟩
    · exact .inr (.inr ⟨hk, fun _ _ ht => absurd ht hseq⟩)
    · exact .inl ⟨i, st, hs, hd, hc.seq, hc.bus, hc.crc_bytes, hc.regs⟩
  | reserved hs hd => exact .inr (.inr ⟨⟨rfl, ⟨rfl, rfl⟩, ⟨rfl, rfl⟩, rfl, rfl, rfl⟩, fun _ _ _ => hd⟩)
  | @write off v rest ha =>
    exact .inr (.inr ⟨hostWrite_resultsKept off v (s.withAgenda rest), fun h => by rw [ha] at h; cases h⟩)
  | reset ha => exact .inr (.inl ⟨_, ha⟩)
  | observed _ _ _ hs _ => exact .inr (.inr ⟨.refl _, fun ha hs' => absurd (hs ha) hs'⟩)

/-- A result register that the operations `P` write on OK, and no other completion does, is written at such a completion
and at reset alone. -/
theorem written_at_ok {P : Instr → Prop} {kept written : Prop} (h : step s = .next t)
    (hk : ResultsKept s.h t.h → kept) (hw : ∀ i, P i → CompletedBy i .ok s t → written)
    (hn : ∀ i st, CompletedBy i st s t → ¬ (P i ∧ st = .ok) → kept) :
    (kept ∨ (∃ rest, s.agenda = .reset :: rest) ∨
      ∃ i, s.seq ≠ .idle ∧ decodeOp s.op = some i ∧ P i ∧ CompletedBy i .ok s t) ∧
    (s.agenda = [] → s.seq ≠ .idle → t.seq = .idle → t.h.status = 0x00 → (∃ i, decodeOp s.op = some i ∧ P i) →
      written) := by
  rcases step_results h with ⟨i, st, hs, hd, hc⟩ | hreset | ⟨hkept, hnone⟩
  · rw [hc.status, statusCode_eq_ok]
    by_cases hok : P i ∧ st = .ok
    · obtain ⟨hp, rfl⟩ := hok
      exact ⟨.inr (.inr ⟨i, hs, hd, hp, hc⟩), fun _ _ _ _ _ => hw i hp hc⟩
    · refine ⟨.inl (hn i st hc hok), fun _ _ _ hst ⟨j, hj, hp⟩ => ?_⟩
      rw [hd] at hj
      cases hj
      exact absurd ⟨hp, hst⟩ hok
  · exact ⟨.inr (.inl hreset), fun ha => by obtain ⟨rest, hr⟩ := hreset; rw [hr] at ha; cases ha⟩
  · exact ⟨.inl (hk hkept), fun ha hs ht _ ⟨j, hj, _⟩ => by rw [hnone ha hs ht] at hj; cases hj⟩

/-- Settles O24: CRC_LO and CRC_HI are CALC_CRC's, written with the bytes it ends with. -/
theorem crcRegistersWrittenByCalcCrcOnly : Obligations.CrcRegistersWrittenByCalcCrcOnly := by
  unfold Obligations.CrcRegistersWrittenByCalcCrcOnly
  intro s t h
  obtain ⟨hchange, hwritten⟩ := written_at_ok (P := (· = .calcCrc))
    (kept := t.h.crcLo = s.h.crcLo ∧ t.h.crcHi = s.h.crcHi) (written := t.h.crcLo = s.crc.lo ∧ t.h.crcHi = s.crc.hi) h
    (·.crc) (fun i hi hc => by simpa [hi] using hc.crc)
    (fun i st hc hn => by have := hc.crc; rwa [if_neg hn, if_neg hn] at this)
  refine ⟨?_, fun ha hs ht hst hi => hwritten ha hs ht hst ⟨_, hi, rfl⟩⟩
  rcases hchange with hk | hr | ⟨i, hs, hd, rfl, hc⟩
  · exact .inl hk
  · exact .inr (.inl hr)
  · exact .inr (.inr ⟨hs, hc.seq, hc.status, hd⟩)

/-- The latched operation is one of two. -/
theorem decodeOp_eq_or {a b : Instr} :
    decodeOp s.op = some a ∨ decodeOp s.op = some b ↔ ∃ i, decodeOp s.op = some i ∧ (i = a ∨ i = b) := by
  constructor
  · rintro (h | h)
    · exact ⟨a, h, .inl rfl⟩
    · exact ⟨b, h, .inr rfl⟩
  · rintro ⟨i, h, rfl | rfl⟩
    · exact .inl h
    · exact .inr h

/-- Settles O25: ATQA is a request's, written with the first two reply bytes. -/
theorem atqaWrittenByRequestsOnly : Obligations.AtqaWrittenByRequestsOnly := by
  unfold Obligations.AtqaWrittenByRequestsOnly
  intro s t h
  obtain ⟨hchange, hwritten⟩ := written_at_ok (P := fun i => i = .requestOrWakeup ∨ i = .isNewCardPresent)
    (kept := t.h.atqa0 = s.h.atqa0 ∧ t.h.atqa1 = s.h.atqa1)
    (written := t.h.atqa0 = Memory.read s.h.rxbuf 0 ∧ t.h.atqa1 = Memory.read s.h.rxbuf 1) h
    (·.atqa) (fun i hi hc => by simpa [hi] using hc.atqa)
    (fun i st hc hn => by have := hc.atqa; rwa [if_neg hn, if_neg hn] at this)
  rw [decodeOp_eq_or]
  refine ⟨?_, hwritten⟩
  rcases hchange with hk | hr | ⟨i, hs, hd, hi, hc⟩
  · exact .inl hk
  · exact .inr (.inl hr)
  · exact .inr (.inr ⟨hs, hc.seq, hc.status, i, hd, hi⟩)

/-- The CardId register changes at reset and at the completion of a selection with OK, which commits it whole. -/
theorem card_written (h : step s = .next t) :
    (sameCard s.h t.h ∨ (∃ rest, s.agenda = .reset :: rest) ∨
      ∃ i, s.seq ≠ .idle ∧ decodeOp s.op = some i ∧ (i = .select ∨ i = .readCardSerial) ∧ CompletedBy i .ok s t) ∧
    (s.agenda = [] → s.seq ≠ .idle → t.seq = .idle → t.h.status = 0x00 →
      (∃ i, decodeOp s.op = some i ∧ (i = .select ∨ i = .readCardSerial)) →
      t.h.uid = t.sel.uidWork ∧ t.h.uidSize = BitVec.ofNat 8 (3 * t.sel.level + 1) ∧
        t.h.sak = Buf.get t.sel.frame 6) :=
  written_at_ok h (·.card) (fun _ hi hc => hc.commit hi) (fun _ _ hc hn => hc.card hn)

/-- Settles O22: the CardId is a selection's, by `card_written`. -/
theorem cardIdReplacedWhole : Obligations.CardIdReplacedWhole := by
  unfold Obligations.CardIdReplacedWhole
  intro s t h
  obtain ⟨hchange, hwritten⟩ := card_written h
  dsimp only
  rw [decodeOp_eq_or]
  refine ⟨?_, hwritten⟩
  rcases hchange with hk | hr | ⟨i, hs, hd, hi, hc⟩
  · exact .inl hk
  · exact .inr (.inl hr)
  · exact .inr (.inr ⟨hs, hc.seq, hc.bus, ⟨i, hd, hi⟩, hc.status, hc.done, hc.commit hi⟩)

/-- Settles O26: RESULT is written on every status, so by `step_results` itself. -/
theorem resultFlagWrittenByTwoOperations : Obligations.ResultFlagWrittenByTwoOperations := by
  unfold Obligations.ResultFlagWrittenByTwoOperations
  intro s t h
  rcases step_results h with ⟨i, st, hs, hd, hc⟩ | hreset | ⟨hk, hnone⟩
  · rw [hc.status, statusCode_eq_ok, statusCode_eq_collision, hc.result, hd]
    refine ⟨?_, fun _ _ _ => ⟨fun hi => ?_, fun hi => ?_⟩⟩
    · cases i with
      | isNewCardPresent => exact .inr (.inr ⟨hs, hc.seq, .inl rfl⟩)
      | readCardSerial => exact .inr (.inr ⟨hs, hc.seq, .inr rfl⟩)
      | _ => exact .inl rfl
    · cases hi; simp [resultAfter]
    · cases hi; simp [resultAfter]
  · exact ⟨.inr (.inl hreset), fun ha => by obtain ⟨rest, hr⟩ := hreset; rw [hr] at ha; cases ha⟩
  · exact ⟨.inl hk.result, fun ha hs ht => by rw [hnone ha hs ht]; exact ⟨nofun, nofun⟩⟩

/-! ### UID_SIZE -/

/-- A selection that completes with OK has reached one of the three levels. -/
theorem exec_commit_uidSize (hinv : s.Inv) (hs : s.seq ≠ .idle) (hd : decodeOp s.op = some i)
    (hi : i = .select ∨ i = .readCardSerial) (he : exec i s = .next t) (ht : t.seq = .idle) (hst : t.h.status = 0x00) :
    t.h.uidSize = 4 ∨ t.h.uidSize = 7 ∨ t.h.uidSize = 10 := by
  obtain ⟨ho, hr, hp⟩ := exec_cases hs he
  obtain ⟨st, hu, rfl⟩ := hp.of_idle ht
  obtain rfl : st = .ok := statusCode_eq_ok.1 hst
  have hok := (resume_inv hinv hd ho hs).position_ok
  unfold seqOk at hok
  rw [hu] at hok
  obtain ⟨hlevel, -⟩ := hok (by rw [hr.1.op, hd]; simpa using hi)
  obtain ⟨-, hsize, -⟩ := resultWrites_commit (resume i s) (resume i s).h hi
  have huid : (completeWith (resultWrites i .ok (resume i s)) .ok (resume i s)).h.uidSize =
      BitVec.ofNat 8 (3 * (resume i s).sel.level + 1) := hsize
  rw [huid]
  exact uidSize_of_level hlevel

/-- Settles O23: a selection's commit by `exec_commit_uidSize`; every other step but the reset keeps the CardId. -/
theorem uidSizeAlwaysValid : Obligations.UidSizeAlwaysValid := by
  unfold Obligations.UidSizeAlwaysValid
  refine ⟨rfl, fun s t hinv h => ⟨fun ha hs ht hst hi => ?_, fun hne => ?_⟩⟩
  · obtain ⟨i, hd, hi⟩ := decodeOp_eq_or.1 hi
    rw [step_sequencer ha, sequencerTurn_running hs hd] at h
    exact exec_commit_uidSize hinv hs hd hi h ht hst
  · cases step_cases h with
    | @operation i agenda _ hs hd he =>
      rcases (exec_result (s := s.withAgenda agenda) hs he).2.kept_or_completed with ⟨hk, -⟩ | ⟨st, hc⟩
      · exact absurd hk.card.1 hne
      · by_cases hok : (i = .select ∨ i = .readCardSerial) ∧ st = .ok
        · obtain ⟨hi, rfl⟩ := hok
          exact .inr ⟨decodeOp_eq_or.2 ⟨i, hd, hi⟩, hc.status,
            exec_commit_uidSize (s := s.withAgenda agenda) (hinv.observed agenda _ _) hs hd hi he hc.seq hc.status⟩
        · exact absurd (hc.card hok).1 hne
    | reserved => exact absurd rfl hne
    | @write off v rest ha => exact absurd (hostWrite_resultsKept off v (s.withAgenda rest)).card.1 hne
    | reset ha => exact .inl ⟨⟨_, ha⟩, rfl⟩
    | observed => exact absurd rfl hne

/-! ### BUSY and DONE -/

/-- BUSY and DONE hold the same in both. -/
def SameActivity (h h' : HostRegs) : Prop := h'.busy = h.busy ∧ h'.done = h.done

/-- A host write that is not GO keeps BUSY and DONE. -/
theorem hostWrite_activity {off v : Byte} {s : State}
    (hn : ¬ (s.h.busy = false ∧ off = 0x01 ∧ v.getLsbD 0 = true)) : SameActivity s.h (hostWrite off v s).h := by
  rcases hostWrite_cases off v s with e | ⟨hb, ho, hv, -⟩ | ⟨-, r, -, -, e⟩
  · rw [e]; exact ⟨rfl, rfl⟩
  · exact absurd ⟨hb, ho, hv⟩ hn
  · rw [e]; exact ⟨(writeReg_readOnlyKept r v s.h).busy, (writeReg_readOnlyKept r v s.h).done⟩

/-- The next turn is the write of GO. -/
def GoNext (s : State) : Prop := ∃ off v rest, s.agenda = .write off v :: rest ∧ off = 0x01 ∧ v.getLsbD 0 = true

/-- What a step does to BUSY and DONE. -/
inductive ActivityStep (s t : State) : Prop where
  | go (hgo : GoNext s) (hidle : s.h.busy = false) (busy : t.h.busy = true) (done : t.h.done = false)
  | reset (hreset : ∃ rest, s.agenda = .reset :: rest) (busy : t.h.busy = false) (done : t.h.done = false)
  | completed (hrun : s.h.busy = true) (hs : s.seq ≠ .idle) (hseq : t.seq = .idle) (hbus : t.bus = s.bus)
      (busy : t.h.busy = false) (done : t.h.done = true)
  | kept (same : SameActivity s.h t.h) (hgo : s.h.busy = false → ¬ GoNext s)
      (hrun : s.agenda = [] → s.h.busy = true → t.seq ≠ .idle ∧ t.bus ≠ s.bus)

/-- Every step does one of these to them. -/
theorem step_activity (hinv : s.Inv) (h : step s = .next t) : ActivityStep s t := by
  have nobusy : ∀ {p : Prop}, s.seq ≠ .idle → s.h.busy = false → p := fun hs hb => by
    rw [hinv.busy_iff.2 hs] at hb; cases hb
  cases step_cases h with
  | @operation i agenda _ hs hd he =>
    cases (exec_result (s := s.withAgenda agenda) hs he).2 with
    | running hseq hbus hh =>
      obtain ⟨tx, hbus⟩ := hbus
      exact .kept (by rw [hh]; exact ⟨rfl, rfl⟩) (nobusy hs) fun _ _ =>
        ⟨hseq, by rw [hbus]; exact List.cons_ne_self _ _⟩
    | retrieved _ _ _ hseq hbus hh =>
      exact .kept (by rw [hh]; exact ⟨rfl, rfl⟩) (nobusy hs) fun _ _ =>
        ⟨hseq, by rw [hbus]; exact List.cons_ne_self _ _⟩
    | completed hc => exact .completed (hinv.busy_iff.2 hs) hs hc.seq hc.bus hc.busy hc.done
  | reserved hs hd => exact .completed (hinv.busy_iff.2 hs) hs rfl rfl rfl rfl
  | @write off v rest ha =>
    have hagenda : s.agenda = [] → False := fun e => by rw [ha] at e; cases e
    by_cases hgo : s.h.busy = false ∧ off = 0x01 ∧ v.getLsbD 0 = true
    · obtain ⟨hb, rfl, hv⟩ := hgo
      rw [hostWrite_ctrl (s := s.withAgenda rest) hb, if_pos hv]
      exact .go ⟨_, v, rest, ha, rfl, hv⟩ hb rfl rfl
    · refine .kept (hostWrite_activity (s := s.withAgenda rest) hgo) (fun hb => ?_) fun e => (hagenda e).elim
      rintro ⟨off', v', rest', ha', hoff, hv⟩
      rw [ha] at ha'
      cases ha'
      exact hgo ⟨hb, hoff, hv⟩
  | reset ha => exact .reset ⟨_, ha⟩ rfl rfl
  | observed _ _ _ hs hw =>
    exact .kept ⟨rfl, rfl⟩ (fun _ ⟨off, v, rest, ha, _⟩ => hw off v rest ha)
      fun ha hb => absurd (hs ha) (hinv.busy_iff.1 hb)

/-- Settles O21: the six clauses for each of the four ways of `step_activity`. -/
theorem busyAndDoneFollowGoAndCompletion : Obligations.BusyAndDoneFollowGoAndCompletion := by
  unfold Obligations.BusyAndDoneFollowGoAndCompletion
  intro s t hinv h went wasReset
  cases step_activity hinv h with
  | go hgo hidle busy done =>
    have hagenda : s.agenda ≠ [] := by obtain ⟨_, _, _, ha, -⟩ := hgo; rw [ha]; nofun
    have hwent : went := hgo
    simp [hidle, busy, done, hwent, hagenda]
  | reset hreset busy done =>
    have hno : ¬ went := fun ⟨_, _, _, ha, _⟩ => by obtain ⟨rest, hr⟩ := hreset; rw [hr] at ha; cases ha
    have hwas : wasReset := hreset
    have hagenda : s.agenda ≠ [] := by obtain ⟨rest, hr⟩ := hreset; rw [hr]; nofun
    simp [busy, done, hno, hwas, hagenda]
  | completed hrun hs hseq hbus busy done => simp [hrun, hs, hseq, hbus, busy, done]
  | kept same hgo hrun =>
    obtain ⟨hb, hd⟩ := same
    rw [hb, hd]
    refine ⟨fun h => iff_of_false (by simp [h]) (hgo h), fun h hg => absurd hg (hgo h), fun ha h hend => ?_,
      fun h h' => by simp [h] at h', fun h h' => by simp [h] at h', fun h h' => by simp [h] at h'⟩
    obtain ⟨hseq, hbus⟩ := hrun ha h
    exact hend.elim (absurd · hseq) (absurd · hbus)

end Sys2Proof.Machine
end

/-! PROOF. The starting locals are unobservable (10_state.md R54, O60). Two states that differ in the Communicate,
ComputeCrc and resolver locals at most run alike while they agree in the locals that the rest of the operation reads
before it writes them: `Live` says which those are at each position. -/
section
namespace Sys2Proof.Machine

/-- The locals of the engines and the resolver. -/
structure Locals where
  comm : CommLocals
  crc : CrcLocals
  sel : SelectState

/-- `s` with other locals. -/
def State.withLocals (s : State) (l : Locals) : State := { s with comm := l.comm, crc := l.crc, sel := l.sel }

/-- The locals of `s`. -/
def State.locals (s : State) : Locals := ⟨s.comm, s.crc, s.sel⟩

/-! ### Which locals are read before they are written -/

/-- At a position of ComputeCrc: at a poll its counter, at the last read the low byte. -/
def CrcLive : CrcPos → CrcLocals → CrcLocals → Prop
  | .poll, x, y => x.crcPoll = y.crcPoll
  | .readHi, x, y => x.lo = y.lo
  | _, _, _ => True

/-- The result bytes. -/
def SameCrc (x y : CrcLocals) : Prop := x.lo = y.lo ∧ x.hi = y.hi

/-- After a transaction of ComputeCrc. -/
def CrcNextLive : CrcNext → CrcLocals → CrcLocals → Prop
  | .polled _, x, y => x.crcPoll = y.crcPoll
  | .finished, x, y => SameCrc x y
  | .flushed, _, _ | .started, _, _ => True

/-- At a position of Communicate: at a poll its counter; then the error byte and the reply's length. -/
def CommLive : CommPos → CommLocals → CommLocals → Prop
  | .poll, x, y => x.irqPoll = y.irqPoll
  | .readLevel, x, y => x.err = y.err
  | .readData, x, y | .readControl _, x, y => x.err = y.err ∧ x.cn = y.cn
  | _, _, _ => True

/-- The reply's length and valid bits. -/
def SameLength (x y : CommLocals) : Prop := x.cn = y.cn ∧ x.cvb = y.cvb

/-- After a transaction of Communicate. -/
def CommNextLive : CommNext → CommLocals → CommLocals → Prop
  | .polled _, x, y => x.irqPoll = y.irqPoll
  | .gotError, x, y | .gotLevel _, x, y => x.err = y.err
  | .stored, x, y => x.err = y.err ∧ SameLength x y
  | .flushed, _, _ | .sent, _, _ | .kicked, _, _ => True

/-- What of the resolver's state outlives an exchange and is read again. -/
structure SelLive (x y : SelectState) : Prop where
  frame : x.frame = y.frame
  level : x.level = y.level
  base : x.base = y.base
  lk : x.lk = y.lk
  uidWork : x.uidWork = y.uidWork

/-- The resolver's own exchanges, and replies into its frame, need its state. -/
def CallLive (site : CommSite) (c : CommCall) (x y : SelectState) : Prop :=
  site = .selectRound ∨ c.dest = .frame → SelLive x y

/-- So do its own checksums. -/
def SiteLive (site : CrcSite) (x y : SelectState) : Prop := site = .fullFrame ∨ site = .sakCheck → SelLive x y

/-- The locals that the operation `i` reads at a position or later before it writes them are the same in both. -/
def Live (i : Instr) : Seq → Locals → Locals → Prop
  | .computeCrc site _ pos, x, y => CrcLive pos x.crc y.crc ∧ SiteLive site x.sel y.sel
  | .crcNext site _ k, x, y => CrcNextLive k x.crc y.crc ∧ SiteLive site x.sel y.sel
  | .communicate site c pos, x, y => CommLive pos x.comm y.comm ∧ CallLive site c x.sel y.sel
  | .commNext site c k, x, y => CommNextLive k x.comm y.comm ∧ CallLive site c x.sel y.sel
  | .replyCrc site c _ pos, x, y =>
    CrcLive pos x.crc y.crc ∧ SameLength x.comm y.comm ∧ CallLive site c x.sel y.sel
  | .replyCrcNext site c _ k, x, y =>
    CrcNextLive k x.crc y.crc ∧ SameLength x.comm y.comm ∧ CallLive site c x.sel y.sel
  | .readColl, x, y | .gotColl _, x, y => SelLive x.sel y.sel
  | .complete st, x, y =>
    st = .ok → (i = .calcCrc → SameCrc x.crc y.crc) ∧ (i = .select ∨ i = .readCardSerial → SelLive x.sel y.sel)
  | _, _, _ => True

/-- The two states differ in locals that are not read any more. -/
def Agree (i : Instr) (t t' : State) : Prop := ∃ l, t' = t.withLocals l ∧ Live i t.seq t.locals l

@[simp] theorem State.withLocals_seq (s : State) (l : Locals) : (s.withLocals l).seq = s.seq := rfl
@[simp] theorem State.withLocals_h (s : State) (l : Locals) : (s.withLocals l).h = s.h := rfl

variable {i : Instr} {s : State} {l : Locals}

/-- Standing at a position where what is read later is the same. -/
theorem agree_withSeq {q : Seq} (h : Live i q s.locals l) : Agree i (s.withSeq q) ((s.withLocals l).withSeq q) :=
  ⟨l, rfl, h⟩

/-- At a completion that is no OK nothing is read any more. -/
theorem agree_failed {st : Status} (h : st ≠ .ok) :
    Agree i (s.withSeq (.complete st)) ((s.withLocals l).withSeq (.complete st)) :=
  agree_withSeq fun e => absurd e h

/-- Nor by an operation that neither computes a checksum for the host nor selects. -/
theorem agree_complete (st : Status) (hc : i ≠ .calcCrc) (hi : i ≠ .select ∧ i ≠ .readCardSerial) :
    Agree i (s.withSeq (.complete st)) ((s.withLocals l).withSeq (.complete st)) :=
  agree_withSeq fun _ => ⟨(absurd · hc), fun h => h.elim (absurd · hi.1) (absurd · hi.2)⟩

/-! ### The resolver -/

/-- A round reads the frame and the known-bit count. -/
theorem selectRound_agree (h : SelLive s.sel l.sel) : Agree i (selectRound s) (selectRound (s.withLocals l)) := by
  obtain ⟨hframe, hlevel, hbase, hlk, huid⟩ := h
  rcases Nat.lt_or_ge s.sel.lk 32 with hlt | hge
  · rw [selectRound_partial hlt, selectRound_partial (s := s.withLocals l) (hlk ▸ hlt)]
    refine ⟨⟨l.comm, l.crc, { partialFrame l.sel with rxAlign := l.sel.lk % 8 }⟩, ?_, trivial,
      fun _ => ⟨?_, hlevel, hbase, hlk, huid⟩⟩
    · simp [State.withLocals, State.withSel, State.withSeq, selectCall, partialFrame, hframe, hlk]
    · simp [State.locals, State.withSel, State.withSeq, partialFrame, hframe, hlk]
  · rw [selectRound_full hge, selectRound_full (s := s.withLocals l) (hlk ▸ hge)]
    refine ⟨⟨l.comm, l.crc, { l.sel with frame := fullFrame s.params l.sel.frame }⟩, ?_, trivial,
      fun _ => ⟨?_, hlevel, hbase, hlk, huid⟩⟩
    · simp [State.withLocals, State.withSel, State.withSeq, hframe]
    · simp [State.locals, State.withSel, State.withSeq, hframe]

/-- A level starts from the frame, the level and the working identifier alone. -/
theorem selectLevel_agree (k decl : Nat) (hframe : s.sel.frame = l.sel.frame) (hlevel : s.sel.level = l.sel.level)
    (huid : s.sel.uidWork = l.sel.uidWork) :
    Agree i (selectLevel k decl s) (selectLevel k decl (s.withLocals l)) := by
  refine selectRound_agree (s := s.withSel (levelStart s.params k decl s.sel))
    (l := ⟨l.comm, l.crc, levelStart s.params k decl l.sel⟩) ⟨?_, hlevel, ?_, ?_, huid⟩ <;>
    simp [levelStart, hframe, hlevel, huid]

/-- A selection starts from the host registers alone (R172). -/
theorem selectBegin_agree (k : Nat) : Agree i (selectBegin k s) (selectBegin k (s.withLocals l)) := by
  unfold selectBegin
  split
  · exact selectLevel_agree (s := s.withSel (selectInit s.h.uidIn s.sel))
      (l := ⟨l.comm, l.crc, selectInit s.h.uidIn l.sel⟩) k _ rfl rfl rfl
  · exact agree_failed nofun

/-- The same choice in both, by a condition that holds of both or of neither. -/
theorem agree_ite {p p' : Prop} [Decidable p] [Decidable p'] (hp : p ↔ p') {a b a' b' : State}
    (ha : p → Agree i a a') (hb : ¬ p → Agree i b b') : Agree i (if p then a else b) (if p' then a' else b') := by
  by_cases h : p
  · rw [if_pos h, if_pos (hp.1 h)]; exact ha h
  · rw [if_neg h, if_neg (h ∘ hp.2)]; exact hb h

/-- A resolved level reads the frame and the reply's shape. -/
theorem levelResolved_agree (h : SelLive s.sel l.sel) (hn : s.sel.n = l.sel.n) (hvb : s.sel.vb = l.sel.vb) :
    Agree i (levelResolved s) (levelResolved (s.withLocals l)) := by
  have hcopy : levelCopy s.params s.sel = levelCopy s.params l.sel := by
    simp only [levelCopy, h.frame, h.uidWork, h.base]
  have hsel : SelLive { s.sel with uidWork := levelCopy s.params s.sel }
      { l.sel with uidWork := levelCopy s.params l.sel } := ⟨h.frame, h.level, h.base, h.lk, hcopy⟩
  refine agree_ite (by simp [State.withLocals, hn, hvb]) (fun _ => ?_) (fun _ => ?_)
  · exact agree_failed (s := s.withSel _)
      (l := ⟨l.comm, l.crc, { l.sel with uidWork := levelCopy s.params l.sel }⟩) nofun
  · refine ⟨⟨l.comm, l.crc, { l.sel with uidWork := levelCopy s.params l.sel }⟩, ?_, trivial, fun _ => hsel⟩
    simp [State.withLocals, callCrc, State.withSel, State.withSeq, h.frame]

/-- After the exchange of a round. -/
theorem selectAfterExchange_agree (st : Status) (n vb : Nat) (h : SelLive s.sel l.sel) :
    Agree i (selectAfterExchange st n vb s) (selectAfterExchange st n vb (s.withLocals l)) := by
  have hsel : SelLive { s.sel with n := n, vb := vb } { l.sel with n := n, vb := vb } :=
    ⟨h.frame, h.level, h.base, h.lk, h.uidWork⟩
  refine agree_ite .rfl (fun _ => ?_) fun _ => agree_ite .rfl (fun hst => ?_) fun _ =>
    agree_ite (by simp [State.withLocals, h.lk]) (fun _ => ?_) fun _ => ?_
  · exact agree_withSeq (s := s.withSel _) (l := ⟨l.comm, l.crc, { l.sel with n := n, vb := vb }⟩) hsel
  · exact agree_failed (s := s.withSel _) (l := ⟨l.comm, l.crc, { l.sel with n := n, vb := vb }⟩) hst
  · exact levelResolved_agree (s := s.withSel _) (l := ⟨l.comm, l.crc, { l.sel with n := n, vb := vb }⟩) hsel rfl rfl
  · exact selectRound_agree (s := s.withSel { s.sel with n := n, vb := vb, lk := 32 })
      (l := ⟨l.comm, l.crc, { l.sel with n := n, vb := vb, lk := 32 }⟩) ⟨h.frame, h.level, h.base, rfl, h.uidWork⟩

/-- After the checksum of a frame, which goes into it. -/
theorem selectAfterFrameCrc_agree (cs : Status) (h : SelLive s.sel l.sel) (hcrc : cs = .ok → SameCrc s.crc l.crc) :
    Agree i (selectAfterFrameCrc cs s) (selectAfterFrameCrc cs (s.withLocals l)) := by
  refine agree_ite .rfl agree_failed fun hok => ?_
  obtain ⟨hlo, hhi⟩ := hcrc (not_not.1 hok)
  refine ⟨⟨l.comm, l.crc, { l.sel with
    frame := Buf.put (Buf.put l.sel.frame 7 l.crc.lo) 8 l.crc.hi, txlb := 0, sendLen := 9, rOff := 6, rCap := 3
    rxAlign := 0 }⟩, ?_, trivial, fun _ => ⟨?_, h.level, h.base, h.lk, h.uidWork⟩⟩
  · simp [State.withLocals, selectExchange, callCommunicate, selectCall, State.withSel, State.withSeq, h.frame, hlo,
      hhi]
  · simp [State.locals, selectExchange, callCommunicate, State.withSel, State.withSeq, h.frame, hlo, hhi]

/-- After the checksum of a SAK. -/
theorem selectAfterSakCrc_agree (k decl : Nat) (cs : Status) (h : SelLive s.sel l.sel) (hi : i ≠ .calcCrc)
    (hcrc : cs = .ok → SameCrc s.crc l.crc) :
    Agree i (selectAfterSakCrc k decl cs s) (selectAfterSakCrc k decl cs (s.withLocals l)) := by
  refine agree_ite .rfl agree_failed fun hok => ?_
  obtain ⟨hlo, hhi⟩ := hcrc (not_not.1 hok)
  refine agree_ite (by simp [State.withLocals, h.frame, hlo, hhi]) (fun _ => agree_failed nofun) fun _ =>
    agree_ite (by simp [State.withLocals, h.frame]) (fun _ => ?_) fun _ =>
      agree_withSeq fun _ => ⟨(absurd · hi), fun _ => h⟩
  refine agree_ite (by simp [State.withLocals, h.level]) (fun _ => agree_failed nofun) fun _ => ?_
  exact selectLevel_agree (s := s.withSel { s.sel with level := s.sel.level + 1 })
    (l := ⟨l.comm, l.crc, { l.sel with level := l.sel.level + 1 }⟩) k decl h.frame (by simp [h.level]) h.uidWork

/-- After the CollReg read. -/
theorem collResume_agree (v : Byte) (h : SelLive s.sel l.sel) :
    Agree i (collResume v s) (collResume v (s.withLocals l)) := by
  refine agree_ite .rfl (fun _ => agree_failed nofun) fun _ =>
    agree_ite (by simp [State.withLocals, h.lk]) (fun _ => agree_failed nofun) fun _ => ?_
  exact selectRound_agree (s := s.withSel _)
    (l := ⟨l.comm, l.crc, { l.sel with
      lk := collPosition s.params v, frame := patchBit l.sel.frame (collPosition s.params v) }⟩)
    ⟨by simp [h.frame], h.level, h.base, rfl, h.uidWork⟩

/-! ### The callers' code after an exchange or a checksum -/

/-- The caller's code after an exchange reads no local of Communicate. -/
theorem commReturn_agree {site : CommSite} (ho : ownsCommSite i site = true) (st : Status) (n vb : Nat)
    (h : site = .selectRound → SelLive s.sel l.sel) :
    Agree i (commReturn site st n vb s) (commReturn site st n vb (s.withLocals l)) := by
  have hcalc : i ≠ .calcCrc := by rintro rfl; cases site <;> cases ho
  have fin : site ≠ .selectRound → ∀ st,
      Agree i (s.withSeq (.complete st)) ((s.withLocals l).withSeq (.complete st)) := fun hs st =>
    agree_complete st hcalc (ownsCommSite_resolver ho hs)
  cases site with
  | selectRound => exact selectAfterExchange_agree st n vb (h rfl)
  | request =>
    exact agree_ite .rfl (fun _ => fin nofun _) fun _ => agree_ite .rfl (fun _ => fin nofun _) fun _ => fin nofun _
  | host | halt | authenticate | readBlock => exact fin nofun _

/-- The caller's code after a checksum reads its bytes, on OK alone. -/
theorem crcReturn_agree {site : CrcSite} (ho : ownsCrcSite i site = true) (x : HostRegs) (st : Status)
    (h : SiteLive site s.sel l.sel) (hcrc : st = .ok → SameCrc s.crc l.crc) :
    Agree i (crcReturn i x site st s) (crcReturn i x site st (s.withLocals l)) := by
  cases site with
  | calcCrc =>
    obtain rfl : i = .calcCrc := by simpa [ownsCrcSite] using ho
    exact agree_withSeq fun hst => ⟨fun _ => hcrc hst, by simp⟩
  | fullFrame => exact selectAfterFrameCrc_agree st (h (.inl rfl)) hcrc
  | sakCheck => exact selectAfterSakCrc_agree _ _ st (h (.inr rfl)) (by rintro rfl; cases ho) hcrc
  | haltFrame =>
    refine agree_ite .rfl agree_failed fun hok => ?_
    obtain ⟨hlo, hhi⟩ := hcrc (not_not.1 hok)
    refine ⟨l, ?_, trivial, nofun⟩
    simp [State.withLocals, callCommunicate, State.withSeq, hlo, hhi]
  | readFrame =>
    refine agree_ite .rfl agree_failed fun hok => ?_
    obtain ⟨hlo, hhi⟩ := hcrc (not_not.1 hok)
    refine ⟨l, ?_, trivial, nofun⟩
    simp [State.withLocals, callCommunicate, State.withSeq, hlo, hhi]

/-! ### Communicate after the reply was taken -/

/-- A destination reads alike in both. -/
theorem destRead_withLocals {site : CommSite} {c : CommCall} (h : CallLive site c s.sel l.sel) (j : Nat) :
    destRead c.dest j (s.withLocals l) = destRead c.dest j s := by
  cases hd : c.dest with
  | rxbuf => rfl
  | frame => exact congrArg (Buf.get · j) (h (.inr hd)).frame.symm

/-- Steps 7 to 9 of Communicate read the error byte and the reply's length. -/
theorem afterReply_agree {site : CommSite} {c : CommCall} (ho : ownsCommSite i site = true)
    (herr : s.comm.err = l.comm.err) (hlen : SameLength s.comm l.comm) (h : CallLive site c s.sel l.sel) :
    Agree i (afterReply site (commReturn site) c s) (afterReply site (commReturn site) c (s.withLocals l)) := by
  obtain ⟨hcn, hcvb⟩ := hlen
  have ret : ∀ st, Agree i (commReturn site st s.comm.cn s.comm.cvb s)
      (commReturn site st l.comm.cn l.comm.cvb (s.withLocals l)) := fun st => by
    rw [← hcn, ← hcvb]
    exact commReturn_agree ho st _ _ fun e => h (.inl e)
  refine agree_ite (by simp [State.withLocals, herr]) (fun _ => ret _) fun _ =>
    agree_ite .rfl (fun _ => ?_) fun _ => ret _
  refine agree_ite (by simp [State.withLocals, hcn, hcvb]) (fun _ => ret _) fun _ =>
    agree_ite (by simp [State.withLocals, hcn, hcvb]) (fun _ => ret _) fun _ => ?_
  have hdata : destSlice c.dest c.off (l.comm.cn - 2) (s.withLocals l) = destSlice c.dest c.off (s.comm.cn - 2) s := by
    simp only [destSlice, destRead_withLocals h, hcn]
  refine ⟨l, ?_, trivial, ⟨hcn, hcvb⟩, h⟩
  show callCrc (.replyCrc site c (destSlice c.dest c.off (l.comm.cn - 2) (s.withLocals l))) (s.withLocals l) = _
  rw [hdata]
  rfl

/-- The end of the CRC check reads the reply's length and the result bytes. -/
theorem afterReplyCrc_agree {site : CommSite} {c : CommCall} (ho : ownsCommSite i site = true) (cs : Status)
    (hlen : SameLength s.comm l.comm) (hcrc : cs = .ok → SameCrc s.crc l.crc) (h : CallLive site c s.sel l.sel) :
    Agree i (afterReplyCrc (commReturn site) c cs s) (afterReplyCrc (commReturn site) c cs (s.withLocals l)) := by
  obtain ⟨hcn, hcvb⟩ := hlen
  have ret : ∀ st, Agree i (commReturn site st s.comm.cn s.comm.cvb s)
      (commReturn site st l.comm.cn l.comm.cvb (s.withLocals l)) := fun st => by
    rw [← hcn, ← hcvb]
    exact commReturn_agree ho st _ _ fun e => h (.inl e)
  refine agree_ite .rfl (fun _ => ret _) fun hok => ?_
  obtain ⟨hlo, hhi⟩ := hcrc (not_not.1 hok)
  refine agree_ite ?_ (fun _ => ret _) fun _ => ret _
  rw [destRead_withLocals h, destRead_withLocals h]
  simp [State.withLocals, hcn, hlo, hhi]

/-! ### The pure computation -/

section Crc

variable {here : CrcPos → Seq} {ret : Status → State → State}

/-- The head of the CRC poll loop, the counters being the same. -/
theorem crcPollHead_agree (h : s.crc.crcPoll = l.crc.crcPoll) (hhere : Live i (here .poll) s.locals l)
    (hret : Agree i (ret .timeout s) (ret .timeout (s.withLocals l))) :
    Agree i (crcPollHead here ret s) (crcPollHead here ret (s.withLocals l)) :=
  agree_ite (by simp [State.withLocals, h]) (fun _ => hret) fun _ => agree_withSeq hhere

/-- The pure computation of ComputeCrc. -/
theorem crcResume_agree {data : List Byte} {k : CrcNext} (h : CrcNextLive k s.crc l.crc)
    (hhere : ∀ x y q, CrcLive q x y → Live i (here q) ⟨s.comm, x, s.sel⟩ ⟨l.comm, y, l.sel⟩)
    (hret : ∀ x y st, (st = .ok → SameCrc x y) →
      Agree i (ret st (s.withCrc x)) (ret st ((s.withCrc x).withLocals ⟨l.comm, y, l.sel⟩))) :
    Agree i (crcResume here ret data k s) (crcResume here ret data k (s.withLocals l)) := by
  cases k with
  | flushed => exact agree_withSeq (hhere _ _ _ (by cases data <;> trivial))
  | started =>
    exact crcPollHead_agree (s := s.withCrc { s.crc with crcPoll := 0 })
      (l := ⟨l.comm, { l.crc with crcPoll := 0 }, l.sel⟩) rfl (hhere _ _ _ rfl) (hret _ _ _ nofun)
  | polled v =>
    exact agree_ite .rfl (fun _ => agree_withSeq (hhere _ _ _ trivial)) fun _ =>
      crcPollHead_agree h (hhere _ _ _ h) (hret _ _ _ nofun)
  | finished => exact hret s.crc l.crc .ok fun _ => h

end Crc

section Communicate

variable {site : CommSite} {c : CommCall}

/-- The head of the interrupt poll loop, the counters being the same. -/
theorem irqPollHead_agree (ho : ownsCommSite i site = true) (h : s.comm.irqPoll = l.comm.irqPoll)
    (hc : CallLive site c s.sel l.sel) :
    Agree i (irqPollHead site (commReturn site) c s) (irqPollHead site (commReturn site) c (s.withLocals l)) :=
  agree_ite (by simp [State.withLocals, h]) (fun _ => commReturn_agree ho _ _ _ fun e => hc (.inl e)) fun _ =>
    agree_withSeq ⟨h, hc⟩

/-- The entry of the poll loop sets the counter. -/
theorem irqPollEnter_agree (ho : ownsCommSite i site = true) (hc : CallLive site c s.sel l.sel) :
    Agree i (irqPollEnter site (commReturn site) c s) (irqPollEnter site (commReturn site) c (s.withLocals l)) :=
  irqPollHead_agree (s := s.withComm { s.comm with irqPoll := 0 })
    (l := ⟨{ l.comm with irqPoll := 0 }, l.crc, l.sel⟩) ho rfl hc

/-- The pure computation of Communicate. -/
theorem commResume_agree {k : CommNext} (ho : ownsCommSite i site = true) (h : CommNextLive k s.comm l.comm)
    (hc : CallLive site c s.sel l.sel) :
    Agree i (commResume site (commReturn site) c k s) (commResume site (commReturn site) c k (s.withLocals l)) := by
  have ret : ∀ st, Agree i (commReturn site st 0 0 s) (commReturn site st 0 0 (s.withLocals l)) := fun st =>
    commReturn_agree ho st 0 0 fun e => hc (.inl e)
  cases k with
  | flushed => exact agree_withSeq ⟨by cases c.tx <;> trivial, hc⟩
  | sent => exact agree_ite .rfl (fun _ => agree_withSeq ⟨trivial, hc⟩) fun _ => irqPollEnter_agree ho hc
  | kicked => exact irqPollEnter_agree ho hc
  | polled v =>
    exact agree_ite .rfl (fun _ => agree_withSeq ⟨trivial, hc⟩) fun _ =>
      agree_ite .rfl (fun _ => ret _) fun _ => irqPollHead_agree ho h hc
  | gotError =>
    have herr : s.comm.err = l.comm.err := h
    refine agree_ite (by simp [State.withLocals, herr]) (fun _ => ret _) fun _ =>
      agree_ite .rfl (fun _ => ?_) fun _ => ?_
    · exact agree_withSeq (s := s.withComm { s.comm with cn := 0, cvb := 0 })
        (l := ⟨{ l.comm with cn := 0, cvb := 0 }, l.crc, l.sel⟩) ⟨h, hc⟩
    · exact afterReply_agree (s := s.withComm { s.comm with cn := 0, cvb := 0 })
        (l := ⟨{ l.comm with cn := 0, cvb := 0 }, l.crc, l.sel⟩) ho h ⟨rfl, rfl⟩ hc
  | gotLevel v =>
    refine agree_ite .rfl (fun _ => ret _) fun _ => ?_
    refine agree_withSeq (s := s.withComm { s.comm with cn := fifoLevel s.params v })
      (l := ⟨{ l.comm with cn := fifoLevel s.params v }, l.crc, l.sel⟩) ⟨?_, hc⟩
    split
    · exact ⟨h, rfl⟩
    · exact ⟨h, rfl⟩
  | stored => exact afterReply_agree ho h.1 h.2 hc

end Communicate

/-- An opening reads none of the locals. -/
theorem opening_agree (i : Instr) (s : State) (l : Locals) :
    Agree i (opening i s) (opening i (s.withLocals l)) := by
  have call : ∀ {q : Seq}, (∀ x y, Live i q x y) → Agree i (s.withSeq q) ((s.withLocals l).withSeq q) := fun h =>
    agree_withSeq (h _ _)
  cases i with
  | communicate => exact agree_ite .rfl (fun _ => call fun _ _ => ⟨trivial, nofun⟩) fun _ => agree_failed nofun
  | select => exact selectBegin_agree _
  | readCardSerial => exact selectBegin_agree _
  | calcCrc => exact agree_ite .rfl (fun _ => call fun _ _ => ⟨trivial, nofun⟩) fun _ => agree_failed nofun
  | requestOrWakeup | stopCrypto | isNewCardPresent => exact call fun _ _ => trivial
  | halt => exact call fun _ _ => ⟨trivial, nofun⟩
  | authenticate => exact agree_ite .rfl (fun _ => call fun _ _ => ⟨trivial, nofun⟩) fun _ => agree_failed nofun
  | readBlock =>
    exact agree_ite .rfl (fun _ => agree_failed nofun) fun _ => agree_ite .rfl (fun _ => agree_failed nofun) fun _ =>
      call fun _ _ => ⟨trivial, nofun⟩

/-- The pure computation keeps the agreement. -/
theorem resume_agree (ho : owns i s.seq = true) (h : Live i s.seq s.locals l) :
    Agree i (resume i s) (resume i (s.withLocals l)) := by
  cases hq : s.seq with
  | start =>
    simp only [resume, State.withLocals_seq, hq]
    exact opening_agree i s l
  | crcNext site data k =>
    rw [hq] at h ho
    obtain ⟨hk, hsite⟩ := h
    simp only [resume, State.withLocals_seq, hq]
    exact crcResume_agree hk (fun x y q hx => ⟨hx, hsite⟩) fun x y st hst =>
      crcReturn_agree (s := s.withCrc x) (l := ⟨l.comm, y, l.sel⟩) ho s.h st hsite hst
  | commNext site c k =>
    rw [hq] at h ho
    obtain ⟨hk, hc⟩ := h
    simp only [resume, State.withLocals_seq, hq]
    exact commResume_agree ho hk hc
  | replyCrcNext site c data k =>
    rw [hq] at h ho
    obtain ⟨hk, hlen, hc⟩ := h
    simp only [resume, State.withLocals_seq, hq]
    exact crcResume_agree hk (fun x y q hx => ⟨hx, hlen, hc⟩) fun x y st hst =>
      afterReplyCrc_agree (s := s.withCrc x) (l := ⟨l.comm, y, l.sel⟩) ho st hlen hst hc
  | collCleared =>
    simp only [resume, State.withLocals_seq, hq]
    exact ⟨l, rfl, trivial, nofun⟩
  | gotColl v =>
    rw [hq] at h
    simp only [resume, State.withLocals_seq, hq]
    exact collResume_agree v h
  | _ =>
    simp only [resume, State.withLocals_seq, hq]
    exact ⟨l, rfl, h⟩

/-! ### The step at a bus primitive or the completion -/

/-- A transaction of ComputeCrc. -/
theorem crcStep_agree {here : CrcPos → Seq} {next : CrcNext → Seq} {data : List Byte} {pos : CrcPos}
    (h : CrcLive pos s.crc l.crc)
    (hhere : ∀ x y q, CrcLive q x y → Live i (here q) ⟨s.comm, x, s.sel⟩ ⟨l.comm, y, l.sel⟩)
    (hnext : ∀ x y k, CrcNextLive k x y → Live i (next k) ⟨s.comm, x, s.sel⟩ ⟨l.comm, y, l.sel⟩) :
    Agree i (crcStep here next data pos s) (crcStep here next data pos (s.withLocals l)) := by
  cases pos with
  | idle => exact ⟨l, rfl, hhere _ _ .clearDone trivial⟩
  | clearDone => exact ⟨l, rfl, hhere _ _ .flush trivial⟩
  | flush => exact ⟨l, rfl, hnext _ _ .flushed trivial⟩
  | load => exact ⟨l, rfl, hhere _ _ .start trivial⟩
  | start => exact ⟨l, rfl, hnext _ _ .started trivial⟩
  | poll =>
    exact ⟨⟨l.comm, { l.crc with crcPoll := l.crc.crcPoll + 1 }, l.sel⟩, rfl,
      hnext _ _ (.polled _) (congrArg (· + 1) h)⟩
  | stop => exact ⟨l, rfl, hhere _ _ .readLo trivial⟩
  | readLo => exact ⟨⟨l.comm, { l.crc with lo := nextByte s }, l.sel⟩, rfl, hhere _ _ .readHi rfl⟩
  | readHi => exact ⟨⟨l.comm, { l.crc with hi := nextByte s }, l.sel⟩, rfl, hnext _ _ .finished ⟨h, rfl⟩⟩

/-- A transaction of Communicate. -/
theorem commStep_agree {site : CommSite} {c : CommCall} {pos : CommPos} (h : CommLive pos s.comm l.comm)
    (hc : CallLive site c s.sel l.sel) :
    Agree i (commStep site c pos s) (commStep site c pos (s.withLocals l)) := by
  cases pos with
  | idle | clearIrqs | flush | load | framing | command | kickRead | kickWrite => exact ⟨l, rfl, trivial, hc⟩
  | poll =>
    exact ⟨⟨{ l.comm with irqPoll := l.comm.irqPoll + 1 }, l.crc, l.sel⟩, rfl, congrArg (· + 1) h, hc⟩
  | readError => exact ⟨⟨{ l.comm with err := nextByte s }, l.crc, l.sel⟩, rfl, rfl, hc⟩
  | readLevel => exact ⟨l, rfl, h, hc⟩
  | readData =>
    obtain ⟨herr, hcn⟩ := h
    refine ⟨l, ?_, ⟨herr, hcn⟩, hc⟩
    simp only [commStep]
    rw [destRead_withLocals hc, show (s.withLocals l).comm.cn = s.comm.cn from hcn.symm]
    rfl
  | readControl d =>
    obtain ⟨⟨irqPoll, err, cn, cvb⟩, crc, sel⟩ := l
    obtain ⟨herr, hcn⟩ : s.comm.err = err ∧ s.comm.cn = cn := h
    subst hcn
    let y : CommLocals := ⟨irqPoll, err, s.comm.cn, lastBits s.params (nextByte s)⟩
    unfold commStep storeReply
    cases hd : c.dest with
    | rxbuf => exact ⟨⟨y, crc, sel⟩, rfl, ⟨herr, rfl, rfl⟩, hc⟩
    | frame =>
      obtain ⟨hframe, hlevel, hbase, hlk, huid⟩ := hc (.inr hd)
      exact ⟨⟨y, crc, { sel with frame := Buf.putMany sel.frame c.off d }⟩, rfl, ⟨herr, rfl, rfl⟩,
        fun _ => ⟨congrArg (Buf.putMany · c.off d) hframe, hlevel, hbase, hlk, huid⟩⟩

/-- CALC_CRC's result writes read the result bytes. -/
theorem calcCrcResults_congr {x y : CrcLocals} (h : SameCrc x y) (st : Status) (r : HostRegs) :
    calcCrcResults st y r = calcCrcResults st x r := by
  unfold calcCrcResults
  rw [h.1, h.2]

/-- A selection's result writes read the working identifier, the level and the frame. -/
theorem selectResults_congr {x y : SelectState} (h : SelLive x y) (st : Status) (r : HostRegs) :
    selectResults st y r = selectResults st x r := by
  unfold selectResults
  rw [h.uidWork, h.level, h.frame]

/-- The completion reads the checksum or the resolver's state only where it is still the same. -/
theorem complete_agree {st : Status} (h : Live i (.complete st) s.locals l) :
    Agree i (completeWith (resultWrites i st s) st s)
      (completeWith (resultWrites i st (s.withLocals l)) st (s.withLocals l)) := by
  have hw : resultWrites i st (s.withLocals l) s.h = resultWrites i st s s.h := by
    by_cases hst : st = .ok
    · obtain ⟨hcrc, hsel⟩ := h hst
      cases i with
      | calcCrc => exact calcCrcResults_congr (hcrc rfl) st s.h
      | select => exact selectResults_congr (hsel (.inl rfl)) st s.h
      | readCardSerial =>
        exact congrArg (fun x : HostRegs => { x with result := decide (st = Status.ok) })
          (selectResults_congr (hsel (.inr rfl)) st s.h)
      | _ => rfl
    · cases i <;> simp [resultWrites, calcCrcResults, selectResults, serialResults, hst]
  refine ⟨l, ?_, trivial⟩
  simp only [completeWith, State.withLocals_h, hw]
  rfl

/-- At a bus primitive or the completion the two steps keep the agreement. -/
theorem exec_primitive_agree (ho : owns i s.seq = true) (ha : s.seq.atPrimitive = true)
    (h : Live i s.seq s.locals l) :
    ∃ t t', exec i s = .next t ∧ exec i (s.withLocals l) = .next t' ∧ Agree i t t' := by
  have both : ∀ {t t'}, exec i s = .next t → exec i (s.withLocals l) = .next t' → Agree i t t' →
      ∃ t t', exec i s = .next t ∧ exec i (s.withLocals l) = .next t' ∧ Agree i t t' :=
    fun he he' hag => ⟨_, _, he, he', hag⟩
  cases hs : s.seq with
  | idle | start | crcNext | commNext | replyCrcNext | gotColl | collCleared => rw [hs] at ha; cases ha
  | complete =>
    rw [hs] at h
    exact both (exec_complete hs) (exec_complete (s := s.withLocals l) hs) (complete_agree h)
  | computeCrc site data pos =>
    rw [hs] at ho h
    obtain ⟨hpos, hsite⟩ := h
    exact both (exec_computeCrc ho hs) (exec_computeCrc (s := s.withLocals l) ho hs)
      (crcStep_agree hpos (fun x y q hx => ⟨hx, hsite⟩) fun x y k hx => ⟨hx, hsite⟩)
  | communicate site c pos =>
    rw [hs] at ho h
    exact both (exec_communicate ho hs) (exec_communicate (s := s.withLocals l) ho hs) (commStep_agree h.1 h.2)
  | replyCrc site c data pos =>
    rw [hs] at ho h
    obtain ⟨hpos, hlen, hc⟩ := h
    exact both (exec_replyCrc ho hs) (exec_replyCrc (s := s.withLocals l) ho hs)
      (crcStep_agree hpos (fun x y q hx => ⟨hx, hlen, hc⟩) fun x y k hx => ⟨hx, hlen, hc⟩)
  | readColl =>
    rw [hs] at h
    have hi : i = .select ∨ i = .readCardSerial := by simpa [hs, owns] using ho
    exact both (exec_readColl hi hs) (exec_readColl (s := s.withLocals l) hi hs) ⟨l, rfl, h⟩
  | clearCollRead =>
    have hi : i = .requestOrWakeup ∨ i = .isNewCardPresent := by simpa [hs, owns] using ho
    exact both (exec_clearCollRead hi hs) (exec_clearCollRead (s := s.withLocals l) hi hs) ⟨l, rfl, trivial⟩
  | clearCollWrite =>
    have hi : i = .requestOrWakeup ∨ i = .isNewCardPresent := by simpa [hs, owns] using ho
    exact both (exec_clearCollWrite hi hs) (exec_clearCollWrite (s := s.withLocals l) hi hs) ⟨l, rfl, trivial⟩
  | clearCryptoRead =>
    obtain rfl : i = .stopCrypto := by simpa [hs, owns] using ho
    exact both (exec_clearCryptoRead hs) (exec_clearCryptoRead (s := s.withLocals l) hs) ⟨l, rfl, trivial⟩
  | clearCryptoWrite =>
    obtain rfl : i = .stopCrypto := by simpa [hs, owns] using ho
    exact both (exec_clearCryptoWrite hs) (exec_clearCryptoWrite (s := s.withLocals l) hs)
      (agree_complete _ nofun ⟨nofun, nofun⟩)
  | writeTxMode =>
    obtain rfl : i = .isNewCardPresent := by simpa [hs, owns] using ho
    exact both (exec_writeTxMode hs) (exec_writeTxMode (s := s.withLocals l) hs) ⟨l, rfl, trivial⟩
  | writeRxMode =>
    obtain rfl : i = .isNewCardPresent := by simpa [hs, owns] using ho
    exact both (exec_writeRxMode hs) (exec_writeRxMode (s := s.withLocals l) hs) ⟨l, rfl, trivial⟩
  | writeModWidth =>
    obtain rfl : i = .isNewCardPresent := by simpa [hs, owns] using ho
    exact both (exec_writeModWidth hs) (exec_writeModWidth (s := s.withLocals l) hs) ⟨l, rfl, trivial⟩

/-! ### Runs -/

/-- Steps from states that agree end in states that agree. -/
theorem exec_agree (ho : owns i s.seq = true) (hs : s.seq ≠ .idle) (h : Live i s.seq s.locals l) :
    ∃ t t', exec i s = .next t ∧ exec i (s.withLocals l) = .next t' ∧ Agree i t t' ∧
      (t.seq ≠ .idle → owns i t.seq = true) := by
  obtain ⟨l', hu, hlive⟩ := resume_agree ho h
  obtain ⟨-, ha, ho'⟩ := resume_reaches ho hs
  obtain ⟨t, t', he, he', hag⟩ := exec_primitive_agree ho' ha hlive
  refine ⟨t, t', (exec_resume ho hs).trans he, ?_, hag, fun ht => ?_⟩
  · rw [exec_resume (s := s.withLocals l) ho hs, hu]
    exact he'
  · obtain ⟨t'', he'', hp⟩ := exec_primitiveStep ho' ha
    rw [he] at he''
    cases he''
    rcases hp.goes_on with ⟨st, -, rfl⟩ | ⟨-, hown⟩
    · exact absurd rfl ht
    · exact hown

/-- Runs from states that agree end in states that agree. -/
theorem runOp_agree (k : Nat) (ho : owns i s.seq = true) (hs : s.seq ≠ .idle) (h : Live i s.seq s.locals l) :
    ∃ t t', runOp i k s = .next t ∧ runOp i k (s.withLocals l) = .next t' ∧ Agree i t t' := by
  induction k generalizing s l with
  | zero => exact ⟨s, _, rfl, rfl, l, rfl, h⟩
  | succ k ih =>
    obtain ⟨t, _, he, he', ⟨l', rfl, hlive⟩, hown⟩ := exec_agree ho hs h
    by_cases ht : t.seq = .idle
    · exact ⟨t, _, runOp_complete he ht, runOp_complete he' ht, l', rfl, hlive⟩
    · rw [runOp_continue he ht, runOp_continue he' ht]
      exact ih (hown ht) ht hlive

/-- Settles O60: at the first step nothing is still to be read, so the two starts agree. -/
theorem startingLocalsUnobservable : Obligations.StartingLocalsUnobservable := by
  unfold Obligations.StartingLocalsUnobservable
  intro i k s comm crc sel hs
  obtain ⟨t, _, he, he', l', rfl, -⟩ := runOp_agree (i := i) (s := s) (l := ⟨comm, crc, sel⟩) k
    (by rw [hs]; rfl) (by rw [hs]; nofun) (by rw [hs]; trivial)
  exact ⟨t, _, he, he', rfl, rfl, rfl, rfl⟩

end Sys2Proof.Machine
end

/-! PROOF. The pure computation of a Communicate, position by position (00_scope.md R11, 40_communicate.md R142): the
primitive or the return that each leads to. -/
section
namespace Sys2Proof.Machine

variable {i : Instr} {s : State} {site : CommSite} {c : CommCall} {data : List Byte} {ret : CommReturn}

theorem resume_start (h : s.seq = .start) : resume i s = opening i s := by simp only [resume, h]

theorem resume_crcNext {site : CrcSite} {k : CrcNext} (h : s.seq = .crcNext site data k) :
    resume i s = crcResume (.computeCrc site data) (crcReturn i s.h site) data k s := by simp only [resume, h]

theorem resume_commNext {k : CommNext} (h : s.seq = .commNext site c k) :
    resume i s = commResume site (commReturn site) c k s := by simp only [resume, h]

theorem resume_replyCrcNext {k : CrcNext} (h : s.seq = .replyCrcNext site c data k) :
    resume i s = replyCrcResume site (commReturn site) c data k s := by simp only [resume, h]

/-- After a transaction of a Communicate the step is the one at the position its pure computation leads to. -/
theorem exec_commNext {k : CommNext} {pos : CommPos} {u : State} (ho : ownsCommSite i site = true)
    (hs : s.seq = .commNext site c k) (hr : commResume site (commReturn site) c k s = u)
    (hu : u.seq = .communicate site c pos) : exec i s = .next (commStep site c pos u) := by
  rw [exec_resume (by rw [hs]; exact ho) (by rw [hs]; nofun), resume_commNext hs, hr, exec_communicate ho hu]

/-- With nothing to load, the BitFramingReg write follows the flush (R81). -/
theorem commResume_flushed_nil (h : c.tx = []) :
    commResume site ret c .flushed s = s.withSeq (.communicate site c .framing) := by simp [commResume, h]

/-- With bytes to send the FIFO load follows the flush (R143). -/
theorem commResume_flushed_load (h : c.tx ≠ []) :
    commResume site ret c .flushed s = s.withSeq (.communicate site c .load) := by simp [commResume, h]

/-- Without a kick the interrupt poll follows the command (R145, R146). -/
theorem commResume_sent_poll (hcmd : c.cmd ≠ s.params.pcd.transceive) (hb : s.params.irqPollBudget ≠ 0) :
    commResume site ret c .sent s =
      (s.withComm { s.comm with irqPoll := 0 }).withSeq (.communicate site c .poll) := by
  simp [commResume, hcmd, irqPollEnter, irqPollHead, hb.symm]

/-- An awaited flag ends the polling (R146). -/
theorem commResume_polled_awaited {v : Byte} (h : awaited c v = true) :
    commResume site ret c (.polled v) s = s.withSeq (.communicate site c .readError) := by simp [commResume, h]

/-- A level above 0 and within the capacity leads to the FIFO read (R147). -/
theorem commResume_gotLevel_pos {v : Byte} (h0 : fifoLevel s.params v ≠ 0) (hc : fifoLevel s.params v ≤ c.cap) :
    commResume site ret c (.gotLevel v) s =
      (s.withComm { s.comm with cn := fifoLevel s.params v }).withSeq (.communicate site c .readData) := by
  simp [commResume, h0, Nat.not_lt.2 hc]

/-- A level of 0 leads straight to the ControlReg read (R81, R153). -/
theorem commResume_gotLevel_zero {v : Byte} (h0 : fifoLevel s.params v = 0) :
    commResume site ret c (.gotLevel v) s =
      (s.withComm { s.comm with cn := 0 }).withSeq (.communicate site c (.readControl [])) := by
  simp [commResume, h0]

/-- The status of an exchange that expects no reply, by its ErrorReg value (R146, R148). -/
def noReplyStatus (p : Params) (err : Byte) : Status :=
  if framingError p err then .genericError else if collisionError p err then .collision else .ok

/-- The engine's locals with which it returns: without a framing error `S.cn` and `S.cvb` are 0 by then (R142). -/
def noReplyLocals (p : Params) (x : CommLocals) : CommLocals :=
  if framingError p x.err then x else { x with cn := 0, cvb := 0 }

/-- An exchange that expects no reply returns after the ErrorReg read. -/
theorem commResume_gotError_noReply (hcap : c.cap = 0) :
    commResume site ret c .gotError s =
      ret (noReplyStatus s.params s.comm.err) 0 0 (s.withComm (noReplyLocals s.params s.comm)) := by
  by_cases hf : framingError s.params s.comm.err = true
  · simp [commResume, noReplyStatus, noReplyLocals, hf]
  · by_cases hc : collisionError s.params s.comm.err = true <;>
      simp [commResume, noReplyStatus, noReplyLocals, afterReply, hcap, hf, hc]

end Sys2Proof.Machine
end

/-! PROOF. The transactions of the block (20_memory.md R74, R78, R79, R81): the one a step issues, and that none is of
zero length. -/
section
namespace Sys2Proof.Machine

/-- `t` follows `s` by the transaction `tx` to a register the block uses: of one byte unless to FIFODataReg, a read's
bytes the environment's next (R74, R78, R79), and of some byte where `ready` holds (R81). -/
structure Issues (ready : Prop) (s t : State) (tx : Txn) : Prop where
  bus : t.bus = tx :: s.bus
  used : blockUses tx.reg = true
  single : tx.reg = .fifoDataReg ∨ tx.bytes.length = 1
  write : ∀ r bs, tx = .write r bs → t.env = s.env
  read : ∀ r raw, tx = .read r raw → raw = s.env.peek raw.length ∧ t.env = s.env.drop raw.length
  nonempty : ready → tx.bytes ≠ []

section Transactions

variable {ready : Prop} {s t u : State} {r : ChipReg}

theorem Issues.imp {ready' : Prop} {tx : Txn} (h : Issues ready s t tx) (hr : ready' → ready) : Issues ready' s t tx :=
  { h with nonempty := h.nonempty ∘ hr }

/-- Of the state before it a transaction shows the record and the environment alone. -/
theorem Issues.of_same_bus {tx : Txn} (h : Issues ready u t tx) (hbus : u.bus = s.bus) (henv : u.env = s.env) :
    Issues ready s t tx where
  bus := by rw [h.bus, hbus]
  used := h.used
  single := h.single
  write := by rw [← henv]; exact h.write
  read := by rw [← henv]; exact h.read
  nonempty := h.nonempty

theorem issues_write {bytes : List Byte} (hr : blockUses r = true) (hn : r = .fifoDataReg ∨ bytes.length = 1)
    (hbus : t.bus = .write r bytes :: s.bus) (henv : t.env = s.env) : Issues (bytes ≠ []) s t (.write r bytes) :=
  ⟨hbus, hr, hn, fun _ _ _ => henv, nofun, id⟩

theorem issues_read {n : Nat} (hr : blockUses r = true) (hn : r = .fifoDataReg ∨ n = 1)
    (hbus : t.bus = .read r (s.env.peek n) :: s.bus) (henv : t.env = s.env.drop n) :
    Issues (0 < n) s t (.read r (s.env.peek n)) where
  bus := hbus
  used := hr
  single := hn.imp_right fun h => (Env.peek_length _ _).trans h
  write := nofun
  read := by rintro _ _ ⟨⟩; rw [Env.peek_length]; exact ⟨rfl, henv⟩
  nonempty := fun h => List.ne_nil_of_length_pos (h.trans_eq (Env.peek_length _ _).symm)

theorem issues_writeByte {b : Byte} (hr : blockUses r = true) (hbus : t.bus = .write r [b] :: s.bus)
    (henv : t.env = s.env) : ∃ tx, Issues ready s t tx :=
  ⟨_, (issues_write hr (.inr rfl) hbus henv).imp fun _ => nofun⟩

theorem issues_readByte (hr : blockUses r = true) (hbus : t.bus = .read r [nextByte s] :: s.bus)
    (henv : t.env = s.env.drop 1) : ∃ tx, Issues ready s t tx :=
  ⟨_, (issues_read hr (.inr rfl) hbus henv).imp fun _ => Nat.one_pos⟩

/-- The transaction of a ComputeCrc position, the load alone of more than one byte (R213). -/
theorem crcStep_issues (here : CrcPos → Seq) (next : CrcNext → Seq) (data : List Byte) (pos : CrcPos) (s : State) :
    ∃ tx, Issues (crcPosOk s data pos) s (crcStep here next data pos s) tx := by
  cases pos with
  | load => exact ⟨_, issues_write rfl (.inl rfl) rfl rfl⟩
  | poll | readLo | readHi => exact issues_readByte rfl rfl rfl
  | idle | clearDone | flush | start | stop => exact issues_writeByte rfl rfl rfl

theorem storeReply_bus_env (c : CommCall) (d : List Byte) (n vb : Nat) (s : State) :
    (storeReply c d n vb s).bus = s.bus ∧ (storeReply c d n vb s).env = s.env := by
  unfold storeReply
  cases c.dest <;> exact ⟨rfl, rfl⟩

/-- The transaction of a Communicate position, the load and the FIFO read alone of more than one byte (R142). -/
theorem commStep_issues (site : CommSite) (c : CommCall) (pos : CommPos) (s : State) :
    ∃ tx, Issues (commPosOk s c pos) s (commStep site c pos s) tx := by
  cases pos with
  | load => exact ⟨_, issues_write rfl (.inl rfl) rfl rfl⟩
  | readData => exact ⟨_, (issues_read rfl (.inl rfl) rfl rfl).imp And.left⟩
  | readControl d =>
    obtain ⟨hbus, henv⟩ := storeReply_bus_env c d s.comm.cn (lastBits s.params (nextByte s))
      ((busRead .controlReg s).withComm { s.comm with cvb := lastBits s.params (nextByte s) })
    exact issues_readByte rfl hbus henv
  | kickRead | poll | readError | readLevel => exact issues_readByte rfl rfl rfl
  | idle | clearIrqs | flush | framing | command | kickWrite => exact issues_writeByte rfl rfl rfl

/-- The block completes, with no transaction and no draw (R291). -/
structure Completes (s t : State) : Prop where
  bus : t.bus = s.bus
  env : t.env = s.env
  seq : t.seq = .idle
  busy : t.h.busy = false
  done : t.h.done = true

variable {i : Instr}

/-- At a bus primitive or the completion a step of the operation is its transaction or the completion step. -/
theorem exec_primitive_issues (ho : owns i s.seq = true) (ha : s.seq.atPrimitive = true) (he : exec i s = .next t) :
    Completes s t ∨ ∃ tx, Issues (seqOk s) s t tx := by
  have answer : ∀ {u : State}, exec i s = .next u → t = u := fun hu => by rw [he] at hu; cases hu; rfl
  cases hs : s.seq with
  | idle | start | crcNext | commNext | replyCrcNext | gotColl | collCleared => rw [hs] at ha; cases ha
  | complete st => rw [answer (exec_complete hs)]; exact .inl ⟨rfl, rfl, rfl, rfl, rfl⟩
  | computeCrc site data pos =>
    rw [hs] at ho; rw [answer (exec_computeCrc ho hs)]
    obtain ⟨tx, h⟩ := crcStep_issues (.computeCrc site data) (.crcNext site data) data pos s
    exact .inr ⟨tx, h.imp fun hok => by unfold seqOk at hok; rw [hs] at hok; exact hok.1⟩
  | communicate site c pos =>
    rw [hs] at ho; rw [answer (exec_communicate ho hs)]
    obtain ⟨tx, h⟩ := commStep_issues site c pos s
    exact .inr ⟨tx, h.imp fun hok => by unfold seqOk at hok; rw [hs] at hok; exact hok.2.1⟩
  | replyCrc site c data pos =>
    rw [hs] at ho; rw [answer (exec_replyCrc ho hs)]
    obtain ⟨tx, h⟩ := crcStep_issues (.replyCrc site c data) (.replyCrcNext site c data) data pos s
    exact .inr ⟨tx, h.imp fun hok => by unfold seqOk at hok; rw [hs] at hok; exact hok.2.1⟩
  | readColl =>
    rw [answer (exec_readColl (by simpa [hs, owns] using ho) hs)]
    exact .inr (issues_readByte rfl rfl rfl)
  | clearCollRead =>
    rw [answer (exec_clearCollRead (by simpa [hs, owns] using ho) hs)]
    exact .inr (issues_readByte rfl rfl rfl)
  | clearCollWrite =>
    rw [answer (exec_clearCollWrite (by simpa [hs, owns] using ho) hs)]
    exact .inr (issues_writeByte rfl rfl rfl)
  | clearCryptoRead =>
    obtain rfl : i = .stopCrypto := by simpa [hs, owns] using ho
    rw [answer (exec_clearCryptoRead hs)]
    exact .inr (issues_readByte rfl rfl rfl)
  | clearCryptoWrite =>
    obtain rfl : i = .stopCrypto := by simpa [hs, owns] using ho
    rw [answer (exec_clearCryptoWrite hs)]
    exact .inr (issues_writeByte rfl rfl rfl)
  | writeTxMode =>
    obtain rfl : i = .isNewCardPresent := by simpa [hs, owns] using ho
    rw [answer (exec_writeTxMode hs)]
    exact .inr (issues_writeByte rfl rfl rfl)
  | writeRxMode =>
    obtain rfl : i = .isNewCardPresent := by simpa [hs, owns] using ho
    rw [answer (exec_writeRxMode hs)]
    exact .inr (issues_writeByte rfl rfl rfl)
  | writeModWidth =>
    obtain rfl : i = .isNewCardPresent := by simpa [hs, owns] using ho
    rw [answer (exec_writeModWidth hs)]
    exact .inr (issues_writeByte rfl rfl rfl)

/-- A step of the running operation is one transaction or the completion step. -/
theorem exec_issues (hs : s.seq ≠ .idle) (he : exec i s = .next t) :
    Completes s t ∨ ∃ tx, Issues (seqOk (resume i s)) s t tx := by
  obtain ⟨ho, ⟨hc, ha, ho'⟩, -⟩ := exec_cases hs he
  rw [exec_resume ho hs] at he
  rcases exec_primitive_issues ho' ha he with h | ⟨tx, h⟩
  · exact .inl ⟨h.bus.trans hc.bus, h.env.trans hc.env, h.seq, h.busy, h.done⟩
  · exact .inr ⟨tx, h.of_same_bus hc.bus hc.env⟩

/-- What a step of the block shows on the bus: the transaction or the completion of a running operation, or nothing,
which with no turn listed is the completion of a reserved code or the turn of an idle sequencer. -/
theorem step_issues (h : step s = .next t) :
    (t.bus = s.bus ∧ t.env = s.env ∧ (s.agenda = [] → s.seq ≠ .idle → Completes s t)) ∨
      ∃ tx, Issues s.Inv s t tx := by
  cases step_cases h with
  | @operation i agenda _ hs hd he =>
    rcases exec_issues (s := s.withAgenda agenda) hs he with hc | ⟨tx, ht⟩
    · have hc : Completes s t := ⟨hc.bus, hc.env, hc.seq, hc.busy, hc.done⟩
      exact .inl ⟨hc.bus, hc.env, fun _ _ => hc⟩
    · obtain ⟨ho, -⟩ := exec_cases (s := s.withAgenda agenda) hs he
      have hready : s.Inv → seqOk (resume i (s.withAgenda agenda)) := fun hinv =>
        (resume_inv (s := s.withAgenda agenda) (hinv.observed agenda _ _) hd ho hs).position_ok
      exact .inr ⟨tx, (ht.imp hready).of_same_bus rfl rfl⟩
  | reserved => exact .inl ⟨rfl, rfl, fun _ _ => ⟨rfl, rfl, rfl, rfl, rfl⟩⟩
  | @write off v rest ha =>
    have hagenda : s.agenda = [] → s.seq ≠ .idle → Completes s (hostWrite off v (s.withAgenda rest)) := fun e => by
      rw [ha] at e; cases e
    rcases hostWrite_cases off v (s.withAgenda rest) with e | ⟨-, -, -, e⟩ | ⟨-, r, -, -, e⟩ <;> rw [e] at hagenda ⊢ <;>
      exact .inl ⟨rfl, rfl, hagenda⟩
  | reset ha => exact .inl ⟨rfl, rfl, fun e => by rw [ha] at e; cases e⟩
  | observed _ _ _ hs => exact .inl ⟨rfl, rfl, fun ha hn => absurd (hs ha) hn⟩

end Transactions

/-- Settles O17: by `step_issues`; a transaction lengthens the record, so a step that does not is a completion. -/
theorem oneTransactionToABlockRegister : Obligations.OneTransactionToABlockRegister := by
  unfold Obligations.OneTransactionToABlockRegister
  intro s t h
  rcases step_issues h with ⟨hbus, henv, hc⟩ | ⟨tx, ht⟩
  · refine ⟨.inl ⟨hbus, henv⟩, fun hs ha _ => ?_⟩
    obtain ⟨-, -, hseq, hbusy, hdone⟩ := hc ha hs
    exact ⟨hseq, hbusy, hdone⟩
  · refine ⟨.inr ⟨tx, ht.bus, ht.used, ht.single, ht.write, ht.read⟩, fun _ _ hb => ?_⟩
    exact absurd (ht.bus.symm.trans hb) (List.cons_ne_self _ _)

/-- No transaction of a step from a state that meets the invariant is of zero length (R81). -/
theorem step_bytes_ne_nil {s t : State} {tx : Txn} (hinv : s.Inv) (h : step s = .next t) (hb : t.bus = tx :: s.bus) :
    tx.bytes ≠ [] := by
  rcases step_issues h with ⟨hbus, -⟩ | ⟨tx', ht⟩
  · exact absurd (hb.symm.trans hbus) (List.cons_ne_self _ _)
  · have htx : tx' = tx := by simpa using ht.bus.symm.trans hb
    exact htx ▸ ht.nonempty hinv

/-- Settles O18: the first clause by `step_bytes_ne_nil`; in the others the pure computation leads past the omitted
transfer, and the step is the primitive after it. -/
theorem zeroLengthTransfersOmitted : Obligations.ZeroLengthTransfersOmitted := by
  unfold Obligations.ZeroLengthTransfersOmitted
  refine ⟨fun s t tx => step_bytes_ne_nil, fun i site c s ho => ⟨fun hs htx => ?_, fun v hs hv => ?_⟩,
    fun i site s ho hs => ?_, fun i site c s ho hs => ?_⟩
  · rw [exec_commNext ho hs (commResume_flushed_nil htx) rfl]
    rfl
  · have h0 : fifoLevel s.params v = 0 := congrArg BitVec.toNat hv
    refine ⟨_, exec_commNext ho hs (commResume_gotLevel_zero h0) rfl, ?_⟩
    simp only [commStep, storeReply]
    cases c.dest <;> exact ⟨rfl, rfl, rfl⟩
  · rw [exec_resume (by rw [hs]; exact ho) (by rw [hs]; nofun), resume_crcNext hs, crcResume,
      exec_computeCrc (site := site) (data := []) ho rfl]
    rfl
  · rw [exec_resume (by rw [hs]; exact ho) (by rw [hs]; nofun), resume_replyCrcNext hs, replyCrcResume, crcResume,
      exec_replyCrc (site := site) (c := c) (data := []) ho rfl]
    rfl

end Sys2Proof.Machine
end

/-! PROOF. The address byte of a chip register (20_memory.md R72, R73): its fields, and that a well-formed map gives
each register one of its own. -/
section
namespace Sys2Proof.Machine

/-- The address byte bit by bit: bit 0 is 0, bits 6..1 are the register number, bit 7 is the read flag (R72). -/
theorem addressByte_getLsbD {m : ChipRegMap} {r : ChipReg} {n : RegNumber} (h : m.lookup r = some n) (b : Bool)
    {j : Nat} (hj : j < 8) :
    (addressByte m r b).getLsbD j = if j = 0 then false else if j = 7 then b else n.getLsbD (j - 1) := by
  rw [addressByte, h]
  interval_cases j <;> cases b <;> simp

/-- So it holds the register number in bits 6..1. -/
theorem addressByte_number {m : ChipRegMap} {r : ChipReg} {n : RegNumber} (h : m.lookup r = some n) (b : Bool) :
    (addressByte m r b).extractLsb' 1 6 = n := by
  refine BitVec.eq_of_getLsbD_eq fun j hj => ?_
  rw [BitVec.getLsbD_extractLsb', addressByte_getLsbD h b (by omega), if_neg (by omega), if_neg (by omega),
    Nat.add_sub_cancel_left]
  simp [hj]

theorem ChipReg.mem_all (r : ChipReg) : r ∈ ChipReg.all := by cases r <;> decide

/-- A well-formed map gives each name a number (R8, R73). -/
theorem ChipRegMap.lookup_of_wf {m : ChipRegMap} (h : m.wf = true) (r : ChipReg) :
    ∃ n, m.lookup r = some n ∧ (r, n) ∈ m := by
  simp only [ChipRegMap.wf, Bool.and_eq_true, List.all_eq_true, beq_iff_eq] at h
  obtain ⟨e, he⟩ := List.exists_mem_of_length_pos (Nat.lt_of_lt_of_eq Nat.one_pos (h.1 r (ChipReg.mem_all r)).symm)
  obtain ⟨hm, her⟩ := List.mem_filter.1 he
  obtain ⟨n, hn⟩ := Option.isSome_iff_exists.1 (List.lookup_isSome_iff.2 ⟨e, hm, BEq.symm her⟩)
  obtain ⟨l₁, l₂, hl, -⟩ := List.lookup_eq_some_iff.1 hn
  exact ⟨n, hn, by simp [hl]⟩

/-- A well-formed map gives no two names one number (log entry 18). -/
theorem ChipRegMap.injective_of_wf {m : ChipRegMap} (h : m.wf = true) {r r' : ChipReg} {n : RegNumber}
    (hr : (r, n) ∈ m) (hr' : (r', n) ∈ m) : r = r' := by
  simp only [ChipRegMap.wf, Bool.and_eq_true, decide_eq_true_eq] at h
  exact congrArg Prod.fst (List.inj_on_of_nodup_map h.2 hr hr' rfl)

/-- Settles O4: the fields by `addressByte_getLsbD`; so two equal address bytes hold one number, which a well-formed map
gives to one name, and one read flag. -/
theorem registerAddressByteFields : Obligations.RegisterAddressByteFields := by
  unfold Obligations.RegisterAddressByteFields
  refine ⟨fun m r n b h => ⟨addressByte_getLsbD h b (by decide), addressByte_getLsbD h b (by decide),
    addressByte_number h b⟩, fun m r r' b b' hwf he => ?_⟩
  obtain ⟨n, hn, hmem⟩ := ChipRegMap.lookup_of_wf hwf r
  obtain ⟨n', hn', hmem'⟩ := ChipRegMap.lookup_of_wf hwf r'
  have hnum : n = n' := by rw [← addressByte_number hn b, he, addressByte_number hn' b']
  have hflag : b = b' := calc
    b = (addressByte m r b).getLsbD 7 := (addressByte_getLsbD hn b (j := 7) (by decide)).symm
    _ = (addressByte m r' b').getLsbD 7 := by rw [he]
    _ = b' := addressByte_getLsbD hn' b' (j := 7) (by decide)
  exact ⟨ChipRegMap.injective_of_wf hwf hmem (hnum ▸ hmem'), hflag⟩

end Sys2Proof.Machine
end

/-! PROOF. The reply of a Communicate (20_memory.md R80, 40_communicate.md R147): one burst read, its first byte merged
with the byte that stood at the start of the destination. -/
section
namespace Sys2Proof.Machine

theorem mergeMask_getLsbD (align : Nat) {j : Nat} (hj : j < 8) : (mergeMask align).getLsbD j = decide (align ≤ j) := by
  rw [mergeMask, BitVec.getLsbD_shiftLeft, show 0xFF#8 = BitVec.allOnes 8 from rfl, BitVec.getLsbD_allOnes]
  by_cases h : j < align
  · simp [h]
  · simp [hj, Nat.not_lt.1 h, Nat.lt_of_le_of_lt (Nat.sub_le j align) hj]

/-- The merge replaces the first byte alone: below `align` it keeps the old bits, from `align` on it has those read
(R80). -/
theorem mergeFirst_cons (align : Nat) (old0 r0 : Byte) (rest : List Byte) :
    ∃ d0, mergeFirst align old0 (r0 :: rest) = d0 :: rest ∧
      ∀ j, j < 8 → d0.getLsbD j = if j < align then old0.getLsbD j else r0.getLsbD j := by
  by_cases h0 : align = 0
  · exact ⟨r0, if_pos h0, fun j _ => by simp [h0]⟩
  · refine ⟨_, if_neg h0, fun j hj => ?_⟩
    rw [BitVec.getLsbD_or, BitVec.getLsbD_and, BitVec.getLsbD_and, BitVec.getLsbD_not, mergeMask_getLsbD align hj]
    by_cases h : j < align
    · simp [h, hj, Nat.not_le.2 h]
    · simp [h, Nat.not_lt.1 h]

/-- At a level above 0 and within the capacity the step is the burst read of that many bytes (R147). -/
theorem exec_gotLevel_pos {i : Instr} {site : CommSite} {c : CommCall} {v : Byte} {s : State}
    (ho : ownsCommSite i site = true) (hs : s.seq = .commNext site c (.gotLevel v)) (h0 : fifoLevel s.params v ≠ 0)
    (hc : fifoLevel s.params v ≤ c.cap) :
    exec i s = .next
      { s with
        bus := .read .fifoDataReg (s.env.peek (fifoLevel s.params v)) :: s.bus
        env := s.env.drop (fifoLevel s.params v)
        comm := { s.comm with cn := fifoLevel s.params v }
        seq := .communicate site c (.readControl
          (mergeFirst (c.rxAlign % 8) (destRead c.dest c.off s) (s.env.peek (fifoLevel s.params v)))) } := by
  rw [exec_commNext ho hs (commResume_gotLevel_pos h0 hc) rfl]
  rfl

/-- Settles O33: the step by `exec_gotLevel_pos`, the merged byte by `mergeFirst_cons`. -/
theorem replyReadMergesFirstByte : Obligations.ReplyReadMergesFirstByte := by
  unfold Obligations.ReplyReadMergesFirstByte
  intro i site c v s ho hs n h0 hc
  have hlen : (s.env.peek n).length = n := Env.peek_length _ _
  obtain ⟨r0, rest, hpeek⟩ := List.exists_cons_of_length_pos (h0.trans_eq hlen.symm)
  obtain ⟨d0, hd, hbits⟩ := mergeFirst_cons (c.rxAlign % 8) (destRead c.dest c.off s) r0 rest
  refine ⟨r0, rest, d0, hpeek, by rw [hpeek] at hlen; exact hlen, ?_, hbits⟩
  rw [← hd, ← hpeek]
  exact exec_gotLevel_pos ho hs h0.ne' hc

end Sys2Proof.Machine
end

/-! PROOF. The run of an exchange that expects no reply and needs no kick, and with it AUTHENTICATE (40_communicate.md
R143 to R148, 43_session.md R243 to R247). -/
section
namespace Sys2Proof.Machine

section Runs

variable {i : Instr} {s : State} {site : CommSite} {c : CommCall} {k : Nat}

/-- A run may begin with the pure computation of its first step. -/
theorem runOp_resume (ho : owns i s.seq = true) (hs : s.seq ≠ .idle) :
    runOp i (k + 1) s = runOp i (k + 1) (resume i s) := by
  rw [runOp, runOp, exec_resume ho hs]

/-- A run goes on past a transaction of a Communicate. -/
theorem runOp_commStep {pos : CommPos} (ho : ownsCommSite i site = true) (hs : s.seq = .communicate site c pos) :
    runOp i (k + 1) s = runOp i k (commStep site c pos s) := by
  refine runOp_continue (exec_communicate ho hs) ?_
  obtain ⟨u, -, -, -, -, -, ⟨q, -, e⟩ | ⟨n, -, -, e⟩ | ⟨d, -, e⟩⟩ := commStep_cases site c pos s <;> rw [e] <;> nofun

/-- A run goes on past the pure computation of a Communicate and the transaction it leads to. -/
theorem runOp_commNext {n : CommNext} {pos : CommPos} {u : State} (ho : ownsCommSite i site = true)
    (hs : s.seq = .commNext site c n) (hr : commResume site (commReturn site) c n s = u)
    (hu : u.seq = .communicate site c pos) : runOp i (k + 1) s = runOp i k (commStep site c pos u) := by
  rw [runOp_resume (by rw [hs]; exact ho) (by rw [hs]; nofun), resume_commNext hs, hr, runOp_commStep ho hu]

/-- The transactions that send the call's bytes and start its command, newest first (R143 to R145). -/
def sendTxns (p : Params) (c : CommCall) : List Txn :=
  [ .write .commandReg [c.cmd], .write .bitFramingReg [bitFraming c.rxAlign c.txLastBits], .write .fifoDataReg c.tx,
    .write .fifoLevelReg [p.mask.fifoFlush], .write .comIrqReg [p.mask.irqClearAll], .write .commandReg [p.pcd.idle] ]

/-- The state after them. -/
def commSent (site : CommSite) (c : CommCall) (s : State) : State :=
  { s with bus := sendTxns s.params c ++ s.bus, seq := .commNext site c .sent }

/-- A Communicate with bytes to send begins with these six transactions. -/
theorem runOp_send (ho : ownsCommSite i site = true) (hs : s.seq = .communicate site c .idle) (htx : c.tx ≠ []) :
    runOp i (k + 6) s = runOp i k (commSent site c s) := by
  rw [runOp_commStep ho hs, runOp_commStep (pos := .clearIrqs) ho rfl, runOp_commStep (pos := .flush) ho rfl,
    runOp_commNext (pos := .load) ho rfl (commResume_flushed_load htx) rfl, runOp_commStep (pos := .framing) ho rfl,
    runOp_commStep (pos := .command) ho rfl]
  simp only [commStep, busWrite, State.withBus, State.withSeq]
  rfl

/-- After the command, with no kick, comes the first poll read (R145, R146). -/
theorem runOp_firstPoll {b : Byte} {rest : List Byte} (ho : ownsCommSite i site = true)
    (hs : s.seq = .commNext site c .sent) (hcmd : c.cmd ≠ s.params.pcd.transceive) (hb : s.params.irqPollBudget ≠ 0)
    (ha : s.env.answers = b :: rest) :
    runOp i (k + 1) s = runOp i k
      { s with
        bus := .read .comIrqReg [b] :: s.bus, env := ⟨rest, s.env.draws⟩, comm := { s.comm with irqPoll := 1 }
        seq := .commNext site c (.polled b) } := by
  rw [runOp_commNext (pos := .poll) ho hs (commResume_sent_poll hcmd hb) rfl, ← nextByte_of_answers s ha,
    ← drop_of_answers s ha]
  rfl

/-- After a poll read that shows an awaited flag comes the ErrorReg read (R146). -/
theorem runOp_readError {v b : Byte} {rest : List Byte} (ho : ownsCommSite i site = true)
    (hs : s.seq = .commNext site c (.polled v)) (hv : awaited c v = true) (ha : s.env.answers = b :: rest) :
    runOp i (k + 1) s = runOp i k
      { s with
        bus := .read .errorReg [b] :: s.bus, env := ⟨rest, s.env.draws⟩, comm := { s.comm with err := b }
        seq := .commNext site c .gotError } := by
  rw [runOp_commNext (pos := .readError) ho hs (commResume_polled_awaited hv) rfl, ← nextByte_of_answers s ha,
    ← drop_of_answers s ha]
  rfl

/-- After the ErrorReg read an exchange that expects no reply returns, before the next step (R146, R148). -/
theorem runOp_gotError_noReply (ho : ownsCommSite i site = true) (hs : s.seq = .commNext site c .gotError)
    (hcap : c.cap = 0) :
    runOp i (k + 1) s = runOp i (k + 1)
      (commReturn site (noReplyStatus s.params s.comm.err) 0 0 (s.withComm (noReplyLocals s.params s.comm))) := by
  rw [runOp_resume (by rw [hs]; exact ho) (by rw [hs]; nofun), resume_commNext hs, commResume_gotError_noReply hcap]

/-- An exchange that needs no kick, expects no reply and finds an awaited flag at the first poll makes eight
transactions and returns the status of the ErrorReg value. -/
theorem runOp_noReply {irq err : Byte} {rest : List Byte} (ho : ownsCommSite i site = true)
    (hs : s.seq = .communicate site c .idle) (htx : c.tx ≠ []) (hcmd : c.cmd ≠ s.params.pcd.transceive)
    (hcap : c.cap = 0) (hb : s.params.irqPollBudget ≠ 0) (ha : s.env.answers = irq :: err :: rest)
    (hirq : awaited c irq = true) :
    ∃ u, runOp i (k + 9) s = runOp i (k + 1) (commReturn site (noReplyStatus s.params err) 0 0 u) ∧ Quiet s u ∧
      u.crc = s.crc ∧ u.env = ⟨rest, s.env.draws⟩ ∧
      u.bus = .read .errorReg [err] :: .read .comIrqReg [irq] :: (sendTxns s.params c ++ s.bus) := by
  rw [runOp_send (k := k + 3) ho hs htx, runOp_firstPoll (s := commSent site c s) ho rfl hcmd hb ha,
    runOp_readError (b := err) (rest := rest) ho rfl hirq rfl, runOp_gotError_noReply ho rfl hcap]
  exact ⟨_, rfl, ⟨rfl, rfl, rfl, rfl, rfl, rfl, rfl⟩, rfl, rfl, rfl⟩

end Runs

/-- The transactions that send the authentication frame, byte by byte (R114, R245). -/
theorem sendTxns_authenticate (h : HostRegs) :
    sendTxns Params.default (authenticateCall Params.default h) =
      [ .write .commandReg [0x0E], .write .bitFramingReg [0x00],
        .write .fifoDataReg
          [h.authCmd, h.blockAddr, Buf.get h.key 0, Buf.get h.key 1, Buf.get h.key 2, Buf.get h.key 3, Buf.get h.key 4,
            Buf.get h.key 5, Buf.get h.uid (h.uidSize.toNat - 4), Buf.get h.uid (h.uidSize.toNat - 4 + 1),
            Buf.get h.uid (h.uidSize.toNat - 4 + 2), Buf.get h.uid (h.uidSize.toNat - 4 + 3)],
        .write .fifoLevelReg [0x80], .write .comIrqReg [0x7F], .write .commandReg [0x00] ] := by
  have hframing : bitFraming 0 0 = 0x00 := by decide
  rw [← hframing]
  rfl

/-- With a resolved CardId AUTHENTICATE opens with its exchange (R243, R244). -/
theorem authenticateBegin_resolved {s : State} (h : s.h.uidSize = 4 ∨ s.h.uidSize = 7 ∨ s.h.uidSize = 10) :
    authenticateBegin s = s.withSeq (.communicate .authenticate (authenticateCall s.params s.h) .idle) := by
  refine if_pos ?_
  rcases h with h | h | h <;> simp [authenticateArgs, h]

/-- With the default masks of R75. -/
theorem noReplyStatus_default (err : Byte) :
    statusCode (noReplyStatus Params.default err) =
      if err &&& 0x13 ≠ 0 then 0x01 else if err &&& 0x08 ≠ 0 then 0x02 else 0x00 := by
  simp only [noReplyStatus, framingError, collisionError, flagged, Params.default, ChipMasks.default, bne_iff_ne]
  split
  · rfl
  · split <;> rfl

/-- Settles O43: after its opening the run is that of an exchange with no reply, by `runOp_noReply`, and its last step
the completion. -/
theorem authenticateRuns : Obligations.AuthenticateRuns := by
  unfold Obligations.AuthenticateRuns
  intro s rest irq err hp hs huid hirq ha
  have hopen : resume .authenticate s =
      s.withSeq (.communicate .authenticate (authenticateCall s.params s.h) .idle) :=
    (resume_start hs).trans (authenticateBegin_resolved huid)
  have hcmd : s.params.pcd.mfAuthent ≠ s.params.pcd.transceive := by rw [hp]; decide
  have hbudget : s.params.irqPollBudget ≠ 0 := by rw [hp]; decide
  have hawaited : flagged irq s.params.mask.waitAuth = true := by rw [hp]; exact bne_iff_ne.2 hirq
  obtain ⟨u, hrun, hu, -, -, hbus⟩ := runOp_noReply (k := 0) (i := .authenticate)
    (s := s.withSeq (.communicate .authenticate (authenticateCall s.params s.h) .idle)) rfl rfl nofun hcmd rfl hbudget
    ha hawaited
  have hstart := runOp_resume (k := 8) (i := .authenticate) (s := s) (by rw [hs]; rfl) (by rw [hs]; nofun)
  rw [hopen] at hstart
  refine ⟨_, (hstart.trans hrun).trans (runOp_complete (exec_complete rfl) rfl), rfl, hbus.trans ?_, ?_⟩
  · rw [State.withSeq_params, hp, sendTxns_authenticate]; rfl
  · rw [← noReplyStatus_default err, ← hp, ← (show u.h = s.h from hu.h)]; rfl

end Sys2Proof.Machine
end

/-! PROOF. The operation codes (30_encoding.md R100 to R102) and the framing byte of an anti-collision frame (R109). -/
section
namespace Sys2Proof

/-- A row matches on all eight bits and holds the code of its own operation (R101). -/
theorem opTable_rows : ∀ r ∈ opTable, r.mask = 0xFF ∧ opcode r.instr = r.pattern := by decide

/-- So a row matches one code alone. -/
theorem opTable_match {r : OpRow} (h : r ∈ opTable) (code : Byte) :
    (code &&& r.mask == r.pattern) = true ↔ code = r.pattern := by
  have hall : code &&& 0xFF = code := BitVec.and_allOnes
  rw [(opTable_rows r h).1, hall, beq_iff_eq]

theorem decodeOp_opcode (i : Instr) : decodeOp (opcode i) = some i := by cases i <;> rfl

/-- A code is decoded to an operation exactly when it is that operation's code. -/
theorem decodeOp_eq_some {code : Byte} {i : Instr} : decodeOp code = some i ↔ code = opcode i := by
  refine ⟨fun h => ?_, fun h => h ▸ decodeOp_opcode i⟩
  obtain ⟨r, hfind, rfl⟩ := Option.map_eq_some_iff.1 h
  have hr := List.mem_of_find?_eq_some hfind
  have hmatch := List.find?_some (p := fun r : OpRow => code &&& r.mask == r.pattern) hfind
  rw [(opTable_match hr code).1 hmatch, (opTable_rows r hr).2]

/-- The reserved codes are 0x00 and those from 0x0B on (R102). -/
theorem decodeOp_reserved {code : Byte} (h : code = 0x00 ∨ 0x0B ≤ code.toNat) : decodeOp code = none := by
  have hrange : ∀ r ∈ opTable, 0x01 ≤ r.pattern.toNat ∧ r.pattern.toNat ≤ 0x0A := by decide
  refine Option.map_eq_none_iff.2 (List.find?_eq_none.2 fun r hr hmatch => ?_)
  have hr' := hrange r hr
  rw [← (opTable_match hr code).1 hmatch] at hr'
  rcases h with rfl | h
  · exact absurd hr'.1 (by decide)
  · omega

theorem decode_cons_of_some {code : Byte} {i : Instr} (h : decodeOp code = some i) (rest : List Byte) :
    decode (code :: rest) = .ok (i, rest) := by simp [decode, h]

theorem decode_cons_of_none {code : Byte} (h : decodeOp code = none) (rest : List Byte) :
    decode (code :: rest) = .error (.reservedOp code) := by simp [decode, h]

/-- Settles O1: each word of R101 is the code of its operation. -/
theorem operationWordsDecode : Obligations.OperationWordsDecode := by
  unfold Obligations.OperationWordsDecode
  intro rest
  have word (i : Instr) : decode (opcode i :: rest) = .ok (i, rest) := decode_cons_of_some (decodeOp_opcode i) rest
  exact ⟨word .communicate, word .select, word .calcCrc, word .requestOrWakeup, word .halt, word .authenticate,
    word .stopCrypto, word .readBlock, word .isNewCardPresent, word .readCardSerial⟩

/-- Settles O2: both directions by `decodeOp_eq_some`, the reserved codes by `decodeOp_reserved`. -/
theorem encodeDecodeRoundTrip : Obligations.EncodeDecodeRoundTrip := by
  unfold Obligations.EncodeDecodeRoundTrip
  refine ⟨fun i rest _ => decode_cons_of_some (decodeOp_opcode i) rest, fun bs rest i h => ?_,
    fun code rest h => decode_cons_of_none (decodeOp_reserved h) rest, rfl⟩
  cases bs with
  | nil => cases h
  | cons code bs =>
    cases hd : decodeOp code with
    | none => rw [decode_cons_of_none hd] at h; cases h
    | some j =>
      rw [decode_cons_of_some hd] at h
      cases h
      rw [decodeOp_eq_some.1 hd]
      rfl

/-- The framing byte's two fields do not overlap: the byte count above the bit count (R109). -/
theorem Machine.nvb_toNat {lk : Nat} (h : lk < 112) : (Machine.nvb lk).toNat = (2 + lk / 8) * 16 + lk % 8 := by
  have hbits : lk % 8 < 2 ^ 4 := by omega
  have hcount : (2 + lk / 8) % 256 = 2 + lk / 8 := Nat.mod_eq_of_lt (by omega)
  have hlow : lk % 8 % 256 = lk % 8 := Nat.mod_eq_of_lt (by omega)
  have hhigh : (2 + lk / 8) <<< 4 % 256 = (2 + lk / 8) <<< 4 := Nat.mod_eq_of_lt (by rw [Nat.shiftLeft_eq]; omega)
  simp only [Machine.nvb, Machine.wholeBytes, BitVec.toNat_or, BitVec.toNat_shiftLeft, BitVec.toNat_ofNat,
    Nat.reducePow, hcount, hlow, hhigh]
  rw [← Nat.shiftLeft_add_eq_or_of_lt hbits, Nat.shiftLeft_eq]

/-- Settles O5: the fields by `nvb_toNat`, the examples by evaluation. -/
theorem anticollisionFramingByte : Obligations.AnticollisionFramingByte := by
  unfold Obligations.AnticollisionFramingByte
  exact ⟨fun lk h => Machine.nvb_toNat (by omega), by decide, by decide, by decide⟩

end Sys2Proof
end

/-! PROOF. The first step of each operation (30_encoding.md R119, 60_exceptions.md R341): a failed argument check
completes it, and otherwise it issues the operation's first transaction. -/
section
namespace Sys2Proof.Machine

variable {i : Instr} {s : State}

/-- The first step is the opening and the step from where it stands. -/
theorem exec_start (hs : s.seq = .start) : exec i s = exec i (opening i s) := by
  rw [exec_resume (by rw [hs]; rfl) (by rw [hs]; nofun), resume_start hs]

/-! ### A failed check -/

/-- The first step completes the operation with a status code, and nothing else changes. -/
def Rejected (i : Instr) (s : State) (code : Byte) : Prop :=
  exec i s = .next { s with seq := .idle, h := { s.h with status := code, busy := false, done := true } }

/-- An opening that stands at a completion ends the operation with its first step. -/
theorem rejected_of_opening (i : Instr) (st : Status) (hs : s.seq = .start)
    (ho : opening i s = s.withSeq (.complete st))
    (hw : resultWrites i st (s.withSeq (.complete st)) s.h = s.h) : Rejected i s (statusCode st) := by
  unfold Rejected
  rw [exec_start hs, ho, exec_complete rfl, completeWith, State.withSeq_h, hw]
  rfl

/-! ### The first transaction -/

/-- The first step of the operation is the transaction `tx`, and no host register changes. -/
def FirstTxn (i : Instr) (s : State) (tx : Txn) : Prop :=
  ∃ t, exec i s = .next t ∧ t.bus = tx :: s.bus ∧ t.h = s.h ∧ t.seq ≠ .idle

/-- An opening that stands at an exchange makes the idle write its first transaction (R143). -/
theorem exec_start_communicate {site : CommSite} {c : CommCall} (hs : s.seq = .start)
    (hq : (opening i s).seq = .communicate site c .idle) :
    ∃ t, exec i s = .next t ∧ t.bus = .write .commandReg [s.params.pcd.idle] :: s.bus ∧ t.h = s.h ∧
      t.seq = .communicate site c .clearIrqs := by
  have hown := opening_owns i s
  rw [hq] at hown
  have ho := opening_opened i s
  refine ⟨_, (exec_start hs).trans (exec_communicate hown hq), ?_, ho.h, rfl⟩
  simp [commStep, ho.params, ho.bus]

/-- So does one that stands at a ComputeCrc (R211). -/
theorem exec_start_computeCrc {site : CrcSite} {data : List Byte} (hs : s.seq = .start)
    (hq : (opening i s).seq = .computeCrc site data .idle) :
    ∃ t, exec i s = .next t ∧ t.bus = .write .commandReg [s.params.pcd.idle] :: s.bus ∧ t.h = s.h ∧
      t.seq = .computeCrc site data .clearDone := by
  have hown := opening_owns i s
  rw [hq] at hown
  have ho := opening_opened i s
  refine ⟨_, (exec_start hs).trans (exec_computeCrc hown hq), ?_, ho.h, rfl⟩
  simp [crcStep, ho.params, ho.bus]

theorem firstTxn_communicate {site : CommSite} {c : CommCall} (hs : s.seq = .start)
    (hq : (opening i s).seq = .communicate site c .idle) :
    FirstTxn i s (.write .commandReg [s.params.pcd.idle]) := by
  obtain ⟨t, he, hbus, hh, hseq⟩ := exec_start_communicate hs hq
  exact ⟨t, he, hbus, hh, by rw [hseq]; nofun⟩

theorem firstTxn_computeCrc {site : CrcSite} {data : List Byte} (hs : s.seq = .start)
    (hq : (opening i s).seq = .computeCrc site data .idle) :
    FirstTxn i s (.write .commandReg [s.params.pcd.idle]) := by
  obtain ⟨t, he, hbus, hh, hseq⟩ := exec_start_computeCrc hs hq
  exact ⟨t, he, hbus, hh, by rw [hseq]; nofun⟩

/-- Where a round starts, it starts with the idle write. -/
theorem firstTxn_round (hs : s.seq = .start) (hq : RoundSeq (opening i s).seq) :
    FirstTxn i s (.write .commandReg [s.params.pcd.idle]) := by
  rcases hq with ⟨data, hq⟩ | ⟨c, hq, -⟩
  · exact firstTxn_computeCrc hs hq
  · exact firstTxn_communicate hs hq

/-- A selection whose check passes opens the first level, over the host's identifier (R171, R172). -/
theorem selectBegin_firstLevel {k : Nat} (h : k ≤ 80) :
    selectBegin k s = selectLevel k s.h.uidInSize.toNat (s.withSel (selectInit s.h.uidIn s.sel)) :=
  if_pos (decide_eq_true h)

/-- So it opens with a round (R177). -/
theorem selectBegin_round {k : Nat} (h : k ≤ 80) : RoundSeq (selectBegin k s).seq := by
  rw [selectBegin_firstLevel h]
  exact selectRound_seq _

/-- With TX_LEN and RX_CAP in range COMMUNICATE opens with its exchange (R150). -/
theorem communicateBegin_fits (h : s.h.txLen.toNat ≤ s.params.txbufSize ∧ s.h.rxCap.toNat ≤ s.params.rxbufSize) :
    communicateBegin s = s.withSeq (.communicate .host (hostCall s.h) .idle) :=
  if_pos (by simpa [communicateArgs] using h)

/-- With TX_LEN in range CALC_CRC opens with its ComputeCrc (R214). -/
theorem calcCrcBegin_fits (h : s.h.txLen.toNat ≤ s.params.txbufSize) :
    calcCrcBegin s = s.withSeq (.computeCrc .calcCrc (txBytes s.h) .idle) := if_pos (decide_eq_true h)

/-- With a capacity in range READ_BLOCK opens with the CRC of the READ frame (R254, R255). -/
theorem readBlockBegin_fits (hsmall : ¬ s.h.rxCap.toNat < 18) (h : s.h.rxCap.toNat ≤ s.params.rxbufSize) :
    readBlockBegin s = s.withSeq (.computeCrc .readFrame (readBody s.params s.h) .idle) :=
  (if_neg hsmall).trans (if_neg (Nat.not_lt.2 h))

/-! ### The operations -/

section Operations

variable (hs : s.seq = .start)
include hs

theorem firstStep_select :
    if s.h.knownBits.toNat ≤ 80 then FirstTxn .select s (.write .commandReg [s.params.pcd.idle])
    else Rejected .select s 0x06 := by
  split
  next h => exact firstTxn_round hs (selectBegin_round h)
  next h => exact rejected_of_opening .select .invalidArgument hs (if_neg (by simpa [selectArgs] using h)) rfl

theorem firstStep_communicate :
    if s.h.txLen.toNat ≤ s.params.txbufSize ∧ s.h.rxCap.toNat ≤ s.params.rxbufSize then
      FirstTxn .communicate s (.write .commandReg [s.params.pcd.idle])
    else Rejected .communicate s 0x06 := by
  split
  next h => exact firstTxn_communicate hs (congrArg State.seq (communicateBegin_fits h))
  next h => exact rejected_of_opening .communicate .invalidArgument hs (if_neg (by simpa [communicateArgs] using h)) rfl

theorem firstStep_calcCrc :
    if s.h.txLen.toNat ≤ s.params.txbufSize then FirstTxn .calcCrc s (.write .commandReg [s.params.pcd.idle])
    else Rejected .calcCrc s 0x06 := by
  split
  next h => exact firstTxn_computeCrc hs (congrArg State.seq (calcCrcBegin_fits h))
  next h => exact rejected_of_opening .calcCrc .invalidArgument hs (if_neg (by simpa [calcCrcArgs] using h)) rfl

theorem firstStep_readBlock :
    if s.h.rxCap.toNat < 18 then Rejected .readBlock s 0x04
    else if s.h.rxCap.toNat ≤ s.params.rxbufSize then
      FirstTxn .readBlock s (.write .commandReg [s.params.pcd.idle])
    else Rejected .readBlock s 0x06 := by
  split
  next hsmall => exact rejected_of_opening .readBlock .bufferTooSmall hs (if_pos hsmall) rfl
  next hsmall =>
    split
    next h => exact firstTxn_computeCrc hs (congrArg State.seq (readBlockBegin_fits hsmall h))
    next h =>
      exact rejected_of_opening .readBlock .invalidArgument hs ((if_neg hsmall).trans (if_pos (Nat.lt_of_not_le h))) rfl

theorem firstStep_authenticate :
    if s.h.uidSize = 4 ∨ s.h.uidSize = 7 ∨ s.h.uidSize = 10 then
      FirstTxn .authenticate s (.write .commandReg [s.params.pcd.idle])
    else Rejected .authenticate s 0x06 := by
  split
  next h => exact firstTxn_communicate hs (congrArg State.seq (authenticateBegin_resolved h))
  next h =>
    have hargs : ¬ authenticateArgs s.h = true := by simpa [authenticateArgs, or_assoc] using h
    exact rejected_of_opening .authenticate .invalidArgument hs (if_neg hargs) rfl

end Operations

/-- Settles O16: the five argument checks one by one; the other operations open at their first transaction. -/
theorem firstStepChecksArguments : Obligations.FirstStepChecksArguments := by
  unfold Obligations.FirstStepChecksArguments
  intro s hs
  have reserved (h : s.op = 0x00 ∨ 0x0B ≤ s.op.toNat) : sequencerTurn s = .next (complete .invalidArgument s) :=
    sequencerTurn_reserved (by rw [hs]; nofun) (decodeOp_reserved h)
  exact ⟨firstStep_select hs, firstStep_communicate hs, firstStep_calcCrc hs, firstStep_readBlock hs,
    firstStep_authenticate hs, firstTxn_round hs (selectBegin_round (Nat.zero_le 80)),
    firstTxn_computeCrc hs rfl,
    ⟨_, (exec_start hs).trans (exec_clearCollRead (.inl rfl) rfl), rfl, rfl, nofun⟩,
    ⟨_, (exec_start hs).trans (exec_clearCryptoRead rfl), rfl, rfl, nofun⟩,
    ⟨_, (exec_start hs).trans (exec_writeTxMode rfl), rfl, rfl, nofun⟩, reserved⟩

end Sys2Proof.Machine
end

/-! PROOF. The first frame of a selection (41_select.md R172 to R180): the bytes of a level's frame, and the exchange or
the ComputeCrc the first level opens with. -/
section
namespace Sys2Proof.Machine

/-! ### Slices of a buffer -/

theorem Buf.slice_getElem {n : Nat} (v : Vector Byte n) (i k : Nat) {j : Nat} (h : j < (Buf.slice v i k).length) :
    (Buf.slice v i k)[j] = Buf.get v (i + j) := by simp [Buf.slice]

theorem Buf.slice_add {n : Nat} (v : Vector Byte n) (i a b : Nat) :
    Buf.slice v i (a + b) = Buf.slice v i a ++ Buf.slice v (i + a) b := by
  simp [Buf.slice, List.range_add, Function.comp_def, Nat.add_assoc]

/-- Buffers that read alike over a range have the same slice there. -/
theorem Buf.slice_congr {n m : Nat} {v : Vector Byte n} {w : Vector Byte m} {i i' k : Nat}
    (h : ∀ j, j < k → Buf.get v (i + j) = Buf.get w (i' + j)) : Buf.slice v i k = Buf.slice w i' k :=
  List.map_congr_left fun j hj => h j (List.mem_range.1 hj)

theorem Buf.slice_take {n : Nat} (v : Vector Byte n) (i k : Nat) {a : Nat} (h : a ≤ k) :
    (Buf.slice v i k).take a = Buf.slice v i a := by
  simp [Buf.slice, ← List.map_take, List.take_range, Nat.min_eq_left h]

/-! ### The frame at the start of a level -/

section Level

variable (p : Params) (k decl : Nat) (sel : SelectState)

/-- The bits of a level that are known: those of the slice, and a tag's eight (R176). -/
def levelKnown (level k decl : Nat) : Nat :=
  if insertsTag level k decl then k - 8 * sliceBase level + 8 else k - 8 * sliceBase level

/-- The four identifier bytes of a level's frame: the tag if one is inserted, and the slice (R174, R175). -/
def levelBytes (p : Params) (level k decl : Nat) (uid : Vector Byte 10) : List Byte :=
  if insertsTag level k decl then p.picc.cascadeTag :: Buf.slice uid (sliceBase level) 3
  else Buf.slice uid (sliceBase level) 4

theorem levelStart_lk : (levelStart p k decl sel).lk = levelKnown sel.level k decl := rfl

theorem levelBytes_length (level : Nat) (uid : Vector Byte 10) : (levelBytes p level k decl uid).length = 4 := by
  unfold levelBytes
  split <;> simp

/-- A level's frame begins with its command byte (R175). -/
theorem levelStart_command : Buf.get (levelStart p k decl sel).frame 0 = selCommand p sel.level := by
  unfold levelStart
  cases insertsTag sel.level k decl <;>
    simp [Buf.get_putMany_other, Buf.get_put_other, Buf.get_put_same]

variable {k decl sel}

/-- The inserted tag is frame byte 2 (R175). -/
theorem levelStart_tag (h : insertsTag sel.level k decl = true) :
    Buf.get (levelStart p k decl sel).frame 2 = p.picc.cascadeTag := by
  simp [levelStart, h, Buf.get_putMany_other, Buf.get_put_same]

/-- The known bytes of the slice follow the tag, if one is inserted (R176). -/
theorem levelStart_prefix {j : Nat} (h : j < ceil8 (k - 8 * sliceBase sel.level))
    (hj : j < if insertsTag sel.level k decl then 3 else 4) :
    Buf.get (levelStart p k decl sel).frame ((if insertsTag sel.level k decl then 3 else 2) + j) =
      Buf.get sel.uidWork (sliceBase sel.level + j) := by
  unfold levelStart
  rw [Buf.get_putMany_same _ _ (by simpa using ⟨h, hj⟩) (by simp; split <;> omega), Buf.slice_getElem]

/-- So the bytes from index 2 on, as far as their bits are known, are the level's. -/
theorem levelStart_slice {m : Nat} (h4 : m ≤ 4) (h : m ≤ (levelKnown sel.level k decl + 7) / 8) :
    Buf.slice (levelStart p k decl sel).frame 2 m = (levelBytes p sel.level k decl sel.uidWork).take m := by
  unfold levelBytes
  unfold levelKnown at h
  cases htag : insertsTag sel.level k decl with
  | false =>
    simp only [htag, Bool.false_eq_true, if_false] at h ⊢
    rw [Buf.slice_take _ _ _ h4]
    refine Buf.slice_congr fun j hj => ?_
    have hprefix := levelStart_prefix p (k := k) (decl := decl) (sel := sel) (j := j) (by unfold ceil8; omega)
      (by rw [htag, if_neg nofun]; omega)
    rwa [htag] at hprefix
  | true =>
    simp only [htag, if_true] at h ⊢
    cases m with
    | zero => rfl
    | succ m =>
      rw [Nat.add_comm m 1, Buf.slice_add, Nat.add_comm 1 m, List.take_succ_cons, Buf.slice_take _ _ _ (by omega)]
      refine congrArg₂ List.cons (levelStart_tag p htag) (Buf.slice_congr fun j hj => ?_)
      have hprefix := levelStart_prefix p (k := k) (decl := decl) (sel := sel) (j := j) (by unfold ceil8; omega)
        (by rw [htag, if_pos rfl]; omega)
      rwa [htag] at hprefix

/-- The frame up to there, with the framing byte `b` (R180). -/
theorem levelStart_frame (b : Byte) {m : Nat} (h4 : m ≤ 4) (h : m ≤ (levelKnown sel.level k decl + 7) / 8) :
    Buf.slice (Buf.put (levelStart p k decl sel).frame 1 b) 0 (2 + m) =
      [selCommand p sel.level, b] ++ (levelBytes p sel.level k decl sel.uidWork).take m := by
  rw [Buf.slice_add, ← levelStart_slice p h4 h]
  refine congrArg₂ (· ++ ·) (congrArg₂ (fun x y => [x, y]) ?_ ?_) (Buf.slice_congr fun j _ => ?_)
  · exact (Buf.get_put_other _ _ (by decide)).trans (levelStart_command p k decl sel)
  · exact Buf.get_put_same _ _ (by decide)
  · rw [Buf.get_put_other _ _ (by omega), Nat.zero_add]

/-- The full-level frame before its CRC (R178). -/
theorem levelStart_fullFrame (h : 32 ≤ levelKnown sel.level k decl) :
    Buf.slice (fullFrame p (levelStart p k decl sel).frame) 0 7 =
      [selCommand p sel.level, p.picc.nvbSelect] ++ levelBytes p sel.level k decl sel.uidWork ++
        [xorAll (levelBytes p sel.level k decl sel.uidWork)] := by
  have h4 : 4 ≤ (levelKnown sel.level k decl + 7) / 8 := by omega
  have hall : (levelBytes p sel.level k decl sel.uidWork).take 4 = levelBytes p sel.level k decl sel.uidWork :=
    List.take_of_length_le (levelBytes_length p k decl sel.level sel.uidWork).le
  have hcheck : Buf.slice (Buf.put (levelStart p k decl sel).frame 1 p.picc.nvbSelect) 2 4 =
      levelBytes p sel.level k decl sel.uidWork := by
    rw [← hall, ← levelStart_slice p (Nat.le_refl 4) h4]
    exact Buf.slice_congr fun j _ => Buf.get_put_other _ _ (by omega)
  simp only [fullFrame]
  rw [hcheck, Buf.slice_add _ 0 6 1]
  refine congrArg₂ (· ++ ·) ?_ (congrArg (fun x => [x]) (Buf.get_put_same _ _ (by decide)))
  rw [← hall, ← levelStart_frame p p.picc.nvbSelect (Nat.le_refl 4) h4, hall]
  exact Buf.slice_congr fun j hj => Buf.get_put_other _ _ (by omega)

end Level

/-! ### The opening of a level -/

variable {k decl : Nat} {s : State}

/-- Whole bytes and a begun one (R111). -/
theorem partialLen_eq (lk : Nat) : partialLen lk = 2 + (lk + 7) / 8 := by
  unfold partialLen wholeBytes
  split <;> omega

/-- The anti-collision exchange of a level with fewer than 32 known bits (R180 to R182). -/
def partialCall (p : Params) (level lk : Nat) (bytes : List Byte) : CommCall :=
  { cmd := p.pcd.transceive, waitIrq := p.mask.waitTransceive
    tx := [selCommand p level, nvb lk] ++ bytes.take ((lk + 7) / 8)
    txLastBits := lk % 8, rxAlign := lk % 8, checkCrc := false, dest := .frame, off := 2 + lk / 8, cap := 7 - lk / 8 }

/-- With fewer than 32 known bits a level opens with that exchange (R180). -/
theorem selectLevel_partial (h : levelKnown s.sel.level k decl < 32) :
    (selectLevel k decl s).seq =
      .communicate .selectRound
        (partialCall s.params s.sel.level (levelKnown s.sel.level k decl)
          (levelBytes s.params s.sel.level k decl s.sel.uidWork)) .idle := by
  have hcap : 9 - wholeBytes (levelKnown s.sel.level k decl) = 7 - levelKnown s.sel.level k decl / 8 := by
    unfold wholeBytes; omega
  rw [selectLevel, selectRound_partial h, State.withSeq_seq]
  simp only [selectCall, partialFrame, partialCall, State.withSel_params, State.withSel_sel, levelStart_lk,
    partialLen_eq, hcap]
  rw [levelStart_frame s.params _ (by omega) (Nat.le_refl _)]
  rfl

/-- With 32 or more it opens with the CRC of the full-level frame (R178). -/
theorem selectLevel_full (h : 32 ≤ levelKnown s.sel.level k decl) :
    (selectLevel k decl s).seq =
      .computeCrc .fullFrame
        ([selCommand s.params s.sel.level, s.params.picc.nvbSelect] ++
          levelBytes s.params s.sel.level k decl s.sel.uidWork ++
          [xorAll (levelBytes s.params s.sel.level k decl s.sel.uidWork)]) .idle := by
  rw [selectLevel, selectRound_full h, ← levelStart_fullFrame s.params h]
  rfl

/-- The first frame of a selection: the host's identifier, as far as it is known (R172). -/
theorem selectBegin_partial (hk : k ≤ 80) (h : levelKnown 1 k s.h.uidInSize.toNat < 32) :
    (selectBegin k s).seq =
      .communicate .selectRound
        (partialCall s.params 1 (levelKnown 1 k s.h.uidInSize.toNat)
          (levelBytes s.params 1 k s.h.uidInSize.toNat s.h.uidIn)) .idle := by
  rw [selectBegin_firstLevel hk]
  exact selectLevel_partial h

theorem selectBegin_full (hk : k ≤ 80) (h : 32 ≤ levelKnown 1 k s.h.uidInSize.toNat) :
    (selectBegin k s).seq =
      .computeCrc .fullFrame
        ([s.params.picc.selCl1, s.params.picc.nvbSelect] ++ levelBytes s.params 1 k s.h.uidInSize.toNat s.h.uidIn ++
          [xorAll (levelBytes s.params 1 k s.h.uidInSize.toNat s.h.uidIn)]) .idle := by
  rw [selectBegin_firstLevel hk]
  exact selectLevel_full h

/-- With no known bit the first frame is the command byte and 0x20 (R198). -/
theorem partialCall_unknown (p : Params) (bytes : List Byte) :
    partialCall p 1 0 bytes =
      { cmd := p.pcd.transceive, waitIrq := p.mask.waitTransceive, tx := [p.picc.selCl1, 0x20], txLastBits := 0,
        rxAlign := 0, checkCrc := false, dest := .frame, off := 2, cap := 7 } := by
  have hnvb : nvb 0 = 0x20 := by decide
  rw [← hnvb]
  rfl

/-- Settles O49: the first step is the idle write where the opening stands, by `selectBegin_partial` and
`selectBegin_full`. -/
theorem selectFirstFrame : Obligations.SelectFirstFrame := by
  unfold Obligations.SelectFirstFrame
  intro s hs hk k tag lk p u slice
  refine ⟨fun h => ?_, fun h => ?_, ?_⟩
  · exact exec_start_communicate hs (selectBegin_partial hk h)
  · exact exec_start_computeCrc hs (selectBegin_full hk h)
  · have hunknown : levelKnown 1 0 s.h.uidInSize.toNat = 0 := rfl
    have hopen := selectBegin_partial (s := s) (Nat.zero_le 80) (hunknown.trans_lt (by decide))
    rw [hunknown, partialCall_unknown] at hopen
    obtain ⟨t, he, -, hh, hseq⟩ := exec_start_communicate (i := .readCardSerial) hs hopen
    exact ⟨t, he, hh, hseq⟩

end Sys2Proof.Machine
end

/-! PROOF. The run of a ComputeCrc (42_crc.md R211 to R216), whoever calls it: its transactions, its polls, and the
return with the result bytes or with Timeout. -/
section
namespace Sys2Proof.Machine

/-- Who runs a ComputeCrc: an operation, or a Communicate for the CRC check of its reply (R149, R215). -/
inductive CrcCaller where
  | operation (site : CrcSite)
  | reply (site : CommSite) (c : CommCall)

namespace CrcCaller

/-- The position of a ComputeCrc. -/
def here : CrcCaller → List Byte → CrcPos → Seq
  | .operation site => .computeCrc site
  | .reply site c => .replyCrc site c

/-- What comes after one of its transactions. -/
def next : CrcCaller → List Byte → CrcNext → Seq
  | .operation site => .crcNext site
  | .reply site c => .replyCrcNext site c

/-- The caller stands in the pseudocode of the operation. -/
def owned (i : Instr) : CrcCaller → Bool
  | .operation site => ownsCrcSite i site
  | .reply site _ => ownsCommSite i site

/-- The caller's code after the return, of an operation with the host registers `h`. -/
def ret (i : Instr) (h : HostRegs) : CrcCaller → Status → State → State
  | .operation site => crcReturn i h site
  | .reply site c => afterReplyCrc (commReturn site) c

end CrcCaller

section Runs

variable {i : Instr} {caller : CrcCaller} {data : List Byte} {s : State} {k : Nat}

/-- A run goes on past a transaction of a ComputeCrc. -/
theorem runOp_crcStep {pos : CrcPos} (ho : caller.owned i = true) (hs : s.seq = caller.here data pos) :
    runOp i (k + 1) s = runOp i k (crcStep (caller.here data) (caller.next data) data pos s) := by
  have hexec : exec i s = .next (crcStep (caller.here data) (caller.next data) data pos s) := by
    cases caller with
    | operation site => exact exec_computeCrc ho hs
    | reply site c => exact exec_replyCrc ho hs
  refine runOp_continue hexec ?_
  obtain ⟨u, -, -, -, -, ⟨q, -, -, e⟩ | ⟨n, -, e⟩⟩ := crcStep_cases (caller.here data) (caller.next data) data pos s
  all_goals rw [e]; cases caller <;> nofun

/-- Between two transactions comes the pure computation. -/
theorem runOp_crcNext {n : CrcNext} (ho : caller.owned i = true) (hs : s.seq = caller.next data n) :
    runOp i (k + 1) s = runOp i (k + 1) (crcResume (caller.here data) (caller.ret i s.h) data n s) := by
  cases caller with
  | operation site => rw [runOp_resume (by rw [hs]; exact ho) (by rw [hs]; nofun), resume_crcNext hs]; rfl
  | reply site c => rw [runOp_resume (by rw [hs]; exact ho) (by rw [hs]; nofun), resume_replyCrcNext hs]; rfl

/-- The transactions that give the bytes to the CRC unit and start it, newest first (R211). -/
def crcSendTxns (p : Params) (data : List Byte) : List Txn :=
  [ .write .commandReg [p.pcd.calcCrc], .write .fifoDataReg data, .write .fifoLevelReg [p.mask.fifoFlush],
    .write .divIrqReg [p.mask.divCrcIrq], .write .commandReg [p.pcd.idle] ]

/-- The state after them. -/
def crcSent (caller : CrcCaller) (data : List Byte) (s : State) : State :=
  { s with bus := crcSendTxns s.params data ++ s.bus, seq := caller.next data .started }

/-- A ComputeCrc over some bytes begins with these five transactions. -/
theorem runOp_crcSend (ho : caller.owned i = true) (hs : s.seq = caller.here data .idle) (hdata : data ≠ []) :
    runOp i (k + 5) s = runOp i k (crcSent caller data s) := by
  rw [runOp_crcStep ho hs, runOp_crcStep (pos := .clearDone) ho rfl, runOp_crcStep (pos := .flush) ho rfl,
    runOp_crcNext (n := .flushed) ho rfl, crcResume, List.isEmpty_eq_false_iff.2 hdata,
    runOp_crcStep (pos := .load) ho rfl, runOp_crcStep (pos := .start) ho rfl]
  simp only [crcStep, busWrite, State.withBus, State.withSeq]
  rfl

/-! ### Polling -/

/-- The poll reads of DivIrqReg that returned `polls`, newest first. -/
def crcPollTxns (polls : List Byte) : List Txn := polls.reverse.map fun b => .read .divIrqReg [b]

/-- The state after the poll reads `polls`, but for the position. -/
def crcPolled (polls rest : List Byte) (s : State) : State :=
  { s with
    bus := crcPollTxns polls ++ s.bus, env := ⟨rest, s.env.draws⟩
    crc := { s.crc with crcPoll := s.crc.crcPoll + polls.length } }

theorem crcPolled_cons (b : Byte) (polls rest : List Byte) (q q' : Seq) :
    (crcPolled polls rest ((crcPolled [b] (polls ++ rest) s).withSeq q)).withSeq q' =
      (crcPolled (b :: polls) rest s).withSeq q' := by
  simp [crcPolled, crcPollTxns, State.withSeq, Nat.add_assoc, Nat.add_comm 1]

@[simp] theorem crcPollTxns_length (polls : List Byte) : (crcPollTxns polls).length = polls.length := by
  simp [crcPollTxns]

/-- With budget left the loop goes on with a poll read (R212). -/
theorem runOp_crcPoll {b : Byte} {rest : List Byte} {ret : Status → State → State} (ho : caller.owned i = true)
    (hbudget : s.crc.crcPoll ≠ s.params.crcPollBudget) (ha : s.env.answers = b :: rest) :
    runOp i (k + 1) (crcPollHead (caller.here data) ret s) =
      runOp i k ((crcPolled [b] rest s).withSeq (caller.next data (.polled b))) := by
  rw [crcPollHead, if_neg hbudget, runOp_crcStep ho rfl, crcPolled, ← nextByte_of_answers s ha,
    ← drop_of_answers s ha]
  rfl

/-- While the flag is not seen and the budget not used up, polls bring the loop back to its head (R212, R213). -/
theorem runOp_crcPolls {polls rest : List Byte} (ho : caller.owned i = true)
    (hdone : ∀ b ∈ polls, crcDone s.params b = false)
    (hbudget : s.crc.crcPoll + polls.length ≤ s.params.crcPollBudget) (ha : s.env.answers = polls ++ rest) :
    ∃ q, runOp i (k + polls.length + 1) (crcPollHead (caller.here data) (caller.ret i s.h) s) =
      runOp i (k + 1)
        (crcPollHead (caller.here data) (caller.ret i s.h) ((crcPolled polls rest s).withSeq q)) := by
  induction polls generalizing s with
  | nil =>
    have henv : (⟨rest, s.env.draws⟩ : Env) = s.env := by rw [← List.nil_append rest, ← ha]
    refine ⟨s.seq, ?_⟩
    simp [crcPolled, crcPollTxns, henv, State.withSeq]
  | cons b polls ih =>
    have hpoll : s.crc.crcPoll ≠ s.params.crcPollBudget := by rw [List.length_cons] at hbudget; omega
    obtain ⟨q, hq⟩ := ih (s := (crcPolled [b] (polls ++ rest) s).withSeq (caller.next data (.polled b)))
      (fun x hx => hdone x (.tail b hx)) (by simpa [crcPolled, Nat.add_assoc, Nat.add_comm 1] using hbudget) rfl
    have hb : crcDone s.params b = false := hdone b (.head polls)
    refine ⟨q, ?_⟩
    rw [crcPolled_cons] at hq
    rw [List.length_cons, ← Nat.add_assoc, runOp_crcPoll ho hpoll ha, runOp_crcNext (n := .polled b) ho rfl,
      crcResume, if_neg (by exact hb ▸ nofun)]
    exact hq

/-- At the entry of the loop the counter is cleared, and polls that do not show the flag follow (R213). -/
theorem runOp_crcStarted {polls rest : List Byte} (ho : caller.owned i = true)
    (hs : s.seq = caller.next data .started) (hdone : ∀ b ∈ polls, crcDone s.params b = false)
    (hbudget : polls.length ≤ s.params.crcPollBudget) (ha : s.env.answers = polls ++ rest) :
    ∃ q, runOp i (k + polls.length + 1) s =
      runOp i (k + 1) (crcPollHead (caller.here data) (caller.ret i s.h)
        ((crcPolled polls rest (s.withCrc { s.crc with crcPoll := 0 })).withSeq q)) := by
  obtain ⟨q, hq⟩ := runOp_crcPolls (k := k) (data := data) (s := s.withCrc { s.crc with crcPoll := 0 }) ho hdone
    (by simpa using hbudget) ha
  exact ⟨q, (runOp_crcNext ho hs).trans hq⟩

/-- With no flag seen within the budget it returns Timeout (R212, R213). -/
theorem runOp_crcTimeout {polls rest : List Byte} (ho : caller.owned i = true)
    (hs : s.seq = caller.next data .started) (hdone : ∀ b ∈ polls, crcDone s.params b = false)
    (hbudget : polls.length = s.params.crcPollBudget) (ha : s.env.answers = polls ++ rest) :
    ∃ q, runOp i (k + polls.length + 1) s =
      runOp i (k + 1) (caller.ret i s.h .timeout
        ((crcPolled polls rest (s.withCrc { s.crc with crcPoll := 0 })).withSeq q)) := by
  obtain ⟨q, hq⟩ := runOp_crcStarted (k := k) ho hs hdone hbudget.le ha
  refine ⟨q, hq.trans (congrArg _ (if_pos ?_))⟩
  simpa [crcPolled] using hbudget

/-- The unit is stopped and its result read, low byte first (R213). -/
theorem runOp_crcRead {rest : List Byte} {lo hi : Byte} (ho : caller.owned i = true)
    (hs : s.seq = caller.here data .stop) (ha : s.env.answers = lo :: hi :: rest) :
    runOp i (k + 3) s = runOp i k
      { s with
        bus := .read .crcResultRegH [hi] :: .read .crcResultRegL [lo] :: .write .commandReg [s.params.pcd.idle] :: s.bus
        env := ⟨rest, s.env.draws⟩, crc := ⟨s.crc.crcPoll, lo, hi⟩, seq := caller.next data .finished } := by
  rw [runOp_crcStep ho hs, runOp_crcStep (pos := .readLo) ho rfl, runOp_crcStep (pos := .readHi) ho rfl]
  simp [crcStep, busWrite, busRead, busReadN, nextByte, Env.peek, Env.drop, ha, State.withBus, State.withEnv,
    State.withCrc, State.withSeq]

/-- The transactions of a ComputeCrc that finds the flag set after the polls `polls`, newest first (R211 to R213). -/
def crcTxns (p : Params) (data polls : List Byte) (v lo hi : Byte) : List Txn :=
  [ .read .crcResultRegH [hi], .read .crcResultRegL [lo], .write .commandReg [p.pcd.idle], .read .divIrqReg [v] ] ++
    crcPollTxns polls ++ crcSendTxns p data

/-- The state after them. -/
def crcFinished (caller : CrcCaller) (data polls rest : List Byte) (v lo hi : Byte) (s : State) : State :=
  { s with
    bus := crcTxns s.params data polls v lo hi ++ s.bus, env := ⟨rest, s.env.draws⟩
    crc := ⟨polls.length + 1, lo, hi⟩, seq := caller.next data .finished }

/-- A ComputeCrc over some bytes that finds the flag set within the budget returns OK. -/
theorem runOp_crc {polls rest : List Byte} {v lo hi : Byte} (ho : caller.owned i = true)
    (hs : s.seq = caller.here data .idle) (hdata : data ≠ []) (hdone : ∀ b ∈ polls, crcDone s.params b = false)
    (hbudget : polls.length < s.params.crcPollBudget) (hv : crcDone s.params v = true)
    (ha : s.env.answers = polls ++ v :: lo :: hi :: rest) :
    runOp i (k + polls.length + 10) s =
      runOp i (k + 1) (caller.ret i s.h .ok (crcFinished caller data polls rest v lo hi s)) := by
  obtain ⟨q, hq⟩ := runOp_crcStarted (k := k + 4) (s := crcSent caller data s) ho rfl hdone hbudget.le ha
  have hleft : 0 + polls.length ≠ s.params.crcPollBudget := by omega
  rw [show k + polls.length + 10 = k + 4 + polls.length + 1 + 5 by omega, runOp_crcSend ho hs hdata, hq,
    runOp_crcPoll (b := v) (rest := lo :: hi :: rest) ho hleft rfl, runOp_crcNext (n := .polled v) ho rfl, crcResume,
    if_pos (by exact hv), runOp_crcRead (lo := lo) (hi := hi) (rest := rest) ho rfl rfl,
    runOp_crcNext (n := .finished) ho rfl, crcResume]
  simp [crcFinished, crcTxns, crcPolled, crcSent, crcPollTxns, State.withSeq, State.withCrc]

end Runs

end Sys2Proof.Machine
end

/-! PROOF. The run of a Transceive (40_communicate.md R142 to R147): the kick, the interrupt polls and the reply. -/
section
namespace Sys2Proof.Machine

section Runs

variable {i : Instr} {s : State} {site : CommSite} {c : CommCall} {k : Nat}

/-- A run goes on with the pure computation of a Communicate. -/
theorem runOp_commResume {n : CommNext} (ho : ownsCommSite i site = true) (hs : s.seq = .commNext site c n) :
    runOp i (k + 1) s = runOp i (k + 1) (commResume site (commReturn site) c n s) := by
  rw [runOp_resume (by rw [hs]; exact ho) (by rw [hs]; nofun), resume_commNext hs]

/-- The state after the transactions that send the call's bytes and the kick, BitFramingReg having read as `b`
(R145). -/
def commKicked (site : CommSite) (c : CommCall) (b : Byte) (rest : List Byte) (s : State) : State :=
  { s with
    bus := .write .bitFramingReg [b ||| s.params.mask.startSend] :: .read .bitFramingReg [b] ::
      (sendTxns s.params c ++ s.bus)
    env := ⟨rest, s.env.draws⟩, seq := .commNext site c .kicked }

/-- A Transceive with bytes to send begins with these eight transactions (R143 to R145). -/
theorem runOp_kick {b : Byte} {rest : List Byte} (ho : ownsCommSite i site = true)
    (hs : s.seq = .communicate site c .idle) (htx : c.tx ≠ []) (hcmd : c.cmd = s.params.pcd.transceive)
    (ha : s.env.answers = b :: rest) : runOp i (k + 8) s = runOp i k (commKicked site c b rest s) := by
  rw [runOp_send (k := k + 2) ho hs htx, runOp_commResume ho rfl, commResume, if_pos (by exact hcmd),
    runOp_commStep (pos := .kickRead) ho rfl, runOp_commStep (pos := .kickWrite (nextByte s)) ho rfl]
  simp [commStep, commSent, commKicked, busWrite, busRead, busReadN, nextByte, Env.peek, Env.drop, ha, State.withBus,
    State.withEnv, State.withSeq]

/-! ### Polling -/

/-- The poll reads of ComIrqReg that returned `polls`, newest first. -/
def irqPollTxns (polls : List Byte) : List Txn := polls.reverse.map fun b => .read .comIrqReg [b]

@[simp] theorem irqPollTxns_length (polls : List Byte) : (irqPollTxns polls).length = polls.length := by
  simp [irqPollTxns]

/-- The state after the poll reads `polls`, but for the position. -/
def irqPolled (polls rest : List Byte) (s : State) : State :=
  { s with
    bus := irqPollTxns polls ++ s.bus, env := ⟨rest, s.env.draws⟩
    comm := { s.comm with irqPoll := s.comm.irqPoll + polls.length } }

theorem irqPolled_cons (b : Byte) (polls rest : List Byte) (q q' : Seq) :
    (irqPolled polls rest ((irqPolled [b] (polls ++ rest) s).withSeq q)).withSeq q' =
      (irqPolled (b :: polls) rest s).withSeq q' := by
  simp [irqPolled, irqPollTxns, State.withSeq, Nat.add_assoc, Nat.add_comm 1]

/-- With budget left the loop goes on with a poll read (R146). -/
theorem runOp_irqPoll {b : Byte} {rest : List Byte} {ret : CommReturn} (ho : ownsCommSite i site = true)
    (hbudget : s.comm.irqPoll ≠ s.params.irqPollBudget) (ha : s.env.answers = b :: rest) :
    runOp i (k + 1) (irqPollHead site ret c s) =
      runOp i k ((irqPolled [b] rest s).withSeq (.commNext site c (.polled b))) := by
  rw [irqPollHead, if_neg hbudget, runOp_commStep ho rfl, irqPolled, ← nextByte_of_answers s ha,
    ← drop_of_answers s ha]
  rfl

/-- While neither flag is seen and the budget not used up, polls bring the loop back to its head (R146). -/
theorem runOp_irqPolls {polls rest : List Byte} (ho : ownsCommSite i site = true)
    (hflags : ∀ b ∈ polls, awaited c b = false ∧ timerExpired s.params b = false)
    (hbudget : s.comm.irqPoll + polls.length ≤ s.params.irqPollBudget) (ha : s.env.answers = polls ++ rest) :
    ∃ q, runOp i (k + polls.length + 1) (irqPollHead site (commReturn site) c s) =
      runOp i (k + 1) (irqPollHead site (commReturn site) c ((irqPolled polls rest s).withSeq q)) := by
  induction polls generalizing s with
  | nil =>
    have henv : (⟨rest, s.env.draws⟩ : Env) = s.env := by rw [← List.nil_append rest, ← ha]
    refine ⟨s.seq, ?_⟩
    simp [irqPolled, irqPollTxns, henv, State.withSeq]
  | cons b polls ih =>
    have hpoll : s.comm.irqPoll ≠ s.params.irqPollBudget := by rw [List.length_cons] at hbudget; omega
    obtain ⟨q, hq⟩ := ih (s := (irqPolled [b] (polls ++ rest) s).withSeq (.commNext site c (.polled b)))
      (fun x hx => hflags x (.tail b hx)) (by simpa [irqPolled, Nat.add_assoc, Nat.add_comm 1] using hbudget) rfl
    obtain ⟨hawaited, htimer⟩ := hflags b (.head polls)
    refine ⟨q, ?_⟩
    rw [irqPolled_cons] at hq
    rw [List.length_cons, ← Nat.add_assoc, runOp_irqPoll ho hpoll ha, runOp_commResume (n := .polled b) ho rfl,
      commResume, if_neg (by exact hawaited ▸ nofun), if_neg (by exact htimer ▸ nofun)]
    exact hq

/-- After the kick the counter is cleared, and polls that show neither flag follow (R146). -/
theorem runOp_kicked {polls rest : List Byte} (ho : ownsCommSite i site = true)
    (hs : s.seq = .commNext site c .kicked)
    (hflags : ∀ b ∈ polls, awaited c b = false ∧ timerExpired s.params b = false)
    (hbudget : polls.length ≤ s.params.irqPollBudget) (ha : s.env.answers = polls ++ rest) :
    ∃ q, runOp i (k + polls.length + 1) s =
      runOp i (k + 1) (irqPollHead site (commReturn site) c
        ((irqPolled polls rest (s.withComm { s.comm with irqPoll := 0 })).withSeq q)) := by
  obtain ⟨q, hq⟩ := runOp_irqPolls (k := k) (s := s.withComm { s.comm with irqPoll := 0 }) ho hflags
    (by simpa using hbudget) ha
  exact ⟨q, (runOp_commResume ho hs).trans hq⟩

/-- With no flag seen within the budget it returns Timeout (R146). -/
theorem runOp_irqTimeout {polls rest : List Byte} (ho : ownsCommSite i site = true)
    (hs : s.seq = .commNext site c .kicked)
    (hflags : ∀ b ∈ polls, awaited c b = false ∧ timerExpired s.params b = false)
    (hbudget : polls.length = s.params.irqPollBudget) (ha : s.env.answers = polls ++ rest) :
    ∃ q, runOp i (k + polls.length + 1) s =
      runOp i (k + 1) (commReturn site .timeout 0 0
        ((irqPolled polls rest (s.withComm { s.comm with irqPoll := 0 })).withSeq q)) := by
  obtain ⟨q, hq⟩ := runOp_kicked (k := k) ho hs hflags hbudget.le ha
  refine ⟨q, hq.trans (congrArg _ (if_pos ?_))⟩
  simpa [irqPolled] using hbudget

/-- The state after a kick and the polls `polls` and `v`. -/
def commPolled (site : CommSite) (c : CommCall) (polls rest : List Byte) (v : Byte) (s : State) : State :=
  { s with
    bus := .read .comIrqReg [v] :: (irqPollTxns polls ++ s.bus), env := ⟨rest, s.env.draws⟩
    comm := { s.comm with irqPoll := polls.length + 1 }, seq := .commNext site c (.polled v) }

/-- One more poll read within the budget, whatever it shows. -/
theorem runOp_polled {polls rest : List Byte} {v : Byte} (ho : ownsCommSite i site = true)
    (hs : s.seq = .commNext site c .kicked)
    (hflags : ∀ b ∈ polls, awaited c b = false ∧ timerExpired s.params b = false)
    (hbudget : polls.length < s.params.irqPollBudget) (ha : s.env.answers = polls ++ v :: rest) :
    runOp i (k + polls.length + 1) s = runOp i k (commPolled site c polls rest v s) := by
  obtain ⟨q, hq⟩ := runOp_kicked (k := k) ho hs hflags hbudget.le ha
  have hleft : 0 + polls.length ≠ s.params.irqPollBudget := by omega
  rw [hq, runOp_irqPoll (b := v) (rest := rest) ho hleft rfl]
  simp [commPolled, irqPolled, irqPollTxns, State.withSeq, State.withComm]

/-- The state after a kick, the polls `polls`, one that shows an awaited flag, and the ErrorReg read. -/
def commErrorRead (site : CommSite) (c : CommCall) (polls rest : List Byte) (v err : Byte) (s : State) : State :=
  { s with
    bus := .read .errorReg [err] :: .read .comIrqReg [v] :: (irqPollTxns polls ++ s.bus), env := ⟨rest, s.env.draws⟩
    comm := { s.comm with irqPoll := polls.length + 1, err := err }, seq := .commNext site c .gotError }

/-- An awaited flag within the budget leads to the ErrorReg read (R146). -/
theorem runOp_kicked_awaited {polls rest : List Byte} {v err : Byte} (ho : ownsCommSite i site = true)
    (hs : s.seq = .commNext site c .kicked)
    (hflags : ∀ b ∈ polls, awaited c b = false ∧ timerExpired s.params b = false)
    (hbudget : polls.length < s.params.irqPollBudget) (hv : awaited c v = true)
    (ha : s.env.answers = polls ++ v :: err :: rest) :
    runOp i (k + polls.length + 2) s = runOp i k (commErrorRead site c polls rest v err s) := by
  rw [show k + polls.length + 2 = k + 1 + polls.length + 1 by omega, runOp_polled ho hs hflags hbudget ha,
    runOp_readError (b := err) (rest := rest) ho rfl hv rfl]
  rfl

/-- The timer's flag without an awaited one returns Timeout (R146). -/
theorem runOp_timerExpired {v : Byte} (ho : ownsCommSite i site = true) (hs : s.seq = .commNext site c (.polled v))
    (hv : awaited c v = false) (ht : timerExpired s.params v = true) :
    runOp i (k + 1) s = runOp i (k + 1) (commReturn site .timeout 0 0 s) := by
  rw [runOp_commResume ho hs, commResume, if_neg (by rw [hv]; nofun), if_pos ht]

/-! ### The reply -/

/-- With no framing error and a reply expected comes the FIFOLevelReg read (R147). -/
theorem runOp_readLevel {b : Byte} {rest : List Byte} (ho : ownsCommSite i site = true)
    (hs : s.seq = .commNext site c .gotError) (herr : framingError s.params s.comm.err = false) (hcap : 0 < c.cap)
    (ha : s.env.answers = b :: rest) :
    runOp i (k + 1) s = runOp i k
      { s with
        bus := .read .fifoLevelReg [b] :: s.bus, env := ⟨rest, s.env.draws⟩
        comm := { s.comm with cn := 0, cvb := 0 }, seq := .commNext site c (.gotLevel b) } := by
  have hr : commResume site (commReturn site) c .gotError s =
      (s.withComm { s.comm with cn := 0, cvb := 0 }).withSeq (.communicate site c .readLevel) := by
    simp [commResume, herr, hcap]
  rw [runOp_commNext (pos := .readLevel) ho hs hr rfl, ← nextByte_of_answers s ha, ← drop_of_answers s ha]
  rfl

/-- With a level above 0 and within the capacity comes the burst read, merged into the destination's byte (R80,
R147). -/
theorem runOp_readData {v : Byte} {data rest : List Byte} (ho : ownsCommSite i site = true)
    (hs : s.seq = .commNext site c (.gotLevel v)) (hlvl : fifoLevel s.params v = data.length) (hdata : data ≠ [])
    (hcap : data.length ≤ c.cap) (ha : s.env.answers = data ++ rest) :
    runOp i (k + 1) s = runOp i k
      { s with
        bus := .read .fifoDataReg data :: s.bus, env := ⟨rest, s.env.draws⟩
        comm := { s.comm with cn := data.length }
        seq := .communicate site c
          (.readControl (mergeFirst (c.rxAlign % 8) (destRead c.dest c.off s) data)) } := by
  have hpeek : s.env.peek data.length = data := by
    have h := Env.peek_append data rest s.env.draws
    rwa [← ha] at h
  have hdrop : s.env.drop data.length = ⟨rest, s.env.draws⟩ := by
    have h := Env.drop_append data rest s.env.draws
    rwa [← ha] at h
  have hpos : fifoLevel s.params v ≠ 0 := by rw [hlvl]; exact (List.length_pos_of_ne_nil hdata).ne'
  rw [runOp_continue (exec_gotLevel_pos ho hs hpos (hlvl.trans_le hcap)) nofun, hlvl, hpeek, hdrop]

/-- The ControlReg read stores the reply (R147). -/
theorem runOp_readControl {ctl : Byte} {d rest : List Byte} (ho : ownsCommSite i site = true)
    (hs : s.seq = .communicate site c (.readControl d)) (ha : s.env.answers = ctl :: rest) :
    runOp i (k + 1) s = runOp i k
      ((storeReply c d s.comm.cn (lastBits s.params ctl)
        { s with
          bus := .read .controlReg [ctl] :: s.bus, env := ⟨rest, s.env.draws⟩
          comm := { s.comm with cvb := lastBits s.params ctl } }).withSeq (.commNext site c .stored)) := by
  rw [runOp_commStep ho hs, ← nextByte_of_answers s ha, ← drop_of_answers s ha]
  rfl

/-- The state after the three transactions that take and store a reply of the bytes `data` (R147). -/
def commReplied (site : CommSite) (c : CommCall) (lvl ctl : Byte) (data rest : List Byte) (s : State) : State :=
  (storeReply c (mergeFirst (c.rxAlign % 8) (destRead c.dest c.off s) data) data.length (lastBits s.params ctl)
    { s with
      bus := .read .controlReg [ctl] :: .read .fifoDataReg data :: .read .fifoLevelReg [lvl] :: s.bus
      env := ⟨rest, s.env.draws⟩
      comm := { s.comm with cn := data.length, cvb := lastBits s.params ctl } }).withSeq (.commNext site c .stored)

/-- With no framing error a reply within the capacity is read and stored. -/
theorem runOp_reply {lvl ctl : Byte} {data rest : List Byte} (ho : ownsCommSite i site = true)
    (hs : s.seq = .commNext site c .gotError) (herr : framingError s.params s.comm.err = false)
    (hlvl : fifoLevel s.params lvl = data.length) (hdata : data ≠ []) (hcap : data.length ≤ c.cap)
    (ha : s.env.answers = lvl :: (data ++ ctl :: rest)) :
    runOp i (k + 3) s = runOp i k (commReplied site c lvl ctl data rest s) := by
  have hpos : 0 < c.cap := (List.length_pos_of_ne_nil hdata).trans_le hcap
  rw [runOp_readLevel ho hs herr hpos ha, runOp_readData (rest := ctl :: rest) ho rfl (by exact hlvl) hdata hcap rfl,
    runOp_readControl (ctl := ctl) (rest := rest) ho rfl rfl, commReplied]
  unfold storeReply destRead
  cases c.dest <;> rfl

/-! ### The checks on the reply -/

/-- A checked reply of one byte with four valid bits is a NAK (R148, R149). -/
theorem afterReply_nak {ret : CommReturn} (hcoll : collisionError s.params s.comm.err = false)
    (hcheck : c.checkCrc = true) (hcap : 0 < c.cap) (hcn : s.comm.cn = 1) (hcvb : s.comm.cvb = 4) :
    afterReply site ret c s = ret .mifareNack 1 4 s := by
  simp [afterReply, hcoll, hcheck, hcap, hcn, hcvb]

/-- A checked reply of whole bytes, two at least, goes to the CRC unit but for its last two (R149). -/
theorem afterReply_check {ret : CommReturn} (hcoll : collisionError s.params s.comm.err = false)
    (hcheck : c.checkCrc = true) (hcap : 0 < c.cap) (hcn : 2 ≤ s.comm.cn) (hcvb : s.comm.cvb = 0) :
    afterReply site ret c s =
      s.withSeq (.replyCrc site c (destSlice c.dest c.off (s.comm.cn - 2) s) .idle) := by
  have hnak : ¬ (s.comm.cn = 1 ∧ s.comm.cvb = 4) := by omega
  have hshort : ¬ (s.comm.cn < 2 ∨ s.comm.cvb ≠ 0) := by omega
  rw [afterReply, if_neg (by rw [hcoll]; nofun), if_pos ⟨hcheck, hcap⟩, if_neg hnak, if_neg hshort, callCrc]

/-- The bytes of a burst stand in RXBUF as they were written. -/
theorem destRead_rxbuf {m : Memory} {off j : Nat} {bytes : List Byte} (hm : Memory.wf m)
    (hbuf : s.h.rxbuf = Memory.writeMany m off bytes) (hj : j < bytes.length) :
    destRead .rxbuf (off + j) s = bytes[j] := by
  rw [destRead, hbuf, Memory.read_writeMany_same hm bytes hj]

theorem destSlice_rxbuf {m : Memory} {off : Nat} {body tail : List Byte} (hm : Memory.wf m)
    (hbuf : s.h.rxbuf = Memory.writeMany m off (body ++ tail)) : destSlice .rxbuf off body.length s = body := by
  refine List.ext_getElem (by simp [destSlice]) fun j hj hj' => ?_
  simp only [destSlice, List.getElem_map, List.getElem_range]
  rw [destRead_rxbuf hm hbuf (hj'.trans_le (by simp)), List.getElem_append_left hj']

/-- The check passes when the CRC unit's result is the reply's last two bytes, low byte first (R149). -/
theorem afterReplyCrc_match {ret : CommReturn} (hlo : destRead c.dest (c.off + s.comm.cn - 2) s = s.crc.lo)
    (hhi : destRead c.dest (c.off + s.comm.cn - 1) s = s.crc.hi) :
    afterReplyCrc ret c .ok s = ret .ok s.comm.cn s.comm.cvb s := by
  simp [afterReplyCrc, hlo, hhi]

/-- A checked reply whose last two bytes are what the CRC unit answers for those before passes (R149, R218). -/
theorem runOp_checkedReply {m : Memory} {body rest : List Byte} {v lo hi : Byte} (ho : ownsCommSite i site = true)
    (hs : s.seq = .commNext site c .stored) (hcoll : collisionError s.params s.comm.err = false)
    (hcheck : c.checkCrc = true) (hdest : c.dest = .rxbuf) (hcap : 0 < c.cap) (hm : Memory.wf m)
    (hbuf : s.h.rxbuf = Memory.writeMany m c.off (body ++ [lo, hi])) (hbody : body ≠ [])
    (hcn : s.comm.cn = body.length + 2) (hcvb : s.comm.cvb = 0) (hbudget : 0 < s.params.crcPollBudget)
    (hv : crcDone s.params v = true) (ha : s.env.answers = v :: lo :: hi :: rest) :
    runOp i (k + 10) s = runOp i (k + 1)
      (commReturn site .ok (body.length + 2) 0 (crcFinished (.reply site c) body [] rest v lo hi s)) := by
  have hslice : destSlice c.dest c.off (s.comm.cn - 2) s = body := by
    rw [hdest, hcn, Nat.add_sub_cancel, destSlice_rxbuf hm hbuf]
  have hlo : destRead c.dest (c.off + s.comm.cn - 2) s = lo := by
    rw [hdest, hcn, show c.off + (body.length + 2) - 2 = c.off + body.length by omega, destRead_rxbuf hm hbuf (by simp)]
    simp
  have hhi : destRead c.dest (c.off + s.comm.cn - 1) s = hi := by
    rw [hdest, hcn, show c.off + (body.length + 2) - 1 = c.off + (body.length + 1) by omega,
      destRead_rxbuf hm hbuf (by simp)]
    simp
  have hmatch : afterReplyCrc (commReturn site) c .ok (crcFinished (.reply site c) body [] rest v lo hi s) =
      commReturn site .ok s.comm.cn s.comm.cvb (crcFinished (.reply site c) body [] rest v lo hi s) :=
    afterReplyCrc_match hlo hhi
  rw [hcn, hcvb] at hmatch
  rw [runOp_commResume ho hs, commResume, afterReply_check hcoll hcheck hcap (by omega) hcvb, hslice]
  exact (runOp_crc (s := s.withSeq (.replyCrc site c body .idle)) (caller := .reply site c) (polls := []) ho rfl hbody
    nofun hbudget hv ha).trans (congrArg _ hmatch)

end Runs

end Sys2Proof.Machine
end

/-! PROOF. The exchange of a frame that carries its CRC, and with it HALT (30_encoding.md R113, 43_session.md R238 to
R240). -/
section
namespace Sys2Proof.Machine

section Runs

variable {i : Instr} {s : State} {k : Nat}

/-- At the completion position a run ends with the completion step. -/
theorem runOp_finish {st : Status} (hw : resultWrites i st (finish st s) (finish st s).h = s.h) :
    runOp i (k + 1) (finish st s) = .next (complete st s) := by
  rw [runOp_complete (exec_complete rfl) rfl, completeWith, hw]
  rfl

/-- The state after the CRC of `data` and the kick of the call `c` that sends it, BitFramingReg having read as `b`. -/
def frameKicked (csite : CrcSite) (site : CommSite) (data : List Byte) (c : CommCall) (v lo hi b : Byte)
    (rest : List Byte) (s : State) : State :=
  commKicked site c b rest (crcFinished (.operation csite) data [] (b :: rest) v lo hi s)

/-- An operation that opens with the CRC of its frame and goes on to a Transceive makes seventeen transactions up to the
kick, when the first poll of the CRC unit shows its flag (R215, R238, R254). -/
theorem runOp_frame {csite : CrcSite} {site : CommSite} {data rest : List Byte} {c : CommCall} {v lo hi b : Byte}
    (hs : s.seq = .start) (hopen : opening i s = s.withSeq (.computeCrc csite data .idle)) (hdata : data ≠ [])
    (hbudget : 0 < s.params.crcPollBudget) (hv : crcDone s.params v = true)
    (hret : ∀ u : State, u.params = s.params → u.h = s.h → u.crc = ⟨1, lo, hi⟩ →
      crcReturn i s.h csite .ok u = u.withSeq (.communicate site c .idle))
    (hcomm : ownsCommSite i site = true) (htx : c.tx ≠ []) (hcmd : c.cmd = s.params.pcd.transceive)
    (ha : s.env.answers = v :: lo :: hi :: b :: rest) :
    runOp i (k + 17) s = runOp i k (frameKicked csite site data c v lo hi b rest s) := by
  have hcrc : ownsCrcSite i csite = true := by
    have h := opening_owns i s
    rwa [hopen] at h
  rw [runOp_resume (by rw [hs]; rfl) (by rw [hs]; nofun), resume_start hs, hopen]
  refine (runOp_crc (k := k + 7) (s := s.withSeq (.computeCrc csite data .idle)) (caller := .operation csite)
    (polls := []) hcrc rfl hdata nofun hbudget hv ha).trans ?_
  have hcall := hret (crcFinished (.operation csite) data [] (b :: rest) v lo hi s) rfl rfl rfl
  exact (congrArg _ hcall).trans (runOp_kick hcomm rfl htx hcmd rfl)

end Runs

/-! ### HALT -/

section Halt

variable {s : State} {v lo hi b : Byte} {polls rest : List Byte}

/-- The exchange of the HLTA frame with its CRC (R113, R238). -/
def haltCall (p : Params) (lo hi : Byte) : CommCall := transceiveCall p (hltaBody p ++ [lo, hi]) 0 false 0

/-- The state of HALT after the kick. -/
def haltKicked (v lo hi b : Byte) (rest : List Byte) (s : State) : State :=
  frameKicked .haltFrame .halt (hltaBody s.params) (haltCall s.params lo hi) v lo hi b rest s

/-- The transactions up to there, newest first. -/
def haltTxns (p : Params) (v lo hi b : Byte) : List Txn :=
  [.write .bitFramingReg [b ||| p.mask.startSend], .read .bitFramingReg [b]] ++ sendTxns p (haltCall p lo hi) ++
    crcTxns p (hltaBody p) [] v lo hi

theorem haltKicked_bus : (haltKicked v lo hi b rest s).bus = haltTxns s.params v lo hi b ++ s.bus := rfl

/-- The HLTA frame and its CRC go out, and the exchange is kicked (R113, R238). -/
theorem runOp_halt {k : Nat} (hs : s.seq = .start) (hbudget : 0 < s.params.crcPollBudget)
    (hv : crcDone s.params v = true) (ha : s.env.answers = v :: lo :: hi :: b :: rest) :
    runOp .halt (k + 17) s = runOp .halt k (haltKicked v lo hi b rest s) := by
  refine runOp_frame hs rfl nofun hbudget hv (fun u hp _ hu => ?_) rfl nofun rfl ha
  show haltAfterCrc .ok u = _
  rw [haltAfterCrc, hp, hu]
  rfl

/-- HALT ends after `k` steps with the status `st` and the transactions `bus`, and writes no other host register. -/
def HaltEnds (s : State) (k : Nat) (st : Status) (bus : List Txn) : Prop :=
  ∃ t, runOp .halt k s = .next t ∧ t.seq = .idle ∧ t.bus = bus ++ s.bus ∧
    t.h = { s.h with status := statusCode st, busy := false, done := true }

theorem haltEnds_of_run {k j : Nat} {st : Status} {bus : List Txn} {u : State}
    (hrun : runOp .halt k s = runOp .halt (j + 1) (finish st u)) (hbus : u.bus = bus ++ s.bus) (hh : u.h = s.h) :
    HaltEnds s k st bus :=
  ⟨_, hrun.trans (runOp_finish rfl), rfl, hbus, by rw [← hh]; rfl⟩

/-- A timer that expires before an awaited flag is HALT's success (R239). -/
theorem haltEnds_timer {irq : Byte} (hs : s.seq = .start) (hcrc : 0 < s.params.crcPollBudget)
    (hirq : 0 < s.params.irqPollBudget) (hv : crcDone s.params v = true)
    (hw : flagged irq s.params.mask.waitTransceive = false) (ht : timerExpired s.params irq = true)
    (ha : s.env.answers = v :: lo :: hi :: b :: irq :: rest) :
    HaltEnds s 19 .ok (.read .comIrqReg [irq] :: haltTxns s.params v lo hi b) := by
  have hpoll := runOp_polled (i := .halt) (k := 1) (polls := []) (s := haltKicked v lo hi b (irq :: rest) s) rfl rfl
    nofun hirq rfl
  have hrun := (runOp_halt hs hcrc hv ha).trans (hpoll.trans (runOp_timerExpired (k := 0) rfl rfl (by exact hw) ht))
  exact haltEnds_of_run hrun rfl rfl

/-- So is a poll budget used up (R146, R239). -/
theorem haltEnds_budget (hs : s.seq = .start) (hcrc : 0 < s.params.crcPollBudget)
    (hirq : polls.length = s.params.irqPollBudget) (hv : crcDone s.params v = true)
    (hflags : ∀ x ∈ polls, flagged x s.params.mask.waitTransceive = false ∧ timerExpired s.params x = false)
    (ha : s.env.answers = v :: lo :: hi :: b :: (polls ++ rest)) :
    HaltEnds s (polls.length + 18) .ok (irqPollTxns polls ++ haltTxns s.params v lo hi b) := by
  obtain ⟨q, hq⟩ := runOp_irqTimeout (i := .halt) (k := 0) (site := .halt) (c := haltCall s.params lo hi)
    (s := haltKicked v lo hi b (polls ++ rest) s) rfl rfl hflags hirq rfl
  rw [Nat.zero_add] at hq
  exact haltEnds_of_run ((runOp_halt hs hcrc hv ha).trans hq) (by simp [irqPolled, haltKicked_bus]) rfl

/-- An answered HALT ends with GenericError, unless the reply collided (R239). -/
theorem haltEnds_answered {irq err : Byte} (hs : s.seq = .start) (hcrc : 0 < s.params.crcPollBudget)
    (hirq : 0 < s.params.irqPollBudget) (hv : crcDone s.params v = true)
    (hw : flagged irq s.params.mask.waitTransceive = true)
    (ha : s.env.answers = v :: lo :: hi :: b :: irq :: err :: rest) :
    HaltEnds s 20 (haltStatus (noReplyStatus s.params err))
      (.read .errorReg [err] :: .read .comIrqReg [irq] :: haltTxns s.params v lo hi b) := by
  have herr := runOp_kicked_awaited (i := .halt) (k := 1) (polls := [])
    (s := haltKicked v lo hi b (irq :: err :: rest) s) rfl rfl nofun hirq hw rfl
  have hrun := (runOp_halt hs hcrc hv ha).trans (herr.trans (runOp_gotError_noReply (k := 0) rfl rfl rfl))
  exact haltEnds_of_run hrun rfl rfl

/-- A Timeout of the frame's CRC ends HALT with Timeout (R238). -/
theorem haltEnds_crcTimeout (hs : s.seq = .start) (hcrc : polls.length = s.params.crcPollBudget)
    (hdone : ∀ x ∈ polls, crcDone s.params x = false) (ha : s.env.answers = polls ++ rest) :
    HaltEnds s (polls.length + 6) .timeout (crcPollTxns polls ++ crcSendTxns s.params (hltaBody s.params)) := by
  obtain ⟨q, hq⟩ := runOp_crcTimeout (i := .halt) (k := 0) (caller := .operation .haltFrame)
    (s := crcSent (.operation .haltFrame) (hltaBody s.params) s) rfl rfl hdone hcrc ha
  rw [Nat.zero_add] at hq
  refine haltEnds_of_run (Eq.trans ?_ hq) (by simp [crcPolled, crcSent]) rfl
  rw [runOp_resume (by rw [hs]; rfl) (by rw [hs]; nofun), resume_start hs]
  exact runOp_crcSend (caller := .operation .haltFrame) rfl rfl nofun

end Halt

/-- With the default parameters. -/
theorem haltTxns_default (v lo hi b : Byte) :
    haltTxns Params.default v lo hi b =
      [ .write .bitFramingReg [b ||| 0x80], .read .bitFramingReg [b],
        .write .commandReg [0x0C], .write .bitFramingReg [0x00], .write .fifoDataReg [0x50, 0x00, lo, hi],
        .write .fifoLevelReg [0x80], .write .comIrqReg [0x7F], .write .commandReg [0x00],
        .read .crcResultRegH [hi], .read .crcResultRegL [lo], .write .commandReg [0x00], .read .divIrqReg [v],
        .write .commandReg [0x03], .write .fifoDataReg [0x50, 0x00], .write .fifoLevelReg [0x80],
        .write .divIrqReg [0x04], .write .commandReg [0x00] ] := by
  have hframing : bitFraming 0 0 = 0x00 := by decide
  rw [← hframing]
  rfl

theorem haltStatus_noReply_default (err : Byte) :
    statusCode (haltStatus (noReplyStatus Params.default err)) =
      if err &&& 0x13 ≠ 0 then 0x01 else if err &&& 0x08 ≠ 0 then 0x02 else 0x01 := by
  simp only [noReplyStatus, framingError, collisionError, flagged, Params.default, ChipMasks.default, bne_iff_ne]
  split
  · rfl
  · split <;> rfl

theorem flagged_eq_false {v mask : Byte} : flagged v mask = false ↔ v &&& mask = 0 := by simp [flagged]

theorem flagged_zero (mask : Byte) : flagged 0x00 mask = false := by simp [flagged]

/-- No bit of a mask is set when none of a larger one is. -/
theorem flagged_of_submask {v mask large : Byte} (h : large &&& mask = mask) (hv : v &&& large = 0) :
    flagged v mask = false := by
  rw [flagged_eq_false, ← h, ← BitVec.and_assoc, hv]
  exact BitVec.zero_and

/-- Settles O42: the four ways HALT can end, with the default parameters. -/
theorem haltMapsTimeoutToOk : Obligations.HaltMapsTimeoutToOk := by
  unfold Obligations.HaltMapsTimeoutToOk
  intro s rest v lo hi kick irq err hp hs
  have hcrc : 0 < s.params.crcPollBudget := by rw [hp]; decide
  have hirq : 0 < s.params.irqPollBudget := by rw [hp]; decide
  have hdone (hv : v &&& 0x04 ≠ 0) : crcDone s.params v = true := by rw [hp]; exact bne_iff_ne.2 hv
  refine ⟨fun hv hw ht ha => ?_, fun polls hv hlen hflags ha => ?_, fun hv hw ha => ?_, fun polls hlen hpolls ha => ?_⟩
  · obtain ⟨t, hrun, hseq, hbus, hh⟩ := haltEnds_timer hs hcrc hirq (hdone hv)
      (by rw [hp]; exact flagged_eq_false.2 hw) (by rw [hp]; exact bne_iff_ne.2 ht) ha
    exact ⟨t, _, hrun, hseq, hbus, by rw [hp, haltTxns_default], hh⟩
  · have hboth : ∀ x ∈ polls,
        flagged x s.params.mask.waitTransceive = false ∧ timerExpired s.params x = false := by
      rw [hp]
      exact fun x hx => ⟨flagged_of_submask (by decide) (hflags x hx), flagged_of_submask (by decide) (hflags x hx)⟩
    have hends := haltEnds_budget hs hcrc (hlen.trans (by rw [hp]; rfl)) (hdone hv) hboth ha
    rw [hlen] at hends
    obtain ⟨t, hrun, hseq, hbus, hh⟩ := hends
    exact ⟨t, _, hrun, hseq, hbus, by simp [hp, haltTxns_default, hlen], hh⟩
  · obtain ⟨t, hrun, hseq, hbus, hh⟩ :=
      haltEnds_answered hs hcrc hirq (hdone hv) (by rw [hp]; exact bne_iff_ne.2 hw) ha
    rw [hp, haltStatus_noReply_default] at hh
    exact ⟨t, _, hrun, hseq, hbus, by rw [hp, haltTxns_default], hh⟩
  · have hends := haltEnds_crcTimeout hs (hlen.trans (by rw [hp]; rfl))
      (fun x hx => by rw [hp]; exact flagged_eq_false.2 (hpolls x hx)) ha
    rw [hlen] at hends
    obtain ⟨t, hrun, hseq, hbus, hh⟩ := hends
    exact ⟨t, _, hrun, hseq, hbus, by simp [crcSendTxns, hlen], hh⟩

end Sys2Proof.Machine
end

/-! PROOF. READ_BLOCK (30_encoding.md R115, 43_session.md R254 to R257): the checked reply, the NAK, and the Timeout of
its frame's CRC. -/
section
namespace Sys2Proof.Machine

/-! ### A failed end -/

/-- On any status but OK the only result write is RESULT (R27, R29). -/
theorem resultWrites_failed {i : Instr} {st : Status} (h : st ≠ .ok) (s : State) (r : HostRegs) :
    resultWrites i st s r = { r with result := resultAfter i st r } := by
  obtain ⟨hlo, hhi⟩ := resultWrites_crc i st s r
  obtain ⟨h0, h1⟩ := resultWrites_atqa i st s r
  obtain ⟨hsize, huid, hsak⟩ := resultWrites_sameCard (i := i) (st := st) s r (by simp [h])
  rw [resultWrites_frame, resultWrites_result, hlo, hhi, h0, h1, hsize, huid, hsak]
  simp [h]

/-- Pure computation that ends at a completion other than OK ends the operation in the step it belongs to (R291). -/
theorem endsWith_of_resume {i : Instr} {st : Status} {s : State} (ho : owns i s.seq = true) (hs : s.seq ≠ .idle)
    (hr : (resume i s).seq = .complete st) (hst : st ≠ .ok) : endsWith i st s := by
  obtain ⟨hc, -, -⟩ := resume_reaches ho hs
  refine ⟨_, (exec_resume ho hs).trans (exec_complete hr), rfl, hc.bus, hc.env, ?_⟩
  simp only [completeWith, State.withSeq_h, State.withH_h, resultWrites_failed hst, hc.h]

/-! ### Whole runs -/

/-- What READ_BLOCK reads up to the reply, which comes without an error bit: the CRC unit's flags and result,
BitFramingReg, ComIrqReg, the FIFO level, the reply bytes, ControlReg, and the answers that are left. -/
structure ReadScript where
  v : Byte
  lo : Byte
  hi : Byte
  kick : Byte
  irq : Byte
  lvl : Byte
  ctl : Byte
  data : List Byte
  rest : List Byte

section Runs

variable {r : ReadScript} {s t : State} {st : Status}

/-- The answers from the FIFO level on. -/
def ReadScript.reply (r : ReadScript) : List Byte := r.lvl :: (r.data ++ r.ctl :: r.rest)

/-- The exchange of the READ frame with its CRC (R115, R254). -/
def readCall (r : ReadScript) (s : State) : CommCall :=
  transceiveCall s.params (readBody s.params s.h ++ [r.lo, r.hi]) 0 true s.h.rxCap.toNat

/-- The state of READ_BLOCK after the kick. -/
def readKicked (r : ReadScript) (s : State) : State :=
  frameKicked .readFrame .readBlock (readBody s.params s.h) (readCall r s) r.v r.lo r.hi r.kick
    (r.irq :: 0x00 :: r.reply) s

/-- Its state after the reply. -/
def readStored (r : ReadScript) (s : State) : State :=
  commReplied .readBlock (readCall r s) r.lvl r.ctl r.data r.rest
    (commErrorRead .readBlock (readCall r s) [] r.reply r.irq 0x00 (readKicked r s))

/-- What READ_BLOCK needs to reach it: a capacity in range, budgets that are not 0, the awaited flags at the first
polls, and a reply that fits. -/
structure ReadAnswered (r : ReadScript) (s : State) : Prop where
  start : s.seq = .start
  capacity : ¬ s.h.rxCap.toNat < 18
  size : s.h.rxCap.toNat ≤ s.params.rxbufSize
  crcBudget : 0 < s.params.crcPollBudget
  irqBudget : 0 < s.params.irqPollBudget
  crcFlag : crcDone s.params r.v = true
  irqFlag : flagged r.irq s.params.mask.waitTransceive = true
  level : fifoLevel s.params r.lvl = r.data.length
  bytes : r.data ≠ []
  fits : r.data.length ≤ s.h.rxCap.toNat
  answers : s.env.answers = r.v :: r.lo :: r.hi :: r.kick :: r.irq :: 0x00 :: r.reply

/-- The frame and its CRC go out, and the exchange is kicked (R115, R254). -/
theorem runOp_readKicked {k : Nat} (h : ReadAnswered r s) :
    runOp .readBlock (k + 17) s = runOp .readBlock k (readKicked r s) := by
  refine runOp_frame h.start (readBlockBegin_fits h.capacity h.size) nofun h.crcBudget h.crcFlag (fun u hp hh hu => ?_)
    rfl nofun rfl h.answers
  show readBlockAfterCrc .ok u = _
  rw [readBlockAfterCrc, hp, hh, hu]
  rfl

/-- The reply is stored after 22 transactions (R256). -/
theorem runOp_readStored {k : Nat} (h : ReadAnswered r s) :
    runOp .readBlock (k + 22) s = runOp .readBlock k (readStored r s) := by
  have herr := runOp_kicked_awaited (i := .readBlock) (k := k + 3) (polls := []) (s := readKicked r s) rfl rfl nofun
    h.irqBudget h.irqFlag rfl
  have hframing : framingError s.params 0x00 = false := flagged_zero _
  exact (runOp_readKicked h).trans (herr.trans (runOp_reply rfl rfl hframing h.level h.bytes h.fits rfl))

theorem mergeFirst_zero (old0 : Byte) (bytes : List Byte) : mergeFirst 0 old0 bytes = bytes := by
  cases bytes <;> rfl

/-- The host registers with the reply taken: in RXBUF from index 0 on (R30). -/
def replyRegs (r : ReadScript) (s : State) : HostRegs :=
  { s.h with
    rxbuf := Memory.writeMany s.h.rxbuf 0 r.data, rxLen := BitVec.ofNat 8 r.data.length
    rxValidBits := BitVec.ofNat 3 (lastBits s.params r.ctl) }

variable (r s) in
theorem readStored_h : (readStored r s).h = replyRegs r s := by
  have hmerge := mergeFirst_zero (Memory.read s.h.rxbuf 0) r.data
  rw [replyRegs, ← hmerge, mergeFirst_length]
  rfl

variable (r s) in
theorem readStored_bus_length : (readStored r s).bus.length = s.bus.length + 22 := rfl

variable (r s) in
theorem readStored_fifoWrites :
    fifoWrites (readStored r s).bus =
      (readBody s.params s.h ++ [r.lo, r.hi]) :: readBody s.params s.h :: fifoWrites s.bus := rfl

/-- READ_BLOCK has ended with `st` after the reply: no register but those of the completion and of the reply changed
(R29, R30). -/
structure ReadEnded (r : ReadScript) (st : Status) (s t : State) : Prop where
  seq : t.seq = .idle
  regs : t.h = { replyRegs r s with status := statusCode st, busy := false, done := true }

theorem readEnded_complete (hh : s.h = replyRegs r t) : ReadEnded r st t (complete st s) :=
  ⟨rfl, by rw [← hh]; rfl⟩

/-- A NAK ends READ_BLOCK with MifareNack (R257). -/
theorem runOp_readNak (h : ReadAnswered r s) (hlen : r.data.length = 1) (hctl : lastBits s.params r.ctl = 4) :
    ∃ t, runOp .readBlock 23 s = .next t ∧ ReadEnded r .mifareNack s t ∧ t.bus.length = s.bus.length + 22 := by
  have hcoll : collisionError s.params 0x00 = false := flagged_zero _
  have hcap : 0 < s.h.rxCap.toNat := Nat.zero_lt_of_lt (Nat.not_lt.1 h.capacity)
  refine ⟨_, ?_, readEnded_complete (readStored_h r s), readStored_bus_length r s⟩
  rw [runOp_readStored (k := 1) h, runOp_commResume (c := readCall r s) rfl rfl, commResume,
    afterReply_nak hcoll rfl hcap hlen hctl]
  exact runOp_finish rfl

/-- A reply of whole bytes whose last two the CRC unit confirms ends it with OK (R256). -/
theorem runOp_readOk {body rest : List Byte} {v lo hi : Byte} (h : ReadAnswered r s) (hdata : r.data = body ++ [lo, hi])
    (hbody : body ≠ []) (hctl : lastBits s.params r.ctl = 0) (hv : crcDone s.params v = true)
    (hm : Memory.wf s.h.rxbuf) (hrest : r.rest = v :: lo :: hi :: rest) :
    ∃ t, runOp .readBlock 32 s = .next t ∧ ReadEnded r .ok s t ∧ t.bus.length = s.bus.length + 31 ∧
      fifoWrites t.bus =
        body :: (readBody s.params s.h ++ [r.lo, r.hi]) :: readBody s.params s.h :: fifoWrites s.bus := by
  have hcoll : collisionError s.params 0x00 = false := flagged_zero _
  have hcap : 0 < s.h.rxCap.toNat := Nat.zero_lt_of_lt (Nat.not_lt.1 h.capacity)
  have hbuf : (readStored r s).h.rxbuf = Memory.writeMany s.h.rxbuf 0 (body ++ [lo, hi]) := by
    rw [readStored_h, replyRegs, hdata]
  have hcn : r.data.length = body.length + 2 := by rw [hdata, List.length_append]; rfl
  have hcheck := runOp_checkedReply (i := .readBlock) (k := 0) (s := readStored r s) rfl rfl hcoll rfl rfl hcap hm hbuf
    hbody hcn hctl h.crcBudget hv hrest
  exact ⟨_, (runOp_readStored (k := 10) h).trans (hcheck.trans (runOp_finish rfl)),
    readEnded_complete (readStored_h r s), congrArg (· + 9) (readStored_bus_length r s),
    congrArg (body :: ·) (readStored_fifoWrites r s)⟩

section Ended

variable (h : ReadEnded r st s t)
include h

theorem ReadEnded.frame {n vb : Nat} (hn : r.data.length = n) (hvb : lastBits s.params r.ctl = vb) :
    t.h =
      { s.h with
        status := statusCode st, busy := false, done := true, rxLen := BitVec.ofNat 8 n
        rxValidBits := BitVec.ofNat 3 vb, rxbuf := t.h.rxbuf } := by
  rw [h.regs, replyRegs, hn, hvb]

theorem ReadEnded.rxbuf : t.h.rxbuf = Memory.writeMany s.h.rxbuf 0 r.data := by rw [h.regs]; rfl

theorem ReadEnded.read_reply (hm : Memory.wf s.h.rxbuf) {j : Nat} (hj : j < r.data.length) :
    Memory.read t.h.rxbuf j = r.data.getD j 0 := by
  have hsame := Memory.read_writeMany_same hm (i := 0) r.data hj
  rwa [Nat.zero_add, ← h.rxbuf, ← List.getD_eq_getElem _ 0 hj] at hsame

theorem ReadEnded.read_beyond {a : Nat} (ha : r.data.length ≤ a) :
    Memory.read t.h.rxbuf a = Memory.read s.h.rxbuf a := by
  rw [h.rxbuf, Memory.read_writeMany_other _ _ (.inr ((Nat.zero_add _).trans_le ha))]

end Ended

end Runs

/-- Settles O45: the CRC Timeout by `endsWith_of_resume`, the two replies by `runOp_readOk` and `runOp_readNak`. -/
theorem readBlockRuns : Obligations.ReadBlockRuns := by
  unfold Obligations.ReadBlockRuns
  refine ⟨fun s data v hs hv hbudget => ?_, ?_⟩
  · have hdone : crcDone s.params v = false := flagged_eq_false.2 hv
    refine endsWith_of_resume (by rw [hs]; rfl) (by rw [hs]; nofun) ?_ nofun
    rw [resume_crcNext hs, crcResume, if_neg (by rw [hdone]; nofun), crcPollHead, if_pos hbudget]
    rfl
  · intro s body rest v lo hi kick irq v2 lo2 hi2 nak hp hs hm hcap hsize hlen hv hirq hv2
    have answered {lvl ctl : Byte} {data rest : List Byte} (hlvl : fifoLevel s.params lvl = data.length)
        (hdata : data ≠ []) (hfits : data.length ≤ 18)
        (ha : s.env.answers = v :: lo :: hi :: kick :: irq :: 0x00 :: lvl :: (data ++ ctl :: rest)) :
        ReadAnswered ⟨v, lo, hi, kick, irq, lvl, ctl, data, rest⟩ s :=
      ⟨hs, Nat.not_lt.2 hcap, by rw [hp]; exact hsize, by rw [hp]; decide, by rw [hp]; decide,
        by rw [hp]; exact bne_iff_ne.2 hv, by rw [hp]; exact bne_iff_ne.2 hirq, hlvl, hdata, hfits.trans hcap, ha⟩
    refine ⟨fun ha => ?_, fun ha => ?_⟩
    · have hlen' : (body ++ [lo2, hi2]).length = 18 := by simp [hlen]
      have hctl : lastBits s.params 0x00 = 0 := by rw [hp]; decide
      have hread := answered (lvl := 0x12) (ctl := 0x00) (data := body ++ [lo2, hi2]) (rest := v2 :: lo2 :: hi2 :: rest)
        (by rw [hp, hlen']; decide) (by simp) hlen'.le (by simpa using ha)
      obtain ⟨t, hrun, hend, hbus, hwrites⟩ := runOp_readOk hread rfl (List.ne_nil_of_length_pos (by omega)) hctl
        (by rw [hp]; exact bne_iff_ne.2 hv2) hm rfl
      rw [hp] at hwrites
      exact ⟨t, hrun, hend.seq, hbus, hwrites, hend.frame hlen' hctl,
        fun j hj => hend.read_reply hm (hj.trans_eq hlen'.symm), fun a ha => hend.read_beyond (hlen'.trans_le ha)⟩
    · have hctl : lastBits s.params 0x04 = 4 := by rw [hp]; decide
      have hread := answered (lvl := 0x01) (ctl := 0x04) (data := [nak]) (rest := rest)
        (by rw [hp, List.length_singleton]; decide) nofun (by simp) ha
      obtain ⟨t, hrun, hend, hbus⟩ := runOp_readNak hread rfl hctl
      exact ⟨t, hrun, hend.seq, hbus, hend.frame rfl hctl, hend.read_reply hm Nat.one_pos,
        fun a ha => hend.read_beyond ha⟩

end Sys2Proof.Machine
end

/-! PROOF. How every Communicate prepares the chip and starts its command (30_encoding.md R108, 40_communicate.md R143
to R145). -/
section
namespace Sys2Proof.Machine

/-- The bit-framing value's two fields, RxAlign above TxLastBits (R108). -/
theorem bitFraming_toNat (rxAlign txLastBits : Nat) :
    (bitFraming rxAlign txLastBits).toNat = 16 * (rxAlign % 8) + txLastBits % 8 := by
  have hfields : ∀ align last : Fin 8,
      (BitVec.ofNat 8 align.val <<< 4 ||| BitVec.ofNat 8 last.val).toNat = 16 * align.val + last.val := by decide
  exact hfields ⟨rxAlign % 8, Nat.mod_lt _ (by decide)⟩ ⟨txLastBits % 8, Nat.mod_lt _ (by decide)⟩

/-- Its StartSend bit is 0. -/
theorem bitFraming_startSend (rxAlign txLastBits : Nat) : (bitFraming rxAlign txLastBits).getLsbD 7 = false :=
  Nat.testBit_lt_two_pow (by rw [bitFraming_toNat]; omega)

variable {i : Instr} {s : State} {site : CommSite} {c : CommCall} {k : Nat}

/-- Step 1 of a Communicate: three writes (R143). -/
theorem runOp_prepare (ho : ownsCommSite i site = true) (hs : s.seq = .communicate site c .idle) :
    runOp i (k + 3) s = runOp i k
      { s with
        bus := .write .fifoLevelReg [s.params.mask.fifoFlush] :: .write .comIrqReg [s.params.mask.irqClearAll] ::
          .write .commandReg [s.params.pcd.idle] :: s.bus
        seq := .commNext site c .flushed } := by
  rw [runOp_commStep ho hs, runOp_commStep (pos := .clearIrqs) ho rfl, runOp_commStep (pos := .flush) ho rfl]
  rfl

/-- Settles O28: the three writes by `runOp_prepare`, the load and the framing write each the step at its position. -/
theorem communicatePreparesChip : Obligations.CommunicatePreparesChip := by
  unfold Obligations.CommunicatePreparesChip
  refine ⟨fun i site c s ho => ⟨fun hs => runOp_prepare ho hs, fun hs htx => ?_, fun hs htx => ?_,
    fun hs => exec_communicate ho hs, bitFraming_toNat _ _, bitFraming_startSend _ _⟩, rfl, rfl, rfl⟩
  · exact exec_commNext ho hs (commResume_flushed_load htx) rfl
  · exact exec_commNext ho hs (commResume_flushed_nil htx) rfl

/-- After a Transceive command the kick follows (R145). -/
theorem commResume_sent_kick {ret : CommReturn} (hcmd : c.cmd = s.params.pcd.transceive) :
    commResume site ret c .sent s = s.withSeq (.communicate site c .kickRead) := if_pos hcmd

/-- The poll loop is entered with its counter cleared, and begins with a poll read unless the budget is 0 (R46, R146). -/
theorem commResume_kicked {ret : CommReturn} (hb : s.params.irqPollBudget ≠ 0) :
    commResume site ret c .kicked s =
      (s.withComm { s.comm with irqPoll := 0 }).withSeq (.communicate site c .poll) := if_neg hb.symm

/-- Settles O29: each clause is the step at its position; what follows the command by `commResume_sent_kick` and
`commResume_sent_poll`, what follows the kick by `commResume_kicked`. -/
theorem onlyTransceiveIsKicked : Obligations.OnlyTransceiveIsKicked := by
  unfold Obligations.OnlyTransceiveIsKicked
  refine ⟨fun i site c s ho hb => ⟨fun hs => exec_communicate ho hs, fun hs hcmd => ?_, fun hs hcmd => ?_,
    fun v hs => exec_communicate ho hs, fun hs => ?_⟩, rfl, rfl⟩
  · exact exec_commNext ho hs (commResume_sent_kick hcmd) rfl
  · exact exec_commNext ho hs (commResume_sent_poll hcmd hb.ne') rfl
  · exact exec_commNext ho hs (commResume_kicked hb.ne') rfl

end Sys2Proof.Machine
end

/-! PROOF. Where the reply of a Communicate goes (10_state.md R30, 40_communicate.md R147): RXBUF and its two registers,
or the resolver's S.frame. -/
section
namespace Sys2Proof.Machine

/-- A burst into a fixed buffer reads back inside it, even where it runs over the end, and leaves the rest alone. -/
theorem Buf.get_putMany {n : Nat} (v : Vector Byte n) (off : Nat) (bs : List Byte) {j : Nat} (hj : j < n) :
    Buf.get (Buf.putMany v off bs) j =
      if h : off ≤ j ∧ j < off + bs.length then bs[j - off]'(by omega) else Buf.get v j := by
  induction bs generalizing v off with
  | nil => rw [dif_neg (by simp), Buf.putMany]
  | cons b bs ih =>
    rw [Buf.putMany, ih]
    rcases Nat.lt_trichotomy j off with hlt | rfl | hgt
    · rw [dif_neg (by omega), dif_neg (by omega), Buf.get_put_other _ _ hlt.ne']
    · rw [dif_neg (by omega), dif_pos (by simp), Buf.get_put_same _ _ hj]
      simp
    · rw [Buf.get_put_other _ _ hgt.ne]
      have hsucc : j - off = j - (off + 1) + 1 := by omega
      by_cases h : j < off + (bs.length + 1)
      · rw [dif_pos (by omega), dif_pos (by simp; omega)]
        simp [hsucc]
      · rw [dif_neg (by omega), dif_neg (by simp; omega)]

section Stored

variable {c : CommCall} (d : List Byte) (n vb : Nat) (s : State)

theorem storeReply_rxbuf (h : c.dest = .rxbuf) :
    storeReply c d n vb s =
      s.withH { s.h with
        rxbuf := Memory.writeMany s.h.rxbuf c.off d, rxLen := BitVec.ofNat 8 n, rxValidBits := BitVec.ofNat 3 vb } := by
  rw [storeReply, h]

theorem storeReply_frame (h : c.dest = .frame) :
    storeReply c d n vb s = s.withSel { s.sel with frame := Buf.putMany s.sel.frame c.off d } := by
  rw [storeReply, h]

theorem storeReply_comm : (storeReply c d n vb s).comm = s.comm := by
  unfold storeReply
  cases c.dest <;> rfl

end Stored

/-- Settles O34: the step is the ControlReg read, which stores the reply; what stands in the destination then by
`Buf.get_putMany` and the read-back laws of a burst. -/
theorem replyStoredAtControlRead : Obligations.ReplyStoredAtControlRead := by
  unfold Obligations.ReplyStoredAtControlRead
  intro i site c d s ho hs hm
  obtain ⟨hbus, henv⟩ := storeReply_bus_env c d s.comm.cn (lastBits s.params (nextByte s))
    ((busRead .controlReg s).withComm { s.comm with cvb := lastBits s.params (nextByte s) })
  refine ⟨_, exec_communicate ho hs, hbus, henv, rfl, storeReply_comm d _ _ _, fun hd => ?_, fun hd => ?_⟩
  · rw [commStep, storeReply_frame _ _ _ _ hd]
    exact ⟨rfl, rfl, fun j hj => Buf.get_putMany _ _ _ hj⟩
  · rw [commStep, storeReply_rxbuf _ _ _ _ hd]
    exact ⟨rfl, rfl, fun j hj => Memory.read_writeMany_same hm d hj, fun a ha => Memory.read_writeMany_other _ d ha⟩

end Sys2Proof.Machine
end

/-! PROOF. What a Communicate decides after a poll read, the ErrorReg read and the FIFOLevelReg read (40_communicate.md
R146 to R148): the next primitive, or the end of the operation. -/
section
namespace Sys2Proof.Machine

variable {i : Instr} {s : State} {site : CommSite} {c : CommCall} {st : Status} {v : Byte}

/-! ### The end of an operation -/

/-- Completing with `st` the operation writes no result register but RESULT: the status is not OK, or it has none
(R29, R291). -/
def NoResults (i : Instr) (st : Status) : Prop :=
  st ≠ .ok ∨ i = .communicate ∨ i = .halt ∨ i = .authenticate ∨ i = .readBlock

theorem resultWrites_noResults (h : NoResults i st) (s : State) (r : HostRegs) :
    resultWrites i st s r = { r with result := resultAfter i st r } := by
  rcases h with h | rfl | rfl | rfl | rfl
  · exact resultWrites_failed h s r
  all_goals rfl

/-- Pure computation that ends at such a completion ends the operation in the step it belongs to (R291). -/
theorem endsWith_of_noResults (ho : owns i s.seq = true) (hs : s.seq ≠ .idle)
    (hr : (resume i s).seq = .complete st) (hst : NoResults i st) : endsWith i st s := by
  obtain ⟨hc, -, -⟩ := resume_reaches ho hs
  refine ⟨_, (exec_resume ho hs).trans (exec_complete hr), rfl, hc.bus, hc.env, ?_⟩
  simp only [completeWith, State.withSeq_h, State.withH_h, resultWrites_noResults hst, hc.h]

/-- The same after a transaction of a Communicate, its pure computation leading to `u`. -/
theorem endsWith_of_commResume {n : CommNext} {u : State} (ho : ownsCommSite i site = true)
    (hs : s.seq = .commNext site c n) (hr : commResume site (commReturn site) c n s = u) (hu : u.seq = .complete st)
    (hst : NoResults i st) : endsWith i st s :=
  endsWith_of_noResults (by rw [hs]; exact ho) (by rw [hs]; nofun) (by rw [resume_commNext hs, hr, hu]) hst

/-- The status of a failed exchange is OK in HALT alone, which maps Timeout so (R239). -/
theorem failureStatus_noResults (ho : ownsCommSite i site = true) (hst : st ≠ .ok) :
    NoResults i (failureStatus site st) := by
  cases site with
  | halt => exact .inr (.inr (.inl (by simpa [ownsCommSite] using ho)))
  | host | selectRound | request | authenticate | readBlock => exact .inl hst

/-- An exchange that fails before a reply is taken ends the operation, whatever it is (R146, R147, R293). -/
theorem endsWith_failure {n : CommNext} (ho : ownsCommSite i site = true) (hs : s.seq = .commNext site c n)
    (hr : commResume site (commReturn site) c n s = commReturn site st 0 0 s) (hok : st ≠ .ok)
    (hcoll : st ≠ .collision) :
    endsWith i (failureStatus site st) s := by
  obtain ⟨cn, vb, hret⟩ := commReturn_failed (site := site) hok hcoll s
  exact endsWith_of_commResume ho hs (hr.trans hret) rfl (failureStatus_noResults ho hok)

/-! ### After a poll read -/

/-- The timer's flag, without an awaited one, gives Timeout (R146). -/
theorem commResume_polled_timer {ret : CommReturn} (hv : awaited c v = false) (ht : timerExpired s.params v = true) :
    commResume site ret c (.polled v) s = ret .timeout 0 0 s := by simp [commResume, hv, ht]

/-- With neither flag the loop comes back to its head (R146). -/
theorem commResume_polled_again {ret : CommReturn} (hv : awaited c v = false) (ht : timerExpired s.params v = false) :
    commResume site ret c (.polled v) s = irqPollHead site ret c s := by simp [commResume, hv, ht]

/-- Settles O30: the tests in their order, by the three `commResume_polled` lemmas; at the head of the loop the budget
decides. -/
theorem pollTestsAwaitedBeforeTimer : Obligations.PollTestsAwaitedBeforeTimer := by
  unfold Obligations.PollTestsAwaitedBeforeTimer
  intro i site c v s ho hs
  refine ⟨fun hv => ?_, fun hv ht => ?_, fun hv ht hb => ?_, fun hv ht hb => ?_⟩
  · exact exec_commNext ho hs (commResume_polled_awaited (bne_iff_ne.2 hv)) rfl
  · exact endsWith_failure ho hs (commResume_polled_timer (flagged_eq_false.2 hv) (bne_iff_ne.2 ht)) nofun nofun
  · have hr : commResume site (commReturn site) c (.polled v) s = commReturn site .timeout 0 0 s :=
      (commResume_polled_again (flagged_eq_false.2 hv) (flagged_eq_false.2 ht)).trans (if_pos hb)
    exact endsWith_failure ho hs hr nofun nofun
  · have hr : commResume site (commReturn site) c (.polled v) s = s.withSeq (.communicate site c .poll) :=
      (commResume_polled_again (flagged_eq_false.2 hv) (flagged_eq_false.2 ht)).trans (if_neg hb)
    exact exec_commNext ho hs hr rfl

/-! ### After the ErrorReg read -/

/-- A framing error gives GenericError (R146). -/
theorem commResume_gotError_framing {ret : CommReturn} (herr : framingError s.params s.comm.err = true) :
    commResume site ret c .gotError s = ret .genericError 0 0 s := if_pos herr

/-- Without one, and with a reply expected, the FIFO level is read (R147). -/
theorem commResume_gotError_reply {ret : CommReturn} (herr : framingError s.params s.comm.err = false)
    (hcap : 0 < c.cap) :
    commResume site ret c .gotError s =
      (s.withComm { s.comm with cn := 0, cvb := 0 }).withSeq (.communicate site c .readLevel) := by
  simp [commResume, herr, hcap]

/-- Without a framing error the collision bit decides the status when no reply is expected (R148, R151). -/
theorem noReplyStatus_collision {p : Params} {err : Byte} (herr : framingError p err = false)
    (hcoll : collisionError p err = true) : noReplyStatus p err = .collision := by
  simp [noReplyStatus, herr, hcoll]

theorem noReplyStatus_ok {p : Params} {err : Byte} (herr : framingError p err = false)
    (hcoll : collisionError p err = false) : noReplyStatus p err = .ok := by
  simp [noReplyStatus, herr, hcoll]

/-- An exchange of COMMUNICATE, HALT or AUTHENTICATE that expects no reply ends the operation after the ErrorReg read
(R141, R148, R239). -/
theorem endsWith_noReply (ho : ownsCommSite i site = true) (hs : s.seq = .commNext site c .gotError) (hcap : c.cap = 0)
    (hsite : site = .host ∨ site = .halt ∨ site = .authenticate) :
    endsWith i
      (if site = .halt then haltStatus (noReplyStatus s.params s.comm.err)
        else noReplyStatus s.params s.comm.err) s := by
  have hr := commResume_gotError_noReply (site := site) (ret := commReturn site) (s := s) hcap
  rcases hsite with rfl | rfl | rfl
  · exact endsWith_of_commResume ho hs hr rfl (.inr (.inl (by simpa [ownsCommSite] using ho)))
  · exact endsWith_of_commResume ho hs hr rfl (.inr (.inr (.inl (by simpa [ownsCommSite] using ho))))
  · exact endsWith_of_commResume ho hs hr rfl (.inr (.inr (.inr (.inl (by simpa [ownsCommSite] using ho)))))

/-- Settles O31: a framing error by `endsWith_failure`, the level read by the step at its position, and no reply by
`endsWith_noReply`. -/
theorem framingErrorBeforeCollision : Obligations.FramingErrorBeforeCollision := by
  unfold Obligations.FramingErrorBeforeCollision
  intro i site c s ho hs
  refine ⟨fun herr => ?_, fun herr hcap => ?_, fun herr hcap hsite => ?_⟩
  · exact endsWith_failure ho hs (commResume_gotError_framing (bne_iff_ne.2 herr)) nofun nofun
  · exact exec_commNext ho hs (commResume_gotError_reply (flagged_eq_false.2 herr) hcap) rfl
  · have hend := endsWith_noReply ho hs hcap hsite
    by_cases hcoll : s.comm.err &&& s.params.mask.errColl = 0
    · rw [noReplyStatus_ok (flagged_eq_false.2 herr) (flagged_eq_false.2 hcoll)] at hend
      rwa [if_neg (not_not.2 hcoll)]
    · have hmap : haltStatus .collision = .collision := rfl
      rw [noReplyStatus_collision (flagged_eq_false.2 herr) (bne_iff_ne.2 hcoll), hmap, ite_self] at hend
      rwa [if_pos hcoll]

/-! ### After the FIFOLevelReg read -/

/-- A level above the capacity gives BufferTooSmall (R147). -/
theorem commResume_gotLevel_above {ret : CommReturn} (h : c.cap < fifoLevel s.params v) :
    commResume site ret c (.gotLevel v) s = ret .bufferTooSmall 0 0 s := if_pos h

/-- An empty reply for S.frame is no store. -/
theorem storeReply_frame_nil (n vb : Nat) (h : c.dest = .frame) : storeReply c [] n vb s = s := by
  rw [storeReply, h]
  rfl

/-- Settles O32: above the capacity by `endsWith_failure`, within it by the burst read or, at 0, by the ControlReg
read, which stores an empty reply. -/
theorem fifoLevelAgainstCapacity : Obligations.FifoLevelAgainstCapacity := by
  unfold Obligations.FifoLevelAgainstCapacity
  intro i site c v s ho hs
  refine ⟨fun hlvl => endsWith_failure ho hs (commResume_gotLevel_above hlvl) nofun nofun, fun hlvl => ?_⟩
  by_cases h0 : fifoLevel s.params v = 0
  · refine ⟨_, exec_commNext ho hs (commResume_gotLevel_zero h0) rfl, ?_⟩
    rw [commStep]
    cases hd : c.dest with
    | rxbuf =>
      rw [storeReply_rxbuf _ _ _ _ hd]
      exact ⟨h0.symm, fun hpos => absurd h0 hpos.ne', fun _ => ⟨rfl, rfl, rfl, rfl, fun _ => rfl, nofun⟩⟩
    | frame =>
      rw [storeReply_frame_nil _ _ hd]
      exact ⟨h0.symm, fun hpos => absurd h0 hpos.ne', fun _ => ⟨rfl, rfl, rfl, rfl, nofun, fun _ => rfl⟩⟩
  · exact ⟨_, exec_gotLevel_pos ho hs h0 hlvl, rfl, fun _ => ⟨rfl, rfl, rfl⟩, fun hz => absurd hz h0⟩

end Sys2Proof.Machine
end

/-! PROOF. The status of a Communicate whose reply was taken (20_memory.md R82, 40_communicate.md R148, R149, R151): the
tests in their order, and the end of the CRC check. -/
section
namespace Sys2Proof.Machine

namespace Env

/-- Draws go on where the last ones ended, past the listed answers too. -/
theorem drop_drop (e : Env) (m n : Nat) : (e.drop m).drop n = e.drop (m + n) := by
  simp only [drop, List.drop_drop, List.length_drop, mk.injEq, true_and]
  omega

theorem peek_drop (e : Env) (m n : Nat) : (e.drop m).peek n = (e.peek (m + n)).drop m := by
  refine List.ext_getElem (by simp) fun j hj _ => ?_
  have hdraws : e.draws + (m - e.answers.length) + (j - (e.answers.length - m)) =
      e.draws + (m + j - e.answers.length) := by omega
  simp [peek, drop, hdraws]

/-- Two one-byte reads in a row return what a read of two bytes does. -/
theorem peek_two_fst (e : Env) : (e.peek 2).getD 0 0 = (e.peek 1).headD 0 := rfl

theorem peek_two_snd (e : Env) : (e.peek 2).getD 1 0 = ((e.drop 1).peek 1).headD 0 := by
  rw [peek_drop]
  rfl

end Env

variable {i : Instr} {s : State} {site : CommSite} {c : CommCall} {ret : CommReturn} {data : List Byte} {k : Nat}

/-- The operations that can check the CRC of a reply, with their exchanges (R149). -/
def CanCheck (i : Instr) (site : CommSite) : Prop :=
  i = .communicate ∧ site = .host ∨ i = .readBlock ∧ site = .readBlock

theorem CanCheck.owns (h : CanCheck i site) : ownsCommSite i site = true := by
  obtain ⟨rfl, rfl⟩ | ⟨rfl, rfl⟩ := h <;> rfl

/-- They end with the status of the exchange, and write no result register (R150, R254). -/
theorem CanCheck.endsWith {st : Status} {n vb : Nat} {u : State} (h : CanCheck i site)
    (ho : Machine.owns i s.seq = true) (hs : s.seq ≠ .idle) (hr : resume i s = commReturn site st n vb u) : endsWith i st s := by
  obtain ⟨rfl, rfl⟩ | ⟨rfl, rfl⟩ := h
  · exact endsWith_of_noResults ho hs (congrArg State.seq hr) (.inr (.inl rfl))
  · exact endsWith_of_noResults ho hs (congrArg State.seq hr) (.inr (.inr (.inr (.inr rfl))))

/-! ### The tests on the reply -/

/-- A collision is the status, whatever the reply (R148). -/
theorem afterReply_collision (h : collisionError s.params s.comm.err = true) :
    afterReply site ret c s = ret .collision s.comm.cn s.comm.cvb s := if_pos h

/-- Without the CRC check it is OK (R151). -/
theorem afterReply_unchecked (hcoll : collisionError s.params s.comm.err = false) (hcheck : c.checkCrc = false) :
    afterReply site ret c s = ret .ok s.comm.cn s.comm.cvb s := by simp [afterReply, hcoll, hcheck]

/-- A checked reply of other than whole bytes, or of less than two, has no CRC to check (R149). -/
theorem afterReply_shape (hcoll : collisionError s.params s.comm.err = false) (hcheck : c.checkCrc = true)
    (hcap : 0 < c.cap) (hnak : ¬ (s.comm.cn = 1 ∧ s.comm.cvb = 4)) (hshape : s.comm.cn < 2 ∨ s.comm.cvb ≠ 0) :
    afterReply site ret c s = ret .crcMismatch s.comm.cn s.comm.cvb s := by
  rw [afterReply, if_neg (by rw [hcoll]; nofun), if_pos ⟨hcheck, hcap⟩, if_neg hnak, if_pos hshape]

/-- Settles O35: the tests in their order, each by its `afterReply` lemma; the ComputeCrc begins in the same step. -/
theorem statusDecidedAfterRetrieval : Obligations.StatusDecidedAfterRetrieval := by
  unfold Obligations.StatusDecidedAfterRetrieval
  intro i site c s (hi : CanCheck i site) hs hdest hcap
  have ho : owns i s.seq = true := by rw [hs]; exact hi.owns
  have hidle : s.seq ≠ .idle := by rw [hs]; nofun
  have hresume : resume i s = afterReply site (commReturn site) c s := resume_commNext hs
  dsimp only
  split
  next hcoll => exact hi.endsWith ho hidle (hresume.trans (afterReply_collision (bne_iff_ne.2 hcoll)))
  next hcoll =>
    have hcoll : collisionError s.params s.comm.err = false := flagged_eq_false.2 (not_not.1 hcoll)
    split
    next hcheck => exact hi.endsWith ho hidle (hresume.trans (afterReply_unchecked hcoll hcheck))
    next hcheck =>
      have hcheck : c.checkCrc = true := Bool.of_not_eq_false hcheck
      split
      next hnak => exact hi.endsWith ho hidle (hresume.trans (afterReply_nak hcoll hcheck hcap hnak.1 hnak.2))
      next hnak =>
        split
        next hshape => exact hi.endsWith ho hidle (hresume.trans (afterReply_shape hcoll hcheck hcap hnak hshape))
        next hshape =>
          have hcall := afterReply_check (site := site) (ret := commReturn site) hcoll hcheck hcap
            (by omega : 2 ≤ s.comm.cn) (by omega)
          rw [exec_resume ho hidle, hresume, hcall, exec_replyCrc hi.owns rfl, hdest]
          rfl

/-! ### The end of the CRC check -/

/-- The low byte is compared with the second-last reply byte and the high byte with the last (R82). -/
theorem afterReplyCrc_ok :
    afterReplyCrc ret c .ok s =
      ret (if destRead c.dest (c.off + s.comm.cn - 2) s = s.crc.lo ∧
          destRead c.dest (c.off + s.comm.cn - 1) s = s.crc.hi then .ok else .crcMismatch) s.comm.cn s.comm.cvb s := by
  by_cases hlo : destRead c.dest (c.off + s.comm.cn - 2) s = s.crc.lo <;>
    by_cases hhi : destRead c.dest (c.off + s.comm.cn - 1) s = s.crc.hi <;> simp [afterReplyCrc, hlo, hhi]

/-- The two result reads, whatever bytes are listed (R213). -/
theorem runOp_replyCrcRead (ho : ownsCommSite i site = true) (hs : s.seq = .replyCrc site c data .readLo) :
    runOp i (k + 2) s = runOp i k
      { s with
        bus := .read .crcResultRegH [(s.env.peek 2).getD 1 0] :: .read .crcResultRegL [(s.env.peek 2).getD 0 0] :: s.bus
        env := s.env.drop 2, seq := .replyCrcNext site c data .finished
        crc := { s.crc with lo := (s.env.peek 2).getD 0 0, hi := (s.env.peek 2).getD 1 0 } } := by
  rw [runOp_crcStep (caller := .reply site c) (data := data) ho hs,
    runOp_crcStep (caller := .reply site c) (data := data) (pos := .readHi) ho rfl, Env.peek_two_fst,
    Env.peek_two_snd, ← Env.drop_drop s.env 1 1]
  simp only [crcStep, busRead, busReadN, nextByte, State.withBus, State.withEnv, State.withCrc, State.withSeq]
  rfl

/-- Settles O36: the reads by `runOp_replyCrcRead`, the comparison by `afterReplyCrc_ok`; a poll budget used up is the
status. -/
theorem replyCrcComparedLowByteFirst : Obligations.ReplyCrcComparedLowByteFirst := by
  unfold Obligations.ReplyCrcComparedLowByteFirst
  intro i site c data s (hi : CanCheck i site) hdest
  refine ⟨fun hs => runOp_replyCrcRead (k := 0) hi.owns hs, fun hs => ?_, fun v hs hv hbudget => ?_⟩
  · have hr := (resume_replyCrcNext (i := i) hs).trans afterReplyCrc_ok
    rw [hdest] at hr
    exact hi.endsWith (by rw [hs]; exact hi.owns) (by rw [hs]; nofun) hr
  · have hdone : crcDone s.params v = false := flagged_eq_false.2 hv
    have hr : resume i s = commReturn site .timeout s.comm.cn s.comm.cvb s := by
      rw [resume_replyCrcNext hs, replyCrcResume, crcResume, if_neg (by rw [hdone]; nofun), crcPollHead, if_pos hbudget]
      rfl
    exact hi.endsWith (by rw [hs]; exact hi.owns) (by rw [hs]; nofun) hr

end Sys2Proof.Machine
end

/-! PROOF. The run of a Communicate for any command, whether or not it has bytes to send or a reply to take, and with it
COMMUNICATE (20_memory.md R81, 40_communicate.md R142 to R154). -/
section
namespace Sys2Proof.Machine

/-- A transaction goes on the bus unless it is of zero length (R81). -/
def issued (t : Txn) : List Txn := if t.bytes = [] then [] else [t]

theorem issued_length (t : Txn) : (issued t).length = if t.bytes = [] then 0 else 1 := by
  unfold issued
  split <;> rfl

/-! ### The call -/

/-- The transactions up to the command, newest first (R143 to R145). -/
def callTxns (p : Params) (c : CommCall) : List Txn :=
  [.write .commandReg [c.cmd], .write .bitFramingReg [bitFraming c.rxAlign c.txLastBits]] ++
    issued (.write .fifoDataReg c.tx) ++
    [.write .fifoLevelReg [p.mask.fifoFlush], .write .comIrqReg [p.mask.irqClearAll], .write .commandReg [p.pcd.idle]]

/-- The kick, newest first: none, or one for the byte that BitFramingReg read as (R145). -/
def kickTxns (p : Params) (kick : List Byte) : List Txn :=
  kick.flatMap fun b => [.write .bitFramingReg [b ||| p.mask.startSend], .read .bitFramingReg [b]]

/-- The state after the command. -/
def commCommanded (site : CommSite) (c : CommCall) (s : State) : State :=
  { s with bus := callTxns s.params c ++ s.bus, seq := .commNext site c .sent }

/-- The state after the kick, if any. -/
def commCalled (site : CommSite) (c : CommCall) (kick rest : List Byte) (s : State) : State :=
  { s with
    bus := kickTxns s.params kick ++ (callTxns s.params c ++ s.bus), env := ⟨rest, s.env.draws⟩
    seq := .commNext site c .kicked }

theorem callTxns_length (p : Params) (c : CommCall) :
    (callTxns p c).length = 5 + if c.tx = [] then 0 else 1 := by
  have hload : (issued (.write .fifoDataReg c.tx)).length = if c.tx = [] then 0 else 1 := issued_length _
  simp only [callTxns, List.length_append, List.length_cons, List.length_nil, hload]
  omega

theorem kickTxns_length (p : Params) (kick : List Byte) : (kickTxns p kick).length = 2 * kick.length := by
  simp [kickTxns, Nat.mul_comm]

section Runs

variable {i : Instr} {s : State} {site : CommSite} {c : CommCall} {k : Nat}

/-- A Communicate begins with these transactions, the load only if it has bytes to send. -/
theorem runOp_callTxns (ho : ownsCommSite i site = true) (hs : s.seq = .communicate site c .idle) :
    runOp i (k + (callTxns s.params c).length) s =
      runOp i k (commCommanded site c s) := by
  by_cases htx : c.tx = []
  · have htxns : callTxns s.params c =
        [ .write .commandReg [c.cmd], .write .bitFramingReg [bitFraming c.rxAlign c.txLastBits],
          .write .fifoLevelReg [s.params.mask.fifoFlush], .write .comIrqReg [s.params.mask.irqClearAll],
          .write .commandReg [s.params.pcd.idle] ] := by simp [callTxns, issued, Txn.bytes, htx]
    rw [commCommanded, htxns]
    show runOp i (k + 5) s = _
    rw [runOp_prepare (k := k + 2) ho hs, runOp_commNext (pos := .framing) ho rfl (commResume_flushed_nil htx) rfl,
      runOp_commStep (pos := .command) ho rfl]
    rfl
  · have htxns : callTxns s.params c = sendTxns s.params c := by simp [callTxns, sendTxns, issued, Txn.bytes, htx]
    rw [commCommanded, htxns]
    exact runOp_send ho hs htx

/-- The entry of the poll loop does not depend on the position it is entered from. -/
theorem irqPollEnter_withSeq (q : Seq) :
    irqPollEnter site (commReturn site) c (s.withSeq q) = irqPollEnter site (commReturn site) c s := by
  cases site <;> rfl

/-- After the command comes the kick of a Transceive, and then, as after any other command, the poll loop (R145). -/
theorem runOp_kickTxns {kick rest : List Byte} (ho : ownsCommSite i site = true) (hs : s.seq = .commNext site c .sent)
    (hkick : kick.length = if c.cmd = s.params.pcd.transceive then 1 else 0) (ha : s.env.answers = kick ++ rest) :
    runOp i (k + 1 + (kickTxns s.params kick).length) s = runOp i (k + 1)
      { s with
        bus := kickTxns s.params kick ++ s.bus, env := ⟨rest, s.env.draws⟩, seq := .commNext site c .kicked } := by
  by_cases hcmd : c.cmd = s.params.pcd.transceive
  · rw [if_pos hcmd] at hkick
    obtain ⟨b, rfl⟩ := List.length_eq_one_iff.1 hkick
    rw [← drop_of_answers (b := b) (rest := rest) s ha, ← nextByte_of_answers (b := b) (rest := rest) s ha]
    exact (runOp_commNext (k := k + 2) ho hs (commResume_sent_kick hcmd) rfl).trans
      (runOp_commStep (pos := .kickWrite (nextByte s)) ho rfl)
  · rw [if_neg hcmd] at hkick
    obtain rfl := List.length_eq_zero_iff.1 hkick
    have henv : (⟨rest, s.env.draws⟩ : Env) = s.env := by rw [← List.nil_append rest, ← ha]
    have hsent : commResume site (commReturn site) c .sent s = irqPollEnter site (commReturn site) c s := if_neg hcmd
    rw [henv, kickTxns, List.flatMap_nil, List.length_nil, Nat.add_zero, runOp_commResume ho hs, hsent,
      ← irqPollEnter_withSeq (.commNext site c .kicked)]
    exact (runOp_commResume (n := .kicked) (s := s.withSeq (.commNext site c .kicked)) ho rfl).symm

/-- So a Communicate comes to the poll loop. -/
theorem runOp_call {kick rest : List Byte} (ho : ownsCommSite i site = true) (hs : s.seq = .communicate site c .idle)
    (hkick : kick.length = if c.cmd = s.params.pcd.transceive then 1 else 0) (ha : s.env.answers = kick ++ rest) :
    runOp i (k + 1 + (kickTxns s.params kick).length + (callTxns s.params c).length) s =
      runOp i (k + 1) (commCalled site c kick rest s) :=
  (runOp_callTxns ho hs).trans (runOp_kickTxns (s := commCommanded site c s) ho rfl hkick ha)

/-! ### The reply -/

/-- The transactions that take a reply of the bytes `data`, newest first (R147). -/
def replyTxns (lvl ctl : Byte) (data : List Byte) : List Txn :=
  .read .controlReg [ctl] :: (issued (.read .fifoDataReg data) ++ [.read .fifoLevelReg [lvl]])

theorem replyTxns_length (lvl ctl : Byte) (data : List Byte) :
    (replyTxns lvl ctl data).length = 2 + if data = [] then 0 else 1 := by
  have hread : (issued (.read .fifoDataReg data)).length = if data = [] then 0 else 1 := issued_length _
  simp only [replyTxns, List.length_append, List.length_cons, List.length_nil, hread]
  omega

/-- The state after them. -/
def commTaken (site : CommSite) (c : CommCall) (lvl ctl : Byte) (data rest : List Byte) (s : State) : State :=
  (storeReply c (mergeFirst (c.rxAlign % 8) (destRead c.dest c.off s) data) data.length (lastBits s.params ctl)
    { s with
      bus := replyTxns lvl ctl data ++ s.bus, env := ⟨rest, s.env.draws⟩
      comm := { s.comm with cn := data.length, cvb := lastBits s.params ctl } }).withSeq (.commNext site c .stored)

/-- With no framing error a reply within the capacity is taken, be it empty. -/
theorem runOp_replyTxns {lvl ctl : Byte} {data rest : List Byte} (ho : ownsCommSite i site = true)
    (hs : s.seq = .commNext site c .gotError) (herr : framingError s.params s.comm.err = false) (hcap : 0 < c.cap)
    (hlvl : fifoLevel s.params lvl = data.length) (hfits : data.length ≤ c.cap)
    (ha : s.env.answers = lvl :: (data ++ ctl :: rest)) :
    runOp i (k + (replyTxns lvl ctl data).length) s = runOp i k (commTaken site c lvl ctl data rest s) := by
  by_cases hdata : data = []
  · subst hdata
    show runOp i (k + 2) s = _
    rw [runOp_readLevel (k := k + 1) ho hs herr hcap ha, runOp_commResume (n := .gotLevel lvl) ho rfl,
      commResume_gotLevel_zero (by exact hlvl), runOp_readControl (ctl := ctl) (rest := rest) ho rfl rfl, commTaken]
    unfold storeReply
    cases c.dest <;> rfl
  · have htxns : replyTxns lvl ctl data =
        [.read .controlReg [ctl], .read .fifoDataReg data, .read .fifoLevelReg [lvl]] := by
      simp [replyTxns, issued, Txn.bytes, hdata]
    rw [commTaken, htxns]
    exact runOp_reply ho hs herr hlvl hdata hfits ha

end Runs

/-! ### COMMUNICATE -/

section CommunicateRuns

variable {s : State} {kick rest : List Byte} {k : Nat}

theorem txBytes_eq_nil {h : HostRegs} : txBytes h = [] ↔ h.txLen = 0 := by
  simp [txBytes, Memory.slice, BitVec.toNat_eq]

/-- The transactions of COMMUNICATE up to the poll loop, `5 + T + X` of them (R154). -/
def hostCallCount (s : State) : Nat :=
  5 + (if s.h.txLen = 0 then 0 else 1) + if s.h.pcdCmd = s.params.pcd.transceive then 2 else 0

/-- What COMMUNICATE needs to reach it: the argument check passes, and BitFramingReg's answer is listed for a
Transceive. -/
structure HostCalled (kick rest : List Byte) (s : State) : Prop where
  start : s.seq = .start
  fits : s.h.txLen.toNat ≤ s.params.txbufSize ∧ s.h.rxCap.toNat ≤ s.params.rxbufSize
  kicked : kick.length = if s.h.pcdCmd = s.params.pcd.transceive then 1 else 0
  answers : s.env.answers = kick ++ rest

/-- Its state there. -/
def hostCalled (kick rest : List Byte) (s : State) : State := commCalled .host (hostCall s.h) kick rest s

theorem HostCalled.count (h : HostCalled kick rest s) :
    (kickTxns s.params kick).length + (callTxns s.params (hostCall s.h)).length = hostCallCount s := by
  have hkick : 2 * kick.length = if s.h.pcdCmd = s.params.pcd.transceive then 2 else 0 := by
    rw [h.kicked]
    split <;> rfl
  have hload : (if (hostCall s.h).tx = [] then 0 else 1) = if s.h.txLen = 0 then 0 else 1 :=
    if_congr txBytes_eq_nil rfl rfl
  rw [kickTxns_length, callTxns_length, hkick, hload, hostCallCount]
  omega

theorem HostCalled.bus_length (h : HostCalled kick rest s) :
    (hostCalled kick rest s).bus.length = s.bus.length + hostCallCount s := by
  rw [← h.count, hostCalled, commCalled, List.length_append, List.length_append]
  omega

theorem HostCalled.run (h : HostCalled kick rest s) :
    runOp .communicate (k + 1 + hostCallCount s) s = runOp .communicate (k + 1) (hostCalled kick rest s) := by
  have hopen : resume .communicate s = s.withSeq (.communicate .host (hostCall s.h) .idle) :=
    (resume_start h.start).trans (communicateBegin_fits h.fits)
  have hstart := runOp_resume (k := k + hostCallCount s) (i := .communicate) (s := s) (by rw [h.start]; rfl)
    (by rw [h.start]; nofun)
  rw [hopen, Nat.add_right_comm] at hstart
  have hcall := runOp_call (k := k) (i := .communicate) (s := s.withSeq (.communicate .host (hostCall s.h) .idle)) rfl
    rfl h.kicked h.answers
  refine hstart.trans (Eq.trans ?_ hcall)
  rw [← h.count, ← Nat.add_assoc]
  rfl

/-- Settles O38: after the call the polls use up the budget, by `runOp_irqTimeout`. -/
theorem communicatePollExhaustsBudget : Obligations.CommunicatePollExhaustsBudget := by
  unfold Obligations.CommunicatePollExhaustsBudget
  intro s polls kick rest hs htx hrx hwait hkick ha hbudget htimer
  have hcalled : HostCalled kick (polls ++ rest) s := ⟨hs, ⟨htx, hrx⟩, hkick, by rw [ha, List.append_assoc]⟩
  have hflags : ∀ b ∈ polls, awaited (hostCall s.h) b = false ∧ timerExpired s.params b = false := fun b hb =>
    ⟨flagged_eq_false.2 (by rw [hostCall, hwait]; exact BitVec.and_zero), flagged_eq_false.2 (htimer b hb)⟩
  obtain ⟨q, hpolls⟩ := runOp_irqTimeout (i := .communicate) (k := 0) (site := .host) (c := hostCall s.h)
    (s := hostCalled kick (polls ++ rest) s) rfl rfl hflags hbudget rfl
  rw [Nat.zero_add] at hpolls
  refine ⟨_, Eq.trans ?_ (hpolls.trans (runOp_finish rfl)), rfl, ?_, rfl⟩
  · rw [← hbudget]
    show runOp .communicate (hostCallCount s + polls.length + 1) s = _
    rw [Nat.add_assoc, Nat.add_comm, hcalled.run]
  · show (irqPollTxns polls ++ (hostCalled kick (polls ++ rest) s).bus).length = s.bus.length + (hostCallCount s + _)
    rw [List.length_append, irqPollTxns_length, hcalled.bus_length, hbudget]
    omega

/-- What COMMUNICATE reads up to the reply: BitFramingReg of a Transceive, the polls that show no flag, the one that
shows an awaited flag, ErrorReg, the FIFO level, the reply bytes, ControlReg, and the answers that are left. -/
structure HostScript where
  kick : List Byte
  polls : List Byte
  v : Byte
  err : Byte
  lvl : Byte
  data : List Byte
  ctl : Byte
  rest : List Byte

/-- The answers from the FIFO level on. -/
def HostScript.reply (r : HostScript) : List Byte := r.lvl :: (r.data ++ r.ctl :: r.rest)

/-- The answers from the polls on. -/
def HostScript.polled (r : HostScript) : List Byte := r.polls ++ r.v :: r.err :: r.reply

/-- What COMMUNICATE needs to take the reply: an awaited flag within the budget, no framing error, and a reply that is
expected and fits. -/
structure HostAnswered (r : HostScript) (s : State) : Prop where
  called : HostCalled r.kick r.polled s
  flags : ∀ b ∈ r.polls, awaited (hostCall s.h) b = false ∧ timerExpired s.params b = false
  budget : r.polls.length < s.params.irqPollBudget
  flag : awaited (hostCall s.h) r.v = true
  framing : framingError s.params r.err = false
  expected : 0 < s.h.rxCap.toNat
  level : fifoLevel s.params r.lvl = r.data.length
  fits : r.data.length ≤ s.h.rxCap.toNat

/-- Its state after the reply. -/
def hostTaken (r : HostScript) (s : State) : State :=
  commTaken .host (hostCall s.h) r.lvl r.ctl r.data r.rest
    (commErrorRead .host (hostCall s.h) r.polls r.reply r.v r.err (hostCalled r.kick r.polled s))

variable {r : HostScript}

/-- The transactions up to the stored reply (R154). -/
def hostTakenCount (r : HostScript) (s : State) : Nat :=
  hostCallCount s + (r.polls.length + 1) + 1 + 2 + if r.data = [] then 0 else 1

theorem HostAnswered.bus_length (h : HostAnswered r s) :
    (hostTaken r s).bus.length = s.bus.length + hostTakenCount r s := by
  show (replyTxns r.lvl r.ctl r.data ++
    .read .errorReg [r.err] :: .read .comIrqReg [r.v] ::
      (irqPollTxns r.polls ++ (hostCalled r.kick r.polled s).bus)).length = _
  rw [List.length_append, List.length_cons, List.length_cons, List.length_append, replyTxns_length, irqPollTxns_length,
    h.called.bus_length, hostTakenCount]
  omega

theorem HostAnswered.run (h : HostAnswered r s) :
    runOp .communicate (k + hostTakenCount r s) s = runOp .communicate k (hostTaken r s) := by
  have hawaited := runOp_kicked_awaited (i := .communicate) (k := k + (replyTxns r.lvl r.ctl r.data).length)
    (s := hostCalled r.kick r.polled s) rfl rfl h.flags h.budget h.flag rfl
  have hreply := runOp_replyTxns (i := .communicate) (k := k) (c := hostCall s.h) (site := .host)
    (s := commErrorRead .host (hostCall s.h) r.polls r.reply r.v r.err (hostCalled r.kick r.polled s)) rfl rfl h.framing
    h.expected h.level h.fits rfl
  rw [hostTaken, ← hreply, ← hawaited, ← h.called.run, hostTakenCount, replyTxns_length]
  congr 1
  omega

variable (r s) in
/-- The reply stands in RXBUF from index 0 on, its first byte merged (R30, R80). -/
theorem hostTaken_h :
    (hostTaken r s).h =
      { s.h with
        rxbuf := Memory.writeMany s.h.rxbuf 0 (mergeFirst s.h.rxAlign.toNat (Memory.read s.h.rxbuf 0) r.data)
        rxLen := BitVec.ofNat 8 r.data.length, rxValidBits := BitVec.ofNat 3 (lastBits s.params r.ctl) } := by
  have halign : s.h.rxAlign.toNat % 8 = s.h.rxAlign.toNat := Nat.mod_eq_of_lt s.h.rxAlign.isLt
  rw [← halign]
  rfl

/-- Settles O37: the reply is taken by `HostAnswered.run`; without the CRC check and without a collision the exchange
then returns OK. -/
theorem communicateRunsToOk : Obligations.CommunicateRunsToOk := by
  unfold Obligations.CommunicateRunsToOk
  intro s polls data kick rest v err lvl ctl hs htx hrx hcap hcheck hkick ha hpolls hv hbudget hframing hcoll hlvl hfits
  let r : HostScript := ⟨kick, polls, v, err, lvl, data, ctl, rest⟩
  have hanswered : HostAnswered r s :=
    ⟨⟨hs, ⟨htx, hrx⟩, hkick, by simpa [HostScript.polled, HostScript.reply] using ha⟩,
      fun b hb => ⟨flagged_eq_false.2 (hpolls b hb).1, flagged_eq_false.2 (hpolls b hb).2⟩, hbudget, bne_iff_ne.2 hv,
      flagged_eq_false.2 hframing, hcap, hlvl, hfits⟩
  have hreturn : commResume .host (commReturn .host) (hostCall s.h) .stored (hostTaken r s) =
      finish .ok (hostTaken r s) :=
    afterReply_unchecked (flagged_eq_false.2 hcoll) hcheck
  refine ⟨complete .ok (hostTaken r s), ?_, rfl, hanswered.bus_length, rfl, ?_⟩
  · rw [Nat.add_comm]
    refine hanswered.run.trans ?_
    rw [runOp_commResume (k := 0) rfl rfl, hreturn]
    exact runOp_finish rfl
  · rw [complete, completeWith, hostTaken_h]
    rfl

end CommunicateRuns

end Sys2Proof.Machine
end

/-! PROOF. The rounds of a selection (41_select.md R174 to R182): the frame a round sends and where it starts, and with
them the start of a cascade level. -/
section
namespace Sys2Proof.Machine

/-! ### The full-level frame -/

section FullFrame

variable (p : Params) (f : Vector Byte 9)

theorem fullFrame_nvb : Buf.get (fullFrame p f) 1 = p.picc.nvbSelect :=
  (Buf.get_put_other _ _ (by decide)).trans (Buf.get_put_same _ _ (by decide))

/-- The check byte is the XOR of the four bytes before it (R178). -/
theorem fullFrame_check : Buf.get (fullFrame p f) 6 = Buf.get f 2 ^^^ Buf.get f 3 ^^^ Buf.get f 4 ^^^ Buf.get f 5 := by
  have hslice : Buf.slice (Buf.put f 1 p.picc.nvbSelect) 2 4 = Buf.slice f 2 4 :=
    Buf.slice_congr fun j _ => Buf.get_put_other _ _ (by omega)
  rw [fullFrame, Buf.get_put_same _ _ (by decide), hslice]
  simp [xorAll, Buf.slice, List.range_succ]

variable {f} in
/-- No byte but that and the framing byte is written. -/
theorem fullFrame_kept {j : Nat} (h1 : j ≠ 1) (h6 : j ≠ 6) : Buf.get (fullFrame p f) j = Buf.get f j :=
  (Buf.get_put_other _ _ h6.symm).trans (Buf.get_put_other _ _ h1.symm)

/-- The seven bytes that get a CRC (R178). -/
theorem fullFrame_slice :
    Buf.slice (fullFrame p f) 0 7 =
      [Buf.get f 0, p.picc.nvbSelect, Buf.get f 2, Buf.get f 3, Buf.get f 4, Buf.get f 5,
        Buf.get f 2 ^^^ Buf.get f 3 ^^^ Buf.get f 4 ^^^ Buf.get f 5] := by
  simp [Buf.slice, List.range_succ, fullFrame_nvb, fullFrame_check, fullFrame_kept]

end FullFrame

/-! ### The start of a round -/

section Round

variable {s : State}

/-- The exchange of a round with `lk` known bits over the frame `f` (R180 to R182). -/
def roundCall (p : Params) (lk : Nat) (f : Vector Byte 9) : CommCall :=
  { cmd := p.pcd.transceive, waitIrq := p.mask.waitTransceive
    tx := Buf.slice f 0 (2 + lk / 8 + if lk % 8 = 0 then 0 else 1), txLastBits := lk % 8, rxAlign := lk % 8
    checkCrc := false, dest := .frame, off := 2 + lk / 8, cap := 7 - lk / 8 }

theorem selectRound_partial_frame (h : s.sel.lk < 32) :
    (selectRound s).sel.frame = Buf.put s.sel.frame 1 (nvb s.sel.lk) := by
  rw [selectRound_partial h]
  rfl

theorem selectRound_full_frame (h : 32 ≤ s.sel.lk) :
    (selectRound s).sel.frame = fullFrame s.params s.sel.frame := by
  rw [selectRound_full h]
  rfl

/-- A round leaves the frame alone but for the framing byte and the check byte. -/
theorem selectRound_frame_kept {j : Nat} (h1 : j ≠ 1) (h6 : j ≠ 6) :
    Buf.get (selectRound s).sel.frame j = Buf.get s.sel.frame j := by
  rcases Nat.lt_or_ge s.sel.lk 32 with h | h
  · rw [selectRound_partial_frame h, Buf.get_put_other _ _ h1.symm]
  · rw [selectRound_full_frame h, fullFrame_kept _ h1 h6]

/-- With fewer than 32 known bits a round starts with the exchange. -/
theorem selectRound_partial_opens (h : s.sel.lk < 32) :
    Buf.get (selectRound s).sel.frame 1 = nvb s.sel.lk ∧
      (selectRound s).seq =
        .communicate .selectRound (roundCall s.params s.sel.lk (selectRound s).sel.frame) .idle := by
  have hlen : partialLen s.sel.lk = 2 + s.sel.lk / 8 + if s.sel.lk % 8 = 0 then 0 else 1 := by
    rw [partialLen_eq]; split <;> omega
  have hcap : 9 - wholeBytes s.sel.lk = 7 - s.sel.lk / 8 := by unfold wholeBytes; omega
  rw [selectRound_partial_frame h, Buf.get_put_same _ _ (by decide), selectRound_partial h, roundCall, ← hlen, ← hcap]
  exact ⟨rfl, rfl⟩

/-- With 32 it starts with the CRC of the full-level frame (R177, R178). -/
theorem selectRound_full_opens (h : 32 ≤ s.sel.lk) :
    let f := fun j => Buf.get (selectRound s).sel.frame j
    f 1 = s.params.picc.nvbSelect ∧ f 6 = f 2 ^^^ f 3 ^^^ f 4 ^^^ f 5 ∧
      (selectRound s).seq = .computeCrc .fullFrame [f 0, f 1, f 2, f 3, f 4, f 5, f 6] .idle := by
  have hkept {j : Nat} (h1 : j ≠ 1) (h6 : j ≠ 6) := fullFrame_kept s.params (f := s.sel.frame) h1 h6
  rw [selectRound_full_frame h, selectRound_full h]
  refine ⟨fullFrame_nvb _ _, ?_, rfl⟩
  simp only [hkept (j := 2) nofun nofun, hkept (j := 3) nofun nofun, hkept (j := 4) nofun nofun,
    hkept (j := 5) nofun nofun, fullFrame_check]

/-- What a round keeps of the resolver: the level, what was known at its start, and the identifier so far. -/
structure SameLevel (x y : SelectState) : Prop where
  level : y.level = x.level
  base : y.base = x.base
  useCT : y.useCT = x.useCT
  lk : y.lk = x.lk
  uidWork : y.uidWork = x.uidWork

theorem selectRound_sameLevel (s : State) : SameLevel s.sel (selectRound s).sel := by
  rcases Nat.lt_or_ge s.sel.lk 32 with h | h
  · rw [selectRound_partial h]
    exact ⟨rfl, rfl, rfl, rfl, rfl⟩
  · rw [selectRound_full h]
    exact ⟨rfl, rfl, rfl, rfl, rfl⟩

end Round

/-! ### The start of a level -/

/-- A tag is inserted at levels 1 and 2, for an identifier that goes on beyond the level (R175). -/
theorem insertsTag_eq (level k decl : Nat) :
    insertsTag level k decl = (k != 0 && (level == 1 && decide (4 < decl) || level == 2 && decide (7 < decl))) := by
  unfold insertsTag
  split
  · simp
  · simp
  next h1 h2 => simp [beq_false_of_ne h1, beq_false_of_ne h2]

theorem sliceBase_eq {level : Nat} (h1 : 1 ≤ level) (h3 : level ≤ 3) : sliceBase level = 3 * (level - 1) := by
  obtain rfl | rfl | rfl : level = 1 ∨ level = 2 ∨ level = 3 := by omega
  all_goals rfl

theorem selCommand_eq (p : Params) (level : Nat) :
    selCommand p level =
      if level = 1 then p.picc.selCl1 else if level = 2 then p.picc.selCl2 else p.picc.selCl3 := by
  unfold selCommand
  split
  · rfl
  · rfl
  next h1 h2 => rw [if_neg h1, if_neg h2]

/-- A level's start leaves the frame bytes alone that follow the known ones (R176). -/
theorem levelStart_kept (p : Params) (k decl : Nat) (sel : SelectState) {j : Nat}
    (h : (if insertsTag sel.level k decl then 3 else 2) +
      min (ceil8 (k - 8 * sliceBase sel.level)) (if insertsTag sel.level k decl then 3 else 4) ≤ j) :
    Buf.get (levelStart p k decl sel).frame j = Buf.get sel.frame j := by
  unfold levelStart
  rw [Buf.get_putMany_other _ _ (.inr (by simpa using h))]
  split
  next htag => rw [Buf.get_put_other _ _ (by simp [htag] at h; omega), Buf.get_put_other _ _ (by split at h <;> omega)]
  next htag => rw [Buf.get_put_other _ _ (by split at h <;> omega)]

/-- Settles O48: the resolver at the start of the level by the `levelStart` lemmas, its first round by those of
`selectRound`. -/
theorem cascadeLevelOpens : Obligations.CascadeLevelOpens := by
  unfold Obligations.CascadeLevelOpens
  intro k decl s h1 h3 lv base tag known lk at0 nb t
  have hbase : sliceBase lv = base := sliceBase_eq h1 h3
  have htag : insertsTag lv k decl = tag := insertsTag_eq lv k decl
  let v := s.withSel (levelStart s.params k decl s.sel)
  have hlk : v.sel.lk = lk := by
    show levelKnown lv k decl = lk
    rw [levelKnown, htag, hbase]
  have hround := selectRound_sameLevel v
  have hopen := selectLevel_opened k decl s
  have hkept (j : Nat) (hj1 : j ≠ 1) (hj6 : j ≠ 6) : Buf.get t.sel.frame j = Buf.get v.sel.frame j :=
    selectRound_frame_kept hj1 hj6
  have hlow : 2 ≤ at0 := by simp only [at0]; split <;> decide
  have hhigh : at0 + nb ≤ 6 := by simp only [at0, nb]; split <;> omega
  refine ⟨hround.base.trans hbase, hround.useCT.trans htag, hround.lk.trans hlk, hround.level, hround.uidWork, hopen.h,
    hopen.bus, ?_, fun ht => ?_, fun j hj => ?_, fun j hj h5 => ?_, fun hpart => ?_, fun hfull => ?_⟩
  · rw [hkept 0 (by decide) (by decide), ← selCommand_eq]
    exact levelStart_command s.params k decl s.sel
  · rw [hkept 2 (by decide) (by decide)]
    exact levelStart_tag s.params (htag.trans ht)
  · rw [hkept _ (by omega) (by omega)]
    have hprefix := levelStart_prefix s.params (k := k) (decl := decl) (sel := s.sel) (j := j)
    rw [htag, hbase] at hprefix
    exact hprefix (by simp only [ceil8]; omega) (by omega)
  · rw [hkept _ (by omega) (by omega)]
    have hafter := levelStart_kept s.params k decl s.sel (j := j)
    rw [htag, hbase] at hafter
    exact hafter hj
  · obtain ⟨hnvb, hseq⟩ := selectRound_partial_opens (hlk.trans_lt hpart)
    rw [hlk] at hnvb hseq
    exact ⟨hnvb, _, hseq, rfl, rfl, rfl, rfl, rfl, rfl, rfl, rfl, rfl⟩
  · exact selectRound_full_opens (hfull.trans_eq hlk.symm)

end Sys2Proof.Machine
end

/-! PROOF. The steps of a selection between its transactions (41_select.md R178 to R190): what follows the CRC of the
full-level frame, and a collision. -/
section
namespace Sys2Proof.Machine

variable {i : Instr} {s : State}

/-! ### The step in which a call begins -/

/-- The step from `s` is the idle write a call begins with (R143, R211); `u` is where the pure computation before it
leads. -/
structure CallBegun (s u t : State) : Prop where
  bus : t.bus = .write .commandReg [s.params.pcd.idle] :: s.bus
  h : t.h = s.h
  sel : t.sel = u.sel

/-- Pure computation that leads to an exchange begins it. -/
theorem exec_begins_communicate {site : CommSite} {c : CommCall} (ho : owns i s.seq = true) (hs : s.seq ≠ .idle)
    (hr : (resume i s).seq = .communicate site c .idle) :
    ∃ t, exec i s = .next t ∧ CallBegun s (resume i s) t ∧ t.seq = .communicate site c .clearIrqs := by
  obtain ⟨hc, -, hown⟩ := resume_reaches ho hs
  rw [hr] at hown
  refine ⟨_, (exec_resume ho hs).trans (exec_communicate hown hr), ⟨?_, hc.h, rfl⟩, rfl⟩
  simp [commStep, hc.params, hc.bus]

/-- So does one that leads to a ComputeCrc. -/
theorem exec_begins_computeCrc {site : CrcSite} {data : List Byte} (ho : owns i s.seq = true) (hs : s.seq ≠ .idle)
    (hr : (resume i s).seq = .computeCrc site data .idle) :
    ∃ t, exec i s = .next t ∧ CallBegun s (resume i s) t ∧ t.seq = .computeCrc site data .clearDone := by
  obtain ⟨hc, -, hown⟩ := resume_reaches ho hs
  rw [hr] at hown
  refine ⟨_, (exec_resume ho hs).trans (exec_computeCrc hown hr), ⟨?_, hc.h, rfl⟩, rfl⟩
  simp [crcStep, hc.params, hc.bus]

/-- So does one that leads to a round. -/
theorem exec_begins_round (ho : owns i s.seq = true) (hs : s.seq ≠ .idle) (hr : RoundSeq (resume i s).seq) :
    ∃ t, exec i s = .next t ∧ CallBegun s (resume i s) t := by
  rcases hr with ⟨data, hr⟩ | ⟨c, hr, -⟩
  · obtain ⟨t, he, ht, -⟩ := exec_begins_computeCrc ho hs hr
    exact ⟨t, he, ht⟩
  · obtain ⟨t, he, ht, -⟩ := exec_begins_communicate ho hs hr
    exact ⟨t, he, ht⟩

/-- And where the first step of a round stands, by the known bits (R177). -/
theorem exec_begins_selectRound {u : State} (ho : owns i s.seq = true) (hs : s.seq ≠ .idle)
    (hr : resume i s = selectRound u) :
    ∃ t, exec i s = .next t ∧ CallBegun s (selectRound u) t ∧
      (u.sel.lk < 32 →
        t.seq = .communicate .selectRound (roundCall u.params u.sel.lk t.sel.frame) .clearIrqs) ∧
      (32 ≤ u.sel.lk →
        t.seq = .computeCrc .fullFrame (Buf.slice t.sel.frame 0 7) .clearDone) := by
  rcases Nat.lt_or_ge u.sel.lk 32 with h | h
  · obtain ⟨t, he, ht, hseq⟩ :=
      exec_begins_communicate ho hs ((congrArg State.seq hr).trans (selectRound_partial_opens h).2)
    rw [hr] at ht
    exact ⟨t, he, ht, fun _ => by rw [ht.sel, hseq], fun hge => absurd h (Nat.not_lt.2 hge)⟩
  · obtain ⟨t, he, ht, hseq⟩ :=
      exec_begins_computeCrc ho hs ((congrArg State.seq hr).trans (selectRound_full_opens h).2.2)
    rw [hr] at ht
    exact ⟨t, he, ht, fun hlt => absurd hlt (Nat.not_lt.2 h), fun _ => by rw [ht.sel, hseq]; rfl⟩

/-- A poll of a ComputeCrc that shows no flag with the budget used up ends the operation with Timeout, when its caller
passes that (R213). -/
theorem endsWith_crcTimeout {site : CrcSite} {data : List Byte} {v : Byte} (ho : ownsCrcSite i site = true)
    (hs : s.seq = .crcNext site data (.polled v)) (hv : v &&& s.params.mask.divCrcIrq = 0)
    (hbudget : s.crc.crcPoll = s.params.crcPollBudget)
    (hret : crcReturn i s.h site .timeout s = finish .timeout s) : endsWith i .timeout s := by
  have hdone : crcDone s.params v = false := flagged_eq_false.2 hv
  refine endsWith_of_resume (by rw [hs]; exact ho) (by rw [hs]; nofun) ?_ nofun
  rw [resume_crcNext hs, crcResume, if_neg (by rw [hdone]; nofun), crcPollHead, if_pos hbudget, hret]
  rfl

/-- The two selections have the positions of SelectCore. -/
theorem selection_owns (hi : i = .select ∨ i = .readCardSerial) :
    ownsCommSite i .selectRound = true ∧ ownsCrcSite i .fullFrame = true ∧ ownsCrcSite i .sakCheck = true ∧
      ∀ v, owns i (.gotColl v) = true := by
  rcases hi with rfl | rfl <;> exact ⟨rfl, rfl, rfl, fun _ => rfl⟩

/-! ### After the CRC of the full-level frame -/

/-- The full-level frame with its CRC, low byte first (R178). -/
def frameWithCrc (f : Vector Byte 9) (lo hi : Byte) : Vector Byte 9 := Buf.put (Buf.put f 7 lo) 8 hi

theorem frameWithCrc_kept (f : Vector Byte 9) (lo hi : Byte) {j : Nat} (h : j < 7) :
    Buf.get (frameWithCrc f lo hi) j = Buf.get f j :=
  (Buf.get_put_other _ _ (by omega)).trans (Buf.get_put_other _ _ (by omega))

theorem frameWithCrc_slice (f : Vector Byte 9) (lo hi : Byte) :
    Buf.slice (frameWithCrc f lo hi) 0 9 = Buf.slice f 0 7 ++ [lo, hi] := by
  rw [Buf.slice_add _ 0 7 2]
  refine congrArg₂ (· ++ ·) (Buf.slice_congr fun j hj => frameWithCrc_kept f lo hi (by omega))
    (congrArg₂ (fun x y => [x, y]) ?_ ?_)
  · exact (Buf.get_put_other _ _ (by decide)).trans (Buf.get_put_same _ _ (by decide))
  · exact Buf.get_put_same _ _ (by decide)

/-- The exchange that sends it whole (R178, R179). -/
def fullCall (p : Params) (f : Vector Byte 9) (lo hi : Byte) : CommCall :=
  { cmd := p.pcd.transceive, waitIrq := p.mask.waitTransceive, tx := Buf.slice f 0 7 ++ [lo, hi], txLastBits := 0
    rxAlign := 0, checkCrc := false, dest := .frame, off := 6, cap := 3 }

theorem selectAfterFrameCrc_ok (s : State) :
    selectAfterFrameCrc .ok s =
      (s.withSel
        { s.sel with
          frame := frameWithCrc s.sel.frame s.crc.lo s.crc.hi, txlb := 0, rxAlign := 0, sendLen := 9, rOff := 6
          rCap := 3 }).withSeq
        (.communicate .selectRound (fullCall s.params s.sel.frame s.crc.lo s.crc.hi) .idle) := by
  rw [fullCall, ← frameWithCrc_slice]
  rfl

/-- Settles O50: the exchange by `selectAfterFrameCrc_ok`, the Timeout by `endsWith_crcTimeout`. -/
theorem fullFrameSentWithCrc : Obligations.FullFrameSentWithCrc := by
  unfold Obligations.FullFrameSentWithCrc
  intro i data s hi
  obtain ⟨-, ho, -⟩ := selection_owns hi
  refine ⟨fun hs => ?_, fun v hs hv hbudget => endsWith_crcTimeout ho hs hv hbudget rfl⟩
  have hr := congrArg State.seq ((resume_crcNext (i := i) hs).trans (selectAfterFrameCrc_ok s))
  obtain ⟨t, he, ht, hseq⟩ := exec_begins_communicate (by rw [hs]; exact ho) (by rw [hs]; nofun) hr
  exact ⟨t, he, ht.h, ht.bus, hseq⟩

/-! ### After a collision -/

theorem resume_gotColl {v : Byte} (h : s.seq = .gotColl v) : resume i s = collResume v s := by simp only [resume, h]

/-- The position is at most 32, by R48's range of its mask (R188). -/
theorem collPosition_le {p : Params} (h : p.wf = true) (v : Byte) : collPosition p v ≤ 32 := by
  have hm : p.mask.wf = true := by
    simp only [Params.wf, Bool.and_eq_true] at h
    exact h.2
  simp only [ChipMasks.wf, Bool.and_eq_true, decide_eq_true_eq] at hm
  have hle : (v &&& p.mask.collPos).toNat ≤ p.mask.collPos.toNat := by
    rw [BitVec.toNat_and]
    exact Nat.and_le_right
  unfold collPosition
  split <;> omega

/-- The bit at a position is set in its byte, and no other byte changes (R188, R190). -/
theorem patchBit_get (f : Vector Byte 9) {p j : Nat} (hj : j < 9) :
    Buf.get (patchBit f p) j =
      if j = 2 + (p - 1) / 8 then Buf.get f j ||| (1#8 <<< ((p - 1) % 8)) else Buf.get f j := by
  split
  next h => subst h; exact Buf.get_put_same _ _ hj
  next h => exact Buf.get_put_other _ _ (Ne.symm h)

/-- The state in which the next round starts: the bit at the collision position set, and the bits up to it known
(R188, R190). -/
def resolved (p : Nat) (s : State) : State := s.withSel { s.sel with lk := p, frame := patchBit s.sel.frame p }

theorem collResume_unknown {v : Byte} (h : collPosUnknown s.params v = true) : collResume v s = finish .collision s :=
  if_pos h

theorem collResume_contradiction {v : Byte} (h : collPosUnknown s.params v = false)
    (hp : collPosition s.params v ≤ s.sel.lk) : collResume v s = finish .internalError s := by
  simp [collResume, h, hp]

theorem collResume_progress {v : Byte} (h : collPosUnknown s.params v = false)
    (hp : s.sel.lk < collPosition s.params v) :
    collResume v s = selectRound (resolved (collPosition s.params v) s) := by
  simp [collResume, h, Nat.not_le.2 hp, resolved]

/-- Settles O52: the three outcomes by the `collResume` lemmas; the next round starts with its exchange, or with 32 known
bits with the CRC of the full-level frame. -/
theorem collisionResolvesOneMoreBit : Obligations.CollisionResolvesOneMoreBit := by
  unfold Obligations.CollisionResolvesOneMoreBit
  refine ⟨?_, rfl, rfl⟩
  intro i v s hi hs hwf m raw p
  have ho : owns i s.seq = true := by rw [hs]; exact (selection_owns hi).2.2.2 v
  have hidle : s.seq ≠ .idle := by rw [hs]; nofun
  have hend {st : Status} (hr : collResume v s = finish st s) (hst : st ≠ .ok) : endsWith i st s :=
    endsWith_of_resume ho hidle (by rw [resume_gotColl hs, hr]; rfl) hst
  refine ⟨fun hv => hend (collResume_unknown (bne_iff_ne.2 hv)) nofun,
    fun hv hle => hend (collResume_contradiction (flagged_eq_false.2 hv) hle) nofun, fun hv hlt => ?_⟩
  let u := resolved p s
  obtain ⟨t, he, ht, hpart, hfull⟩ := exec_begins_selectRound (u := u) ho hidle
    ((resume_gotColl hs).trans (collResume_progress (flagged_eq_false.2 hv) hlt))
  have hlk : t.sel.lk = p := (congrArg SelectState.lk ht.sel).trans (selectRound_sameLevel u).lk
  have hkept (j : Nat) (hj1 : j ≠ 1) (hj6 : j ≠ 6) :
      Buf.get t.sel.frame j = Buf.get (patchBit s.sel.frame p) j := by
    rw [ht.sel]
    exact selectRound_frame_kept hj1 hj6
  have hhead {j : Nat} (hj : j < 9) (hout : j ≠ 2 + (p - 1) / 8) :
      Buf.get (patchBit s.sel.frame p) j = Buf.get s.sel.frame j := by rw [patchBit_get _ hj, if_neg hout]
  have h32 : p ≤ 32 := collPosition_le hwf v
  refine ⟨t, he, ht.bus, ht.h, by rw [hlk]; exact hlt, hlk, h32, fun j h2 h5 => ?_, ?_, fun hlt32 => ?_, fun heq => ?_⟩
  · rw [hkept j (by omega) (by omega), patchBit_get _ (by omega)]
  · exact (hkept 0 (by decide) (by decide)).trans (hhead (by decide) (by omega))
  · have hframe : t.sel.frame = Buf.put (patchBit s.sel.frame p) 1 (nvb p) := by
      rw [ht.sel]
      exact selectRound_partial_frame (s := u) hlt32
    refine ⟨by rw [hframe]; exact Buf.get_put_same _ _ (by decide), ?_, hpart hlt32⟩
    rw [hframe]
    exact (Buf.get_put_other _ _ (by decide)).trans (hhead (by decide) (by omega))
  · obtain ⟨hnvb, hcheck, -⟩ := selectRound_full_opens (s := u) heq.ge
    rw [← ht.sel] at hnvb hcheck
    refine ⟨hnvb, hcheck, ?_⟩
    rw [← hcheck]
    show _ = Seq.computeCrc _ [_, u.params.picc.nvbSelect, _, _, _, _, _] _
    rw [← hnvb]
    exact hfull heq.ge

end Sys2Proof.Machine
end

/-! PROOF. The end of a selection round (41_select.md R183 to R186, R191 to R196): what follows the SAK's CRC, and what
follows the reply of a round. -/
section
namespace Sys2Proof.Machine

variable {i : Instr} {s : State}

/-! ### After the CRC of the SAK -/

section Sak

variable {k decl : Nat}

/-- The CRC unit's result differs from the SAK's CRC bytes (R192). -/
abbrev SakMismatch (s : State) : Prop := s.crc.lo ≠ Buf.get s.sel.frame 7 ∨ s.crc.hi ≠ Buf.get s.sel.frame 8

theorem selectAfterSakCrc_mismatch (h : SakMismatch s) :
    selectAfterSakCrc k decl .ok s = finish .crcMismatch s :=
  if_pos h

/-- A SAK whose bit 2 is clear ends the selection (R195). -/
theorem selectAfterSakCrc_complete (h : ¬ SakMismatch s) (hsak : uidIncomplete (Buf.get s.sel.frame 6) = false) :
    selectAfterSakCrc k decl .ok s = finish .ok s := by
  rw [selectAfterSakCrc, if_neg nofun, if_neg h, if_neg (by rw [hsak]; nofun)]

/-- With bit 2 set there is no level beyond the third (R195). -/
theorem selectAfterSakCrc_third (h : ¬ SakMismatch s) (hsak : uidIncomplete (Buf.get s.sel.frame 6) = true)
    (h3 : s.sel.level = 3) : selectAfterSakCrc k decl .ok s = finish .internalError s := by
  rw [selectAfterSakCrc, if_neg nofun, if_neg h, if_pos hsak, if_pos h3]

/-- Below it the next level starts (R174, R195). -/
theorem selectAfterSakCrc_next (h : ¬ SakMismatch s) (hsak : uidIncomplete (Buf.get s.sel.frame 6) = true)
    (h3 : s.sel.level < 3) :
    selectAfterSakCrc k decl .ok s =
      selectLevel k decl (s.withSel { s.sel with level := s.sel.level + 1 }) := by
  rw [selectAfterSakCrc, if_neg nofun, if_neg h, if_pos hsak, if_neg h3.ne]

end Sak

/-- The host registers with the CardId of a selection committed (R34, R196). -/
def committed (i : Instr) (sel : SelectState) (h : HostRegs) : HostRegs :=
  { h with
    status := statusCode .ok, busy := false, done := true, result := resultAfter i .ok h
    uid := sel.uidWork, uidSize := BitVec.ofNat 8 (3 * sel.level + 1), sak := Buf.get sel.frame 6 }

/-- A selection that ends OK commits the CardId in its completion step. -/
theorem completeWith_selection (hi : i = .select ∨ i = .readCardSerial) (s u : State) :
    (completeWith (resultWrites i .ok u) .ok s).h = committed i u.sel s.h := by
  rcases hi with rfl | rfl <;> rfl

/-- Settles O53: the outcomes by the `selectAfterSakCrc` lemmas, the Timeout by `endsWith_crcTimeout`. -/
theorem sakDecidesNextLevel : Obligations.SakDecidesNextLevel := by
  unfold Obligations.SakDecidesNextLevel
  intro i data s hi h1 h3
  obtain ⟨-, -, ho, -⟩ := selection_owns hi
  refine ⟨fun hs => ?_, fun v hs hv hbudget => endsWith_crcTimeout ho hs hv hbudget rfl⟩
  have ho : owns i s.seq = true := by rw [hs]; exact ho
  have hidle : s.seq ≠ .idle := by rw [hs]; nofun
  have hr : resume i s = selectAfterSakCrc (knownBitsOf i s.h) s.h.uidInSize.toNat .ok s := resume_crcNext hs
  have hend {st : Status} (hf : selectAfterSakCrc (knownBitsOf i s.h) s.h.uidInSize.toNat .ok s = finish st s)
      (hst : st ≠ .ok) : endsWith i st s := endsWith_of_resume ho hidle (by rw [hr, hf]; rfl) hst
  refine ⟨fun hd => hend (selectAfterSakCrc_mismatch hd) nofun, fun hd hsak => ?_,
    fun hd hsak hl => hend (selectAfterSakCrc_third hd (bne_iff_ne.2 hsak) hl) nofun, fun hd hsak hl => ?_⟩
  · rw [exec_resume ho hidle, hr, selectAfterSakCrc_complete hd (flagged_eq_false.2 hsak), exec_complete rfl]
    exact ⟨_, rfl, rfl, rfl, completeWith_selection hi _ _⟩
  · rw [selectAfterSakCrc_next hd (bne_iff_ne.2 hsak) hl] at hr
    have hround := selectRound_sameLevel ((s.withSel { s.sel with level := s.sel.level + 1 }).withSel
      (levelStart s.params (knownBitsOf i s.h) s.h.uidInSize.toNat { s.sel with level := s.sel.level + 1 }))
    obtain ⟨t, he, ht⟩ := exec_begins_round ho hidle (by rw [hr]; exact selectRound_seq _)
    rw [hr] at ht
    exact ⟨(exec_resume ho hidle).trans (congrArg _ hr), hround.level, hround.uidWork, t, he, ht.bus, ht.h, ht.sel⟩

/-! ### After the reply of a round -/

section Reply

variable {n vb : Nat}

/-- The state in which `S.n` and `S.vb` are those of the reply (R183). -/
def answered (n vb : Nat) (s : State) : State := s.withSel { s.sel with n := n, vb := vb }

theorem selectAfterExchange_collision : selectAfterExchange .collision n vb s = (answered n vb s).withSeq .readColl := rfl

/-- A reply to a partial frame leaves the level's 32 bits known, and the full-level round follows (R185). -/
theorem selectAfterExchange_partial (h : s.sel.lk < 32) :
    selectAfterExchange .ok n vb s = selectRound (s.withSel { s.sel with n := n, vb := vb, lk := 32 }) := by
  rw [selectAfterExchange, if_neg nofun, if_neg (by simp), if_neg (Nat.not_le.2 h)]
  rfl

/-- A reply to the full-level frame ends the level (R184). -/
theorem selectAfterExchange_full (h : 32 ≤ s.sel.lk) :
    selectAfterExchange .ok n vb s = levelResolved (answered n vb s) := by
  rw [selectAfterExchange, if_neg nofun, if_neg (by simp), if_pos h]
  rfl

end Reply

/-- What a slice of another buffer reads as once copied. -/
theorem Buf.get_putMany_slice {n m : Nat} (v : Vector Byte n) (w : Vector Byte m) (base i k : Nat) {j : Nat}
    (hj : j < n) :
    Buf.get (Buf.putMany v base (Buf.slice w i k)) j =
      if base ≤ j ∧ j < base + k then Buf.get w (i + (j - base)) else Buf.get v j := by
  rw [Buf.get_putMany _ _ _ hj]
  simp only [Buf.slice_length, Buf.slice_getElem, dite_eq_ite]

section LevelCopy

variable (p : Params) {sel : SelectState} {j : Nat}

/-- After a cascade tag the level gives three bytes of the identifier (R193). -/
theorem levelCopy_tag (h : Buf.get sel.frame 2 = p.picc.cascadeTag) (hj : j < 10) :
    Buf.get (levelCopy p sel) j =
      if sel.base ≤ j ∧ j < sel.base + 3 then Buf.get sel.frame (3 + (j - sel.base)) else Buf.get sel.uidWork j := by
  rw [levelCopy, if_pos h, Buf.get_putMany_slice _ _ _ _ _ hj]

/-- Without one it gives four. -/
theorem levelCopy_noTag (h : Buf.get sel.frame 2 ≠ p.picc.cascadeTag) (hj : j < 10) :
    Buf.get (levelCopy p sel) j =
      if sel.base ≤ j ∧ j < sel.base + 4 then Buf.get sel.frame (2 + (j - sel.base)) else Buf.get sel.uidWork j := by
  rw [levelCopy, if_neg h, Buf.get_putMany_slice _ _ _ _ _ hj]

/-- Either way the level's slice is copied. -/
theorem levelCopy_get (sel : SelectState) :
    (Buf.get sel.frame 2 = p.picc.cascadeTag → ∀ j, j < 10 → Buf.get (levelCopy p sel) j =
      if sel.base ≤ j ∧ j < sel.base + 3 then Buf.get sel.frame (3 + (j - sel.base)) else Buf.get sel.uidWork j) ∧
    (Buf.get sel.frame 2 ≠ p.picc.cascadeTag → ∀ j, j < 10 → Buf.get (levelCopy p sel) j =
      if sel.base ≤ j ∧ j < sel.base + 4 then Buf.get sel.frame (2 + (j - sel.base)) else Buf.get sel.uidWork j) :=
  ⟨fun h _ hj => levelCopy_tag p h hj, fun h _ hj => levelCopy_noTag p h hj⟩

end LevelCopy

/-- The state with the level's slice copied (R193). -/
def copied (s : State) : State := s.withSel { s.sel with uidWork := levelCopy s.params s.sel }

/-- A SAK reply of any shape but three whole bytes is refused (R191). -/
theorem levelResolved_shape (h : s.sel.n ≠ 3 ∨ s.sel.vb ≠ 0) : levelResolved s = finish .genericError (copied s) :=
  if_pos h

/-- The SAK of one of that shape gets its CRC (R192). -/
theorem levelResolved_sak (hn : s.sel.n = 3) (hvb : s.sel.vb = 0) :
    levelResolved s = (copied s).withSeq (.computeCrc .sakCheck [Buf.get s.sel.frame 6] .idle) :=
  if_neg (by omega)

/-- What follows the reply of a round (R183, R184): its exchange checks no CRC, so the collision bit decides. -/
theorem resume_selectRound_stored {c : CommCall} (hs : s.seq = .commNext .selectRound c .stored)
    (hc : c.checkCrc = false) :
    resume i s =
      selectAfterExchange (if collisionError s.params s.comm.err then .collision else .ok) s.comm.cn s.comm.cvb s := by
  rw [resume_commNext hs, commResume]
  cases hcoll : collisionError s.params s.comm.err with
  | true => exact afterReply_collision hcoll
  | false => exact afterReply_unchecked hcoll hc

/-- The step that resolves a level: the slice is copied, and then the reply's shape decides (R191 to R193). -/
theorem exec_levelResolved {u : State} (ho : owns i s.seq = true) (hs : s.seq ≠ .idle)
    (hr : resume i s = levelResolved u) :
    ∃ t, exec i s = .next t ∧ t.sel.uidWork = levelCopy u.params u.sel ∧
      (u.sel.n ≠ 3 ∨ u.sel.vb ≠ 0 → endsWith i .genericError s) ∧
      (u.sel.n = 3 → u.sel.vb = 0 →
        (t.h = s.h ∧ t.bus = .write .commandReg [s.params.pcd.idle] :: s.bus) ∧
          t.seq = .computeCrc .sakCheck [Buf.get u.sel.frame 6] .clearDone) := by
  by_cases hshape : u.sel.n ≠ 3 ∨ u.sel.vb ≠ 0
  · rw [levelResolved_shape hshape] at hr
    have hend : (resume i s).seq = .complete .genericError := congrArg State.seq hr
    refine ⟨_, (exec_resume ho hs).trans (exec_complete hend), ?_, fun _ => endsWith_of_resume ho hs hend nofun,
      fun hn hvb => absurd hshape (by omega)⟩
    rw [hr]
    rfl
  · rw [levelResolved_sak (by omega) (by omega)] at hr
    obtain ⟨t, he, ht, hseq⟩ := exec_begins_computeCrc ho hs (congrArg State.seq hr)
    rw [hr] at ht
    exact ⟨t, he, congrArg SelectState.uidWork ht.sel, fun h => absurd h hshape, fun _ _ => ⟨⟨ht.h, ht.bus⟩, hseq⟩⟩

/-- Settles O51: the paths by the `selectAfterExchange` lemmas; the end of a level by `exec_levelResolved`, the copy by
`levelCopy_get`. -/
theorem selectRoundOutcome : Obligations.SelectRoundOutcome := by
  unfold Obligations.SelectRoundOutcome
  intro i c s hi hs hc _
  have ho : owns i s.seq = true := by rw [hs]; exact (selection_owns hi).1
  have hidle : s.seq ≠ .idle := by rw [hs]; nofun
  have hr := resume_selectRound_stored (i := i) hs hc
  by_cases hcoll : s.comm.err &&& s.params.mask.errColl = 0
  · have hno : collisionError s.params s.comm.err = false := flagged_eq_false.2 hcoll
    rw [hno, if_neg nofun] at hr
    rcases Nat.lt_or_ge s.sel.lk 32 with hlk | hlk
    · rw [selectAfterExchange_partial hlk] at hr
      obtain ⟨t, he, ht, -, hfull⟩ := exec_begins_selectRound ho hidle hr
      have hround := selectRound_sameLevel (s.withSel { s.sel with n := s.comm.cn, vb := s.comm.cvb, lk := 32 })
      refine ⟨t, he, fun h => absurd hcoll h, fun _ _ => ⟨⟨ht.h, ht.bus⟩, ?_, ?_⟩, fun _ h => absurd hlk h.not_gt⟩
      · exact (congrArg SelectState.lk ht.sel).trans hround.lk
      · rw [hfull (Nat.le_refl 32), ht.sel, selectRound_full_frame (Nat.le_refl 32), fullFrame_slice]
        rfl
    · rw [selectAfterExchange_full hlk] at hr
      obtain ⟨t, he, hcopy, hshape, hsak⟩ := exec_levelResolved ho hidle hr
      refine ⟨t, he, fun h => absurd hcoll h, fun _ h => absurd h hlk.not_gt, fun _ _ => ?_⟩
      rw [hcopy]
      obtain ⟨htag, hnone⟩ := levelCopy_get s.params (answered s.comm.cn s.comm.cvb s).sel
      exact ⟨htag, hnone, hshape, hsak⟩
  · have hyes : collisionError s.params s.comm.err = true := bne_iff_ne.2 hcoll
    rw [hyes, if_pos rfl, selectAfterExchange_collision] at hr
    refine ⟨_, (exec_resume ho hidle).trans (hr ▸ exec_readColl hi rfl), fun _ => rfl, fun h => absurd hcoll h,
      fun h => absurd hcoll h⟩

end Sys2Proof.Machine
end

/-! PROOF. The run of a selection without a collision (41_select.md R199, R200): the exchange of the anti-collision
frame, the CRC and the exchange of the full-level frame, and the CRC of the SAK. -/
section
namespace Sys2Proof.Machine

/-! ### An exchange of the resolver -/

/-- What the chip answers in an exchange: BitFramingReg, ComIrqReg, no error bit, the FIFO level, the reply of whole
bytes, and the answers that are left. -/
structure Exchange where
  kick : Byte
  irq : Byte
  lvl : Byte
  data : List Byte
  rest : List Byte

def Exchange.answers (x : Exchange) : List Byte := x.kick :: x.irq :: 0x00 :: x.lvl :: (x.data ++ 0x00 :: x.rest)

/-- The call `c` takes that reply into the frame: the first poll shows an awaited flag, and the reply is within the
capacity. -/
structure Exchange.Fits (x : Exchange) (p : Params) (c : CommCall) : Prop where
  cmd : c.cmd = p.pcd.transceive
  tx : c.tx ≠ []
  dest : c.dest = .frame
  align : c.rxAlign = 0
  budget : 0 < p.irqPollBudget
  flag : awaited c x.irq = true
  level : fifoLevel p x.lvl = x.data.length
  bytes : x.data ≠ []
  fits : x.data.length ≤ c.cap

/-- Its transactions, newest first (R142 to R147). -/
def exchangeTxns (p : Params) (c : CommCall) (x : Exchange) : List Txn :=
  [ .read .controlReg [0x00], .read .fifoDataReg x.data, .read .fifoLevelReg [x.lvl], .read .errorReg [0x00],
    .read .comIrqReg [x.irq], .write .bitFramingReg [x.kick ||| p.mask.startSend], .read .bitFramingReg [x.kick] ] ++
    sendTxns p c

/-- The state after it, the reply in the frame. -/
def exchanged (site : CommSite) (c : CommCall) (x : Exchange) (s : State) : State :=
  { s with
    bus := exchangeTxns s.params c x ++ s.bus, env := ⟨x.rest, s.env.draws⟩
    comm := { irqPoll := 1, err := 0x00, cn := x.data.length, cvb := 0 }
    sel := { s.sel with frame := Buf.putMany s.sel.frame c.off x.data }, seq := .commNext site c .stored }

section Exchanged

variable (site : CommSite) (c : CommCall) (x : Exchange) (s : State)

@[simp] theorem exchanged_params : (exchanged site c x s).params = s.params := rfl
@[simp] theorem exchanged_bus : (exchanged site c x s).bus = exchangeTxns s.params c x ++ s.bus := rfl
@[simp] theorem exchanged_sel :
    (exchanged site c x s).sel = { s.sel with frame := Buf.putMany s.sel.frame c.off x.data } := rfl

end Exchanged

section Runs

variable {i : Instr} {s : State} {k : Nat}

/-- It makes thirteen transactions. -/
theorem runOp_exchange {site : CommSite} {c : CommCall} {x : Exchange} (ho : ownsCommSite i site = true)
    (hs : s.seq = .communicate site c .idle) (hx : x.Fits s.params c) (ha : s.env.answers = x.answers) :
    runOp i (k + 13) s = runOp i k (exchanged site c x s) := by
  have hframing : framingError s.params 0x00 = false := flagged_zero _
  have hbits : lastBits s.params 0x00 = 0 := by simp [lastBits]
  have hkick := runOp_kick (k := k + 5) ho hs hx.tx hx.cmd ha
  have hpoll := runOp_kicked_awaited (i := i) (k := k + 3) (polls := [])
    (s := commKicked site c x.kick (x.irq :: 0x00 :: x.lvl :: (x.data ++ 0x00 :: x.rest)) s) ho rfl nofun hx.budget
    hx.flag rfl
  have hreply := runOp_reply (i := i) (k := k) (s := commErrorRead site c [] (x.lvl :: (x.data ++ 0x00 :: x.rest)) x.irq
    0x00 (commKicked site c x.kick (x.irq :: 0x00 :: x.lvl :: (x.data ++ 0x00 :: x.rest)) s)) ho rfl hframing hx.level
    hx.bytes hx.fits rfl
  refine hkick.trans (hpoll.trans (hreply.trans (congrArg _ ?_)))
  rw [commReplied, storeReply_frame _ _ _ _ hx.dest, hx.align, Nat.zero_mod, mergeFirst_zero]
  simp only [commErrorRead, commKicked, hbits]
  rfl

/-! ### The CRC of the full-level frame -/

variable {c : CommCall} {v lo hi : Byte} {rest : List Byte}

/-- The full-level frame of the bytes received so far, which the round after a partial frame sends (R178, R185). -/
def receivedFrame (s : State) : Vector Byte 9 := fullFrame s.params s.sel.frame

/-- The state after that frame's CRC, about to send it. -/
def fullFramed (v lo hi : Byte) (rest : List Byte) (s : State) : State :=
  { s with
    bus := crcTxns s.params (Buf.slice (receivedFrame s) 0 7) [] v lo hi ++ s.bus, env := ⟨rest, s.env.draws⟩
    crc := ⟨1, lo, hi⟩
    sel := { s.sel with
             n := s.comm.cn, vb := s.comm.cvb, lk := 32, txlb := 0, rxAlign := 0, sendLen := 9, rOff := 6, rCap := 3
             frame := frameWithCrc (receivedFrame s) lo hi }
    seq := .communicate .selectRound (fullCall s.params (receivedFrame s) lo hi) .idle }

section FullFramed

variable (v lo hi : Byte) (rest : List Byte) (s : State)

@[simp] theorem fullFramed_bus :
    (fullFramed v lo hi rest s).bus = crcTxns s.params (Buf.slice (receivedFrame s) 0 7) [] v lo hi ++ s.bus := rfl
@[simp] theorem fullFramed_level : (fullFramed v lo hi rest s).sel.level = s.sel.level := by rw [fullFramed]
@[simp] theorem fullFramed_base : (fullFramed v lo hi rest s).sel.base = s.sel.base := by rw [fullFramed]
@[simp] theorem fullFramed_lk : (fullFramed v lo hi rest s).sel.lk = 32 := by rw [fullFramed]
@[simp] theorem fullFramed_uidWork : (fullFramed v lo hi rest s).sel.uidWork = s.sel.uidWork := by rw [fullFramed]

end FullFramed

/-- After the reply to a partial frame, without a collision, come the nine transactions of the CRC (R185, R199). -/
theorem runOp_fullFrame (hi' : i = .select ∨ i = .readCardSerial) (hs : s.seq = .commNext .selectRound c .stored)
    (hc : c.checkCrc = false) (hcoll : collisionError s.params s.comm.err = false) (hlk : s.sel.lk < 32)
    (hbudget : 0 < s.params.crcPollBudget) (hv : crcDone s.params v = true) (ha : s.env.answers = v :: lo :: hi :: rest) :
    runOp i (k + 10) s = runOp i (k + 1) (fullFramed v lo hi rest s) := by
  obtain ⟨hround, hcrc, -⟩ := selection_owns hi'
  let u := s.withSel { s.sel with n := s.comm.cn, vb := s.comm.cvb, lk := 32 }
  have hopen : resume i s = selectRound u := by
    rw [resume_selectRound_stored hs hc, hcoll, if_neg nofun, selectAfterExchange_partial hlk]
  rw [runOp_resume (by rw [hs]; exact hround) (by rw [hs]; nofun), hopen, selectRound_full (s := u) (Nat.le_refl 32)]
  let w := (u.withSel { u.sel with frame := receivedFrame s }).withSeq
    (.computeCrc .fullFrame (Buf.slice (receivedFrame s) 0 7) .idle)
  have hsum := runOp_crc (i := i) (k := k) (caller := .operation .fullFrame) (polls := []) (s := w) hcrc rfl nofun
    nofun hbudget hv ha
  have hret := selectAfterFrameCrc_ok
    (crcFinished (.operation .fullFrame) (Buf.slice (receivedFrame s) 0 7) [] rest v lo hi w)
  refine hsum.trans (congrArg _ (hret.trans ?_))
  simp [fullFramed, crcFinished, w, u, State.withSel, State.withSeq]

/-! ### The CRC of the SAK -/

/-- A ComputeCrc writes its bytes to the FIFO (R211). -/
theorem fifoWrites_crcTxns (p : Params) (data : List Byte) (v lo hi : Byte) (bus : List Txn) :
    fifoWrites (crcTxns p data [] v lo hi ++ bus) = data :: fifoWrites bus := rfl

/-- The state after the CRC of the SAK, the level's slice copied (R192, R193). -/
def sakChecked (v lo hi : Byte) (rest : List Byte) (s : State) : State :=
  { s with
    bus := crcTxns s.params [Buf.get s.sel.frame 6] [] v lo hi ++ s.bus, env := ⟨rest, s.env.draws⟩, crc := ⟨1, lo, hi⟩
    sel := { s.sel with n := s.comm.cn, vb := s.comm.cvb, uidWork := levelCopy s.params s.sel }
    seq := .crcNext .sakCheck [Buf.get s.sel.frame 6] .finished }

/-- After the SAK's reply come nine transactions of its CRC, and with a match and bit 2 clear the completion (R192,
R195, R199). -/
theorem runOp_sakCheck (hi' : i = .select ∨ i = .readCardSerial)
    (hs : s.seq = .commNext .selectRound c .stored) (hc : c.checkCrc = false)
    (hcoll : collisionError s.params s.comm.err = false) (hlk : 32 ≤ s.sel.lk) (hn : s.comm.cn = 3)
    (hvb : s.comm.cvb = 0) (hbudget : 0 < s.params.crcPollBudget) (hv : crcDone s.params v = true)
    (hlo : Buf.get s.sel.frame 7 = lo) (hhi : Buf.get s.sel.frame 8 = hi)
    (hsak : uidIncomplete (Buf.get s.sel.frame 6) = false) (ha : s.env.answers = v :: lo :: hi :: rest) :
    ∃ t, runOp i (k + 10) s = .next t ∧ t.seq = .idle ∧
      t.bus = crcTxns s.params [Buf.get s.sel.frame 6] [] v lo hi ++ s.bus ∧ t.env = ⟨rest, s.env.draws⟩ ∧
      t.h = committed i { s.sel with uidWork := levelCopy s.params s.sel } s.h := by
  obtain ⟨hround, -, hcrc, -⟩ := selection_owns hi'
  let u := copied (answered s.comm.cn s.comm.cvb s)
  have hopen : resume i s = u.withSeq (.computeCrc .sakCheck [Buf.get s.sel.frame 6] .idle) := by
    rw [resume_selectRound_stored hs hc, hcoll, if_neg nofun, selectAfterExchange_full hlk]
    exact levelResolved_sak hn hvb
  have hsum := runOp_crc (i := i) (k := k) (caller := .operation .sakCheck) (polls := [])
    (s := u.withSeq (.computeCrc .sakCheck [Buf.get s.sel.frame 6] .idle)) hcrc rfl nofun nofun hbudget hv ha
  have hmatch : ¬ SakMismatch (sakChecked v lo hi rest s) := by
    rintro (h | h)
    · exact h hlo.symm
    · exact h hhi.symm
  have hend := selectAfterSakCrc_complete (k := knownBitsOf i s.h) (decl := s.h.uidInSize.toNat) hmatch hsak
  refine ⟨completeWith (resultWrites i .ok (finish .ok (sakChecked v lo hi rest s))) .ok
    (finish .ok (sakChecked v lo hi rest s)), ?_, rfl, rfl, rfl, completeWith_selection hi' _ _⟩
  rw [runOp_resume (by rw [hs]; exact hround) (by rw [hs]; nofun), hopen]
  exact hsum.trans ((congrArg _ hend).trans (runOp_complete (exec_complete rfl) rfl))

end Runs

/-! ### A card with a 4-byte identifier -/

/-- What such a card's selection reads: in the exchange of the anti-collision frame BitFramingReg and the five bytes of
the reply, the full-level frame's CRC, in its exchange BitFramingReg, the SAK and its CRC, and the answers left. -/
structure CardScript where
  k1 : Byte
  u0 : Byte
  u1 : Byte
  u2 : Byte
  u3 : Byte
  bcc : Byte
  lo : Byte
  hi : Byte
  k2 : Byte
  sak : Byte
  c0 : Byte
  c1 : Byte
  rest : List Byte

section Card

variable {r : CardScript} {i : Instr} {s : State}

/-- The exchange of the full-level frame, and the CRC unit's answer for the SAK. -/
def CardScript.sakReply (r : CardScript) : Exchange :=
  ⟨r.k2, 0x30, 0x03, [r.sak, r.c0, r.c1], 0x04 :: r.c0 :: r.c1 :: r.rest⟩

/-- The exchange of the anti-collision frame, and the CRC unit's answer for the full-level frame. -/
def CardScript.uidReply (r : CardScript) : Exchange :=
  ⟨r.k1, 0x30, 0x05, [r.u0, r.u1, r.u2, r.u3, r.bcc], 0x04 :: r.lo :: r.hi :: r.sakReply.answers⟩

/-- The first frame with no known bit (R198). -/
def firstCall (p : Params) : CommCall := partialCall p 1 0 []

/-- A selection that stands at the exchange of its first frame, in the first level, with no known bit (R172). -/
structure FirstLevel (s : State) : Prop where
  seq : s.seq = .communicate .selectRound (firstCall s.params) .idle
  level : s.sel.level = 1
  base : s.sel.base = 0
  lk : s.sel.lk = 0
  command : Buf.get s.sel.frame 0 = s.params.picc.selCl1

theorem selectBegin_firstLevel_unknown (s : State) :
    FirstLevel (selectBegin 0 s) ∧ (selectBegin 0 s).sel.uidWork = s.h.uidIn := by
  have hopened := opening_opened .readCardSerial s
  let u := (s.withSel (selectInit s.h.uidIn s.sel)).withSel
    (levelStart s.params 0 s.h.uidInSize.toNat (selectInit s.h.uidIn s.sel))
  have hround := selectRound_sameLevel u
  have hcommand : Buf.get (selectRound u).sel.frame 0 = s.params.picc.selCl1 :=
    (selectRound_frame_kept (j := 0) (by decide) (by decide)).trans (levelStart_command s.params 0 _ _)
  have hunknown : levelKnown 1 0 s.h.uidInSize.toNat = 0 := rfl
  have hseq := selectBegin_partial (s := s) (Nat.zero_le 80) (by rw [hunknown]; decide)
  rw [hunknown, partialCall_unknown, ← partialCall_unknown _ []] at hseq
  have hparams : (selectBegin 0 s).params = s.params := hopened.params
  rw [← hparams] at hseq hcommand
  have hbegin : selectBegin 0 s = selectRound u := selectBegin_firstLevel (Nat.zero_le 80)
  rw [hbegin] at hseq hcommand ⊢
  exact ⟨⟨hseq, hround.level, hround.base, hround.lk, hcommand⟩, hround.uidWork⟩

/-- The state after the exchange of the first frame. -/
def uidReplied (r : CardScript) (s : State) : State := exchanged .selectRound (firstCall s.params) r.uidReply s

/-- The state after the exchange of the full-level frame. -/
def sakReplied (r : CardScript) (s : State) : State :=
  exchanged .selectRound (fullCall s.params (receivedFrame (uidReplied r s)) r.lo r.hi) r.sakReply
    (fullFramed 0x04 r.lo r.hi r.sakReply.answers (uidReplied r s))

variable (h : FirstLevel s)

variable (r) in
include h in
/-- The bytes of the frame after the first exchange: the command byte and the card's reply. -/
theorem uidReplied_frame :
    Buf.get (uidReplied r s).sel.frame 0 = s.params.picc.selCl1 ∧
      Buf.get (uidReplied r s).sel.frame 2 = r.u0 ∧ Buf.get (uidReplied r s).sel.frame 3 = r.u1 ∧
      Buf.get (uidReplied r s).sel.frame 4 = r.u2 ∧ Buf.get (uidReplied r s).sel.frame 5 = r.u3 := by
  have hreply (j : Nat) (hj : j < 5) := Buf.get_putMany_same s.sel.frame (i := 2) (j := j)
    [r.u0, r.u1, r.u2, r.u3, r.bcc] hj (Nat.le_add_right 7 2)
  refine ⟨?_, hreply 0 (by decide), hreply 1 (by decide), hreply 2 (by decide), hreply 3 (by decide)⟩
  exact (Buf.get_putMany_other _ _ (.inl Nat.two_pos)).trans h.command

variable (r) in
include h in
/-- The full-level frame: the command byte, 0x70, the identifier and its check byte (R178, R185). -/
theorem receivedFrame_uidReplied :
    Buf.slice (receivedFrame (uidReplied r s)) 0 7 =
      [s.params.picc.selCl1, s.params.picc.nvbSelect, r.u0, r.u1, r.u2, r.u3, r.u0 ^^^ r.u1 ^^^ r.u2 ^^^ r.u3] := by
  obtain ⟨h0, h2, h3, h4, h5⟩ := uidReplied_frame r h
  rw [receivedFrame, fullFrame_slice, h0, h2, h3, h4, h5]
  rfl

variable (r s) in
/-- The second exchange leaves the identifier in the frame, and the SAK and its CRC behind it (R179). -/
theorem sakReplied_frame :
    (∀ j, 2 ≤ j → j ≤ 5 → Buf.get (sakReplied r s).sel.frame j = Buf.get (uidReplied r s).sel.frame j) ∧
      Buf.get (sakReplied r s).sel.frame 6 = r.sak ∧ Buf.get (sakReplied r s).sel.frame 7 = r.c0 ∧
      Buf.get (sakReplied r s).sel.frame 8 = r.c1 := by
  have hframe : (sakReplied r s).sel.frame =
      Buf.putMany (frameWithCrc (receivedFrame (uidReplied r s)) r.lo r.hi) 6 [r.sak, r.c0, r.c1] := rfl
  have hreply (j : Nat) (hj : j < 3) := Buf.get_putMany_same
    (frameWithCrc (receivedFrame (uidReplied r s)) r.lo r.hi) (i := 6) (j := j) [r.sak, r.c0, r.c1] hj (Nat.le_refl 9)
  rw [hframe]
  have h6 := hreply 0 (by decide)
  have h7 := hreply 1 (by decide)
  have h8 := hreply 2 (by decide)
  refine ⟨fun j h2 h5 => ?_, h6, h7, h8⟩
  rw [Buf.get_putMany_other _ _ (.inl (by omega)), frameWithCrc_kept _ _ _ (by omega), receivedFrame,
    fullFrame_kept _ (by omega) (by omega)]

include h in
/-- So the level gives the card's four bytes, and what stood behind them stays (R193). -/
theorem levelCopy_sakReplied (htag : r.u0 ≠ s.params.picc.cascadeTag) {j : Nat} (hj : j < 10) :
    Buf.get (levelCopy s.params (sakReplied r s).sel) j =
      if j = 0 then r.u0 else if j = 1 then r.u1 else if j = 2 then r.u2 else if j = 3 then r.u3
      else Buf.get s.sel.uidWork j := by
  obtain ⟨hkept, -⟩ := sakReplied_frame r s
  obtain ⟨-, h2, h3, h4, h5⟩ := uidReplied_frame r h
  have hbase : (sakReplied r s).sel.base = 0 := by simp [sakReplied, uidReplied, h.base]
  have huid : (sakReplied r s).sel.uidWork = s.sel.uidWork := by simp [sakReplied, uidReplied]
  rw [levelCopy_noTag _ (by rw [hkept 2 (by decide) (by decide), h2]; exact htag) hj, hbase, huid]
  split
  next hin =>
    obtain rfl | rfl | rfl | rfl : j = 0 ∨ j = 1 ∨ j = 2 ∨ j = 3 := by omega
    all_goals rw [hkept _ (by decide) (by decide)]
    · exact h2
    · exact h3
    · exact h4
    · exact h5
  next hout => simp only [show j ≠ 0 by omega, show j ≠ 1 by omega, show j ≠ 2 by omega, show j ≠ 3 by omega, if_false]

include h in
/-- The two exchanges and the CRC between them take 35 transactions (R199). -/
theorem runOp_sakReplied {k : Nat} (hi : i = .select ∨ i = .readCardSerial) (hp : s.params = Params.default)
    (ha : s.env.answers = r.uidReply.answers) :
    runOp i (k + 35) s = runOp i k (sakReplied r s) := by
  obtain ⟨hround, -⟩ := selection_owns hi
  have hflag : flagged 0x30 0x30 = true := by decide
  have huid : r.uidReply.Fits s.params (firstCall s.params) := by
    rw [hp]
    exact ⟨rfl, nofun, rfl, rfl, by decide, hflag, (by decide : fifoLevel Params.default 0x05 = 5), nofun,
      Nat.le_add_right 5 2⟩
  have hsak : r.sakReply.Fits s.params (fullCall s.params (receivedFrame (uidReplied r s)) r.lo r.hi) := by
    rw [hp]
    exact ⟨rfl, nofun, rfl, rfl, by decide, hflag, (by decide : fifoLevel Params.default 0x03 = 3), nofun,
      Nat.le_refl 3⟩
  have hparams : (uidReplied r s).params = Params.default := hp
  have hlk : (uidReplied r s).sel.lk < 32 := by simp [uidReplied, h.lk]
  have hbudget : 0 < (uidReplied r s).params.crcPollBudget := by rw [hparams]; decide
  have hdone : crcDone (uidReplied r s).params 0x04 = true := by rw [hparams]; rfl
  have hfirst : runOp i (k + 35) s = runOp i (k + 22) (uidReplied r s) := runOp_exchange hround h.seq huid ha
  have hframe : runOp i (k + 22) (uidReplied r s) =
      runOp i (k + 13) (fullFramed 0x04 r.lo r.hi r.sakReply.answers (uidReplied r s)) :=
    runOp_fullFrame hi rfl rfl (flagged_zero _) hlk hbudget hdone rfl
  rw [hfirst, hframe]
  exact runOp_exchange hround rfl hsak rfl

variable (r) in
include h in
/-- What goes to the FIFO (R199). -/
theorem sakReplied_fifoWrites :
    fifoWrites (sakReplied r s).bus =
      [ [s.params.picc.selCl1, s.params.picc.nvbSelect, r.u0, r.u1, r.u2, r.u3, r.u0 ^^^ r.u1 ^^^ r.u2 ^^^ r.u3, r.lo,
          r.hi],
        [s.params.picc.selCl1, s.params.picc.nvbSelect, r.u0, r.u1, r.u2, r.u3, r.u0 ^^^ r.u1 ^^^ r.u2 ^^^ r.u3],
        [s.params.picc.selCl1, 0x20] ] ++ fifoWrites s.bus := by
  have hwrites : fifoWrites (sakReplied r s).bus =
      [ Buf.slice (receivedFrame (uidReplied r s)) 0 7 ++ [r.lo, r.hi],
        Buf.slice (receivedFrame (uidReplied r s)) 0 7, (firstCall s.params).tx ] ++ fifoWrites s.bus := rfl
  rw [hwrites, receivedFrame_uidReplied r h, firstCall, partialCall_unknown]
  rfl

variable (r s) in
theorem sakReplied_bus_length : (sakReplied r s).bus.length = s.bus.length + 35 := by
  simp [sakReplied, uidReplied, exchangeTxns, sendTxns, crcTxns, crcPollTxns, crcSendTxns, CardScript.sakReply,
    CardScript.uidReply]

include h in
/-- With a SAK whose bit 2 is clear the selection ends in nine more transactions (R195, R199). -/
theorem runOp_card (hi : i = .select ∨ i = .readCardSerial) (hp : s.params = Params.default)
    (hsak : uidIncomplete r.sak = false) (ha : s.env.answers = r.uidReply.answers) :
    ∃ t, runOp i 45 s = .next t ∧ t.seq = .idle ∧
      t.bus = crcTxns Params.default [r.sak] [] 0x04 r.c0 r.c1 ++ (sakReplied r s).bus ∧
      t.env = ⟨r.rest, s.env.draws⟩ ∧
      t.h = { s.h with
              status := 0x00, busy := false, done := true, result := resultAfter i .ok s.h, uidSize := 4, sak := r.sak
              uid := levelCopy s.params (sakReplied r s).sel } := by
  obtain ⟨-, h6, h7, h8⟩ := sakReplied_frame r s
  have hparams : (sakReplied r s).params = Params.default := hp
  have hlk : 32 ≤ (sakReplied r s).sel.lk := by simp [sakReplied]
  have hlevel : (sakReplied r s).sel.level = 1 := by simp [sakReplied, uidReplied, h.level]
  obtain ⟨t, hrun, hidle, hbus, henv, hregs⟩ := runOp_sakCheck (i := i) (k := 0) (s := sakReplied r s) (v := 0x04) hi
    rfl rfl (flagged_zero _) hlk rfl rfl (by rw [hparams]; decide) (by rw [hparams]; rfl) h7 h8
    (by rw [h6]; exact hsak) rfl
  rw [hparams, h6] at hbus
  refine ⟨t, (runOp_sakReplied (k := 10) h hi hp ha).trans hrun, hidle, hbus, henv, ?_⟩
  rw [hregs, committed]
  simp only [h6, hlevel]
  rw [hparams, hp]
  rfl

end Card

/-- Settles O54: the run from the first exchange on by `runOp_card`; what it left on the bus and in the CardId by the
`sakReplied` lemmas. -/
theorem fourByteCardIsSelected : Obligations.FourByteCardIsSelected := by
  unfold Obligations.FourByteCardIsSelected
  intro s rest k1 k2 u0 u1 u2 u3 bcc lo hi sak c0 c1 hp hs hu0 hsak ha x result
  let r : CardScript := ⟨k1, u0, u1, u2, u3, bcc, lo, hi, k2, sak, c0, c1, rest⟩
  obtain ⟨hfirst, huid⟩ := selectBegin_firstLevel_unknown s
  have hopened : Opened s (selectBegin 0 s) := opening_opened .readCardSerial s
  have hparams : (selectBegin 0 s).params = Params.default := hopened.params.trans hp
  have selects {i : Instr} (hi : i = .select ∨ i = .readCardSerial) (ho : opening i s = selectBegin 0 s) :
      result i (resultAfter i .ok s.h) := by
    obtain ⟨t, hrun, hidle, hbus, henv, hregs⟩ := runOp_card (r := r) hfirst hi hparams (flagged_eq_false.2 hsak)
      ((congrArg Env.answers hopened.env).trans ha)
    have hcopy {j : Nat} := levelCopy_sakReplied (r := r) (j := j) hfirst (by rw [hparams]; exact hu0)
    have hwrites := sakReplied_fifoWrites r hfirst
    rw [hopened.h] at hregs
    rw [hopened.env] at henv
    rw [huid] at hcopy
    rw [hparams, hopened.bus] at hwrites
    refine ⟨t, ?_, hidle, ?_, ?_, henv, fun j hj => ?_, ?_⟩
    · rw [runOp_resume (by rw [hs]; rfl) (by rw [hs]; nofun), resume_start hs, ho, hrun]
    · rw [hbus, List.length_append, sakReplied_bus_length, hopened.bus]
      exact Nat.add_comm 9 _
    · rw [hbus, fifoWrites_crcTxns, hwrites]
      rfl
    · have hcopied : t.h.uid = levelCopy (selectBegin 0 s).params (sakReplied r (selectBegin 0 s)).sel := by rw [hregs]
      rw [hcopied, hcopy hj]
    · rw [hregs]
  exact ⟨fun hk => selects (.inl rfl) (by rw [opening, hk]; rfl), selects (.inr rfl) rfl⟩

end Sys2Proof.Machine
end

/-! PROOF. The run of a ComputeCrc over any bytes, none among them (20_memory.md R81, 42_crc.md R211 to R216), and with
it CALC_CRC. -/
section
namespace Sys2Proof.Machine

section Runs

variable {i : Instr} {caller : CrcCaller} {data : List Byte} {s : State} {k : Nat}

/-- The transactions up to the start of the CRC unit, newest first: the load is left out if it has no byte (R81,
R211). -/
def crcCallTxns (p : Params) (data : List Byte) : List Txn :=
  .write .commandReg [p.pcd.calcCrc] :: issued (.write .fifoDataReg data) ++
    [.write .fifoLevelReg [p.mask.fifoFlush], .write .divIrqReg [p.mask.divCrcIrq], .write .commandReg [p.pcd.idle]]

theorem crcCallTxns_length (p : Params) (data : List Byte) :
    (crcCallTxns p data).length = 4 + if data = [] then 0 else 1 := by
  have hload : (issued (.write .fifoDataReg data)).length = if data = [] then 0 else 1 := issued_length _
  simp only [crcCallTxns, List.length_append, List.length_cons, List.length_nil, hload]
  omega

theorem crcCallTxns_nil (p : Params) :
    crcCallTxns p [] =
      [ .write .commandReg [p.pcd.calcCrc], .write .fifoLevelReg [p.mask.fifoFlush],
        .write .divIrqReg [p.mask.divCrcIrq], .write .commandReg [p.pcd.idle] ] := rfl

theorem crcCallTxns_of_ne_nil (p : Params) (h : data ≠ []) : crcCallTxns p data = crcSendTxns p data := by
  simp [crcCallTxns, crcSendTxns, issued, Txn.bytes, h]

/-- The state after them. -/
def crcCalled (caller : CrcCaller) (data : List Byte) (s : State) : State :=
  { s with bus := crcCallTxns s.params data ++ s.bus, seq := caller.next data .started }

/-- A ComputeCrc begins with these transactions. -/
theorem runOp_crcCall (ho : caller.owned i = true) (hs : s.seq = caller.here data .idle) :
    runOp i (k + (crcCallTxns s.params data).length) s = runOp i k (crcCalled caller data s) := by
  by_cases hdata : data = []
  · subst hdata
    show runOp i (k + 4) s = _
    rw [crcCalled, crcCallTxns_nil, runOp_crcStep ho hs, runOp_crcStep (pos := .clearDone) ho rfl,
      runOp_crcStep (pos := .flush) ho rfl, runOp_crcNext (n := .flushed) ho rfl, crcResume, List.isEmpty_nil,
      runOp_crcStep (pos := .start) ho rfl]
    simp only [crcStep, busWrite, State.withBus, State.withSeq]
    rfl
  · rw [crcCalled, crcCallTxns_of_ne_nil _ hdata]
    exact runOp_crcSend ho hs hdata

/-- The transactions from the poll loop on that find the flag set after the polls `polls`, newest first (R212, R213). -/
def crcResultTxns (p : Params) (polls : List Byte) (v lo hi : Byte) : List Txn :=
  [ .read .crcResultRegH [hi], .read .crcResultRegL [lo], .write .commandReg [p.pcd.idle], .read .divIrqReg [v] ] ++
    crcPollTxns polls

theorem crcResultTxns_length (p : Params) (polls : List Byte) (v lo hi : Byte) :
    (crcResultTxns p polls v lo hi).length = polls.length + 1 + 3 := by
  simp [crcResultTxns]

/-- The state after them. -/
def crcAnswered (caller : CrcCaller) (data polls rest : List Byte) (v lo hi : Byte) (s : State) : State :=
  { s with
    bus := crcResultTxns s.params polls v lo hi ++ s.bus, env := ⟨rest, s.env.draws⟩
    crc := ⟨polls.length + 1, lo, hi⟩, seq := caller.next data .finished }

/-- A started CRC unit whose flag is seen within the budget gives its result, and the ComputeCrc returns OK. -/
theorem runOp_crcResult {polls rest : List Byte} {v lo hi : Byte} (ho : caller.owned i = true)
    (hs : s.seq = caller.next data .started) (hdone : ∀ b ∈ polls, crcDone s.params b = false)
    (hbudget : polls.length < s.params.crcPollBudget) (hv : crcDone s.params v = true)
    (ha : s.env.answers = polls ++ v :: lo :: hi :: rest) :
    runOp i (k + polls.length + 5) s =
      runOp i (k + 1) (caller.ret i s.h .ok (crcAnswered caller data polls rest v lo hi s)) := by
  obtain ⟨q, hq⟩ := runOp_crcStarted (k := k + 4) ho hs hdone hbudget.le ha
  have hleft : 0 + polls.length ≠ s.params.crcPollBudget := by omega
  rw [show k + polls.length + 5 = k + 4 + polls.length + 1 by omega, hq,
    runOp_crcPoll (b := v) (rest := lo :: hi :: rest) ho hleft rfl, runOp_crcNext (n := .polled v) ho rfl, crcResume,
    if_pos (by exact hv), runOp_crcRead (lo := lo) (hi := hi) (rest := rest) ho rfl rfl,
    runOp_crcNext (n := .finished) ho rfl, crcResume]
  simp [crcAnswered, crcResultTxns, crcPolled, crcPollTxns, State.withSeq, State.withCrc]

end Runs

/-! ### CALC_CRC -/

section CalcCrc

variable {s : State} {k : Nat}

/-- The state of CALC_CRC when the CRC unit is started. -/
def calcCrcCalled (s : State) : State := crcCalled (.operation .calcCrc) (txBytes s.h) s

/-- The transactions up to there: four, and the load of the bytes if there are any (R216). -/
def calcCrcCallCount (s : State) : Nat := 4 + if s.h.txLen = 0 then 0 else 1

theorem calcCrcCallTxns_length : (crcCallTxns s.params (txBytes s.h)).length = calcCrcCallCount s := by
  rw [crcCallTxns_length, calcCrcCallCount]
  simp only [txBytes_eq_nil]

theorem calcCrcCalled_bus_length : (calcCrcCalled s).bus.length = s.bus.length + calcCrcCallCount s := by
  rw [calcCrcCalled, crcCalled, List.length_append, calcCrcCallTxns_length, Nat.add_comm]

/-- The TXBUF bytes go to the FIFO in one burst (R214). -/
theorem calcCrcCalled_fifoWrites (h : s.h.txLen ≠ 0) :
    fifoWrites (calcCrcCalled s).bus = txBytes s.h :: fifoWrites s.bus := by
  rw [calcCrcCalled, crcCalled, crcCallTxns_of_ne_nil _ (mt txBytes_eq_nil.1 h)]
  rfl

theorem fifoWrites_crcResultTxns (p : Params) (polls : List Byte) (v lo hi : Byte) (bus : List Txn) :
    fifoWrites (crcResultTxns p polls v lo hi ++ bus) = fifoWrites bus := by
  simp [fifoWrites, crcResultTxns, crcPollTxns]

/-- With TX_LEN in range the run comes to the started CRC unit (R213, R214). -/
theorem runOp_calcCrcCall (hs : s.seq = .start) (hlen : s.h.txLen.toNat ≤ s.params.txbufSize) :
    runOp .calcCrc (k + 1 + calcCrcCallCount s) s = runOp .calcCrc (k + 1) (calcCrcCalled s) := by
  have hstart := runOp_resume (k := k + calcCrcCallCount s) (i := .calcCrc) (s := s) (by rw [hs]; rfl)
    (by rw [hs]; nofun)
  rw [resume_start hs, opening, calcCrcBegin_fits hlen, Nat.add_right_comm, ← calcCrcCallTxns_length] at hstart
  rw [← calcCrcCallTxns_length]
  exact hstart.trans (runOp_crcCall (caller := .operation .calcCrc)
    (s := s.withSeq (.computeCrc .calcCrc (txBytes s.h) .idle)) rfl rfl)

/-- Settles O39: after the call the flag is seen, by `runOp_crcResult`, or never, by `runOp_crcTimeout`; then comes the
completion. -/
theorem calcCrcRuns : Obligations.CalcCrcRuns := by
  unfold Obligations.CalcCrcRuns
  intro s polls rest v lo hi hs hlen hpolls
  have hdone : ∀ b ∈ polls, crcDone (calcCrcCalled s).params b = false := fun b hb => flagged_eq_false.2 (hpolls b hb)
  refine ⟨fun ha hv hbudget => ?_, fun ha hbudget => ?_⟩
  · have hresult := runOp_crcResult (k := 0) (i := .calcCrc) (caller := .operation .calcCrc) (data := txBytes s.h)
      (s := calcCrcCalled s) (v := v) (lo := lo) (hi := hi) (rest := rest) rfl rfl hdone hbudget (bne_iff_ne.2 hv)
      (by simpa [calcCrcCalled, crcCalled] using ha)
    have hbus : (crcAnswered (.operation .calcCrc) (txBytes s.h) polls rest v lo hi (calcCrcCalled s)).bus =
        crcResultTxns s.params polls v lo hi ++ (calcCrcCalled s).bus := rfl
    refine ⟨_, Eq.trans ?_ (hresult.trans (runOp_complete (exec_complete rfl) rfl)), rfl, ?_, rfl, fun h => ?_, rfl⟩
    · rw [← runOp_calcCrcCall hs hlen, calcCrcCallCount]
      congr 1
      omega
    · refine (congrArg List.length hbus).trans ?_
      rw [List.length_append, crcResultTxns_length, calcCrcCalled_bus_length, calcCrcCallCount]
      omega
    · refine (congrArg fifoWrites hbus).trans ?_
      rw [fifoWrites_crcResultTxns, calcCrcCalled_fifoWrites h]
      rfl
  · obtain ⟨q, hq⟩ := runOp_crcTimeout (i := .calcCrc) (k := 0) (caller := .operation .calcCrc)
      (s := calcCrcCalled s) rfl rfl hdone hbudget ha
    refine ⟨_, Eq.trans ?_ (hq.trans (runOp_finish rfl)), rfl, ?_, rfl⟩
    · rw [← hbudget, Nat.zero_add, ← runOp_calcCrcCall hs hlen, calcCrcCallCount]
      congr 1
      omega
    · show (crcPollTxns polls ++ (calcCrcCalled s).bus).length = _
      rw [List.length_append, crcPollTxns_length, calcCrcCalled_bus_length, calcCrcCallCount, hbudget]
      omega

end CalcCrc

end Sys2Proof.Machine
end

/-! PROOF. A checked reply that carries the CRC of its body passes, an empty body too (40_communicate.md R149, 42_crc.md
R218). -/
section
namespace Sys2Proof.Machine

variable {i : Instr} {s : State} {site : CommSite} {c : CommCall}

/-- A checked reply of nothing but its CRC passes too: the CRC unit is started with no byte loaded (R81, R149). -/
theorem runOp_checkedReply_nil {m : Memory} {rest : List Byte} {v lo hi : Byte} {k : Nat}
    (ho : ownsCommSite i site = true) (hs : s.seq = .commNext site c .stored)
    (hcoll : collisionError s.params s.comm.err = false) (hcheck : c.checkCrc = true) (hdest : c.dest = .rxbuf)
    (hcap : 0 < c.cap) (hm : Memory.wf m) (hbuf : s.h.rxbuf = Memory.writeMany m c.off [lo, hi]) (hcn : s.comm.cn = 2)
    (hcvb : s.comm.cvb = 0) (hbudget : 0 < s.params.crcPollBudget) (hv : crcDone s.params v = true)
    (ha : s.env.answers = v :: lo :: hi :: rest) :
    runOp i (k + 9) s = runOp i (k + 1)
      (commReturn site .ok 2 0
        (crcAnswered (.reply site c) [] [] rest v lo hi (crcCalled (.reply site c) [] s))) := by
  have hcall := runOp_crcCall (i := i) (k := k + 5) (s := s.withSeq (.replyCrc site c [] .idle))
    (caller := .reply site c) ho rfl
  have hresult := runOp_crcResult (i := i) (k := k) (polls := []) (caller := .reply site c)
    (s := crcCalled (.reply site c) [] s) ho rfl nofun hbudget hv ha
  have hlo : destRead c.dest (c.off + s.comm.cn - 2) s = lo := by
    rw [hdest, hcn, Nat.add_sub_cancel, ← Nat.add_zero c.off, destRead_rxbuf hm hbuf (by simp)]
    rfl
  have hhi : destRead c.dest (c.off + s.comm.cn - 1) s = hi := by
    rw [hdest, hcn, show c.off + 2 - 1 = c.off + 1 by omega, destRead_rxbuf hm hbuf (by simp)]
    rfl
  have hmatch : afterReplyCrc (commReturn site) c .ok
        (crcAnswered (.reply site c) [] [] rest v lo hi (crcCalled (.reply site c) [] s)) =
      commReturn site .ok s.comm.cn s.comm.cvb
        (crcAnswered (.reply site c) [] [] rest v lo hi (crcCalled (.reply site c) [] s)) :=
    afterReplyCrc_match hlo hhi
  rw [hcn, hcvb] at hmatch
  rw [runOp_commResume ho hs, commResume, afterReply_check hcoll hcheck hcap hcn.ge hcvb, hcn]
  exact hcall.trans (hresult.trans (congrArg _ hmatch))

/-- Whatever its body, a checked reply that carries the body's CRC passes within ten steps. -/
theorem checkedReply_passes {m : Memory} {body rest : List Byte} {v lo hi : Byte} (ho : ownsCommSite i site = true)
    (hs : s.seq = .commNext site c .stored) (hcoll : collisionError s.params s.comm.err = false)
    (hcheck : c.checkCrc = true) (hdest : c.dest = .rxbuf) (hcap : 0 < c.cap) (hm : Memory.wf m)
    (hbuf : s.h.rxbuf = Memory.writeMany m c.off (body ++ [lo, hi])) (hcn : s.comm.cn = body.length + 2)
    (hcvb : s.comm.cvb = 0) (hbudget : 0 < s.params.crcPollBudget) (hv : crcDone s.params v = true)
    (ha : s.env.answers = v :: lo :: hi :: rest) :
    ∃ k u, runOp i 10 s = runOp i (k + 1) (commReturn site .ok s.comm.cn 0 u) ∧ u.h = s.h := by
  rw [hcn]
  cases body with
  | nil =>
    exact ⟨1, _, runOp_checkedReply_nil (k := 1) ho hs hcoll hcheck hdest hcap hm hbuf hcn hcvb hbudget hv ha, rfl⟩
  | cons b body =>
    exact ⟨0, _, runOp_checkedReply (k := 0) ho hs hcoll hcheck hdest hcap hm hbuf nofun hcn hcvb hbudget hv ha,
      rfl⟩

/-- The state after the ControlReg read `ctl` that stores the reply bytes `d` in RXBUF (R30, R147). -/
def rxbufStored (site : CommSite) (c : CommCall) (d : List Byte) (ctl : Byte) (rest : List Byte) (s : State) : State :=
  { s with
    bus := .read .controlReg [ctl] :: s.bus, env := ⟨rest, s.env.draws⟩
    comm := { s.comm with cvb := lastBits s.params ctl }
    h := { s.h with
      rxbuf := Memory.writeMany s.h.rxbuf c.off d, rxLen := BitVec.ofNat 8 s.comm.cn
      rxValidBits := BitVec.ofNat 3 (lastBits s.params ctl) }
    seq := .commNext site c .stored }

theorem runOp_rxbufStored {d rest : List Byte} {ctl : Byte} {k : Nat} (ho : ownsCommSite i site = true)
    (hs : s.seq = .communicate site c (.readControl d)) (hdest : c.dest = .rxbuf) (ha : s.env.answers = ctl :: rest) :
    runOp i (k + 1) s = runOp i k (rxbufStored site c d ctl rest s) := by
  rw [runOp_readControl ho hs ha, storeReply_rxbuf _ _ _ _ hdest]
  rfl

/-- An operation that can check a reply completes with the status of the exchange, and writes no result register. -/
theorem CanCheck.runOp_return {st : Status} {n vb k : Nat} {u : State} (h : CanCheck i site) :
    runOp i (k + 1) (commReturn site st n vb u) = .next (complete st u) := by
  obtain ⟨rfl, rfl⟩ | ⟨rfl, rfl⟩ := h <;> exact runOp_finish rfl

/-- Settles O41: the ControlReg read stores the reply, and the check passes by `checkedReply_passes`. -/
theorem crcRoundTripPasses : Obligations.CrcRoundTripPasses := by
  unfold Obligations.CrcRoundTripPasses
  intro i site s c body rest lo hi ctl v hcan hcheck hdest hcap hm hs hcn herr hctl hbudget hv ha
  have hcan : CanCheck i site := hcan
  have hread := runOp_rxbufStored (k := 10) hcan.owns hs hdest ha
  have hbits : lastBits s.params ctl = 0 := by rw [lastBits, hctl]; rfl
  obtain ⟨k, u, hrun, hu⟩ := checkedReply_passes
    (s := rxbufStored site c (body ++ [lo, hi]) ctl (v :: lo :: hi :: rest) s) hcan.owns rfl
    (flagged_eq_false.2 herr) hcheck hdest hcap hm rfl hcn hbits hbudget (bne_iff_ne.2 hv) rfl
  exact ⟨_, hread.trans (hrun.trans hcan.runOp_return), rfl, rfl, rfl, (congrArg HostRegs.crcLo hu :),
    (congrArg HostRegs.crcHi hu :)⟩

end Sys2Proof.Machine
end

/-! PROOF. CALC_CRC on a chip whose CRC unit computes CRC_A (20_memory.md R76, 42_crc.md R217): along a run that fits
the chip, what its FIFO, its CRC unit and the block hold is what the checksum of the TXBUF bytes needs. -/
section
namespace Sys2Proof.Machine

/-! ### The chip along a record of transactions -/

/-- The chip after the transactions `ts`, oldest first. -/
def chipRun (p : Params) (c : Chip) (ts : List Txn) : Chip := ts.foldl (chipAfter p) c

theorem fitsChip_append (p : Params) (c : Chip) (ts us : List Txn) :
    fitsChip p c (ts ++ us) = (fitsChip p c ts && fitsChip p (chipRun p c ts) us) := by
  induction ts generalizing c with
  | nil => rfl
  | cons t ts ih => rw [List.cons_append, fitsChip, fitsChip, ih, Bool.and_assoc]; rfl

/-! ### What the chip and the block hold -/

/-- The two bytes are CRC_A of `data`. -/
def IsCrcA (data : List Byte) (lo hi : Byte) : Prop := (lo, hi) = crcA data

/-- At a position of a ComputeCrc over `data`: from the flush to the load the FIFO is empty, then it holds the bytes;
from the start on the CRC unit holds their CRC_A. -/
def CrcUnitAt (data : List Byte) (chip : Chip) (x : CrcLocals) : CrcPos → Prop
  | .idle | .clearDone | .flush => True
  | .load => chip.fifo = []
  | .start => chip.fifo = data
  | .poll | .stop | .readLo => IsCrcA data chip.crcLo chip.crcHi
  | .readHi => IsCrcA data x.lo chip.crcHi

/-- After a transaction of it; once both result bytes were read the block holds CRC_A. -/
def CrcUnitAfter (data : List Byte) (chip : Chip) (x : CrcLocals) : CrcNext → Prop
  | .flushed => chip.fifo = []
  | .started | .polled _ => IsCrcA data chip.crcLo chip.crcHi
  | .finished => IsCrcA data x.lo x.hi

/-- At a position of CALC_CRC over `data`; completed with OK it leaves CRC_A in CRC_LO and CRC_HI. -/
def CrcUnitSeq (data : List Byte) (chip : Chip) (h : HostRegs) (x : CrcLocals) : Seq → Prop
  | .start => txBytes h = data
  | .computeCrc .calcCrc d pos => d = data ∧ CrcUnitAt data chip x pos
  | .crcNext .calcCrc d k => d = data ∧ CrcUnitAfter data chip x k
  | .complete st => st = .ok → IsCrcA data x.lo x.hi
  | .idle => h.status = 0x00 → IsCrcA data h.crcLo h.crcHi
  | _ => False

/-- The same of a state. -/
def CrcUnitHolds (data : List Byte) (chip : Chip) (s : State) : Prop := CrcUnitSeq data chip s.h s.crc s.seq

/-- From `s` to `t` the block goes on by transactions that, if a chip answers them, keep that. -/
def TracksChip (data : List Byte) (s t : State) : Prop :=
  ∃ new, t.bus = new ++ s.bus ∧ ∀ chip, CrcUnitHolds data chip s → fitsChip Params.default chip new.reverse = true →
    CrcUnitHolds data (chipRun Params.default chip new.reverse) t

variable {data : List Byte} {s t u : State}

theorem TracksChip.trans (h : TracksChip data s t) (h' : TracksChip data t u) : TracksChip data s u := by
  obtain ⟨new, hbus, hunit⟩ := h
  obtain ⟨new', hbus', hunit'⟩ := h'
  refine ⟨new' ++ new, by rw [hbus', hbus, List.append_assoc], fun chip hs hfits => ?_⟩
  rw [List.reverse_append, fitsChip_append, Bool.and_eq_true] at hfits
  rw [List.reverse_append, chipRun, List.foldl_append]
  exact hunit' _ (hunit chip hs hfits.1) hfits.2

/-- A step with no transaction. -/
theorem TracksChip.of_same_bus (hbus : t.bus = s.bus)
    (h : ∀ chip, CrcUnitHolds data chip s → CrcUnitHolds data chip t) : TracksChip data s t :=
  ⟨[], hbus, fun chip hs _ => h chip hs⟩

/-- A step with one transaction. -/
theorem TracksChip.of_txn {tx : Txn} (hbus : t.bus = tx :: s.bus)
    (h : ∀ chip, CrcUnitHolds data chip s → chipAnswers chip tx = true →
      CrcUnitHolds data (chipAfter Params.default chip tx) t) : TracksChip data s t := by
  refine ⟨[tx], hbus, fun chip hs hfits => h chip hs ?_⟩
  simpa [fitsChip] using hfits

/-! ### The steps of CALC_CRC -/

/-- The head of the poll loop leads to a poll or to a Timeout. -/
theorem crcPollHead_unit {chip : Chip} (h : IsCrcA data chip.crcLo chip.crcHi) (s : State) :
    CrcUnitHolds data chip (crcPollHead (.computeCrc .calcCrc data) calcCrcReturn s) := by
  unfold crcPollHead
  split
  · exact nofun
  · exact ⟨rfl, h⟩

/-- The pure computation of its ComputeCrc. -/
theorem crcResume_unit {chip : Chip} {n : CrcNext} (h : CrcUnitAfter data chip s.crc n) :
    CrcUnitHolds data chip (crcResume (.computeCrc .calcCrc data) calcCrcReturn data n s) := by
  cases n with
  | flushed =>
    have hfifo : chip.fifo = [] := h
    cases data with
    | nil => exact ⟨rfl, hfifo⟩
    | cons => exact ⟨rfl, hfifo⟩
  | started => exact crcPollHead_unit h _
  | polled v =>
    rw [crcResume]
    split
    · exact ⟨rfl, h⟩
    · exact crcPollHead_unit h _
  | finished => exact fun _ => h

/-- The pure computation of CALC_CRC. -/
theorem resume_unit {chip : Chip} (h : CrcUnitHolds data chip s) : CrcUnitHolds data chip (resume .calcCrc s) := by
  unfold CrcUnitHolds CrcUnitSeq at h
  split at h
  next hs =>
    rw [resume_start hs]
    show CrcUnitHolds data chip (calcCrcBegin s)
    unfold calcCrcBegin
    split
    · exact ⟨h, trivial⟩
    · exact nofun
  next hs =>
    rw [resume_atPrimitive (by rw [hs]; rfl), CrcUnitHolds, hs]
    exact h
  next hs =>
    obtain ⟨rfl, hnext⟩ := h
    rw [resume_crcNext hs]
    exact crcResume_unit hnext
  next hs =>
    rw [resume_atPrimitive (by rw [hs]; rfl), CrcUnitHolds, hs]
    exact h
  next hs =>
    simp only [resume, hs, CrcUnitHolds]
    exact h
  next => exact h.elim

/-- A transaction of its ComputeCrc. -/
theorem crcStep_tracks {d : List Byte} {pos : CrcPos} (hp : s.params = Params.default)
    (hs : s.seq = .computeCrc .calcCrc d pos) :
    TracksChip data s (crcStep (.computeCrc .calcCrc d) (.crcNext .calcCrc d) d pos s) := by
  have at_pos {chip : Chip} (h : CrcUnitHolds data chip s) : d = data ∧ CrcUnitAt data chip s.crc pos := by
    rwa [CrcUnitHolds, hs] at h
  cases pos with
  | idle => exact .of_txn rfl fun chip h _ => ⟨(at_pos h).1, trivial⟩
  | clearDone => exact .of_txn rfl fun chip h _ => ⟨(at_pos h).1, trivial⟩
  | flush =>
    refine .of_txn rfl fun chip h _ => ⟨(at_pos h).1, ?_⟩
    rw [hp]
    rfl
  | load =>
    refine .of_txn rfl fun chip h _ => ?_
    obtain ⟨rfl, hfifo⟩ := at_pos h
    exact ⟨rfl, (congrArg (· ++ d) hfifo : chip.fifo ++ d = d)⟩
  | start =>
    refine .of_txn rfl fun chip h _ => ?_
    obtain ⟨rfl, hfifo⟩ := at_pos h
    refine ⟨rfl, ?_⟩
    rw [hp]
    exact congrArg crcA hfifo
  | poll => exact .of_txn rfl fun chip h _ => at_pos h
  | stop =>
    refine .of_txn rfl fun chip h _ => ⟨(at_pos h).1, ?_⟩
    rw [hp]
    exact (at_pos h).2
  | readLo =>
    refine .of_txn (busRead_bus _ _) fun chip h hfits => ⟨(at_pos h).1, ?_⟩
    have hlo : nextByte s = chip.crcLo := by simpa [chipAnswers] using hfits
    show IsCrcA data (nextByte s) chip.crcHi
    rw [hlo]
    exact (at_pos h).2
  | readHi =>
    refine .of_txn (busRead_bus _ _) fun chip h hfits => ⟨(at_pos h).1, ?_⟩
    have hhi : nextByte s = chip.crcHi := by simpa [chipAnswers] using hfits
    show IsCrcA data s.crc.lo (nextByte s)
    rw [hhi]
    exact (at_pos h).2

/-- Its completion: STATUS is 0x00 on OK alone, and then the two bytes go to CRC_LO and CRC_HI (R214). -/
theorem complete_tracks {st : Status} (hs : s.seq = .complete st) :
    TracksChip data s (completeWith (resultWrites .calcCrc st s) st s) := by
  refine .of_same_bus rfl fun chip h hstatus => ?_
  obtain rfl : st = .ok := statusCode_eq_ok.1 hstatus
  rw [CrcUnitHolds, hs] at h
  exact h rfl

/-- A step of CALC_CRC. -/
theorem exec_tracks (hp : s.params = Params.default) (hs : s.seq ≠ .idle) (he : exec .calcCrc s = .next t) :
    TracksChip data s t := by
  obtain ⟨-, ⟨hc, -, -⟩, hstep⟩ := exec_cases hs he
  have hresume : TracksChip data s (resume .calcCrc s) := .of_same_bus hc.bus fun _ => resume_unit
  refine hresume.trans ?_
  cases hstep with
  | @computeCrc site _ _ hu ho =>
    obtain rfl : site = .calcCrc := by
      cases site with
      | calcCrc => rfl
      | fullFrame | sakCheck | haltFrame | readFrame => cases ho
    exact crcStep_tracks (hc.params.trans hp) hu
  | @communicate site _ _ _ ho => cases site <;> cases ho
  | @replyCrc site _ _ _ _ ho => cases site <;> cases ho
  | access _ _ _ _ hq => exact absurd hq (by unfold AccessSeq; split <;> simp)
  | complete hu => exact complete_tracks hu

/-- A run of it. -/
theorem runOp_tracks {k : Nat} (hp : s.params = Params.default) (hs : s.seq ≠ .idle)
    (hrun : runOp .calcCrc k s = .next t) : TracksChip data s t := by
  induction k generalizing s with
  | zero =>
    cases hrun
    exact .of_same_bus rfl fun _ h => h
  | succ k ih =>
    obtain ⟨u, he⟩ : ∃ u, exec .calcCrc s = .next u := by
      rw [runOp] at hrun
      cases he : exec .calcCrc s with
      | next u => exact ⟨u, rfl⟩
      | fault | refused => rw [he] at hrun; cases hrun
    have hstep : TracksChip data s u := exec_tracks hp hs he
    by_cases hu : u.seq = .idle
    · rw [runOp_complete he hu] at hrun
      cases hrun
      exact hstep
    · rw [runOp_continue he hu] at hrun
      exact hstep.trans (ih ((exec_result hs he).1.params.trans hp) hu hrun)

/-- Settles O40: by `runOp_tracks`, the TXBUF bytes being those of the ComputeCrc from the first step on. -/
theorem calcCrcAgreesWithCrcAChip : Obligations.CalcCrcAgreesWithCrcAChip := by
  unfold Obligations.CalcCrcAgreesWithCrcAChip
  intro s t k chip new hp hs _ hrun hidle hstatus hbus hfits
  obtain ⟨new', hbus', hunit⟩ := runOp_tracks (data := txBytes s.h) hp (by rw [hs]; nofun) hrun
  obtain rfl : new = new' := List.append_cancel_right (hbus.symm.trans hbus')
  rw [hp] at hfits
  have hend := hunit chip (by rw [CrcUnitHolds, hs]; rfl) hfits
  rw [CrcUnitHolds, hidle] at hend
  exact hend hstatus

end Sys2Proof.Machine
end

/-! PROOF. The card requests (30_encoding.md R112, 43_session.md R230 to R236, R262 to R265): the end of a request by its
reply, its run, and with them REQUEST_OR_WAKEUP and IS_NEW_CARD_PRESENT. -/
section
namespace Sys2Proof.Machine

/-! ### The end of a request -/

/-- The status of a request whose reply was taken: the collision bit first, then the shape of the ATQA (R233 to
R235). -/
def requestStatus (p : Params) (x : CommLocals) : Status :=
  if collisionError p x.err then .collision else if x.cn ≠ 2 ∨ x.cvb ≠ 0 then .genericError else .ok

/-- The host registers after a request that ended with `st`: the ATQA is written on OK alone (R33, R233, R265). -/
def requestEnded (i : Instr) (st : Status) (h : HostRegs) : HostRegs :=
  { h with
    status := statusCode st, busy := false, done := true, result := resultAfter i st h
    atqa0 := if st = .ok then Memory.read h.rxbuf 0 else h.atqa0
    atqa1 := if st = .ok then Memory.read h.rxbuf 1 else h.atqa1 }

section Ended

variable {i : Instr} {s : State} {c : CommCall} {st : Status} {p : Params} {x : CommLocals}

theorem requestStatus_collided (h : collisionError p x.err = true) : requestStatus p x = .collision := if_pos h

theorem requestStatus_shape (hcoll : collisionError p x.err = false) (h : x.cn ≠ 2 ∨ x.cvb ≠ 0) :
    requestStatus p x = .genericError := by
  rw [requestStatus, if_neg (by rw [hcoll]; nofun), if_pos h]

theorem requestStatus_atqa (hcoll : collisionError p x.err = false) (hcn : x.cn = 2) (hcvb : x.cvb = 0) :
    requestStatus p x = .ok := by
  rw [requestStatus, if_neg (by rw [hcoll]; nofun), if_neg (by omega)]

/-- A request's call asks for no CRC check, so its reply ends it with that status (R233, R235). -/
theorem resume_request_stored (hs : s.seq = .commNext .request c .stored) (hc : c.checkCrc = false) :
    resume i s = finish (requestStatus s.params s.comm) s := by
  rw [resume_commNext hs, commResume, requestStatus]
  cases hcoll : collisionError s.params s.comm.err with
  | true => exact afterReply_collision hcoll
  | false =>
    rw [afterReply_unchecked hcoll hc, if_neg nofun]
    exact (apply_ite (finish · s) (s.comm.cn ≠ 2 ∨ s.comm.cvb ≠ 0) .genericError .ok).symm

theorem completeWith_request (hi : i = .requestOrWakeup ∨ i = .isNewCardPresent) (s u : State) :
    (completeWith (resultWrites i st u) st s).h = requestEnded i st s.h := by
  rcases hi with rfl | rfl
  · cases st <;> rfl
  · cases st <;> rfl

theorem request_owns (hi : i = .requestOrWakeup ∨ i = .isNewCardPresent) : ownsCommSite i .request = true := by
  rcases hi with rfl | rfl <;> rfl

/-- The completion comes in the same step (R291). -/
theorem exec_request_stored (hi : i = .requestOrWakeup ∨ i = .isNewCardPresent)
    (hs : s.seq = .commNext .request c .stored) (hc : c.checkCrc = false) :
    ∃ t, exec i s = .next t ∧ t.seq = .idle ∧ t.bus = s.bus ∧
      t.h = requestEnded i (requestStatus s.params s.comm) s.h := by
  let u := finish (requestStatus s.params s.comm) s
  refine ⟨completeWith (resultWrites i (requestStatus s.params s.comm) u) (requestStatus s.params s.comm) u, ?_, rfl,
    rfl, completeWith_request hi u u⟩
  rw [exec_resume (by rw [hs]; exact request_owns hi) (by rw [hs]; nofun), resume_request_stored hs hc,
    exec_complete rfl]

end Ended

/-! ### The run of a request -/

/-- The exchange of the REQA or WUPA frame (R112, R232). -/
def requestCall (i : Instr) (s : State) : CommCall :=
  transceiveCall s.params (requestFrame s.params (i = .requestOrWakeup ∧ s.h.isWakeup)) 7 false s.params.reqReplyCap

/-- The two transactions that clear ValuesAfterColl, newest first (R231). -/
def collClearTxns (p : Params) (coll : Byte) : List Txn :=
  [.write .collReg [coll &&& ~~~p.mask.collValuesAfter], .read .collReg [coll]]

/-- The state of a request after the kick. -/
def requestKicked (i : Instr) (coll kick : Byte) (rest : List Byte) (s : State) : State :=
  commKicked .request (requestCall i s) kick rest { s with bus := collClearTxns s.params coll ++ s.bus }

/-- What a request reads up to the reply: CollReg, BitFramingReg, ComIrqReg, ErrorReg, the FIFO level, the reply bytes,
ControlReg, and the answers that are left. -/
structure RequestScript where
  coll : Byte
  kick : Byte
  irq : Byte
  err : Byte
  lvl : Byte
  data : List Byte
  ctl : Byte
  rest : List Byte

/-- The answers from the FIFO level on. -/
def RequestScript.reply (r : RequestScript) : List Byte := r.lvl :: (r.data ++ r.ctl :: r.rest)

/-- What a request needs to take the reply: an awaited flag at the first poll, no framing error, and a reply that
fits. -/
structure RequestAnswered (r : RequestScript) (s : State) : Prop where
  start : s.seq = .clearCollRead
  budget : 0 < s.params.irqPollBudget
  flag : flagged r.irq s.params.mask.waitTransceive = true
  framing : framingError s.params r.err = false
  level : fifoLevel s.params r.lvl = r.data.length
  bytes : r.data ≠ []
  fits : r.data.length ≤ s.params.reqReplyCap
  answers : s.env.answers = r.coll :: r.kick :: r.irq :: r.err :: r.reply

/-- Its transactions, newest first (R231 to R233). -/
def requestTxns (i : Instr) (r : RequestScript) (s : State) : List Txn :=
  [ .read .controlReg [r.ctl], .read .fifoDataReg r.data, .read .fifoLevelReg [r.lvl], .read .errorReg [r.err],
    .read .comIrqReg [r.irq], .write .bitFramingReg [r.kick ||| s.params.mask.startSend],
    .read .bitFramingReg [r.kick] ] ++ sendTxns s.params (requestCall i s) ++ collClearTxns s.params r.coll

/-- The engine's locals after them. -/
def requestLocals (r : RequestScript) (s : State) : CommLocals :=
  ⟨1, r.err, r.data.length, lastBits s.params r.ctl⟩

/-- The host registers after them: the reply in RXBUF from index 0 on (R30). -/
def requestReplied (r : RequestScript) (s : State) : HostRegs :=
  { s.h with
    rxbuf := Memory.writeMany s.h.rxbuf 0 r.data, rxLen := BitVec.ofNat 8 r.data.length
    rxValidBits := BitVec.ofNat 3 (lastBits s.params r.ctl) }

/-- The state after them. -/
def requestStored (i : Instr) (r : RequestScript) (s : State) : State :=
  { s with
    bus := requestTxns i r s ++ s.bus, env := ⟨r.rest, s.env.draws⟩, comm := requestLocals r s, h := requestReplied r s
    seq := .commNext .request (requestCall i s) .stored }

section Runs

variable {i : Instr} {s : State} {r : RequestScript} {k : Nat} (hi : i = .requestOrWakeup ∨ i = .isNewCardPresent)
include hi

/-- ValuesAfterColl is cleared and the frame goes out in ten transactions (R231, R232). -/
theorem runOp_requestKicked {coll kick : Byte} {rest : List Byte} (hs : s.seq = .clearCollRead)
    (ha : s.env.answers = coll :: kick :: rest) :
    runOp i (k + 10) s = runOp i k (requestKicked i coll kick rest s) := by
  let u : State :=
    { s with bus := collClearTxns s.params coll ++ s.bus, env := ⟨kick :: rest, s.env.draws⟩, seq := .collCleared }
  have hread : exec i s = .next { s with
      bus := .read .collReg [coll] :: s.bus, env := ⟨kick :: rest, s.env.draws⟩, seq := .clearCollWrite coll } := by
    rw [exec_clearCollRead hi hs, ← drop_of_answers s ha, ← nextByte_of_answers s ha]
    rfl
  have hcleared : runOp i (k + 10) s = runOp i (k + 8) u :=
    (runOp_continue hread nofun).trans (runOp_continue (exec_clearCollWrite hi rfl) nofun)
  have howns : owns i u.seq = true := by rcases hi with rfl | rfl <;> rfl
  have hcall : runOp i (k + 8) u = runOp i (k + 8) (u.withSeq (.communicate .request (requestCall i s) .idle)) :=
    runOp_resume howns nofun
  exact hcleared.trans (hcall.trans (runOp_kick (request_owns hi) rfl nofun rfl rfl))

/-- The reply is taken after fifteen transactions. -/
theorem runOp_requestStored (h : RequestAnswered r s) :
    runOp i (k + 15) s = runOp i k (requestStored i r s) := by
  have hkick := runOp_requestKicked (k := k + 5) hi h.start h.answers
  have hpoll := runOp_kicked_awaited (i := i) (k := k + 3) (polls := [])
    (s := requestKicked i r.coll r.kick (r.irq :: r.err :: r.reply) s) (request_owns hi) rfl nofun h.budget h.flag rfl
  have hreply := runOp_reply (i := i) (k := k) (s := commErrorRead .request (requestCall i s) [] r.reply r.irq r.err
    (requestKicked i r.coll r.kick (r.irq :: r.err :: r.reply) s)) (request_owns hi) rfl h.framing h.level h.bytes
    h.fits rfl
  refine hkick.trans (hpoll.trans (hreply.trans (congrArg _ ?_)))
  rw [commReplied, storeReply_rxbuf _ _ _ _ rfl, requestCall, transceiveCall, Nat.zero_mod, mergeFirst_zero]
  rfl

/-- So the request ends in the sixteenth step, by its reply (R233 to R235). -/
theorem runOp_request (h : RequestAnswered r s) :
    ∃ t, runOp i (k + 16) s = .next t ∧ t.seq = .idle ∧ t.bus = requestTxns i r s ++ s.bus ∧
      t.h = requestEnded i (requestStatus s.params (requestLocals r s)) (requestReplied r s) := by
  obtain ⟨t, hend, hidle, hbus, hh⟩ := exec_request_stored (s := requestStored i r s) hi rfl rfl
  exact ⟨t, (runOp_requestStored (k := k + 1) hi h).trans (runOp_complete hend hidle), hidle, hbus, hh⟩

/-- A timer that expires before an awaited flag ends it with Timeout in its twelfth step (R146, R235). -/
theorem runOp_request_timer {coll kick irq : Byte} {rest : List Byte} (hs : s.seq = .clearCollRead)
    (hbudget : 0 < s.params.irqPollBudget) (hw : flagged irq s.params.mask.waitTransceive = false)
    (ht : timerExpired s.params irq = true) (ha : s.env.answers = coll :: kick :: irq :: rest) :
    ∃ t, runOp i (k + 12) s = .next t ∧ t.seq = .idle ∧ t.h = requestEnded i .timeout s.h := by
  have hpoll := runOp_polled (i := i) (k := k + 1) (polls := []) (s := requestKicked i coll kick (irq :: rest) s)
    (request_owns hi) rfl nofun hbudget rfl
  obtain ⟨t, hend, hidle, -, -, hh⟩ := endsWith_failure (i := i)
    (s := commPolled .request (requestCall i s) [] rest irq (requestKicked i coll kick (irq :: rest) s))
    (request_owns hi) rfl (commResume_polled_timer hw ht) nofun nofun
  refine ⟨t, ?_, hidle, hh⟩
  exact (runOp_requestKicked (k := k + 2) hi hs ha).trans (hpoll.trans (runOp_complete hend hidle))

end Runs

/-! ### With the default parameters -/

section Default

variable {s : State} {r : RequestScript}

theorem requestAnswered_default (hp : s.params = Params.default) (hs : s.seq = .clearCollRead)
    (hirq : r.irq &&& 0x30 ≠ 0) (herr : r.err &&& 0x13 = 0) (hlvl : fifoLevel Params.default r.lvl = r.data.length)
    (hdata : r.data ≠ []) (hfits : r.data.length ≤ 64)
    (ha : s.env.answers = r.coll :: r.kick :: r.irq :: r.err :: r.reply) : RequestAnswered r s where
  start := hs
  budget := by rw [hp]; decide
  flag := by rw [hp]; exact bne_iff_ne.2 hirq
  framing := by rw [hp]; exact flagged_eq_false.2 herr
  level := by rw [hp]; exact hlvl
  bytes := hdata
  fits := by rw [hp]; exact hfits
  answers := ha

theorem lastBits_default {ctl : Byte} (hp : s.params = Params.default) :
    lastBits s.params ctl = 0 ↔ ctl &&& 0x07 = 0 := by
  rw [hp]
  exact (BitVec.toNat_eq (y := 0#8)).symm

/-- The 7-bit frame: WUPA for a wake-up, REQA for any other request (R112, R231, R232). -/
theorem requestTxns_default (hp : s.params = Params.default) (i : Instr) :
    requestTxns i r s =
      [ .read .controlReg [r.ctl], .read .fifoDataReg r.data, .read .fifoLevelReg [r.lvl], .read .errorReg [r.err],
        .read .comIrqReg [r.irq], .write .bitFramingReg [r.kick ||| 0x80], .read .bitFramingReg [r.kick],
        .write .commandReg [0x0C], .write .bitFramingReg [0x07],
        .write .fifoDataReg [if i = .requestOrWakeup ∧ s.h.isWakeup then 0x52 else 0x26], .write .fifoLevelReg [0x80],
        .write .comIrqReg [0x7F], .write .commandReg [0x00], .write .collReg [r.coll &&& 0x7F],
        .read .collReg [r.coll] ] := by
  have hframing : bitFraming 0 7 = 0x07 := by decide
  have hclear : ~~~(0x80 : Byte) = 0x7F := by decide
  rw [← hframing, ← hclear, requestTxns, requestCall, hp]
  simp only [requestFrame, decide_eq_true_eq]
  rfl

/-- The two bytes of the ATQA as they came. -/
theorem requestReplied_atqa {a0 a1 : Byte} (hm : Memory.wf s.h.rxbuf) (hdata : r.data = [a0, a1]) :
    Memory.read (requestReplied r s).rxbuf 0 = a0 ∧ Memory.read (requestReplied r s).rxbuf 1 = a1 := by
  rw [requestReplied, hdata]
  exact ⟨Memory.read_writeMany_same hm (i := 0) (j := 0) [a0, a1] Nat.two_pos,
    Memory.read_writeMany_same hm (i := 0) (j := 1) [a0, a1] Nat.one_lt_two⟩

end Default

/-! ### REQUEST_OR_WAKEUP -/

/-- It opens with the CollReg read (R230, R231). -/
theorem runOp_requestOrWakeup {s : State} {k : Nat} (hs : s.seq = .start) :
    runOp .requestOrWakeup (k + 1) s = runOp .requestOrWakeup (k + 1) (s.withSeq .clearCollRead) := by
  rw [runOp_resume (by rw [hs]; rfl) (by rw [hs]; nofun), resume_start hs]
  rfl

/-- Settles O46: the end by a reply's status, `requestStatus`; the runs by `runOp_request`. -/
theorem requestChecksReplyShape : Obligations.RequestChecksReplyShape := by
  unfold Obligations.RequestChecksReplyShape
  refine ⟨fun i c s hi hs hc => ?_, fun s rest coll kick irq a0 a1 a2 ctl hp hs hirq hm => ?_⟩
  · have hends {st : Status} (h : requestStatus s.params s.comm = st) (hst : st ≠ .ok) : endsWith i st s :=
      endsWith_of_resume (by rw [hs]; exact request_owns hi) (by rw [hs]; nofun)
        (by rw [resume_request_stored hs hc, h]; rfl) hst
    split
    next hcoll => exact hends (requestStatus_collided (bne_iff_ne.2 hcoll)) nofun
    next hcoll =>
      have hcoll : collisionError s.params s.comm.err = false := flagged_eq_false.2 (not_not.1 hcoll)
      split
      next hshape => exact hends (requestStatus_shape hcoll hshape) nofun
      next hshape =>
        obtain ⟨t, he, hidle, hbus, hh⟩ := exec_request_stored hi hs hc
        rw [requestStatus_atqa hcoll (by omega) (by omega)] at hh
        exact ⟨t, he, hidle, hbus, hh⟩
  · let u := s.withSeq .clearCollRead
    have hcoll : collisionError u.params 0x00 = false := flagged_zero _
    have run {lvl : Byte} {data : List Byte} (hlvl : fifoLevel Params.default lvl = data.length) (hdata : data ≠ [])
        (hfits : data.length ≤ 64) (ha : s.env.answers = coll :: kick :: irq :: 0x00 :: lvl :: (data ++ ctl :: rest)) :=
      runOp_request (k := 0) (.inl rfl) (requestAnswered_default (s := u)
        (r := ⟨coll, kick, irq, 0x00, lvl, data, ctl, rest⟩) hp rfl hirq BitVec.zero_and hlvl hdata hfits ha)
    refine ⟨fun ha => ?_, fun ha => ?_⟩
    · have hlvl : fifoLevel Params.default 0x02 = 2 := by decide
      obtain ⟨t, hrun, hidle, hbus, hh⟩ := run (data := [a0, a1]) hlvl nofun (by simp) ha
      obtain ⟨h0, h1⟩ := requestReplied_atqa (s := u) (r := ⟨coll, kick, irq, 0x00, 0x02, [a0, a1], ctl, rest⟩) hm rfl
      rw [requestTxns_default (s := u) hp] at hbus
      refine ⟨t, (runOp_requestOrWakeup hs).trans hrun, hidle, hbus.trans (by simp [u]), ?_⟩
      rw [hh]
      refine ⟨rfl, h0, h1, rfl, rfl, fun hctl => ?_, fun hctl => ?_⟩
      · have hbits : lastBits u.params ctl = 0 := (lastBits_default hp).2 hctl
        rw [requestStatus_atqa hcoll rfl hbits]
        exact ⟨rfl, h0, h1⟩
      · rw [requestStatus_shape hcoll (.inr fun h => hctl ((lastBits_default hp).1 h))]
        exact ⟨rfl, rfl, rfl⟩
    · have hlvl : fifoLevel Params.default 0x03 = 3 := by decide
      obtain ⟨t, hrun, hidle, -, hh⟩ := run (data := [a0, a1, a2]) hlvl nofun (by simp) ha
      rw [requestStatus_shape hcoll (.inl (by simp [requestLocals]))] at hh
      refine ⟨t, (runOp_requestOrWakeup hs).trans hrun, hidle, ?_⟩
      rw [hh]
      exact ⟨rfl, rfl, rfl, rfl⟩

/-! ### IS_NEW_CARD_PRESENT -/

/-- The three defensive writes, newest first (R263). -/
def defensiveTxns (p : Params) : List Txn :=
  [.write .modWidthReg [p.modWidthValue], .write .rxModeReg [0x00], .write .txModeReg [0x00]]

/-- The state after them, about to make a request (R262, R264). -/
def defended (s : State) : State := { s with bus := defensiveTxns s.params ++ s.bus, seq := .clearCollRead }

theorem runOp_defensive {s : State} {k : Nat} (hs : s.seq = .start) :
    runOp .isNewCardPresent (k + 3) s = runOp .isNewCardPresent k (defended s) := by
  rw [runOp_continue ((exec_start hs).trans (exec_writeTxMode rfl)) nofun, runOp_continue (exec_writeRxMode rfl) nofun,
    runOp_continue (exec_writeModWidth rfl) nofun]
  rfl

/-- Settles O47: after the defensive writes a request, whose reply `runOp_request` takes, and whose Timeout is
`runOp_request_timer`. -/
theorem presentCountsCollisionAsPresent : Obligations.PresentCountsCollisionAsPresent := by
  unfold Obligations.PresentCountsCollisionAsPresent
  intro s rest coll kick irq a0 a1 err ctl hp hs hm first
  let u := defended s
  have hu : u.params = Params.default := hp
  have hfirst : u.bus = first ++ s.bus := by show defensiveTxns s.params ++ s.bus = _; rw [hp]; rfl
  refine ⟨fun hirq herr hctl ha => ?_, fun hw ht ha => ?_⟩
  · let r : RequestScript := ⟨coll, kick, irq, err, 0x02, [a0, a1], ctl, rest⟩
    have hlvl : fifoLevel Params.default 0x02 = 2 := by decide
    obtain ⟨t, hrun, hidle, hbus, hh⟩ := runOp_request (k := 0) (.inr rfl)
      (requestAnswered_default (r := r) hu rfl hirq herr hlvl nofun (Nat.le_add_left 2 62) ha)
    obtain ⟨h0, h1⟩ := requestReplied_atqa (s := u) (r := r) hm rfl
    have hfifo : fifoWrites (requestTxns .isNewCardPresent r u) = [[0x26]] := by rw [requestTxns_default hu]; rfl
    rw [hfirst, ← List.append_assoc] at hbus
    refine ⟨t, requestTxns .isNewCardPresent r u, (runOp_defensive hs).trans hrun, hidle, ?_⟩
    rw [hh]
    by_cases hcoll : err &&& 0x08 = 0
    · have hclear : collisionError u.params err = false := by rw [hu]; exact flagged_eq_false.2 hcoll
      rw [requestStatus_atqa hclear rfl ((lastBits_default hu).2 hctl)]
      exact ⟨rfl, rfl, hbus, rfl, hfifo, (if_pos hcoll).symm, fun _ => ⟨h0, h1⟩, fun h => (h hcoll).elim⟩
    · have hset : collisionError u.params err = true := by rw [hu]; exact bne_iff_ne.2 hcoll
      rw [requestStatus_collided hset]
      exact ⟨rfl, rfl, hbus, rfl, hfifo, (if_neg hcoll).symm, fun h => (hcoll h).elim, fun _ => ⟨rfl, rfl⟩⟩
  · obtain ⟨t, hrun, hidle, hh⟩ := runOp_request_timer (i := .isNewCardPresent) (s := u) (k := 0) (.inr rfl) rfl
      (by rw [hu]; decide) (by rw [hu]; exact flagged_eq_false.2 hw) (by rw [hu]; exact bne_iff_ne.2 ht) ha
    refine ⟨t, (runOp_defensive hs).trans hrun, hidle, ?_⟩
    rw [hh]
    exact ⟨rfl, rfl, rfl, rfl, rfl, rfl, rfl⟩

end Sys2Proof.Machine
end

/-! PROOF. STOP_CRYPTO (43_session.md R250). -/
section
namespace Sys2Proof.Machine

/-- Settles O44: the two transactions and the completion, one step each. -/
theorem stopCryptoRuns : Obligations.StopCryptoRuns := by
  unfold Obligations.StopCryptoRuns
  refine ⟨fun s hs => ?_, rfl, by decide⟩
  rw [runOp_continue ((exec_start hs).trans (exec_clearCryptoRead rfl)) nofun,
    runOp_continue (exec_clearCryptoWrite rfl) nofun, runOp_complete (exec_complete rfl) rfl]
  rfl

end Sys2Proof.Machine
end

/-! PROOF. The statuses of each operation (60_exceptions.md R290, R293): what a call can return and what its caller makes
of it, so that a running operation can end only with a status its row lists. -/
section
namespace Sys2Proof.Machine

variable {i : Instr} {s t : State} {site : CommSite} {c : CommCall} {st : Status}

/-- The statuses a Communicate with the call `c` can return: BufferTooSmall only where a reply is expected, and those of
the CRC check only where it is asked for (R146 to R149). -/
def CommMayReturn (c : CommCall) : Status → Prop
  | .ok | .genericError | .collision | .timeout => True
  | .bufferTooSmall => 0 < c.cap
  | .crcMismatch | .mifareNack => c.checkCrc = true
  | .internalError | .invalidArgument => False

/-! ### Positions -/

theorem statusOk_complete (hs : s.seq = .complete st) (h : st ∈ canReturn i) : statusOk i s := by
  unfold statusOk
  rw [hs]
  exact h

/-- A round of the resolver calls for no CRC check (R182). -/
theorem statusOk_round (hi : i = .select ∨ i = .readCardSerial) (h : RoundSeq s.seq) : statusOk i s := by
  unfold statusOk
  rcases h with ⟨data, hq⟩ | ⟨c, hq, hc⟩ <;> rw [hq]
  · trivial
  · exact ⟨⟨fun _ _ => hc.checkCrc, by rcases hi with rfl | rfl <;> nofun⟩, nofun⟩

/-! ### The callers' code after an exchange or a checksum -/

/-- The row of an operation that makes an exchange, by what its calls ask for (R290). -/
theorem canReturn_exchange (ho : ownsCommSite i site = true) :
    (.ok ∈ canReturn i ∧ .genericError ∈ canReturn i ∧ .collision ∈ canReturn i ∧ .timeout ∈ canReturn i) ∧
      (i ≠ .halt → i ≠ .authenticate → .bufferTooSmall ∈ canReturn i) ∧
      (i = .communicate ∨ i = .readBlock → .crcMismatch ∈ canReturn i ∧ .mifareNack ∈ canReturn i) := by
  cases i with
  | calcCrc | stopCrypto => cases site <;> cases ho
  | communicate | select | requestOrWakeup | halt | authenticate | readBlock | isNewCardPresent | readCardSerial =>
    simp [canReturn]

/-- What an exchange can return is in the row of the operation that made it. -/
theorem CommMayReturn.listed (h : CommMayReturn c st) (ho : ownsCommSite i site = true) (hc : callShape i c) :
    st ∈ canReturn i := by
  obtain ⟨hcheck, hcap⟩ := hc
  obtain ⟨⟨hok, hgeneric, hcoll, htimeout⟩, hsmall, hcrc⟩ := canReturn_exchange ho
  have hi : c.checkCrc = true → i = .communicate ∨ i = .readBlock := fun hn => by
    by_contra hi
    rw [not_or] at hi
    exact absurd (hn.symm.trans (hcheck hi.1 hi.2)) nofun
  cases st with
  | ok => exact hok
  | genericError => exact hgeneric
  | collision => exact hcoll
  | timeout => exact htimeout
  | bufferTooSmall => exact hsmall (fun e => h.ne' (hcap (.inl e))) fun e => h.ne' (hcap (.inr e))
  | crcMismatch => exact (hcrc (hi h)).1
  | mifareNack => exact (hcrc (hi h)).2
  | internalError | invalidArgument => exact h.elim

/-- HALT's mapping stays within HALT's row (R239). -/
theorem haltStatus_listed (h : st ∈ canReturn .halt) : haltStatus st ∈ canReturn .halt := by
  cases st <;> revert h <;> decide

/-- The caller of a Communicate stands where its operation ends with a listed status. -/
theorem commReturn_statusOk (ho : ownsCommSite i site = true) (hc : callShape i c) {st : Status}
    (h : CommMayReturn c st) (n vb : Nat) (s : State) : statusOk i (commReturn site st n vb s) := by
  have hlisted := h.listed ho hc
  obtain ⟨⟨hok, hgeneric, -, -⟩, -⟩ := canReturn_exchange ho
  cases site with
  | halt =>
    obtain rfl : i = .halt := by simpa [ownsCommSite] using ho
    exact statusOk_complete rfl (haltStatus_listed hlisted)
  | host | authenticate | readBlock => exact statusOk_complete rfl hlisted
  | request =>
    show statusOk i (requestAfterExchange st n vb s)
    unfold requestAfterExchange
    split
    · exact statusOk_complete rfl hlisted
    · split
      · exact statusOk_complete rfl hgeneric
      · exact statusOk_complete rfl hok
  | selectRound =>
    have hi : i = .select ∨ i = .readCardSerial := by simpa [ownsCommSite] using ho
    obtain ⟨-, -, hq⟩ := selectAfterExchange_cases st n vb s
    show statusOk i (selectAfterExchange st n vb s)
    rcases hq with ⟨-, e⟩ | ⟨-, -, e⟩ | ⟨-, e | ⟨d, e⟩ | ⟨d, e⟩⟩
    · unfold statusOk; rw [e]; trivial
    · exact statusOk_complete e hlisted
    · exact statusOk_complete e hgeneric
    · unfold statusOk; rw [e]; trivial
    · exact statusOk_round hi (.inl ⟨d, e⟩)

/-- Every operation with a checksum lists the two statuses a ComputeCrc returns (R213, R215). -/
theorem crcStatus_listed {site : CrcSite} (ho : ownsCrcSite i site = true) (h : st = .ok ∨ st = .timeout) :
    st ∈ canReturn i := by
  cases i with
  | communicate | requestOrWakeup | authenticate | stopCrypto | isNewCardPresent => cases site <;> cases ho
  | select | calcCrc | halt | readBlock | readCardSerial => rcases h with rfl | rfl <;> decide

/-- The caller of a ComputeCrc stands where its operation ends with a listed status. -/
theorem crcReturn_statusOk {site : CrcSite} (ho : ownsCrcSite i site = true) (h : st = .ok ∨ st = .timeout)
    (x : HostRegs) (s : State) : statusOk i (crcReturn i x site st s) := by
  have hlisted := crcStatus_listed ho h
  cases site with
  | calcCrc => exact statusOk_complete rfl hlisted
  | fullFrame =>
    obtain ⟨-, -, hq⟩ := selectAfterFrameCrc_cases st s
    show statusOk i (selectAfterFrameCrc st s)
    rcases hq with ⟨-, e⟩ | ⟨-, c, e, hc⟩
    · exact statusOk_complete e hlisted
    · exact statusOk_round (by simpa [ownsCrcSite] using ho) (.inr ⟨c, e, hc⟩)
  | sakCheck =>
    have hi : i = .select ∨ i = .readCardSerial := by simpa [ownsCrcSite] using ho
    have hother : Status.crcMismatch ∈ canReturn i ∧ Status.ok ∈ canReturn i ∧ Status.internalError ∈ canReturn i := by
      rcases hi with rfl | rfl <;> decide
    obtain ⟨hmismatch, hok, hinternal⟩ := hother
    obtain ⟨-, hq⟩ := selectAfterSakCrc_cases (knownBitsOf i x) x.uidInSize.toNat st s
    show statusOk i (selectAfterSakCrc (knownBitsOf i x) x.uidInSize.toNat st s)
    rcases hq with ⟨-, e⟩ | ⟨-, e | ⟨-, e⟩ | ⟨-, e⟩ | ⟨-, -, e⟩⟩
    · rw [e]; exact statusOk_complete rfl hlisted
    · rw [e]; exact statusOk_complete rfl hmismatch
    · rw [e]; exact statusOk_complete rfl hok
    · rw [e]; exact statusOk_complete rfl hinternal
    · exact statusOk_round hi e
  | haltFrame =>
    obtain rfl : i = .halt := by simpa [ownsCrcSite] using ho
    show statusOk .halt (haltAfterCrc st s)
    unfold haltAfterCrc
    split
    · exact statusOk_complete rfl hlisted
    · exact ⟨⟨fun _ _ => rfl, fun _ => rfl⟩, nofun⟩
  | readFrame =>
    obtain rfl : i = .readBlock := by simpa [ownsCrcSite] using ho
    show statusOk .readBlock (readBlockAfterCrc st s)
    unfold readBlockAfterCrc
    split
    · exact statusOk_complete rfl hlisted
    · exact ⟨⟨fun _ h => absurd rfl h, nofun⟩, nofun⟩

/-! ### The pure computation -/

/-- The exchange an operation opens with is of its own shape. -/
theorem openedAt_communicate {pos : CommPos} (h : openedAt i s (.communicate site c pos)) :
    pos = .idle ∧ callShape i c := by
  cases site <;> cases pos <;> simp_all [openedAt, callShape, authenticateCall]
  case selectRound => exact ⟨fun _ _ => h.2.checkCrc, by rcases h.1 with rfl | rfl <;> simp⟩

/-- An operation opens at a listed status of a failed check (R119), or at a call of its own shape. -/
theorem opening_statusOk (i : Instr) (s : State) : statusOk i (opening i s) := by
  have h := opening_seq i s
  unfold statusOk
  generalize (opening i s).seq = q at h ⊢
  cases q with
  | complete st => rcases h with ⟨rfl, rfl | rfl | rfl | rfl | rfl⟩ | ⟨rfl, rfl⟩ <;> decide
  | communicate site c pos =>
    obtain ⟨rfl, hc⟩ := openedAt_communicate h
    exact ⟨hc, nofun⟩
  | replyCrc | replyCrcNext | commNext => exact h.elim
  | _ => trivial

/-- The pure computation of a ComputeCrc goes on in it, or its caller does. -/
theorem crcResume_statusOk {here : CrcPos → Seq} {ret : Status → State → State} (data : List Byte) (k : CrcNext)
    (hhere : ∀ u q, statusOk i (State.withSeq u (here q)))
    (hret : ∀ u st, st = .ok ∨ st = .timeout → statusOk i (ret st u)) :
    statusOk i (crcResume here ret data k s) := by
  obtain ⟨n, -, ⟨q, -, -, e⟩ | ⟨-, e⟩ | ⟨-, e⟩⟩ := crcResume_cases here ret data k s <;> rw [e]
  · exact hhere _ _
  · exact hret _ _ (.inr rfl)
  · exact hret _ _ (.inl rfl)

/-- Steps 7 to 9 of Communicate return such a status, or call the CRC check's ComputeCrc, if it is asked for. -/
theorem afterReply_statusOk (ho : ownsCommSite i site = true) (hc : callShape i c) (s : State) :
    statusOk i (afterReply site (commReturn site) c s) := by
  rcases afterReply_cases site (commReturn site) c s with e | ⟨-, e⟩ | ⟨⟨hcheck, -⟩, e | e | ⟨-, -, e⟩⟩ <;> rw [e]
  · exact commReturn_statusOk (st := .collision) ho hc trivial _ _ _
  · exact commReturn_statusOk (st := .ok) ho hc trivial _ _ _
  · exact commReturn_statusOk (st := .mifareNack) ho hc hcheck _ _ _
  · exact commReturn_statusOk (st := .crcMismatch) ho hc hcheck _ _ _
  · exact ⟨hc, hcheck⟩

/-- The end of the CRC check returns such a status (R149). -/
theorem afterReplyCrc_statusOk (ho : ownsCommSite i site = true) (hc : callShape i c) (hcheck : c.checkCrc = true)
    (s : State) (h : st = .ok ∨ st = .timeout) : statusOk i (afterReplyCrc (commReturn site) c st s) := by
  obtain ⟨st', e, hst⟩ := afterReplyCrc_cases (commReturn site) c st s
  rw [e]
  refine commReturn_statusOk ho hc ?_ _ _ _
  rcases hst with ⟨-, rfl⟩ | ⟨-, rfl | rfl⟩
  · rcases h with rfl | rfl <;> trivial
  · exact hcheck
  · trivial

/-- The pure computation of a Communicate goes on in it, or its caller does. -/
theorem commResume_statusOk (ho : ownsCommSite i site = true) (hc : callShape i c) {k : CommNext}
    (hcap : (∃ v, k = .gotLevel v) → 0 < c.cap) (s : State) :
    statusOk i (commResume site (commReturn site) c k s) := by
  obtain ⟨x, -, h⟩ := commResume_cases site (commReturn site) c k s
  rcases h with ⟨q, hq, hlevel, e⟩ | e | ⟨e, -⟩ | ⟨e, hk⟩ | ⟨e, -⟩ <;> rw [e]
  · refine ⟨hc, fun hpos => ?_⟩
    rcases hpos with rfl | h
    · exact hq
    · exact hcap (hlevel h)
  · exact commReturn_statusOk (st := .timeout) ho hc trivial _ _ _
  · exact commReturn_statusOk (st := .genericError) ho hc trivial _ _ _
  · exact commReturn_statusOk (st := .bufferTooSmall) ho hc (hcap hk) _ _ _
  · exact afterReply_statusOk ho hc _

/-- The pure computation of an operation keeps the statuses it can still end with in its row. -/
theorem resume_statusOk (ho : owns i s.seq = true) (h : statusOk i s) : statusOk i (resume i s) := by
  have hst := h
  unfold statusOk at hst
  unfold resume
  split
  next => exact opening_statusOk i s
  next site data k hs =>
    rw [hs] at ho
    exact crcResume_statusOk data k (fun _ _ => trivial) fun u st hst => crcReturn_statusOk ho hst _ _
  next site c k hs =>
    rw [hs] at ho hst
    exact commResume_statusOk ho hst.1 (fun hk => hst.2 (.inl hk)) s
  next site c data k hs =>
    rw [hs] at ho hst
    obtain ⟨hc, hcheck⟩ := hst
    exact crcResume_statusOk data k (fun _ _ => ⟨hc, hcheck⟩) fun u st hst =>
      afterReplyCrc_statusOk ho hc hcheck u hst
  next hs =>
    rw [hs] at ho
    have hi : i ≠ .halt ∧ i ≠ .authenticate := by constructor <;> rintro rfl <;> cases ho
    exact ⟨⟨fun _ _ => rfl, fun h => absurd h (not_or.2 hi)⟩, nofun⟩
  next v hs =>
    rw [hs] at ho
    have hi : i = .select ∨ i = .readCardSerial := by simpa [owns] using ho
    obtain ⟨-, -, e | e | e⟩ := collResume_cases v s
    · exact statusOk_complete e (by rcases hi with rfl | rfl <;> decide)
    · exact statusOk_complete e (by rcases hi with rfl | rfl <;> decide)
    · exact statusOk_round hi e
  next => exact h

/-! ### The step at a bus primitive or the completion -/

/-- A transaction of a ComputeCrc goes on in it. -/
theorem crcStep_statusOk {here : CrcPos → Seq} {next : CrcNext → Seq} (data : List Byte) (pos : CrcPos)
    (hhere : ∀ u q, statusOk i (State.withSeq u (here q))) (hnext : ∀ u k, statusOk i (State.withSeq u (next k))) :
    statusOk i (crcStep here next data pos s) := by
  obtain ⟨u, -, -, -, -, ⟨q, -, -, e⟩ | ⟨k, -, e⟩⟩ := crcStep_cases here next data pos s <;> rw [e]
  · exact hhere _ _
  · exact hnext _ _

/-- A transaction of a Communicate goes on in it, the reply being read where one is expected. -/
theorem commStep_statusOk {pos : CommPos} (hc : callShape i c)
    (hcap : pos = .readLevel ∨ pos = .readData ∨ (∃ d, pos = .readControl d) → 0 < c.cap) :
    statusOk i (commStep site c pos s) := by
  obtain ⟨u, -, -, -, -, -, ⟨q, ⟨-, -, hlevel, hdata, hctl⟩, e⟩ | ⟨k, hk, hlevel, e⟩ | ⟨d, hd, e⟩⟩ :=
    commStep_cases site c pos s <;> rw [e]
  · refine ⟨hc, fun hq => ?_⟩
    rcases hq with h | h | ⟨d, h⟩
    · exact absurd h hlevel
    · exact absurd h hdata
    · exact hcap (.inr (.inl (hctl d h).1))
  · refine ⟨hc, fun h => ?_⟩
    rcases h with h | h
    · exact hcap (.inl (hlevel h))
    · exact absurd h hk
  · exact ⟨hc, fun _ => hcap (.inr (.inr ⟨d, hd⟩))⟩

/-- An access outside the engines ends no operation but STOP_CRYPTO, with OK (R250). -/
theorem access_statusOk {q : Seq} (hq : AccessSeq i s.seq q) (u : State) : statusOk i (u.withSeq q) := by
  unfold AccessSeq at hq
  split at hq
  case h_5 => obtain ⟨rfl, rfl⟩ := hq; exact statusOk_complete rfl (by decide)
  case h_9 => exact hq.elim
  all_goals exact trivial

/-- A step at a bus primitive or the completion keeps them there, and a completion is with one of them. -/
theorem PrimitiveStep.keeps_statusOk (hp : PrimitiveStep i s t) (h : statusOk i s) :
    statusOk i t ∧ (t.seq = .idle → ∃ st ∈ canReturn i, t.h.status = statusCode st) := by
  refine ⟨?_, fun hidle => ?_⟩
  · unfold statusOk at h
    cases hp with
    | computeCrc => exact crcStep_statusOk _ _ (fun _ _ => trivial) fun _ _ => trivial
    | communicate hs => rw [hs] at h; exact commStep_statusOk h.1 h.2
    | replyCrc hs => rw [hs] at h; exact crcStep_statusOk _ _ (fun _ _ => h) fun _ _ => h
    | access _ _ _ _ hq => exact access_statusOk hq _
    | complete => exact trivial
  · obtain ⟨st, hs, rfl⟩ := hp.of_idle hidle
    unfold statusOk at h
    rw [hs] at h
    exact ⟨st, h, rfl⟩

/-- Settles O58: a step is the pure computation and the step from there, and both keep the statuses an operation can end
with in its row. -/
theorem operationsReturnOnlyListedStatuses : Obligations.OperationsReturnOnlyListedStatuses := by
  unfold Obligations.OperationsReturnOnlyListedStatuses
  refine ⟨fun i s hs => ?_, fun s hs hd => ?_, fun i s t hs h he => ?_⟩
  · unfold statusOk
    rw [hs]
    trivial
  · exact ⟨_, sequencerTurn_reserved (by rw [hs]; nofun) hd, rfl, rfl⟩
  · obtain ⟨ho, -, hp⟩ := exec_cases hs he
    exact hp.keeps_statusOk (resume_statusOk ho h)

end Sys2Proof.Machine
end

/-! PROOF. What ends an operation and what stops the block (60_exceptions.md R291, R305, 70_reset_and_hazards.md R331): the
completion step of each operation, and that from a state that meets the invariant every turn is answered but for another
bus master's while BUSY. -/
section
namespace Sys2Proof.Machine

variable {i : Instr} {s : State}

/-! ### The completion step -/

/-- Settles O15: the completion step by `exec_complete`, its result writes on OK and on any other status. -/
theorem completionStep : Obligations.CompletionStep := by
  unfold Obligations.CompletionStep
  refine fun s st hs => ⟨?_, rfl, rfl, rfl, rfl, rfl, rfl, rfl, rfl, rfl⟩
  dsimp only
  refine ⟨fun i hi => ?_, ?_, ?_, ?_, ?_, ?_⟩ <;> rw [exec_complete hs]
  · rcases hi with rfl | rfl | rfl | rfl | rfl <;> rfl
  all_goals cases st <;> rfl

/-! ### No fault -/

/-- In a state that meets the invariant a running operation stands at a position of its own (R45). -/
theorem State.Inv.owns (h : s.Inv) (hs : s.seq ≠ .idle) (hd : decodeOp s.op = some i) : owns i s.seq = true := by
  rcases h.position with hidle | hstart | ⟨j, hj, ho⟩
  · exact absurd hidle hs
  · rw [hstart]; rfl
  · obtain rfl : j = i := Option.some.inj (hj.symm.trans hd)
    exact ho

/-- The sequencer answers its turn: the turn of an idle block, the step of its operation, or a reserved code's
completion. -/
theorem sequencerTurn_answered (h : s.Inv) : ∃ t, sequencerTurn s = .next t := by
  by_cases hs : s.seq = .idle
  · exact ⟨s, sequencerTurn_idle hs⟩
  · cases hd : decodeOp s.op with
    | none => exact ⟨_, sequencerTurn_reserved hs hd⟩
    | some i => rw [sequencerTurn_running hs hd]; exact exec_next_of_running (h.owns hs hd) hs

/-- Another bus master's turn while BUSY (R331). -/
def ForeignWhileBusy (s : State) : Prop := s.h.busy = true ∧ ∃ tx rest, s.agenda = .foreign tx :: rest

/-- Every turn is answered, or it is refused as another bus master's while BUSY. -/
theorem step_answered (h : s.Inv) :
    (∃ t, step s = .next t) ∨ step s = .refused .foreignBusMaster ∧ ForeignWhileBusy s := by
  have hturn : ∀ rest, ∃ t, sequencerTurn (s.withAgenda rest) = .next t := fun rest =>
    sequencerTurn_answered (h.observed rest s.foreign s.reads)
  cases ha : s.agenda with
  | nil => rw [step_sequencer ha]; exact .inl (sequencerTurn_answered h)
  | cons turn rest =>
    cases turn with
    | sequencer => simp only [step, ha]; exact .inl (hturn rest)
    | untilIdle =>
      simp only [step, ha, untilIdleTurn]
      split
      · exact .inl ⟨_, rfl⟩
      · exact .inl (sequencerTurn_answered h)
    | write off v => exact .inl ⟨_, step_write ha⟩
    | read off => exact .inl ⟨_, step_read ha⟩
    | wait => simp only [step, ha]; exact .inl ⟨_, rfl⟩
    | reset => exact .inl ⟨_, step_reset ha⟩
    | foreign tx =>
      by_cases hb : s.h.busy = true
      · exact .inr ⟨step_foreign_while_busy hb ha, hb, tx, rest, ha⟩
      · simp only [step, ha, foreignTurn]
        exact .inl ⟨_, if_neg hb⟩

/-- Settles O57: by `step_answered`. -/
theorem noFaultUnderInvariant : Obligations.NoFaultUnderInvariant := by
  unfold Obligations.NoFaultUnderInvariant
  intro s h
  rcases step_answered h with ⟨t, e⟩ | ⟨e, hforeign⟩ <;> rw [e]
  · exact ⟨nofun, nofun⟩
  · exact ⟨nofun, fun _ _ => hforeign⟩

end Sys2Proof.Machine
end

/-! PROOF. Every operation terminates (40_communicate.md R154, 41_select.md R194, 42_crc.md R216, 60_exceptions.md
R306): a bound on the steps of a ComputeCrc, of a Communicate and of a selection, each over what its caller does after
the return, whatever the environment answers. -/
section
namespace Sys2Proof.Machine

/-- The operation, standing at `s`, completes within `k` of its steps. -/
inductive EndsWithin (i : Instr) : Nat → State → Prop where
  | completes {k : Nat} {s t : State} (he : exec i s = .next t) (ht : t.seq = .idle) : EndsWithin i (k + 1) s
  | goesOn {k : Nat} {s t : State} (he : exec i s = .next t) (ht : t.seq ≠ .idle) (h : EndsWithin i k t) :
      EndsWithin i (k + 1) s

variable {i : Instr} {s t u : State} {k m n : Nat}

/-! ### Steps -/

theorem EndsWithin.mono (h : EndsWithin i k s) (hk : k ≤ n) : EndsWithin i n s := by
  induction h generalizing n with
  | completes he ht =>
    obtain ⟨j, rfl⟩ := Nat.exists_eq_succ_of_ne_zero (n := n) (by omega)
    exact .completes he ht
  | goesOn he ht _ ih =>
    obtain ⟨j, rfl⟩ := Nat.exists_eq_succ_of_ne_zero (n := n) (by omega)
    exact .goesOn he ht (ih (by omega))

theorem EndsWithin.of_exec_eq (h : EndsWithin i k u) (he : exec i s = exec i u) : EndsWithin i k s := by
  cases h with
  | completes hu ht => exact .completes (he.trans hu) ht
  | goesOn hu ht h => exact .goesOn (he.trans hu) ht h

/-- Pure computation is part of the step it comes before (R11). -/
theorem EndsWithin.of_resume (h : EndsWithin i k (resume i s)) (ho : owns i s.seq = true) (hs : s.seq ≠ .idle) :
    EndsWithin i k s := h.of_exec_eq (exec_resume ho hs)

theorem endsWithin_complete {st : Status} (hs : s.seq = .complete st) (hk : 1 ≤ k) : EndsWithin i k s :=
  .mono (.completes (k := 0) (exec_complete hs) rfl) hk

theorem runSequencer_idle (hs : s.seq = .idle) : runSequencer k s = .next s := by
  induction k with
  | zero => rfl
  | succ k ih => rw [runSequencer, sequencerTurn_idle hs]; exact ih

/-- The sequencer has come to rest after at most `k` steps from `s`, with DONE set (R26, R306). -/
def RestsWithin (k : Nat) (s : State) : Prop :=
  ∃ t, runSequencer k s = .next t ∧ t.seq = .idle ∧ t.h.busy = false ∧ t.h.done = true ∧
    t.bus.length ≤ s.bus.length + k

/-- The sequencer runs the latched operation to its completion, with at most one transaction a step. -/
theorem EndsWithin.rests (h : EndsWithin i k s) (hs : s.seq ≠ .idle) (hd : decodeOp s.op = some i) :
    RestsWithin k s := by
  induction h with
  | @completes k s t he ht =>
    refine ⟨t, by rw [runSequencer, sequencerTurn_running hs hd, he]; exact runSequencer_idle ht, ht, ?_⟩
    cases (exec_result hs he).2 with
    | running hseq | retrieved _ _ _ hseq => exact absurd ht hseq
    | completed hc => exact ⟨hc.busy, hc.done, by rw [hc.bus]; omega⟩
  | @goesOn k s t he ht _ ih =>
    obtain ⟨hkept, hr⟩ := exec_result hs he
    have hbus : t.bus.length ≤ s.bus.length + 1 := by
      cases hr with
      | running _ hbus => obtain ⟨tx, hbus⟩ := hbus; rw [hbus]; exact Nat.le_refl _
      | retrieved _ _ _ _ hbus => rw [hbus]; exact Nat.le_refl _
      | completed hc => rw [hc.bus]; omega
    obtain ⟨v, hv, hidle, hbusy, hdone, hlen⟩ := ih ht (hkept.op ▸ hd)
    exact ⟨v, by rw [runSequencer, sequencerTurn_running hs hd, he]; exact hv, hidle, hbusy, hdone, by omega⟩

/-! ### ComputeCrc -/

/-- What an engine leaves alone that the bound of a selection depends on. -/
def Kept (s u : State) : Prop := u.params = s.params ∧ u.sel.level = s.sel.level ∧ u.sel.lk = s.sel.lk

theorem Kept.params (h : Kept s u) : u.params = s.params := h.1

theorem Kept.level (h : Kept s u) : u.sel.level = s.sel.level := h.2.1

theorem Kept.known (h : Kept s u) : u.sel.lk = s.sel.lk := h.2.2

theorem Kept.refl (s : State) : Kept s s := ⟨rfl, rfl, rfl⟩

theorem Kept.trans (h : Kept s t) (h' : Kept t u) : Kept s u :=
  ⟨h'.params.trans h.params, h'.level.trans h.level, h'.known.trans h.known⟩

theorem Quiet.kept (h : Quiet s u) : Kept s u := ⟨h.params, congrArg _ h.sel, congrArg _ h.sel⟩

/-- The steps of a ComputeCrc at most: eight transactions and the polls (R216). -/
def crcBound (p : Params) : Nat := p.crcPollBudget + 8

section Crc

variable {caller : CrcCaller} {data : List Byte}

/-- A transaction of a ComputeCrc is one step. -/
theorem endsWithin_crcStep {pos : CrcPos} (ho : caller.owned i = true) (hs : s.seq = caller.here data pos)
    (h : ∀ t, Kept s t → t.seq = (crcStep (caller.here data) (caller.next data) data pos s).seq →
      t.crc.crcPoll = (crcStep (caller.here data) (caller.next data) data pos s).crc.crcPoll → EndsWithin i k t) :
    EndsWithin i (k + 1) s := by
  have he : exec i s = .next (crcStep (caller.here data) (caller.next data) data pos s) := by
    cases caller with
    | operation site => exact exec_computeCrc ho hs
    | reply site c => exact exec_replyCrc ho hs
  obtain ⟨u, q, e, hq, hu, -⟩ := crcStep_quiet (P := (· ≠ .idle)) (here := caller.here data)
    (next := caller.next data) (by cases caller <;> exact fun _ => nofun) (by cases caller <;> exact fun _ => nofun)
    data pos s
  rw [e] at he h
  exact .goesOn he hq (h _ hu.kept rfl rfl)

theorem endsWithin_crcNext {n : CrcNext} (ho : caller.owned i = true) (hs : s.seq = caller.next data n)
    (h : ∀ x, EndsWithin i k (crcResume (caller.here data) (caller.ret i x) data n s)) : EndsWithin i k s := by
  cases caller with
  | operation site =>
    exact .of_resume (by rw [resume_crcNext hs]; exact h s.h) (by rw [hs]; exact ho) (by rw [hs]; nofun)
  | reply site c =>
    exact .of_resume (by rw [resume_replyCrcNext hs]; exact h s.h) (by rw [hs]; exact ho) (by rw [hs]; nofun)

/-- From whatever a ComputeCrc returns to its caller the operation ends within `m` steps. -/
def CrcReturnEnds (i : Instr) (caller : CrcCaller) (m : Nat) (s : State) : Prop :=
  ∀ u x st, Kept s u → EndsWithin i m (caller.ret i x st u)

theorem CrcReturnEnds.of_kept (h : CrcReturnEnds i caller m s) (hu : Kept s u) : CrcReturnEnds i caller m u :=
  fun _ x st hv => h _ x st (hu.trans hv)

/-- The unit is stopped and its result read (R213). -/
theorem endsWithin_crcRead (ho : caller.owned i = true) (hs : s.seq = caller.here data .stop)
    (hret : CrcReturnEnds i caller m s) : EndsWithin i (m + 3) s :=
  endsWithin_crcStep ho hs fun _ ht hs _ => endsWithin_crcStep (pos := .readLo) ho hs fun _ hu hs _ =>
    endsWithin_crcStep (pos := .readHi) ho hs fun _ hv hs _ => endsWithin_crcNext (n := .finished) ho hs fun _ =>
      hret _ _ _ ((ht.trans hu).trans hv)

/-- The poll loop, by the polls that are left of its budget (R212, R213). -/
theorem endsWithin_crcPolls (ho : caller.owned i = true) (hleft : s.crc.crcPoll + n = s.params.crcPollBudget)
    (hret : CrcReturnEnds i caller m s) (x : HostRegs) :
    EndsWithin i (n + (m + 3)) (crcPollHead (caller.here data) (caller.ret i x) s) := by
  induction n generalizing s x with
  | zero =>
    rw [crcPollHead, if_pos (by omega)]
    exact (hret s _ _ (.refl s)).mono (by omega)
  | succ n ih =>
    rw [crcPollHead, if_neg (by omega), Nat.add_right_comm]
    refine endsWithin_crcStep (pos := .poll) ho rfl fun t ht hs hpoll => endsWithin_crcNext ho hs fun x => ?_
    have ht : Kept s t := ht
    have hpoll : t.crc.crcPoll = s.crc.crcPoll + 1 := hpoll
    rw [crcResume]
    split
    · exact (endsWithin_crcRead (s := t.withSeq _) ho rfl (hret.of_kept ht)).mono (by omega)
    · exact ih (by rw [hpoll, ht.params]; omega) (hret.of_kept ht) x

/-- A ComputeCrc, whoever calls it, returns within its bound. -/
theorem endsWithin_crc {p : Params} (hp : s.params = p) (ho : caller.owned i = true)
    (hs : s.seq = caller.here data .idle) (hret : CrcReturnEnds i caller m s) :
    EndsWithin i (crcBound p + m) s := by
  subst hp
  have started : ∀ u, Kept s u → u.seq = caller.here data .start →
      EndsWithin i (s.params.crcPollBudget + (m + 3) + 1) u := fun u hu hs =>
    endsWithin_crcStep ho hs fun t ht hs _ => endsWithin_crcNext ho hs fun x =>
      have hbudget : 0 + s.params.crcPollBudget = t.params.crcPollBudget := by rw [(hu.trans ht).params, Nat.zero_add]
      endsWithin_crcPolls (s := t.withCrc { t.crc with crcPoll := 0 }) ho hbudget (hret.of_kept (hu.trans ht)) x
  have begun : EndsWithin i (s.params.crcPollBudget + (m + 3) + 2 + 3) s := by
    refine endsWithin_crcStep ho hs fun t ht hs _ => endsWithin_crcStep (pos := .clearDone) ho hs fun u hu hs _ =>
      endsWithin_crcStep (pos := .flush) ho hs fun v hv hs _ => endsWithin_crcNext (n := .flushed) ho hs fun x => ?_
    have hv := (ht.trans hu).trans hv
    rw [crcResume]
    split
    · exact .mono (started _ hv rfl) (by omega)
    · exact endsWithin_crcStep (pos := .load) ho rfl fun w hw hs _ => started w (hv.trans hw) hs
  exact begun.mono (by rw [crcBound]; omega)

end Crc

/-! ### Communicate -/

/-- The steps of an exchange at most: twelve transactions and the polls (R154). -/
def exchangeBound (p : Params) : Nat := p.irqPollBudget + 12

/-- The steps of its CRC check, if it is asked for. -/
def checkBound (p : Params) (c : CommCall) : Nat := if c.checkCrc then crcBound p else 0

section Communicate

variable {site : CommSite} {c : CommCall}

theorem kept_storeReply (c : CommCall) (d : List Byte) (n vb : Nat) (s : State) : Kept s (storeReply c d n vb s) := by
  unfold storeReply
  cases c.dest <;> exact ⟨rfl, rfl, rfl⟩

theorem commStep_kept (site : CommSite) (c : CommCall) (pos : CommPos) (s : State) :
    Kept s (commStep site c pos s) ∧ (commStep site c pos s).seq ≠ .idle := by
  obtain ⟨u, hu, -, -, -, -, ⟨q, -, e⟩ | ⟨n, -, -, e⟩ | ⟨d, -, e⟩⟩ := commStep_cases site c pos s <;> rw [e]
  · exact ⟨hu.kept, nofun⟩
  · exact ⟨hu.kept, nofun⟩
  · exact ⟨hu.kept.trans (kept_storeReply c d u.comm.cn u.comm.cvb u), nofun⟩

/-- A transaction of a Communicate is one step. -/
theorem endsWithin_commStep {pos : CommPos} (ho : ownsCommSite i site = true) (hs : s.seq = .communicate site c pos)
    (h : ∀ t, Kept s t → t.seq = (commStep site c pos s).seq →
      t.comm.irqPoll = (commStep site c pos s).comm.irqPoll → EndsWithin i k t) : EndsWithin i (k + 1) s :=
  have ⟨hkept, hidle⟩ := commStep_kept site c pos s
  .goesOn (exec_communicate ho hs) hidle (h _ hkept rfl rfl)

theorem endsWithin_commNext {n : CommNext} (ho : ownsCommSite i site = true) (hs : s.seq = .commNext site c n)
    (h : EndsWithin i k (commResume site (commReturn site) c n s)) : EndsWithin i k s :=
  .of_resume (by rwa [resume_commNext hs]) (by rw [hs]; exact ho) (by rw [hs]; nofun)

/-- From whatever a Communicate returns to its caller the operation ends within `m` steps. -/
def CommReturnEnds (i : Instr) (site : CommSite) (m : Nat) (s : State) : Prop :=
  ∀ u st n vb, Kept s u → EndsWithin i m (commReturn site st n vb u)

theorem CommReturnEnds.of_kept (h : CommReturnEnds i site m s) (hu : Kept s u) : CommReturnEnds i site m u :=
  fun _ st n vb hv => h _ st n vb (hu.trans hv)

/-- Steps 7 to 9 return, at the latest after the CRC check (R148, R149). -/
theorem endsWithin_afterReply (ho : ownsCommSite i site = true) (hret : CommReturnEnds i site m s) :
    EndsWithin i (checkBound s.params c + m) (afterReply site (commReturn site) c s) := by
  have returned : ∀ st n vb, EndsWithin i (checkBound s.params c + m) (commReturn site st n vb s) := fun st n vb =>
    (hret s _ _ _ (.refl s)).mono (Nat.le_add_left _ _)
  rcases afterReply_cases site (commReturn site) c s with e | ⟨-, e⟩ | ⟨⟨hcheck, -⟩, e | e | ⟨-, -, e⟩⟩ <;> rw [e]
  case inr.inr.inr.inr =>
    rw [checkBound, if_pos hcheck]
    refine endsWithin_crc (caller := .reply site c) rfl ho rfl fun u x st hu => ?_
    obtain ⟨st', e, -⟩ := afterReplyCrc_cases (commReturn site) c st u
    rw [CrcCaller.ret, e]
    exact hret _ _ _ _ hu
  all_goals exact returned _ _ _

/-- The reply is stored with the ControlReg read (R147). -/
theorem endsWithin_readControl {d : List Byte} (ho : ownsCommSite i site = true)
    (hs : s.seq = .communicate site c (.readControl d)) (hret : CommReturnEnds i site m s) :
    EndsWithin i (checkBound s.params c + m + 1) s :=
  endsWithin_commStep ho hs fun t ht hs _ => endsWithin_commNext (n := .stored) ho hs <| by
    rw [← ht.params]
    exact endsWithin_afterReply ho (hret.of_kept ht)

/-- After the ErrorReg read there are at most three more transactions (R146, R147). -/
theorem endsWithin_gotError (ho : ownsCommSite i site = true) (hs : s.seq = .commNext site c .gotError)
    (hret : CommReturnEnds i site m s) : EndsWithin i (checkBound s.params c + m + 3) s := by
  refine endsWithin_commNext ho hs ?_
  rw [commResume]
  split
  · exact (hret s _ _ _ (.refl s)).mono (by omega)
  · dsimp only
    split
    · refine endsWithin_commStep (pos := .readLevel) ho rfl fun t ht hs _ => endsWithin_commNext ho hs ?_
      have ht : Kept s t := ht
      have hcontrol : ∀ u d, Kept t u → u.seq = .communicate site c (.readControl d) →
          EndsWithin i (checkBound s.params c + m + 1) u := fun u d hu hs => by
        rw [← (ht.trans hu).params]
        exact endsWithin_readControl ho hs (hret.of_kept (ht.trans hu))
      rw [commResume]
      dsimp only
      split
      · exact (hret t _ _ _ ht).mono (by omega)
      · split
        · exact .mono (hcontrol _ [] (.refl t) rfl) (Nat.le_succ _)
        · exact endsWithin_commStep (pos := .readData) ho rfl fun u hu hs _ => hcontrol u _ hu hs
    · exact .mono (endsWithin_afterReply ho (hret.of_kept (.refl s))) (Nat.le_add_right _ 3)

/-- The poll loop, by the polls that are left of its budget (R146). -/
theorem endsWithin_irqPolls (ho : ownsCommSite i site = true) (hleft : s.comm.irqPoll + n = s.params.irqPollBudget)
    (hret : CommReturnEnds i site m s) :
    EndsWithin i (n + (checkBound s.params c + m + 4)) (irqPollHead site (commReturn site) c s) := by
  induction n generalizing s with
  | zero =>
    rw [irqPollHead, if_pos (by omega)]
    exact (hret s _ _ _ (.refl s)).mono (by omega)
  | succ n ih =>
    rw [irqPollHead, if_neg (by omega), Nat.add_right_comm]
    refine endsWithin_commStep (pos := .poll) ho rfl fun t ht hs hpoll => endsWithin_commNext ho hs ?_
    have ht : Kept s t := ht
    have hpoll : t.comm.irqPoll = s.comm.irqPoll + 1 := hpoll
    rw [commResume, ← ht.params]
    dsimp only
    split
    · refine EndsWithin.mono (k := checkBound t.params c + m + 3 + 1) ?_ (by omega)
      refine endsWithin_commStep (pos := .readError) ho rfl fun u hu hs _ => ?_
      have hu : Kept t u := hu
      rw [← hu.params]
      exact endsWithin_gotError ho hs (hret.of_kept (ht.trans hu))
    · split
      · exact (hret t _ _ _ ht).mono (by omega)
      · exact ih (by rw [hpoll, ht.params]; omega) (hret.of_kept ht)

/-- A Communicate, whoever calls it, returns within its bound. -/
theorem endsWithin_exchange {p : Params} (hp : s.params = p) (ho : ownsCommSite i site = true)
    (hs : s.seq = .communicate site c .idle) (hret : CommReturnEnds i site m s) :
    EndsWithin i (exchangeBound p + (checkBound p c + m)) s := by
  subst hp
  obtain ⟨b, hb⟩ : ∃ b, b = s.params.irqPollBudget + (checkBound s.params c + m + 4) := ⟨_, rfl⟩
  have polls : ∀ u, Kept s u → EndsWithin i b (irqPollEnter site (commReturn site) c u) := fun u hu => by
    rw [hb, ← hu.params]
    exact endsWithin_irqPolls (s := u.withComm { u.comm with irqPoll := 0 }) ho (Nat.zero_add u.params.irqPollBudget)
      (hret.of_kept hu)
  have sent : ∀ u, Kept s u → u.seq = .commNext site c .sent → EndsWithin i (b + 2) u := by
    refine fun u hu hs => endsWithin_commNext ho hs ?_
    rw [commResume]
    split
    · exact endsWithin_commStep (pos := .kickRead) ho rfl fun v hv hs _ =>
        endsWithin_commStep (pos := .kickWrite _) ho hs fun w hw hs _ => endsWithin_commNext (n := .kicked) ho hs <|
          polls w ((hu.trans hv).trans hw)
    · exact (polls u hu).mono (by omega)
  have framed : ∀ u, Kept s u → u.seq = .communicate site c .framing → EndsWithin i (b + 4) u := fun u hu hs =>
    endsWithin_commStep ho hs fun v hv hs _ => endsWithin_commStep (pos := .command) ho hs fun w hw hs _ =>
      sent w ((hu.trans hv).trans hw) hs
  rw [show exchangeBound s.params + (checkBound s.params c + m) = b + 8 by rw [exchangeBound]; omega]
  refine endsWithin_commStep ho hs fun t ht hs _ => endsWithin_commStep (pos := .clearIrqs) ho hs fun u hu hs _ =>
    endsWithin_commStep (pos := .flush) ho hs fun v hv hs _ => endsWithin_commNext (n := .flushed) ho hs ?_
  have hv := (ht.trans hu).trans hv
  rw [commResume]
  dsimp only
  split
  · exact .mono (framed _ hv rfl) (by omega)
  · exact endsWithin_commStep (pos := .load) ho rfl fun w hw hs _ => framed w (hv.trans hw) hs

/-- One that asks for no CRC check returns after the exchange. -/
theorem endsWithin_exchange_unchecked {p : Params} (hp : s.params = p) (ho : ownsCommSite i site = true)
    (hs : s.seq = .communicate site c .idle) (hcheck : c.checkCrc = false) (hret : CommReturnEnds i site m s) :
    EndsWithin i (exchangeBound p + m) s :=
  (endsWithin_exchange hp ho hs hret).mono (by simp [checkBound, hcheck])

end Communicate

/-! ### Selection -/

/-- The steps of a cascade level at most: an exchange and a CollReg read for each of 32 collisions, the exchange of the
full-level frame, and the checksums of that frame and of the SAK (R194). -/
def levelBound (p : Params) : Nat := 32 * (exchangeBound p + 1) + exchangeBound p + 2 * crcBound p

section Selection

variable {p : Params} {level : Nat} (hi : i = .select ∨ i = .readCardSerial) (hp : p.wf = true)

include hp in
/-- What follows the CollReg read ends the operation, or makes more bits known and starts the next round (R187 to
R190). -/
theorem endsWithin_collResume (hsp : s.params = p) (hk : 1 ≤ k)
    (hround : ∀ pos, s.sel.lk < pos → pos ≤ 32 → EndsWithin i k (selectRound (resolved pos s))) (v : Byte) :
    EndsWithin i k (collResume v s) := by
  cases hv : collPosUnknown s.params v with
  | true => rw [collResume_unknown hv]; exact endsWithin_complete rfl hk
  | false =>
    rcases Nat.lt_or_ge s.sel.lk (collPosition s.params v) with h | h
    · rw [collResume_progress hv h]
      exact hround _ h (collPosition_le (hsp ▸ hp) v)
    · rw [collResume_contradiction hv h]
      exact endsWithin_complete rfl hk

include hi

theorem endsWithin_readColl (hs : s.seq = .readColl) (h : ∀ v t, Kept s t → EndsWithin i k (collResume v t)) :
    EndsWithin i (k + 1) s := by
  obtain ⟨-, -, -, hown⟩ := selection_owns hi
  refine .goesOn (exec_readColl hi hs) nofun (.of_resume ?_ (hown _) nofun)
  rw [resume_gotColl rfl]
  exact h _ _ (.refl s)

/-- What follows the exchange of a round (R183 to R186). -/
theorem endsWithin_afterExchange (hcoll : ∀ v t, Kept s t → EndsWithin i k (collResume v t))
    (hfull : 32 ≤ s.sel.lk → ∀ t, Kept s t → EndsWithin i (k + 1) (levelResolved t))
    (hround : s.sel.lk < 32 → ∀ t, t.params = s.params → t.sel.level = s.sel.level → 32 ≤ t.sel.lk →
      EndsWithin i (k + 1) (selectRound t)) (st : Status) (n vb : Nat) :
    EndsWithin i (k + 1) (selectAfterExchange st n vb s) := by
  unfold selectAfterExchange
  dsimp only
  split
  · exact endsWithin_readColl hi rfl fun v t ht => hcoll v t ht
  · split
    · exact endsWithin_complete rfl (Nat.le_add_left 1 k)
    · split
      next h => exact hfull h _ (.refl s)
      next h => exact hround (Nat.lt_of_not_le h) _ rfl rfl (Nat.le_refl 32)

/-- What follows the SAK's CRC at a cascade level ends within `m` steps, whatever the card sent. -/
def SakEnds (i : Instr) (p : Params) (level m : Nat) : Prop :=
  ∀ u k decl st, u.params = p → u.sel.level = level → EndsWithin i m (selectAfterSakCrc k decl st u)

/-- A resolved level ends with the CRC of its SAK (R191, R192). -/
theorem endsWithin_levelResolved (hsak : SakEnds i p level m) (hsp : s.params = p) (hlevel : s.sel.level = level) :
    EndsWithin i (crcBound p + m) (levelResolved s) := by
  obtain ⟨-, -, ho, -⟩ := selection_owns hi
  unfold levelResolved
  dsimp only
  split
  · exact endsWithin_complete rfl (by rw [crcBound]; omega)
  · exact endsWithin_crc (caller := .operation .sakCheck) hsp ho rfl fun u x st hu =>
      hsak u _ _ st (hu.params.trans hsp) (hu.level.trans hlevel)

include hp

/-- The exchange of the full-level frame is the last of its level: a collision in it is a contradiction (R189, R191). -/
theorem endsWithin_fullExchange (hsak : SakEnds i p level m) (hsp : s.params = p) (hlevel : s.sel.level = level)
    (hlk : 32 ≤ s.sel.lk) : EndsWithin i (exchangeBound p + (crcBound p + m)) (selectExchange s) := by
  obtain ⟨ho, -⟩ := selection_owns hi
  have hret : CommReturnEnds i .selectRound (crcBound p + m) (selectExchange s) := by
    intro u st n vb hu
    have hup : u.params = p := hu.params.trans hsp
    have hul : u.sel.level = level := hu.level.trans hlevel
    have huk : 32 ≤ u.sel.lk := hlk.trans_eq hu.known.symm
    show EndsWithin i (p.crcPollBudget + 8 + m) (selectAfterExchange st n vb u)
    rw [Nat.add_right_comm]
    refine endsWithin_afterExchange (k := p.crcPollBudget + m + 7) hi (fun v t ht => ?_) (fun _ t ht => ?_)
      (fun h => absurd huk (Nat.not_le.2 h)) st n vb
    · exact endsWithin_collResume hp (ht.params.trans hup) (by omega)
        (fun pos h h32 => absurd (ht.known ▸ h) (by omega)) v
    · exact (endsWithin_levelResolved hi hsak (ht.params.trans hup) (ht.level.trans hul)).mono (by rw [crcBound]; omega)
  exact endsWithin_exchange_unchecked hsp ho rfl rfl hret

/-- The rounds from 32 known bits on: the full-level frame's CRC, its exchange, and the SAK's CRC (R178, R179, R191). -/
theorem endsWithin_fullRound (hsak : SakEnds i p level m) (hsp : s.params = p) (hlevel : s.sel.level = level)
    (hlk : 32 ≤ s.sel.lk) : EndsWithin i (exchangeBound p + 2 * crcBound p + m) (selectRound s) := by
  obtain ⟨-, ho, -, -⟩ := selection_owns hi
  rw [selectRound_full hlk]
  refine EndsWithin.mono (k := crcBound p + (exchangeBound p + (crcBound p + m))) ?_ (by omega)
  refine endsWithin_crc (caller := .operation .fullFrame) hsp ho rfl fun u x st hu => ?_
  show EndsWithin i _ (selectAfterFrameCrc st u)
  unfold selectAfterFrameCrc
  split
  · exact endsWithin_complete rfl (by rw [crcBound]; omega)
  · exact endsWithin_fullExchange hi hp hsak (hu.params.trans hsp) (hu.level.trans hlevel) (hlk.trans_eq hu.known.symm)

/-- Each collision makes one more bit known at least, so there are no more rounds than unknown bits and one (R190,
R194). -/
theorem endsWithin_rounds (hsak : SakEnds i p level m) (hsp : s.params = p) (hlevel : s.sel.level = level)
    (hleft : 32 ≤ s.sel.lk + n) :
    EndsWithin i (n * (exchangeBound p + 1) + (exchangeBound p + 2 * crcBound p + m)) (selectRound s) := by
  obtain ⟨ho, -⟩ := selection_owns hi
  induction n generalizing s with
  | zero => exact (endsWithin_fullRound hi hp hsak hsp hlevel hleft).mono (by omega)
  | succ n ih =>
    rcases Nat.lt_or_ge s.sel.lk 32 with hlk | hlk
    · rw [selectRound_partial hlk]
      refine EndsWithin.mono (k := exchangeBound p + (n * (exchangeBound p + 1) +
        (exchangeBound p + 2 * crcBound p + m) + 1)) ?_ (by rw [Nat.succ_mul n]; omega)
      refine endsWithin_exchange_unchecked hsp ho rfl rfl fun u st vn vb hu => ?_
      have hup : u.params = p := hu.params.trans hsp
      have hul : u.sel.level = level := hu.level.trans hlevel
      have huk : u.sel.lk = s.sel.lk := hu.known
      refine endsWithin_afterExchange hi (fun v t ht => ?_) (fun h => absurd h (by omega))
        (fun _ t htp htl htk => ?_) st vn vb
      · refine endsWithin_collResume hp (ht.params.trans hup) (by rw [exchangeBound]; omega) (fun pos h h32 => ?_) v
        rw [ht.known] at h
        exact ih (s := resolved pos t) (ht.params.trans hup) (ht.level.trans hul) (show 32 ≤ pos + n by omega)
      · exact (ih (htp.trans hup) (htl.trans hul) (by omega)).mono (Nat.le_succ _)
    · exact (endsWithin_fullRound hi hp hsak hsp hlevel hlk).mono (Nat.le_add_left _ _)

/-- A level, from its start on. -/
theorem endsWithin_level (hsak : SakEnds i p level m) (hsp : s.params = p) (hlevel : s.sel.level = level)
    (k decl : Nat) : EndsWithin i (levelBound p + m) (selectLevel k decl s) := by
  refine (endsWithin_rounds (s := s.withSel (levelStart s.params k decl s.sel)) (n := 32) hi hp hsak hsp hlevel
    (Nat.le_add_left 32 _)).mono ?_
  rw [levelBound]
  omega

omit hi hp in
/-- What follows the SAK's CRC, by what the next level needs, if there is one (R192, R195). -/
theorem sakEnds_of_next (hm : 1 ≤ m)
    (hnext : level ≠ 3 → ∀ u k decl, u.params = p → u.sel.level = level + 1 → EndsWithin i m (selectLevel k decl u)) :
    SakEnds i p level m := by
  intro u k decl st hup hul
  unfold selectAfterSakCrc
  split
  · exact endsWithin_complete rfl hm
  · split
    · exact endsWithin_complete rfl hm
    · split
      · split
        · exact endsWithin_complete rfl hm
        next h => exact hnext (hul ▸ h) _ k decl hup (congrArg (· + 1) hul)
      · exact endsWithin_complete rfl hm

/-- There are at most three levels (R195). -/
theorem sakEnds_levels (hlevel : level + n = 3) : SakEnds i p level (n * levelBound p + 1) := by
  induction n generalizing level with
  | zero => exact sakEnds_of_next (by omega) fun h => absurd hlevel h
  | succ n ih =>
    refine sakEnds_of_next (by omega) fun _ u k decl hup hul => ?_
    exact (endsWithin_level hi hp (ih (by omega)) hup hul k decl).mono (by rw [Nat.succ_mul]; omega)

end Selection

/-! ### The operations -/

/-- After any exchange but the resolver's the operation ends (R150, R233, R239, R245, R256). -/
theorem endsWithin_lastExchange {p : Params} {site : CommSite} {c : CommCall} (hp : s.params = p)
    (hsite : site ≠ .selectRound) (ho : ownsCommSite i site = true) (hs : s.seq = .communicate site c .idle) :
    EndsWithin i (exchangeBound p + crcBound p + 1) s := by
  have hret : CommReturnEnds i site 1 s := by
    intro u st n vb _
    cases site with
    | selectRound => exact absurd rfl hsite
    | request =>
      show EndsWithin i 1 (requestAfterExchange st n vb u)
      unfold requestAfterExchange
      split
      · exact endsWithin_complete rfl (Nat.le_refl 1)
      · split <;> exact endsWithin_complete rfl (Nat.le_refl 1)
    | host | halt | authenticate | readBlock => exact endsWithin_complete rfl (Nat.le_refl 1)
  refine (endsWithin_exchange hp ho hs hret).mono ?_
  rw [checkBound]
  split <;> omega

/-- A frame's CRC is followed by its exchange (R238, R254), the CRC of CALC_CRC by nothing (R214). -/
theorem endsWithin_firstCrc {p : Params} {site : CrcSite} {data : List Byte} (hp : s.params = p)
    (hsite : site ≠ .fullFrame ∧ site ≠ .sakCheck) (ho : ownsCrcSite i site = true)
    (hs : s.seq = .computeCrc site data .idle) :
    EndsWithin i (exchangeBound p + 2 * crcBound p + 1) s := by
  have hret : CrcReturnEnds i (.operation site) (exchangeBound p + crcBound p + 1) s := by
    intro u x st hu
    cases site with
    | fullFrame => exact absurd rfl hsite.1
    | sakCheck => exact absurd rfl hsite.2
    | calcCrc => exact endsWithin_complete rfl (Nat.le_add_left _ _)
    | haltFrame =>
      obtain rfl : i = .halt := by simpa [ownsCrcSite] using ho
      show EndsWithin .halt _ (haltAfterCrc st u)
      unfold haltAfterCrc
      split
      · exact endsWithin_complete rfl (Nat.le_add_left _ _)
      · exact endsWithin_lastExchange (site := .halt) (hu.params.trans hp) nofun rfl rfl
    | readFrame =>
      obtain rfl : i = .readBlock := by simpa [ownsCrcSite] using ho
      show EndsWithin .readBlock _ (readBlockAfterCrc st u)
      unfold readBlockAfterCrc
      split
      · exact endsWithin_complete rfl (Nat.le_add_left _ _)
      · exact endsWithin_lastExchange (site := .readBlock) (hu.params.trans hp) nofun rfl rfl
  exact (endsWithin_crc (caller := .operation site) hp ho hs hret).mono (by omega)

/-- A request clears ValuesAfterColl and makes its exchange (R231, R232). -/
theorem endsWithin_request {p : Params} (hi : i = .requestOrWakeup ∨ i = .isNewCardPresent) (hp : s.params = p)
    (hs : s.seq = .clearCollRead) : EndsWithin i (exchangeBound p + crcBound p + 3) s := by
  have ho : ownsCommSite i .request = true ∧ owns i .collCleared = true := by
    rcases hi with rfl | rfl <;> exact ⟨rfl, rfl⟩
  refine .goesOn (exec_clearCollRead hi hs) nofun <| .goesOn (exec_clearCollWrite hi rfl) nofun <|
    .of_resume ?_ ho.2 nofun
  exact endsWithin_lastExchange (site := .request) hp nofun ho.1 rfl

/-- A selection passes three levels at most (R194). -/
theorem endsWithin_selectBegin {p : Params} (hi : i = .select ∨ i = .readCardSerial) (hp : p.wf = true)
    (hsp : s.params = p) (k : Nat) : EndsWithin i (3 * levelBound p + 1) (selectBegin k s) := by
  have hsak : SakEnds i p 1 (2 * levelBound p + 1) := sakEnds_levels hi hp rfl
  unfold selectBegin
  split
  · have hfirst := endsWithin_level (s := s.withSel (selectInit s.h.uidIn s.sel)) hi hp hsak hsp rfl k
      s.h.uidInSize.toNat
    exact hfirst.mono (by omega)
  · exact endsWithin_complete rfl (Nat.le_add_left _ _)

/-- The stated bound covers a selection, and so everything else. -/
theorem le_turnBound (p : Params) :
    3 * levelBound p + 1 ≤ turnBound p ∧ exchangeBound p + 2 * crcBound p + 6 ≤ turnBound p := by
  unfold turnBound levelBound exchangeBound crcBound
  omega

/-- Every operation ends within the stated bound. -/
theorem endsWithin_opening {p : Params} (hp : p.wf = true) (hsp : s.params = p) (i : Instr) :
    EndsWithin i (turnBound p) (opening i s) := by
  obtain ⟨hselect, hother⟩ := le_turnBound p
  have failed : ∀ {st}, EndsWithin i (turnBound p) (s.withSeq (.complete st)) :=
    endsWithin_complete rfl (by omega)
  cases i with
  | communicate =>
    change EndsWithin _ _ (communicateBegin s)
    unfold communicateBegin
    split
    · exact .mono (endsWithin_lastExchange (site := .host) hsp nofun rfl rfl) (by omega)
    · exact failed
  | select => exact (endsWithin_selectBegin (.inl rfl) hp hsp _).mono hselect
  | readCardSerial => exact (endsWithin_selectBegin (.inr rfl) hp hsp _).mono hselect
  | calcCrc =>
    change EndsWithin _ _ (calcCrcBegin s)
    unfold calcCrcBegin
    split
    · exact .mono (endsWithin_firstCrc (site := .calcCrc) hsp ⟨nofun, nofun⟩ rfl rfl) (by omega)
    · exact failed
  | requestOrWakeup => exact .mono (endsWithin_request (.inl rfl) hsp rfl) (by omega)
  | halt => exact .mono (endsWithin_firstCrc (site := .haltFrame) hsp ⟨nofun, nofun⟩ rfl rfl) (by omega)
  | authenticate =>
    change EndsWithin _ _ (authenticateBegin s)
    unfold authenticateBegin
    split
    · exact .mono (endsWithin_lastExchange (site := .authenticate) hsp nofun rfl rfl) (by omega)
    · exact failed
  | stopCrypto =>
    refine .mono (k := 3) ?_ (by omega)
    exact .goesOn (exec_clearCryptoRead rfl) nofun <| .goesOn (exec_clearCryptoWrite rfl) nofun <|
      endsWithin_complete rfl (Nat.le_refl 1)
  | readBlock =>
    change EndsWithin _ _ (readBlockBegin s)
    unfold readBlockBegin
    split
    · exact failed
    · split
      · exact failed
      · exact .mono (endsWithin_firstCrc (site := .readFrame) hsp ⟨nofun, nofun⟩ rfl rfl) (by omega)
  | isNewCardPresent =>
    refine .mono (k := exchangeBound p + crcBound p + 6) ?_ (by omega)
    exact .goesOn (exec_writeTxMode rfl) nofun <| .goesOn (exec_writeRxMode rfl) nofun <|
      .goesOn (exec_writeModWidth rfl) nofun <| endsWithin_request (.inr rfl) hsp rfl

/-- Settles O59: an operation by `endsWithin_opening`, a reserved code by its completion in the first step. -/
theorem everyOperationTerminates : Obligations.EveryOperationTerminates := by
  unfold Obligations.EveryOperationTerminates
  intro s hp hs
  have hrun : s.seq ≠ .idle := by rw [hs]; nofun
  show RestsWithin (turnBound s.params) s
  cases hd : decodeOp s.op with
  | some i => exact ((endsWithin_opening hp rfl i).of_exec_eq (exec_start hs)).rests hrun hd
  | none =>
    refine ⟨complete .invalidArgument s, ?_, rfl, rfl, rfl, Nat.le_add_right _ _⟩
    rw [turnBound, runSequencer, sequencerTurn_reserved hrun hd]
    exact runSequencer_idle rfl

end Sys2Proof.Machine
end

/-! PROOF. Reset (70_reset_and_hazards.md R320 to R322): what the registers and the resolver's buffers read as after the
reset input, and that the input abandons whatever was running. -/
section
namespace Sys2Proof.Machine

/-- A cleared buffer reads 0 at every index, also outside it. -/
@[simp] theorem Buf.get_replicate_zero (n i : Nat) : Buf.get (Vector.replicate n 0) i = 0 := by
  rw [Buf.get, Vector.getElem?_replicate]
  split <;> rfl

/-- Every host register reads 0x00 at reset (R21); CARD_TYPE by UID_SIZE = 0, whatever the table (R43). -/
@[simp] theorem readReg_reset (p : Params) (r : HostReg) : readReg p HostRegs.reset r = 0x00 := by
  cases r with
  | key i => exact Buf.get_replicate_zero 6 i
  | uid i => exact Buf.get_replicate_zero 10 i
  | uidIn i => exact Buf.get_replicate_zero 10 i
  | atqa i => exact ite_self _
  | op | ctrl | stat | status | pcdCmd | irqWait | framing | txLen | rxCap | rxLen | rxValidBits | knownBits
  | uidInSize | opt | blockAddr | authCmd | crcLo | crcHi | uidSize | sak | cardType | txbuf | rxbuf => rfl

/-- Settles O13: the step is `resetBlock` by `step_reset`, in which the registers read 0x00 by `readReg_reset`, the
buffers by `Buf.get_replicate_zero`, and every other value is the reset value by definition. -/
theorem resetAbandonsOperation : Obligations.ResetAbandonsOperation := by
  unfold Obligations.ResetAbandonsOperation
  intro s rest ha
  have registers : ∀ r, readReg s.params HostRegs.reset r = 0x00 := readReg_reset s.params
  have frame : ∀ i, Buf.get SelectState.reset.frame i = 0x00 := Buf.get_replicate_zero 9
  have uidWork : ∀ i, Buf.get SelectState.reset.uidWork i = 0x00 := Buf.get_replicate_zero 10
  exact ⟨resetBlock (s.withAgenda rest), step_reset ha, registers, rfl, rfl, rfl, rfl, rfl, frame, uidWork,
    rfl, rfl, rfl, rfl, rfl, rfl, rfl, rfl, rfl, rfl, rfl, rfl⟩

end Sys2Proof.Machine
end
